-- ==== Sys2Proof/Word.lean ====
section
/-! DEFINITION. The word, lane and byte types (R4, R275). -/

namespace Sys2Proof

/-- A 64-bit scalar value or virtual address. -/
abbrev Word := BitVec 64

/-- A 32-bit vector lane or FP32 pattern (R275). -/
abbrev Lane := BitVec 32

/-- One byte of memory. -/
abbrev Byte := BitVec 8

end Sys2Proof
end

