-- ==== Sys2Proof/Config.lean ====
section
/-! DEFINITION. What the manual leaves to the implementation or does not give: opaque constants with no body. -/

namespace Sys2Proof.Config

/-- The set of a line within its L2 slice. The manual gives no assignment and says that it has no visible effect (R67). -/
opaque l2Set : Nat → Nat

/-- The set of a line within the L1 data cache (R66), and of a 64 KiB granule within the second-level translation cache
(R30): the manual gives neither assignment. -/
opaque l1Set : Nat → Nat
opaque tlbSet : Nat → Nat

/-- The SM3 hash of a byte string (R426, R427): named by the manual and not described there. -/
opaque sm3 : List (BitVec 8) → BitVec 256

/-- SM2 verification of a signature over a digest under the root key held in mask ROM (R426, stage 1). -/
opaque sm2RootOk : BitVec 256 → List (BitVec 8) → Bool

/-- SM2 verification of an image signature under the owner key of a certificate (R426, stage 3). -/
opaque sm2OwnerOk : List (BitVec 8) → BitVec 256 → List (BitVec 8) → Bool

/-- The device identity public key derived at reset number n from the physically unclonable function (R428). -/
opaque identityKey : Nat → BitVec 512

/-- The SM2 signature of a report under the identity key of reset number n, for the k-th report (R428). -/
opaque sm2Sign : Nat → Nat → List (BitVec 8) → BitVec 512

/-- The fused security version of the package (R426). -/
opaque fusedVersion : Nat

/-- AUX of the fault of a parity error at a cycle: R423 gives it for a unit of memory, and a parity error has none (R425). -/
opaque parityAux : Nat → Nat

/-- Byte i of the context that the dispatcher saves, at a cycle: its layout is not architected, and no job sees it (R418). -/
opaque savedByte : Nat → Nat → BitVec 8

end Sys2Proof.Config
end

