-- ==== Sys2Proof/Machine/Cells.lean ====
section
/-! DEFINITION. Sparse tables in one canonical form: keys strictly rising, no entry equal to the value an unlisted key
reads as. Memory (R4), registers and counters are held so. -/

namespace Sys2Proof.Machine

/-- A sparse table from numbers to values. -/
abbrev Cells (α : Type) := List (Nat × α)

/-- The value at key a; d is what an unlisted key reads as. -/
def Cells.get {α : Type} (d : α) : Cells α → Nat → α
  | [], _ => d
  | (k, v) :: r, a => if a = k then v else if a < k then d else Cells.get d r a

/-- Writes v at key a, keeping the canonical form. -/
def Cells.set {α : Type} [DecidableEq α] (d : α) : Cells α → Nat → α → Cells α
  | [], a, v => if v = d then [] else [(a, v)]
  | (k, w) :: r, a, v =>
    if a < k then (if v = d then (k, w) :: r else (a, v) :: (k, w) :: r)
    else if a = k then (if v = d then r else (a, v) :: r)
    else (k, w) :: Cells.set d r a v

/-- Makes every key from lo to hi - 1 read as the default. -/
def Cells.clear {α : Type} (lo hi : Nat) (c : Cells α) : Cells α :=
  c.filter fun e => e.1 < lo || hi ≤ e.1

/-- Writes the values vs at keys a, a + 1, … -/
def Cells.setMany {α : Type} [DecidableEq α] (d : α) (c : Cells α) (a : Nat) : List α → Cells α
  | [] => c
  | v :: vs => Cells.setMany d (Cells.set d c a v) (a + 1) vs

/-- The values vs at keys a, a + 1, … as a table of their own. -/
def Cells.of {α : Type} [DecidableEq α] (d : α) : Nat → List α → Cells α
  | _, [] => []
  | a, v :: vs => if v = d then Cells.of d (a + 1) vs else (a, v) :: Cells.of d (a + 1) vs

/-- The keys from lo to hi - 1 read as those of another table, shifted up by lo. -/
def Cells.graft {α : Type} (c : Cells α) (lo hi : Nat) (mid : Cells α) : Cells α :=
  (c.filter fun e => decide (e.1 < lo)) ++ ((mid.filter fun e => decide (lo + e.1 < hi)).map fun e => (lo + e.1, e.2)) ++
    c.filter fun e => decide (hi ≤ e.1)

/-- The values at keys a, …, a + n - 1. -/
def Cells.getMany {α : Type} (d : α) (c : Cells α) (a n : Nat) : List α :=
  (List.range n).map fun i => Cells.get d c (a + i)

/-- The canonical form, as a check: keys strictly rising above lo, no default value listed. -/
def Cells.wfFrom {α : Type} [DecidableEq α] (d : α) : Nat → Cells α → Bool
  | _, [] => true
  | lo, (k, v) :: r => decide (lo ≤ k) && !decide (v = d) && Cells.wfFrom d (k + 1) r

/-- The canonical form of a whole table. -/
def Cells.wf {α : Type} [DecidableEq α] (d : α) (c : Cells α) : Bool := Cells.wfFrom d 0 c

/-- What an unlisted byte of memory reads as (L3: DESIGN CHOICE, unsafe). -/
def Memory.blank : Byte := 0

/-- Memory: the bytes of the physical address space (R15), each under its local address. -/
abbrev Memory := Cells Byte

def Memory.read (m : Memory) (a : Nat) : Byte := Cells.get Memory.blank m a
def Memory.write (m : Memory) (a : Nat) (b : Byte) : Memory := Cells.set Memory.blank m a b
def Memory.readMany (m : Memory) (a n : Nat) : List Byte := Cells.getMany Memory.blank m a n
def Memory.writeMany (m : Memory) (a : Nat) (bs : List Byte) : Memory := Cells.setMany Memory.blank m a bs
/-- The canonical form of memory. -/
def Memory.wf (m : Memory) : Bool := Cells.wf Memory.blank m

end Sys2Proof.Machine
end

