-- ==== Sys2Proof/Syntax.lean ====
section
/-! DEFINITION. Abstract syntax: operand types, and Instr, one constructor per row of spec/opcode_table.json. -/

namespace Sys2Proof

/-- The four engine streams of a job (R133): control, access, matrix, vector. -/
inductive StreamId where
  | C | A | M | V
  deriving DecidableEq, Repr, Inhabited

/-- The byte forms of R156 and R162 to R166: 2, 4, 6, 8 and 12 bytes. -/
inductive Form where
  | short | scalar | guarded | wide | literal
  deriving DecidableEq, Repr, Inhabited

/-- Guard field G (R160): the sense (true: written `(!pN)`) and the predicate it names. -/
structure Guard where
  neg : Bool
  p   : BitVec 4
  deriving DecidableEq, Repr, Inhabited

/-- What every internal word carries beside its operands (R159): the guard, and the byte form it came from. -/
structure Hdr where
  g    : Guard
  form : Form
  deriving DecidableEq, Repr, Inhabited

/-- Scalar register number s0 to s63 (R159). -/
abbrev SReg := BitVec 6
/-- Predicate number p0 to p15. -/
abbrev PReg := BitVec 4
/-- Loop register number lc0 to lc3. -/
abbrev LcReg := BitVec 2
/-- Vector register name v0 to v511. -/
abbrev VReg := BitVec 9
/-- Stream register number st0 to st31. -/
abbrev StReg := BitVec 5
/-- Accumulator number acc0 to acc7. -/
abbrev AccReg := BitVec 3
/-- Port slot number, 0 for no program (R159). -/
abbrev Slot := BitVec 5
/-- The 48-bit immediate of the S format. -/
abbrev Imm := BitVec 48
/-- A 256-bit digest, nonce or measurement (R427). -/
abbrev Digest := BitVec 256

/-- The memory field OSE: ordering, scope and eviction codes of R78 to R80. -/
structure Ose where
  ord : BitVec 2
  scp : BitVec 3
  ev  : BitVec 3
  deriving DecidableEq, Repr, Inhabited

/-- Access sizes of R205: 1, 2, 4 or 8 bytes. -/
inductive Size where
  | b1 | b2 | b4 | b8
  deriving DecidableEq, Repr, Inhabited

/-- Widths of EXT (R181). -/
inductive ExtWidth where
  | w8 | w16 | w32
  deriving DecidableEq, Repr, Inhabited

/-- Conditions of CMP (R185). -/
inductive Cond where
  | eq | ne | lt | ge | ltu | geu | bs | bc
  deriving DecidableEq, Repr, Inhabited

/-- Operations of PLOG (R187). -/
inductive PlogOp where
  | and | or | xor | andn | orn | not | set | clr
  deriving DecidableEq, Repr, Inhabited

/-- Operations of AMO (R209). -/
inductive AmoOp where
  | swap | add | and | or | xor | min | max | minu | maxu | fadd
  deriving DecidableEq, Repr, Inhabited

/-- Conditions of WAITF (R402). -/
inductive FlagCond where
  | eq | ne | geu | ge | bs
  deriving DecidableEq, Repr, Inhabited

/-- Conditions of VTEST (R284). -/
inductive VCond where
  | any | all | nan | none
  deriving DecidableEq, Repr, Inhabited

/-- Operations of VRED (R286). -/
inductive RedOp where
  | add | max | min
  deriving DecidableEq, Repr, Inhabited

/-- Clear codes of VDRAIN (R286). -/
inductive DrainClear where
  | keep | cp | cn | ci
  deriving DecidableEq, Repr, Inhabited

/-- Queue objects of QPUSH, QPOP and QDROP (R228): aq0 to aq3, or bq. -/
inductive QName where
  | aq (n : BitVec 2)
  | bq
  deriving DecidableEq, Repr, Inhabited

/-- The shared engines of a core that are granted (R154, R254, R270, R287, R306): the matrix array, the stationary load
path, the vector unit, the reduction slot, the row-statistics engine. -/
inductive Engine where
  | matrix | load | vector | reduce | rowstat
  deriving DecidableEq, Repr, Inhabited

/-- What an agent outside the jobs asks of memory (R104). -/
inductive OutOp where
  | load
  | store (v : Word)
  | amo (op : AmoOp) (v : Word)
  | cas (expect v : Word)
  /-- A read and a write of so many bytes, up to 256 (R434). -/
  | loadN (n : Nat)
  | storeN (bs : List (BitVec 8))
  deriving DecidableEq, Repr, Inhabited

/-- An access of an agent outside the jobs: its physical address, size, operation, world, and ASID (R20, R27, R104); and the
UALink station that brings a peer's access (R429, R434). -/
structure OutReq where
  pa   : Nat
  size : Size
  op   : OutOp
  sec  : Bool
  asid : BitVec 16
  station : Nat
  deriving DecidableEq, Repr, Inhabited

/-- Where the dispatcher places a job (R145, R412, R413): die, core of the die, context slot, window base in 64 KiB
units, and the JOBID.NUM it gives. The choice is not architected, so it is a parameter of the event. -/
structure Place where
  die  : Nat
  core : Nat
  slot : Nat
  base : Nat
  num  : Nat
  deriving DecidableEq, Repr, Inhabited

/-- A boot image with its certificate and signature as fetched (R426), and what secure firmware then writes. -/
structure BootImage where
  cert    : List Byte
  certSig : List Byte
  image   : List Byte
  sig     : List Byte
  version : Nat
  worlds  : List Byte
  dtree   : List Byte
  pod     : BitVec 11
  pos     : BitVec 10
  map     : List Word
  /-- Stage 2 obtained an address and fetched an image. -/
  fetched : Bool
  deriving DecidableEq, Repr, Inhabited

/-- A block that gates its power (R431). -/
inductive Block where
  | core (k : Nat) | cluster (k : Nat) | slice (k : Nat) | channel (k : Nat) | link (k : Nat)
  deriving DecidableEq, Repr, Inhabited

/-- A DCMD command (R437): the die whose register is written, the SMASK, CORE and NUM fields, the world of the service
core that writes, and whether the reserved field is zero. -/
structure DbgReq where
  die   : Nat
  smask : BitVec 4
  core  : BitVec 5
  num   : BitVec 16
  sec   : Bool
  rsvd  : BitVec 35
  deriving DecidableEq, Repr, Inhabited

/-- Registers of the hub and dies whose writes have no row of their own (R7). -/
inductive RegName where
  | mapq | mapdone | mapstat
  | sfring (die : Nat) | sfcnt (die : Nat) | jcmd (die : Nat) | jstat (die : Nat)
  | dcmd (die : Nat) | dcyc (die : Nat) | dstat (die : Nat) | dsel (die : Nat)
  | wlring (die : Nat) | wlptr (die : Nat) | wlcfg (die : Nat) | ddump (die : Nat)
  | wp (die : Nat) (n : Nat) | whit (die : Nat) (n : Nat)
  | bar2 (n : Nat)
  /-- The 8 bytes of the mailbox registers of BAR0 at 8 n (R433). -/
  | mailbox (n : Nat)
  deriving DecidableEq, Repr, Inhabited

/-- One constructor per row of the table of operations and events (spec/opcode_table.json). Instructions carry their
header (guard and byte form) and their fields as the entry names them; events carry what selects them. -/
inductive Instr where
  /-- ADD (R179): Writes sA + sB to sD, wrapping modulo 2^64. -/
  | add (h : Hdr) (d : SReg) (a : SReg) (b : SReg)
  /-- SUB (R179): Writes sA - sB to sD. -/
  | sub (h : Hdr) (d : SReg) (a : SReg) (b : SReg)
  /-- MUL (R179): Writes bits 63:0 of sA x sB to sD. -/
  | mul (h : Hdr) (d : SReg) (a : SReg) (b : SReg)
  /-- MULH (R179): Writes bits 127:64 of the exact signed or unsigned product to sD. -/
  | mulh (h : Hdr) (u : Bool) (d : SReg) (a : SReg) (b : SReg)
  /-- DIV (R180): Writes the quotient rounded toward zero, with fixed results for division by zero and overflow. -/
  | div (h : Hdr) (u : Bool) (d : SReg) (a : SReg) (b : SReg)
  /-- REM (R180): Writes the remainder a - b x DIV(a, b), with fixed special results. -/
  | rem (h : Hdr) (u : Bool) (d : SReg) (a : SReg) (b : SReg)
  /-- AND (R179): Writes sA and sB to sD. -/
  | and (h : Hdr) (d : SReg) (a : SReg) (b : SReg)
  /-- OR (R179): Writes sA or sB to sD. -/
  | or (h : Hdr) (d : SReg) (a : SReg) (b : SReg)
  /-- XOR (R179): Writes sA xor sB to sD. -/
  | xor (h : Hdr) (d : SReg) (a : SReg) (b : SReg)
  /-- ANDN (R179): Writes sA and not sB to sD. -/
  | andn (h : Hdr) (d : SReg) (a : SReg) (b : SReg)
  /-- SHL (R179): Shifts sA left by sB[5:0]. -/
  | shl (h : Hdr) (d : SReg) (a : SReg) (b : SReg)
  /-- SHR (R179): Shifts sA right by sB[5:0], filling with zeros. -/
  | shr (h : Hdr) (d : SReg) (a : SReg) (b : SReg)
  /-- SAR (R179): Shifts sA right by sB[5:0], filling with the sign bit. -/
  | sar (h : Hdr) (d : SReg) (a : SReg) (b : SReg)
  /-- MIN (R179): Writes the smaller of sA and sB, signed or unsigned. -/
  | min (h : Hdr) (u : Bool) (d : SReg) (a : SReg) (b : SReg)
  /-- MAX (R179): Writes the larger of sA and sB, signed or unsigned. -/
  | max (h : Hdr) (u : Bool) (d : SReg) (a : SReg) (b : SReg)
  /-- ADD_IMM (R179): Writes sA plus the sign-extended immediate to sD. -/
  | addImm (h : Hdr) (d : SReg) (a : SReg) (imm : Imm)
  /-- SUB_IMM (R179): Writes sA minus the sign-extended immediate to sD. -/
  | subImm (h : Hdr) (d : SReg) (a : SReg) (imm : Imm)
  /-- MUL_IMM (R179): Writes the low 64 bits of sA times the immediate. -/
  | mulImm (h : Hdr) (d : SReg) (a : SReg) (imm : Imm)
  /-- MULH_IMM (R179): Writes the high 64 bits of sA times the immediate. -/
  | mulhImm (h : Hdr) (u : Bool) (d : SReg) (a : SReg) (imm : Imm)
  /-- DIV_IMM (R180): Divides sA by the immediate, with the special results of R180. -/
  | divImm (h : Hdr) (u : Bool) (d : SReg) (a : SReg) (imm : Imm)
  /-- REM_IMM (R180): Writes the remainder of sA by the immediate. -/
  | remImm (h : Hdr) (u : Bool) (d : SReg) (a : SReg) (imm : Imm)
  /-- AND_IMM (R179): Writes sA and the immediate. -/
  | andImm (h : Hdr) (d : SReg) (a : SReg) (imm : Imm)
  /-- OR_IMM (R179): Writes sA or the immediate. -/
  | orImm (h : Hdr) (d : SReg) (a : SReg) (imm : Imm)
  /-- XOR_IMM (R179): Writes sA xor the immediate. -/
  | xorImm (h : Hdr) (d : SReg) (a : SReg) (imm : Imm)
  /-- ANDN_IMM (R179): Writes sA and not the immediate. -/
  | andnImm (h : Hdr) (d : SReg) (a : SReg) (imm : Imm)
  /-- SHL_IMM (R179): Shifts sA left by an immediate of 0 to 63. -/
  | shlImm (h : Hdr) (d : SReg) (a : SReg) (imm : Imm)
  /-- SHR_IMM (R179): Shifts sA right logically by an immediate of 0 to 63. -/
  | shrImm (h : Hdr) (d : SReg) (a : SReg) (imm : Imm)
  /-- SAR_IMM (R179): Shifts sA right arithmetically by an immediate of 0 to 63. -/
  | sarImm (h : Hdr) (d : SReg) (a : SReg) (imm : Imm)
  /-- MIN_IMM (R179): Writes the smaller of sA and the immediate. -/
  | minImm (h : Hdr) (u : Bool) (d : SReg) (a : SReg) (imm : Imm)
  /-- MAX_IMM (R179): Writes the larger of sA and the immediate. -/
  | maxImm (h : Hdr) (u : Bool) (d : SReg) (a : SReg) (imm : Imm)
  /-- CLZ (R181): Writes the count of leading zero bits of sA. -/
  | clz (h : Hdr) (d : SReg) (a : SReg)
  /-- POPC (R181): Writes the count of one bits of sA. -/
  | popc (h : Hdr) (d : SReg) (a : SReg)
  /-- EXT (R181): Zero- or sign-extends the low 8, 16 or 32 bits of sA. -/
  | ext (h : Hdr) (signed : Bool) (w : ExtWidth) (d : SReg) (a : SReg)
  /-- BFX (R182): Extracts bits hi:lo of sA, zero- or sign-extended. -/
  | bfx (h : Hdr) (signed : Bool) (d : SReg) (a : SReg) (hi : BitVec 6) (lo : BitVec 6)
  /-- BFI (R182): Inserts the low bits of sA into sD[hi:lo]. -/
  | bfi (h : Hdr) (d : SReg) (a : SReg) (hi : BitVec 6) (lo : BitVec 6)
  /-- LEA (R183): Computes sA + (sB << scale) + imm without access or check. -/
  | lea (h : Hdr) (sc : BitVec 2) (d : SReg) (a : SReg) (b : SReg) (imm : Imm)
  /-- MOV (R184): Copies sA to sD. -/
  | mov (h : Hdr) (d : SReg) (a : SReg)
  /-- MOV_FROM_LC (R184): Copies loop register lcN to sD. -/
  | movFromLc (h : Hdr) (d : SReg) (n : LcReg)
  /-- MOV_TO_LC (R184): Writes sA to loop register lcN, taking effect at the loop's next end check. -/
  | movToLc (h : Hdr) (n : LcReg) (a : SReg)
  /-- MOVI (R184): Writes the sign-extended immediate to sD. -/
  | movi (h : Hdr) (d : SReg) (imm : Imm)
  /-- MOVI_H (R184): Writes a 16-bit immediate into sD[63:48], leaving the rest. -/
  | moviH (h : Hdr) (d : SReg) (imm : BitVec 16)
  /-- CMP (R185): Writes the truth of a condition between sA and sB to a predicate. -/
  | cmp (h : Hdr) (cc : Cond) (d : PReg) (a : SReg) (b : SReg)
  /-- CMP_IMM (R185): Writes the truth of a condition between sA and the immediate to a predicate. -/
  | cmpImm (h : Hdr) (cc : Cond) (d : PReg) (a : SReg) (imm : Imm)
  /-- SEL (R186): Writes sA when pN is true, else sB. -/
  | sel (h : Hdr) (n : PReg) (d : SReg) (a : SReg) (b : SReg)
  /-- PLOG (R187): Writes a logical combination of two predicates to a predicate. -/
  | plog (h : Hdr) (op : PlogOp) (d : PReg) (a : PReg) (b : PReg)
  /-- BR (R189): Jumps to a program-counter-relative label, conditionally under its guard. -/
  | br (h : Hdr) (imm : Imm)
  /-- BR_Q (R189): Pops the head of bq on the C stream and jumps when it is 1. -/
  | brQ (h : Hdr) (imm : Imm)
  /-- JMP (R189): Jumps to sA plus an offset. -/
  | jmp (h : Hdr) (a : SReg) (imm : Imm)
  /-- CALL (R189): Writes the return address to the link register and jumps to a label. -/
  | call (h : Hdr) (d : SReg) (imm : Imm)
  /-- CALL_R (R189): Writes the return address to the link register and jumps to a register target. -/
  | callR (h : Hdr) (d : SReg) (a : SReg) (imm : Imm)
  /-- RET (R189): Jumps to sA, or to s63. -/
  | ret (h : Hdr) (a : SReg)
  /-- NOP (R189): Does nothing. -/
  | nop (h : Hdr)
  /-- LOOP (R191): Begins a hardware loop on lcN with a trip count from sA, or skips the body when the count is 0. -/
  | loop (h : Hdr) (n : LcReg) (a : SReg) (imm : Imm)
  /-- LOOPP (R191): Begins a software-pipelined loop with stage predicates p8 to p15. -/
  | loopp (h : Hdr) (n : LcReg) (a : SReg) (stages : BitVec 3) (imm : Imm)
  /-- LD (R206): Loads 1 to 8 bytes at ea into sD, zero- or sign-extended, under its ordering, scope and priority. -/
  | ld (h : Hdr) (size : Size) (signed : Bool) (d : SReg) (a : SReg) (ose : Ose) (imm : Imm)
  /-- ST (R207): Stores the low bytes of sB at ea; a 64-bit store at a copy aperture starts a copy. -/
  | st (h : Hdr) (size : Size) (a : SReg) (b : SReg) (ose : Ose) (imm : Imm)
  /-- AMO (R209): Performs an atomic read-modify-write at the home and returns the old value. -/
  | amo (h : Hdr) (op : AmoOp) (size : Size) (d : SReg) (a : SReg) (b : SReg) (ose : Ose)
  /-- CAS (R210): Compares and swaps at the home, returning the old value. -/
  | cas (h : Hdr) (size : Size) (d : SReg) (a : SReg) (b : SReg) (ose : Ose)
  /-- FENCE (R98): Holds later accesses of the stream until earlier ones are performed, at its scope. -/
  | fence (h : Hdr) (scp : BitVec 3)
  /-- PREF (R213): Asks for a line to be brought into L2 and optionally L1, or is dropped. -/
  | pref (h : Hdr) (l2 : Bool) (a : SReg) (ev : BitVec 3) (imm : Imm)
  /-- WBACK (R214): Writes dirty L2 data of a line to LPDDR6, optionally lowering its priority. -/
  | wback (h : Hdr) (drop : Bool) (a : SReg) (imm : Imm)
  /-- SMAP (R215): Maps stash window n over a global range, with every line invalid. -/
  | smap (h : Hdr) (n : BitVec 3) (a : SReg) (b : SReg)
  /-- SUNMAP (R216): Writes back dirty lines of window n and invalidates its descriptor. -/
  | sunmap (h : Hdr) (n : BitVec 3)
  /-- SFLUSH (R216): Writes back the dirty lines of the windows in its mask. -/
  | sflush (h : Hdr) (mask : BitVec 8)
  /-- QPUSH (R229): Adds sA to the tail of an aq or bq, holding while full. -/
  | qpush (h : Hdr) (q : QName) (a : SReg)
  /-- QPUSH_P (R229): Adds the value of a predicate to bq. -/
  | qpushP (h : Hdr) (n : PReg)
  /-- QPOP (R229): Takes the head entry of a queue into sD, holding while empty. -/
  | qpop (h : Hdr) (d : SReg) (q : QName)
  /-- QDROP (R230): Takes and discards the next sA entries of a queue, waiting for each. -/
  | qdrop (h : Hdr) (q : QName) (a : SReg)
  /-- TKSEND (R231): Adds a token to a token FIFO. -/
  | tksend (h : Hdr) (n : BitVec 3)
  /-- TKWAIT (R231): Takes a token from a token FIFO, waiting while empty. -/
  | tkwait (h : Hdr) (n : BitVec 3)
  /-- BAR (R398): Arrives at a barrier level and waits for that phase to complete. -/
  | bar (h : Hdr) (k : BitVec 3)
  /-- BARA (R398): Fences, arrives at a barrier level and returns the phase. -/
  | bara (h : Hdr) (d : SReg) (k : BitVec 3)
  /-- BARW (R398): Waits until a barrier's phase differs from sA, then fences. -/
  | barw (h : Hdr) (k : BitVec 3) (a : SReg)
  /-- JOIN (R406): Fences at job scope and ends the stream, possibly completing a barrier arrival. -/
  | join (h : Hdr)
  /-- SETF (R401): Fences and then stores a value to a 64-bit flag word. -/
  | setf (h : Hdr) (a : SReg) (b : SReg) (scp : BitVec 3) (ev : BitVec 3) (imm : Imm)
  /-- SETF_ADD (R401): Fences and then atomically adds a value to a 64-bit flag word. -/
  | setfAdd (h : Hdr) (a : SReg) (b : SReg) (scp : BitVec 3) (ev : BitVec 3) (imm : Imm)
  /-- WAITF (R402): Waits with prompt loads until a flag word meets a condition. -/
  | waitf (h : Hdr) (cc : FlagCond) (d : SReg) (a : SReg) (b : SReg) (scp : BitVec 3) (ev : BitVec 3) (imm : Imm)
  /-- SEMSET (R390): Sets a semaphore's ceiling and count. -/
  | semset (h : Hdr) (n : BitVec 4) (a : SReg)
  /-- SEMACQ (R391): Takes k units of a semaphore, waiting in order. -/
  | semacq (h : Hdr) (n : BitVec 4) (k : BitVec 4)
  /-- SEMREL (R392): Gives back k units of a semaphore, faulting past its ceiling. -/
  | semrel (h : Hdr) (n : BitVec 4) (k : BitVec 4)
  /-- TLWAIT (R404): Waits until a timeline's completed count reaches n. -/
  | tlwait (h : Hdr) (t : BitVec 3) (a : SReg) (imm : BitVec 45)
  /-- TLGET (R405): Writes a timeline's completed count to sD. -/
  | tlget (h : Hdr) (d : SReg) (t : BitVec 3)
  /-- TLGET_I (R405): Writes a timeline's issued count to sD. -/
  | tlgetI (h : Hdr) (d : SReg) (t : BitVec 3)
  /-- VLD (R279): Loads rows of a stream into vector registers with conversion. -/
  | vld (h : Hdr) (d : VReg) (st : StReg) (ss : SReg) (px : Slot)
  /-- VST (R280): Stores vector registers to a stream with conversion. -/
  | vst (h : Hdr) (st : StReg) (s : VReg) (ss : SReg) (pz : Slot)
  /-- VMOV (R282): Moves n registers through optional X, Y and Z ports. -/
  | vmov (h : Hdr) (t2 : Bool) (d : VReg) (s : VReg) (t : VReg) (n : BitVec 6) (px : Slot) (py : Slot) (pz : Slot)
  /-- VSPLAT (R283): Writes sS[31:0] to every lane of a register. -/
  | vsplat (h : Hdr) (d : VReg) (ss : SReg)
  /-- VPERM (R283): Permutes the lanes of vS by the indices in vT. -/
  | vperm (h : Hdr) (d : VReg) (s : VReg) (t : VReg)
  /-- VIDX (R283): Writes an arithmetic sequence to the lanes of a register. -/
  | vidx (h : Hdr) (d : VReg) (ss : SReg) (step : BitVec 21)
  /-- VGET (R283): Reads one lane into a scalar register. -/
  | vget (h : Hdr) (signed : Bool) (ss : SReg) (s : VReg) (lane : BitVec 6)
  /-- VPUT (R283): Writes one lane from a scalar register. -/
  | vput (h : Hdr) (d : VReg) (lane : BitVec 6) (ss : SReg)
  /-- VTEST (R284): Writes a predicate from a test of the lanes of vS. -/
  | vtest (h : Hdr) (cc : VCond) (n : PReg) (s : VReg)
  /-- VRED (R286): Pushes n registers into a reduction latch. -/
  | vred (h : Hdr) (op : RedOp) (x : Bool) (q : BitVec 2) (s : VReg) (n : BitVec 6)
  /-- VRED_STREAM (R286): Pushes the rows of a stream, through IN, into a reduction latch. -/
  | vredStream (h : Hdr) (op : RedOp) (x : Bool) (q : BitVec 2) (st : StReg) (px : Slot)
  /-- VDRAIN (R286): Writes a latch to a register and optionally clears it. -/
  | vdrain (h : Hdr) (clr : DrainClear) (d : VReg) (q : BitVec 2)
  /-- VROW (R268): Writes per-row maximum, sum and sum of squares of an accumulator to three registers. -/
  | vrow (h : Hdr) (abs : Bool) (d : VReg) (s : AccReg) (nc : BitVec 7)
  /-- VRBASE (R283): Sets the rotating register region and clears its rotation. -/
  | vrbase (h : Hdr) (base : BitVec 9) (size : BitVec 10)
  /-- MLDS (R261): Loads the job's stationary image from a stream through port B. -/
  | mlds (h : Hdr) (b : StReg) (pb : Slot)
  /-- MLDS_K (R338): Asks for a keyed stationary load that may share a key-table image. -/
  | mldsK (h : Hdr) (b : StReg) (pb : Slot)
  /-- MMUL (R262): Multiplies moving rows by the bound stationary into an accumulator. -/
  | mmul (h : Hdr) (z : Bool) (d : AccReg) (r0 : BitVec 6) (a : StReg) (pa : Slot)
  /-- MMUL_AM (R262): Multiplies rows of an accumulator in FP32 moving mode into another. -/
  | mmulAm (h : Hdr) (z : Bool) (d : AccReg) (r0 : BitVec 6) (s : AccReg) (m : BitVec 7)
  /-- MMULG (R263): Runs grouped multiplies, each group with its own stationary tile. -/
  | mmulg (h : Hdr) (z : Bool) (d : AccReg) (a : StReg) (b : StReg) (ss : SReg) (g : BitVec 9) (pa : Slot) (pb : Slot)
  /-- MDIST (R264): Adds squared distances of moving rows to stationary columns. -/
  | mdist (h : Hdr) (z : Bool) (d : AccReg) (r0 : BitVec 6) (a : StReg) (pa : Slot)
  /-- MTOPK (R265): Selects the k smallest or largest entries of each accumulator row into registers. -/
  | mtopk (h : Hdr) (l : Bool) (d : VReg) (s : AccReg) (ss : SReg) (k : BitVec 5) (nc : BitVec 7)
  /-- MZERO (R266): Writes +0 to every element of an accumulator. -/
  | mzero (h : Hdr) (d : AccReg)
  /-- MST (R267): Writes accumulator rows through port C to a stream with conversion. -/
  | mst (h : Hdr) (c : StReg) (s : AccReg) (r0 : BitVec 6) (pc : Slot)
  /-- MLDA (R267): Loads accumulator rows from a stream with decoding. -/
  | mlda (h : Hdr) (d : AccReg) (r0 : BitVec 6) (a : StReg)
  /-- MPUB (R320): Publishes an accumulator as provisional with n contributions to come. -/
  | mpub (h : Hdr) (d : AccReg) (n : BitVec 4)
  /-- SETTLE (R333): Closes and waits for the lineages of the accumulators in its mask. -/
  | settle (h : Hdr) (mask : BitVec 8)
  /-- SETTLE_ALL (R333): Closes and waits for every lineage of the job. -/
  | settleAll (h : Hdr)
  /-- LQRY (R334): Reads the lineage state of an accumulator. -/
  | lqry (h : Hdr) (ss : SReg) (s : AccReg)
  /-- LQRY_T (R334): Reads the state of lineage tag t. -/
  | lqryT (h : Hdr) (ss : SReg) (t : BitVec 4)
  /-- LQRY_R (R334): Reads the free tiles, tags and recorded images. -/
  | lqryR (h : Hdr) (ss : SReg)
  /-- PLOAD (R309): Reads, checks and installs a port program image, writing a status. -/
  | pload (h : Hdr) (d : SReg) (n : Slot) (a : SReg) (imm : Imm)
  /-- PSGET (R310): Reads an item of a port slot's state. -/
  | psget (h : Hdr) (d : SReg) (n : Slot) (i : BitVec 12)
  /-- PSSET (R310): Writes an item of a port slot's state. -/
  | psset (h : Hdr) (n : Slot) (i : BitVec 12) (a : SReg)
  /-- PRESET (R311): Clears a slot's carried state, window and counters. -/
  | preset (h : Hdr) (n : Slot)
  /-- PINFO (R312): Reads a description of the slot's installed program. -/
  | pinfo (h : Hdr) (d : SReg) (n : Slot)
  /-- STSET (R223): Writes one word of a stream register. -/
  | stset (h : Hdr) (n : StReg) (w : BitVec 3) (a : SReg)
  /-- STGET (R223): Reads one word of a stream register. -/
  | stget (h : Hdr) (d : SReg) (n : StReg) (w : BitVec 3)
  /-- STLD (R224): Loads all eight words of a stream register from memory. -/
  | stld (h : Hdr) (n : StReg) (a : SReg) (imm : Imm)
  /-- STADV (R225): Moves a stream register's origin along one dimension. -/
  | stadv (h : Hdr) (n : StReg) (dim : BitVec 2) (a : SReg)
  /-- CPY (R365): Starts a copy on channel n with a command word. -/
  | cpy (h : Hdr) (n : BitVec 2) (a : SReg)
  /-- RENQ (R384): Pushes a command block into another job's inbound queue. -/
  | renq (h : Hdr) (d : SReg) (a : SReg) (b : SReg)
  /-- CSTAT (R383): Reads the status of a copy or inbound operation. -/
  | cstat (h : Hdr) (d : SReg) (c : BitVec 3) (a : SReg)
  /-- SRD (R194): Reads a system register into sD. -/
  | srd (h : Hdr) (d : SReg) (r : BitVec 12)
  /-- SWR (R194): Writes the RW fields of a system register from the C stream. -/
  | swr (h : Hdr) (r : BitVec 12) (a : SReg)
  /-- CRANGE_WRITE (R119): After earlier copies of the channel complete, writes CRANGEn and resets the tide. -/
  | crangeWrite (h : Hdr) (n : BitVec 2) (a : SReg)
  /-- LFSR_SEED (R357): After earlier copies of the channel complete, seeds the channel's 64 lane shift registers. -/
  | lfsrSeed (h : Hdr) (n : BitVec 2) (a : SReg)
  /-- TRAP (R199): Raises a trap fault with a 16-bit code. -/
  | trap (h : Hdr) (code : BitVec 16)
  /-- BRK (R199): Halts the stream when debug is enabled, else raises a breakpoint fault. -/
  | brk (h : Hdr) (code : BitVec 16)
  /-- ISYNC (R129): Fences at package scope and invalidates the stream's instruction memory. -/
  | isync (h : Hdr)
  /-- ERET (R200): Ends a user trap, restores loop frames, releases the faulted stream and returns C. -/
  | eret (h : Hdr)
  /-- LAUNCH (R203): Fences, reads a launch record and enqueues it, writing a reason code. -/
  | launch (h : Hdr) (d : SReg) (a : SReg) (b : SReg)
  /-- SLICEOF (R217): Writes the home of an address without accessing it. -/
  | sliceof (h : Hdr) (d : SReg) (a : SReg) (imm : Imm)
  /-- NOP_SHORT (R162): Short form of NOP. -/
  | nopShort
  /-- MOV_SHORT (R162): Short form of MOV between s0 and s31. -/
  | movShort (d : BitVec 5) (a : BitVec 5)
  /-- ADD_SHORT (R162): Short form of ADD sD, sD, sA. -/
  | addShort (d : BitVec 5) (a : BitVec 5)
  /-- SUB_SHORT (R162): Short form of SUB sD, sD, sA. -/
  | subShort (d : BitVec 5) (a : BitVec 5)
  /-- AND_SHORT (R162): Short form of AND sD, sD, sA. -/
  | andShort (d : BitVec 5) (a : BitVec 5)
  /-- OR_SHORT (R162): Short form of OR sD, sD, sA. -/
  | orShort (d : BitVec 5) (a : BitVec 5)
  /-- XOR_SHORT (R162): Short form of XOR sD, sD, sA. -/
  | xorShort (d : BitVec 5) (a : BitVec 5)
  /-- SHL_SHORT (R162): Short form of SHL sD, sD, sA. -/
  | shlShort (d : BitVec 5) (a : BitVec 5)
  /-- SHR_SHORT (R162): Short form of SHR sD, sD, sA. -/
  | shrShort (d : BitVec 5) (a : BitVec 5)
  /-- SAR_SHORT (R162): Short form of SAR sD, sD, sA. -/
  | sarShort (d : BitVec 5) (a : BitVec 5)
  /-- ADD_IMM_SHORT (R162): Short form of ADD sD, sD, imm with imm from -16 to 15. -/
  | addImmShort (d : BitVec 5) (i : BitVec 5)
  /-- MOVI_SHORT (R162): Short form of MOVI with imm from -16 to 15. -/
  | moviShort (d : BitVec 5) (i : BitVec 5)
  /-- JOIN_SHORT (R162): Short form of JOIN. -/
  | joinShort
  /-- RET_SHORT (R162): Short form of RET through s63. -/
  | retShort
  /-- INSTRUCTION_FILL (R169): Reads a 256-byte unit of code and expands it into internal words. -/
  | instructionFill (num : Nat) (x : StreamId)
  /-- WALK_START (R32): A walker starts a queued page-table walk, merged across requesters. -/
  | walkStart (die : Nat) (i : Nat)
  /-- WALK_REQUEST_AGED (R32): A walk request that has waited 4,096 cycles is moved ahead of the others. -/
  | walkRequestAged (die : Nat) (i : Nat)
  /-- MAP_WRITE_ENTRY (R38): A write-entry command places markers in the queues of every matching job. -/
  | mapWriteEntry
  /-- MAP_MARKERS_AT_HEAD (R38): Once every marker reaches its head, the hub stores the entry and purges translations. -/
  | mapMarkersAtHead
  /-- MAP_COMMAND_DONE (R38): Once old translations are no longer in use, MAPDONE rises and markers are released. -/
  | mapCommandDone
  /-- MAP_FLUSH_ASID (R40): Removes every cached translation of an ASID and world, or is rejected. -/
  | mapFlushAsid
  /-- STASH_FILL (R54): The first touch of an invalid stash line fetches it from its home and marks it clean. -/
  | stashFill (num : Nat) (w : Nat) (line : Nat)
  /-- STASH_RECALL (R57): A request from elsewhere makes the home recall a dirty stash line. -/
  | stashRecall (num : Nat) (w : Nat) (line : Nat)
  /-- LEASE_LAPSE (R95): A held copy lapses when the core's clock passes its lease end. -/
  | leaseLapse (core : Nat) (i : Nat)
  /-- EXTERNAL_SCRATCH_ACCESS (R51): An access from outside the core reaches a scratchpad under the owner check. -/
  | externalScratchAccess (r : OutReq)
  /-- SERVICE_CORE_ACCESS (R104): A service core access takes part at package scope. -/
  | serviceCoreAccess (r : OutReq)
  /-- HOST_ACCESS (R433): A host read or write through BAR2 reaches package memory at system scope. -/
  | hostAccess (off : Nat) (r : OutReq)
  /-- FABRIC_PEER_ACCESS (R19): A peer package's fabric-window access is served at system scope. -/
  | fabricPeerAccess (r : OutReq)
  /-- WEIR_ENTRY_PROCEED (R113): A Weir entry makes its access once earlier overlapping entries have made theirs. -/
  | weirEntryProceed (num : Nat) (e : Nat)
  /-- TIDE_STALL_RELEASE (R121): An access stalled on a tide proceeds once the tide passes its byte. -/
  | tideStallRelease (num : Nat) (e : Nat)
  /-- ENGINE_GRANT (R154): A shared engine is granted to a waiting operation by class and rotation. -/
  | engineGrant (core : Nat) (u : Engine)
  /-- ENGINE_AGING (R154): An instruction that has waited 4,096 cycles for an engine becomes aged. -/
  | engineAging (num : Nat) (e : Nat)
  /-- ENGINE_OPERATION_COMPLETE (R107): An engine operation completes and its timeline's completed count may advance. -/
  | engineOperationComplete (num : Nat) (e : Nat)
  /-- COPY_START (R380): The next copy of a channel starts once the one before it is complete. -/
  | copyStart (num : Nat) (c : Nat)
  /-- COPY_TEMPLATE_ELEMENT (R376): A copy carries out one template element, reading its sources before writing. -/
  | copyTemplateElement (num : Nat) (c : Nat)
  /-- COPY_COMPLETE (R379): After every access of a copy, its semaphore release and flag set run. -/
  | copyComplete (num : Nat) (c : Nat)
  /-- INBOUND_COMMAND_TAKE (R387): The copy engine takes the next command from the inbound queue head. -/
  | inboundCommandTake (num : Nat)
  /-- RENQ_PUSH_ACCEPT (R126): A waiting remote push takes a place in the target's queue and copies the block. -/
  | renqPushAccept (num : Nat) (x : StreamId)
  /-- REDUCTION_APPLY (R286): A reduction push is applied to its latch 12 cycles after it was made. -/
  | reductionApply (num : Nat)
  /-- CONTRIBUTION_ADD (R322): A contribution's delta is added to the source in contribution order. -/
  | contributionAdd (num : Nat) (t : Nat)
  /-- CORRECTION_APPLY (R327): A correction is computed and added to each target of a lineage. -/
  | correctionApply (num : Nat) (t : Nat)
  /-- LINEAGE_SETTLE (R331): A lineage settles, clearing marks and releasing waiting consumers. -/
  | lineageSettle (num : Nat) (t : Nat)
  /-- BASIN_HOLD_EXPIRY (R342): A Basin entry is triggered when its hold time runs out. -/
  | basinHoldExpiry (core : Nat) (i : Nat)
  /-- USER_TRAP_ENTRY (R198): A user-recoverable fault holds its stream and sends the C stream to TRAPV. -/
  | userTrapEntry (num : Nat)
  /-- BARRIER_RECHECK (R397): A barrier waiter reloads the phase after a store or 65,536 cycles. -/
  | barrierRecheck (num : Nat) (x : StreamId)
  /-- WAITF_RECHECK (R402): A WAITF reloads its flag after a store or 65,536 cycles. -/
  | waitfRecheck (num : Nat) (x : StreamId)
  /-- JOB_RETIRE (R150): A job whose streams all reached JOIN retires in order and frees its slot. -/
  | jobRetire (num : Nat)
  /-- DISPATCHER_ADMIT (R411): The dispatcher admits a queue head or saved job that fits. -/
  | dispatcherAdmit (die : Nat) (q : Nat) (p : Place)
  /-- GANG_ADMIT (R146): A gang's share is admitted whole once it can all be placed. -/
  | gangAdmit (die : Nat) (q : Nat) (ps : List Place)
  /-- HEAD_AGED (R411): A head waiting 2^22 cycles is treated as class 3 and reserves cores. -/
  | headAged (die : Nat) (q : Nat) (cores : List Nat)
  /-- RESERVATION_PREEMPT (R411): A head not admitted 2^24 cycles after reservation causes pre-emption. -/
  | reservationPreempt (die : Nat) (q : Nat)
  /-- PREEMPT (R417): A job is stopped, fenced and saved, and its slot freed. -/
  | preempt (num : Nat) (win : Bool)
  /-- READMIT (R420): A saved job is made resident again and restored. -/
  | readmit (num : Nat) (p : Place)
  /-- JCMD_RESUME (R424): Resumes a job's held fault at its restart point. -/
  | jcmdResume (die : Nat) (num : Nat)
  /-- JCMD_END (R424): Ends a job at once, discarding its state. -/
  | jcmdEnd (die : Nat) (num : Nat)
  /-- JCMD_PREEMPT (R419): Asks for a job to be pre-empted. -/
  | jcmdPreempt (die : Nat) (num : Nat)
  /-- JCMD_READMIT (R419): Asks for a saved job to be made resident ahead of every head. -/
  | jcmdReadmit (die : Nat) (num : Nat)
  /-- LQD_WRITE (R408): A write to a launch queue descriptor, limited while the queue is open. -/
  | lqdWrite (die : Nat) (q : Nat) (w : Nat) (v : Word)
  /-- LAUNCH_PACKET (R414): A launch packet is checked, its record read and enqueued, and a report written. -/
  | launchPacket (p : List Byte)
  /-- PACKAGE_RESET (R426): Reset starts the boot ROM, which brings up the hub and derives the identity key. -/
  | packageReset
  /-- BOOT_IMAGE_FETCHED (R426): A fetched image is verified, measured and started as secure firmware. -/
  | bootImageFetched (b : BootImage)
  /-- BOOT_RETRY (R426): After a boot failure, stage 2 restarts when 10 seconds expire. -/
  | bootRetry
  /-- MEASUREMENT_EXTEND (R427): Extends a measurement register with a digest. -/
  | measurementExtend (n : Nat) (x : Digest)
  /-- ATTESTATION_REPORT (R428): Returns a signed report of the measurements for a nonce. -/
  | attestationReport (nonce : Digest)
  /-- REGION_WRITE (R429): A write to a region register applies to accesses after it completes. -/
  | regionWrite (n : Nat) (last : Bool) (v : Word) (sec : Bool)
  /-- PODMAP_WRITE (R454): A write to the pod presence map, with the own bit kept at 1. -/
  | podmapWrite (i : Nat) (v : Word) (sec : Bool)
  /-- POWER_GATE (R431): An idle block gates its clocks and power. -/
  | powerGate (b : Block)
  /-- POWER_WAKE (R431): A gated block wakes on a request within 2 microseconds. -/
  | powerWake (b : Block)
  /-- POWER_THROTTLE (R431): Near the power limit, the hub inserts empty issue cycles. -/
  | powerThrottle
  /-- DEBUG_ENABLE (R438): Sets the job's debug enable. -/
  | debugEnable (r : DbgReq)
  /-- DEBUG_DISABLE (R438): Clears the job's debug enable. -/
  | debugDisable (r : DbgReq)
  /-- DEBUG_HALT (R438): Halts the selected streams at their next boundary. -/
  | debugHalt (r : DbgReq)
  /-- DEBUG_STEP (R438): Lets each halted selected stream issue one instruction. -/
  | debugStep (r : DbgReq)
  /-- DEBUG_STEP_DRAIN (R438): Steps and waits for the issued operation and due corrections. -/
  | debugStepDrain (r : DbgReq)
  /-- DEBUG_RESUME (R438): Resumes the selected streams. -/
  | debugResume (r : DbgReq)
  /-- DEBUG_SNAPSHOT (R438): Writes a wait-log entry for every wait of the job in progress. -/
  | debugSnapshot (r : DbgReq)
  /-- SCHEDULE_CYCLE_STOP (R442): Arms a stop of a core at the last edge of cycle DCYC. -/
  | scheduleCycleStop (r : DbgReq)
  /-- CYCLE_STOP_REACHED (R443): At the chosen cycle, the core freezes and dumps in-flight results. -/
  | cycleStopReached (core : Nat)
  /-- CORE_RESUME (R443): Resumes a stopped core and reinjects its dumped results. -/
  | coreResume (r : DbgReq)
  /-- DDATA_WRITE (R440): Writes a selected item of a halted job's state. -/
  | ddataWrite (die : Nat) (v : Word)
  /-- REGISTER_WRITE (R7): A write to a register with no row of its own updates its RW and W1C fields. -/
  | registerWrite (r : RegName) (v : Word) (sec : Bool)
  /-- WALK_COMPLETE (R32): A page-table walk in service ends when its last entry read returns, delivering the leaf or a fault record to every merged requester and freeing its walker for the next queued request. -/
  | walkComplete (die : Nat) (i : Nat)
  deriving DecidableEq, Repr, Inhabited

end Sys2Proof
end

