-- ==== Sys2Proof/Machine/State.lean ====
section
/-! DEFINITION. The state of a package, as plain data: jobs with their four streams, cores, dies, the hub, memory; and
the state after package reset. -/

namespace Sys2Proof.Machine

/-! ## Streams -/

/-- What a LOOPP frame holds beside a LOOP frame (R191): the trip count n, the stages S and the kernel iteration k. -/
structure Pipe where
  n : Nat
  s : Nat
  k : Nat
  deriving DecidableEq, Repr, Inhabited

/-- A loop frame (R191). -/
structure Frame where
  start : Word
  stop  : Word
  n     : LcReg
  pipe  : Option Pipe
  deriving DecidableEq, Repr, Inhabited

/-- Whether a stream issues (R135, R150). -/
inductive RunState where
  | idle | running | joined
  deriving DecidableEq, Repr, Inhabited

/-- What a blocked stream waits on (R153, R441); a semaphore with the length of the SEMACQ that waits. -/
inductive WaitObj where
  | queue (q : QName) | token (n : Nat) | sem (n len : Nat)
  | flag (pa : Nat) | barrier (k pa : Nat) | timeline (t : Nat) | tide (n : Nat) | settle (src : Nat)
  | weir | order (kind idx : Nat) | channel (num c : Nat)
  | drain | walk (va : Nat) | stash (w line : Nat) | copies (n upto : Nat) | lineage (src : Nat) | fill
  | fault (seq : Nat) | basin (acc : Nat)
  deriving DecidableEq, Repr, Inhabited

/-- A wait in progress: its object, and the cycle in which it began. -/
structure Wait where
  obj   : WaitObj
  since : Nat
  deriving DecidableEq, Repr, Inhabited

/-- A relaxed store that is issued and not yet performed (R88, R90): its place, bytes, priority and class; the scope it has
by its own code, R83 and the FENCE before it (R91); and, once an ordered access of wider scope has gone ahead of it, the
logical time at which that was. -/
structure Pending where
  pa    : Nat
  bytes : List Byte
  ev    : Nat
  cc    : Nat
  scp   : Nat
  left  : Option Nat
  deriving DecidableEq, Repr, Inhabited

/-- A translation fault (R42, R43): cause, level, entry value and entry address. -/
structure TFault where
  cause   : Nat
  va      : Nat
  level   : Nat
  entry   : Nat
  entryPa : Nat
  deriving DecidableEq, Repr, Inhabited

/-- Who makes an access: a stream, an operation, the fill of a stash line, the taking of an inbound command, retirement, or
the fill of a stream's instruction memory. -/
inductive Asker where
  | strm (x : StreamId) | op (id : Nat) | stash (w line : Nat) | inbound | retire | code (x : StreamId)
  deriving DecidableEq, Repr, Inhabited

/-- The fields of a fault record (R422). -/
structure FaultInfo where
  cause : Nat
  strm  : StreamId
  eng   : Nat
  chan  : Nat
  code  : Nat
  dstat : Nat
  pc    : Nat
  va    : Nat
  opnum : Nat
  tl    : Nat
  acck  : Nat
  level : Nat
  unit  : Nat
  entry : Nat
  aux   : Nat
  port  : List Byte
  qb    : Nat
  deriving DecidableEq, Repr, Inhabited

/-- A filled unit of instruction memory (R127, R169): its address and bytes; the remaining bytes of its last instruction, read
from the next unit; the offsets of the words expanded; and the faults that its fill and that second load met (R171). -/
structure CodeUnit where
  base  : Nat
  bytes : List Byte
  tail  : List Byte
  words : List Nat
  fault : Option FaultInfo
  tailFault : Option FaultInfo
  /-- Logical write time of the line at the unit's first fill, and at the last; and so for the next unit's line at the second
  load (R173). -/
  first : Option Nat
  wts   : Nat
  tailFirst : Option Nat
  tailWts : Nat
  /-- Displaced units keep their first times and no words (R173). -/
  here  : Bool
  /-- The cycle of its last use (R173). -/
  used  : Nat
  deriving DecidableEq, Repr, Inhabited

/-- A barrier arrival that a BAR has made and whose phase it still waits on (R398). -/
structure BarWait where
  level : Nat
  phase : Nat
  deriving DecidableEq, Repr, Inhabited

/-- How a halted stream steps (R438): halt after one instruction, with or without drain. A step with drain whose operation is
complete still waits for the corrections due then: for each target, by its entry, so many of them. -/
inductive StepMode where
  | none | one | drain
  | left (due : List (Nat × Nat))
  deriving DecidableEq, Repr, Inhabited

/-- What ended a wait, or could have (R441): ENG, the number of the job that owns it, and the stream, for ENG 0. -/
structure Ender where
  eng  : Nat
  num  : Nat
  strm : Nat
  deriving DecidableEq, Repr, Inhabited

/-- One engine stream (R133). -/
structure Stream where
  pc     : Word
  s      : Vector Word 64
  p      : Vector Bool 16
  lc     : Vector Word 4
  frames : List Frame
  st     : RunState
  /-- SEQ of the fault that holds the stream (R198, R424). -/
  hold   : Option Nat
  halted : Bool
  stepping : StepMode
  wait   : Option Wait
  /-- Who acted last on the object of the wait in progress (R441). -/
  ender  : Option Ender
  stores : List Pending
  /-- The scope of the last FENCE; 0, the narrowest, when there was none (R91). -/
  fence  : Nat
  imem   : List CodeUnit
  /-- MINOR of the kernel header accepted at the first fill; 256 when the header is broken (R175). -/
  hdrVer : Option Nat
  /-- QDROP count still to drop (R230). -/
  qdrop  : Option Nat
  bar    : Option BarWait
  /-- RENQ has fenced, read its header and passed its checks, and holds for a place (R384). -/
  renq   : Option Nat
  /-- Timeline and number of the last engine operation the stream issued, for a step with drain (R438). -/
  last   : Option (Nat × Nat)
  deriving DecidableEq, Repr, Inhabited

/-- A stream of a job that is not there: what the empty focus job holds at package reset (L6). -/
def Stream.idle : Stream where
  pc := 0
  s := Vector.replicate 64 0
  p := (Vector.replicate 16 false).set 0 true
  lc := Vector.replicate 4 0
  frames := []
  st := .idle
  hold := none
  halted := false
  stepping := .none
  wait := none
  ender := none
  stores := []
  fence := 0
  imem := []
  hdrVer := none
  qdrop := none
  bar := none
  renq := none
  last := none

/-! ## Job state shared by the four streams -/

/-- A semaphore (R389), with the streams that wait on it in order and their k; k 0: served, its SEMACQ ends next turn. -/
structure Sem where
  count   : Nat
  ceil    : Nat
  waiters : List (StreamId × Nat)
  deriving DecidableEq, Repr, Inhabited

/-- A timeline (R107): issued and completed counts, and the completed numbers above the completed count. -/
structure Timeline where
  issued    : Nat
  completed : Nat
  ahead     : List Nat
  deriving DecidableEq, Repr, Inhabited

/-- A port slot (R291): the program words H0, H1 and dataflow words; none when no program is installed. -/
structure PortSlot where
  image  : List Lane
  linear : Bool
  carry  : Cells Lane
  win    : Cells Lane
  wdepth : Nat
  args   : Lane
  satn   : Lane
  flun   : Lane
  deriving DecidableEq, Repr, Inhabited

/-- A stash window descriptor (R52, R53). -/
structure StashWin where
  v      : Bool
  gva    : Nat
  sizem1 : Nat
  off    : Nat
  epri   : Nat
  deriving DecidableEq, Repr, Inhabited

/-- A stash line that is clean or dirty (R54 to R56); an invalid line has no entry. -/
structure StashLine where
  win   : Nat
  line  : Nat
  pa    : Nat
  /-- Class of its page (R28). -/
  cc    : Nat
  dirty : Bool
  wts   : Nat
  lease : Nat
  deriving DecidableEq, Repr, Inhabited

/-- A stationary image (R255): K, N, format, element codes at 256 n + k, scale bytes likewise. -/
structure Image where
  k   : Nat
  n   : Nat
  fmt : Nat
  el  : Cells Nat
  sc  : Cells Nat
  deriving DecidableEq, Repr, Inhabited

/-- The key of a keyed stationary load (R339). -/
structure BasinKey where
  sec  : Bool
  dom  : Nat
  eorg : Nat
  sorg : Nat
  geom : List Word
  prog : List Lane
  deriving DecidableEq, Repr, Inhabited

/-- The job's last MLDS in program order (R269): its number, its extents and format, and its key if it is keyed. -/
structure LastMlds where
  num : Nat
  k   : Nat
  n   : Nat
  fmt : Nat
  key : Option BasinKey
  deriving DecidableEq, Repr, Inhabited

/-- An image made by MLDS number num, with its key. -/
structure Made where
  num : Nat
  img : Image
  key : Option BasinKey
  deriving DecidableEq, Repr, Inhabited

/-- Scratch ranges [lo, hi) in bytes. -/
abbrev Range := Nat × Nat

/-- Keys of a Weir entry (R111). -/
structure Keys where
  sr : List Range
  sw : List Range
  ar : List Nat
  aw : List Nat
  vr : List Nat
  vw : List Nat
  pr : List Nat
  deriving DecidableEq, Repr, Inhabited

/-- Keys that name nothing. -/
def Keys.none : Keys := ⟨[], [], [], [], [], [], []⟩

/-- A copy or inbound command (R365 to R382). -/
structure CopyOp where
  /-- 0 to 3: channel; 4: inbound queue. -/
  chan    : Nat
  cmd     : Word
  /-- CTBASE in force (R197, R366). -/
  base    : Nat
  /-- The eight template words as read; empty when the read faulted (R366). -/
  tmpl    : List Word
  /-- The fault that the read met, to be raised when the copy would start. -/
  bad     : Option FaultInfo
  started : Bool
  /-- Next template element (R376), counted from 0. -/
  elem    : Nat
  /-- Walk position: data elements done, or bytes, blocks, records done, as the kind counts them. -/
  pos     : Nat
  /-- Compressed-row walk: current row offset and entry within the row; gather and scatter: the row's index. -/
  row     : Nat
  sub     : Nat
  /-- Non-zero entries written by a compressed-row walk. -/
  count   : Nat
  /-- A gather's or scatter's indices, each after its row's number; a walk's pointers; as read. -/
  held    : List Nat
  /-- Zero fill of R362 in progress: ranges still to fill. -/
  zero    : List Range
  status  : BitVec 8
  /-- Data accesses are done; completion actions come next (R379): 0 no, 1 semaphore next, 2 flag next. -/
  acts    : Nat
  deriving DecidableEq, Repr, Inhabited

/-- How the handler of a port arithmetic fault lets the element go on (R317). -/
structure Resume where
  mode : Nat
  repl : Lane
  /-- KIND of the fault (R316). -/
  kind : Nat
  deriving DecidableEq, Repr, Inhabited

/-- The progress of one port of an operation (R290, R315, R318): its next input row, whether that row is taken, its
elements (a code and scale byte beside an element whose block decode is beyond FP32, R314), the outputs given so far, and
the block in which the next element stands. -/
structure PortRun where
  q     : Nat
  taken : Bool
  ins   : List (Lane × Option Nat)
  outs  : List Lane
  blk   : Nat
  deriving DecidableEq, Repr, Inhabited

/-- The correction store's view of an operation that writes a provisional place (R322, R324); an ordinary reader has been
found to go beyond a limit of R325. -/
inductive SpillRole where
  | plain
  | reader
  | contrib (tag k : Nat)
  | consumer (tag : Nat)
  deriving DecidableEq, Repr, Inhabited

/-- An engine operation (R105): the instruction, what it captured at issue (R226, R277), and its progress. -/
structure Op where
  instr   : Instr
  copy    : Option CopyOp
  tl      : Nat
  num     : Nat
  scal    : Word
  sts     : List (List Word)
  vd      : List Nat
  vs      : List Nat
  vt      : List Nat
  /-- Number of the MLDS whose image is bound (R269), and the image's key when it may use the Basin. -/
  img     : Nat
  key     : Option BasinKey
  started : Bool
  since   : Nat
  /-- It has waited 4,096 cycles for its engine (R154). -/
  aged    : Bool
  /-- Next row, register, element or tile to do. -/
  unit    : Nat
  /-- ARGV registers of its ports, as window index plus 1; 0 for none (R293). -/
  argv    : List Nat
  runs    : List PortRun
  /-- Output rows that each port has given, kept while something else still needs them. -/
  queue   : List (List (List Lane))
  /-- Ports at which conversions that would fault saturate until the operation ends (R317). -/
  sat     : List Nat
  /-- A copy with ports: the source elements of the template element in hand, by number (R376). -/
  srcs    : Cells Lane
  /-- MMULG: the table as read, and the image of the group in hand. -/
  table   : List Word
  gimg    : Option Image
  hold    : Option Nat
  resume  : Option Resume
  role    : SpillRole
  /-- A keyed MMUL that waits for a settle before it may enter the Basin: the hold it will have (R341). -/
  late    : Option Nat
  /-- Basin member (R341): the cycle at which its hold ends, and whether it is triggered. -/
  basin   : Option (Nat × Bool)
  /-- It has left the Basin for its job's pre-emption, which waits for it to issue (R347, R417 step 2). -/
  alone   : Bool
  /-- What its last attempt waited on, and since when: a tide, a stash fill, a walk, a settle. -/
  stall   : Option Wait
  finished : Bool
  deriving DecidableEq, Repr, Inhabited

/-- A store by the hardware itself that still waits to be performed (R57, R61): the core in whose logical time it is made, if
any; its place, bytes and class. -/
structure Posted where
  core  : Option Nat
  pa    : Nat
  bytes : List Byte
  cc    : Nat
  deriving DecidableEq, Repr, Inhabited

/-- Who makes an access from outside the core: a part of a job; an agent outside the jobs, by its request; the debugger at a
die, by the item and the value that it writes (R440); the write-back of a stash line; a store by the hardware itself. -/
inductive Outsider where
  | part (num : Nat) (by_ : Asker)
  | agent (r : OutReq)
  | debugger (die : Nat) (dsel v : Word)
  | back (num w line : Nat)
  | hw (p : Posted)
  deriving DecidableEq, Repr, Inhabited

/-- What a Weir entry is (R111): an operation, a held instruction of a stream, or an access from outside the core that waits. -/
inductive EntryKind where
  | op (o : Op)
  | held (x : StreamId)
  | outside (who : Outsider)
  deriving DecidableEq, Repr, Inhabited

/-- A Weir entry. -/
structure Entry where
  id   : Nat
  strm : StreamId
  pc   : Word
  kind : EntryKind
  keys : Keys
  /-- It has taken a kept place (R115). -/
  kept : Bool
  /-- A pre-emption removed it, and it has not entered again yet (R116). -/
  away : Bool
  deriving DecidableEq, Repr, Inhabited

/-- Entries of a copy-channel queue: a copy, or a translation marker (R365, R124). -/
inductive ChanEntry where
  | copy (id : Nat)
  | marker
  deriving DecidableEq, Repr, Inhabited

/-- Entries of an inbound command queue: a block of command words still to take, or a marker (R387, R124). -/
inductive InEntry where
  | block (cmds : List Word)
  | marker
  deriving DecidableEq, Repr, Inhabited

/-- A place that may be provisional (R131). -/
inductive ProvPlace where
  | acc (n : Nat) | vreg (i : Nat) | latch (q : Nat) | line (l : Nat)
  deriving DecidableEq, Repr, Inhabited

/-- A contribution's delta tile (R322): present elements at 64 row + column. -/
structure Delta where
  /-- Weir entry of the contribution. -/
  id    : Nat
  cells : List (Nat × Lane)
  ready : Bool
  /-- Rows below it are added to the source (R322, R336); then all of them. -/
  row   : Nat
  added : Bool
  deriving DecidableEq, Repr, Inhabited

/-- A target of a lineage (R324): element keys are 64 × index + lane for registers, 64 × row + column for a tile, lane
for a latch, scratch byte offset for scratchpad. -/
structure Target where
  /-- Weir entry of the operation that made it. -/
  id     : Nat
  depth  : Nat
  /-- Index of the parent target of this read place; none: the source. -/
  parents : List (ProvPlace × Option Nat)
  op     : Op
  places : List ProvPlace
  base   : Cells Lane
  slots  : List (Nat × PortSlot)
  /-- ARG values used, at 2^30 × port + 64 × row + column (R324). -/
  args   : Cells Lane
  img    : Option Image
  /-- Corrections made so far, one list for each contribution, in order. -/
  corrs  : List (List (Nat × Lane))
  /-- Rows, registers or pushes made of the correction in progress (R336). -/
  unit   : Nat
  /-- The target's own operation has written its whole base. -/
  based  : Bool
  deriving DecidableEq, Repr, Inhabited

/-- A lineage (R320 to R332). -/
structure Lineage where
  tag     : Nat
  src     : Nat
  /-- Weir entries numbered below this entered before the MPUB (R330). -/
  born    : Nat
  /-- Delta tiles reserved at the MPUB, which stay until the settle (R320, R321). -/
  room    : Nat
  ndecl   : Nat
  niss    : Nat
  nadd    : Nat
  closed  : Bool
  base    : Cells Lane
  deltas  : List Delta
  targets : List Target
  deriving DecidableEq, Repr, Inhabited

/-- What a fault holds (R198, R272, R424, R393). -/
inductive Held where
  | stream (x : StreamId) | op (id : Nat) | retire | objects | nothing
  deriving DecidableEq, Repr, Inhabited

/-- An outstanding fault (R421): 1 in service, 2 pending; and where it is handled. -/
structure FaultRec where
  seq   : Nat
  info  : FaultInfo
  state : Nat
  toOs  : Bool
  held  : Held
  /-- The cause met by the write of the record, when it faulted (R421); the record is then kept here. -/
  recFault : Option Nat
  deriving DecidableEq, Repr, Inhabited

/-- The translation context (R21), the fault-queue base (R408) and the priority class (R410). -/
structure Ctx where
  asid  : Nat
  sec   : Bool
  root  : Nat
  dtree : Nat
  fqva  : Nat
  cls   : Nat
  deriving DecidableEq, Repr, Inhabited

/-- Whether the job is there, and the step of retirement it has reached (R150, R417, R424). -/
inductive JobStatus where
  | absent | admitting | resident | retiring (step : Nat) | saved | retired | ended
  deriving DecidableEq, Repr, Inhabited

/-- A reduction push made and not yet applied (R286). -/
structure Push where
  /-- Number on tl5 of the VRED that made it; 0 for a correction. -/
  num   : Nat
  due   : Nat
  q     : Nat
  op    : RedOp
  /-- The lanes that it reaches, with the value for each. -/
  cells : List (Nat × Lane)
  deriving DecidableEq, Repr, Inhabited

/-- Level k of the job's barriers (R395, R455): the streams arrived in the current phase, and the phase of the job's
last arrival. -/
structure BarState where
  arrived : List StreamId
  phase   : Nat
  last    : Option Nat
  deriving DecidableEq, Repr, Inhabited

/-- User trap registers (R196, R198): TSTAT's fields, TRET, TFREC, and C's frames set aside. -/
structure TrapRegs where
  inTrap : Bool
  strm   : StreamId
  code   : Nat
  cause  : Nat
  tret   : Word
  tfrec  : Word
  frames : List Frame
  /-- The handler was entered from JOIN (R198). -/
  joined : Bool
  /-- Restart state of the instruction whose wait was abandoned: a BAR's arrival, a QDROP's count, and its address. -/
  bar    : Option BarWait
  qdrop  : Option Nat
  back   : Word
  /-- SEQ of the fault in service. -/
  seq    : Nat
  deriving DecidableEq, Repr, Inhabited

/-- A place that one parity bit covers (R425): a lane of a window register, an element of a tile, a carried word of a port
slot, an element of a stationary image of the job. -/
inductive ParityAt where
  | vreg (i lane : Nat)
  | acc (a i n : Nat)
  | carry (slot key : Nat)
  | image (i e : Nat)
  deriving DecidableEq, Repr, Inhabited

/-- A resident, saved or ended job. -/
structure Job where
  num    : Nat
  status : JobStatus
  ctx    : Ctx
  /-- The launch record (R136), 32 words. -/
  lrec   : List Word
  /-- The job's linear index in the package's share of its launch (R140, R143), and a number that names the launch. -/
  index  : Nat
  launch : Nat
  die    : Nat
  core   : Nat
  slot   : Nat
  base   : Nat
  admitted : Nat
  c : Stream
  a : Stream
  m : Stream
  v : Stream
  vreg   : Cells Lane
  rb     : Nat
  rs     : Nat
  rot    : Nat
  acc    : Cells Lane
  latch  : Cells Lane
  pushes : List Push
  streg  : Cells Word
  aq     : Vector (List Word) 4
  bq     : List Bool
  tk     : Vector Nat 8
  sem    : Vector Sem 16
  tl     : Vector Timeline 8
  slots  : Vector PortSlot 32
  crange : Vector Word 4
  ctide  : Vector Nat 4
  /-- Runs of range bytes written since the range was set (R120). -/
  filled : Vector (List Range) 4
  seed   : Vector Lane 4
  /-- Draws made by each lane, at 64 × set + lane; set 4 is the inbound set (R356, R357). -/
  draws  : Cells Nat
  ctbase : Word
  bhold  : Nat
  bdom   : Nat
  trap   : TrapRegs
  stash  : Vector StashWin 8
  lines  : List StashLine
  last   : Option LastMlds
  images : List Made
  entries : List Entry
  nextId : Nat
  /-- The channel whose copy was last chosen; 4 the inbound queue (R380). -/
  copyTurn : Nat
  chans  : Vector (List ChanEntry) 4
  /-- Status of copies and inbound commands at operation number, one table each (R383): the byte, bit 8 the policy TLFAULT,
  bit 9 its fault raised (R363). -/
  status5 : Vector (Cells Nat) 5
  inq    : List InEntry
  inClosed : Bool
  lineages : List Lineage
  /-- Provisional marks of scratch lines: 256-byte line number and tag (R131). -/
  marks  : List (Nat × Nat)
  faults : List FaultRec
  nextSeq : Nat
  /-- Faults of failed walks, each still to be raised by the requester it is for (R43). -/
  walkFaults : List (Asker × TFault)
  /-- Words with a parity error, which is lasting for the job (R425). -/
  parity : List ParityAt
  debug  : Bool
  bar0   : BarState
  bars   : Vector BarState 8
  /-- Scratch bytes were saved with the context (R417 step 6), and the save area held, with the die whose ring it is. -/
  winSaved : Bool
  area   : Option (Nat × Nat)
  windowSave : List (Nat × Byte)
  savedAt : Nat
  /-- JCMD OP 3 asked for it ahead of every head (R419); JCMD OP 2, step 4 of R411 or its gang asked for its pre-emption
  (R416). -/
  urgent : Bool
  asked  : Bool
  /-- As a saved head: the cores reserved for it, and the cycle the reservation began (R411). -/
  cores  : List Nat
  resAt  : Option Nat
  /-- Hits of halting watchpoints by the job, before its next instruction (R442): OKIND and object. -/
  hits   : List (Nat × Nat)
  deriving DecidableEq, Repr

/-! ## Cores, dies, the hub -/

/-- A held copy of a line (R95): an L1 line of a core, or a peer's line in a die's L2; with the cycle in which the home gave
it (R96). -/
structure HeldCopy where
  line  : Nat
  bytes : List Byte
  wts   : Nat
  lease : Nat
  got   : Nat
  deriving DecidableEq, Repr, Inhabited

/-- A cached translation (R30): the page's base address and size, and the leaf. -/
structure Tlb where
  asid   : Nat
  sec    : Bool
  level  : Nat
  va     : Nat
  leaf   : Nat
  /-- Physical address of the entry the leaf came from. -/
  entryPa : Nat
  deriving DecidableEq, Repr, Inhabited

/-- A shared engine's grant (R154, R270): the job and operation that hold it, and the slot last granted. -/
structure Grant where
  holder : Option (Nat × Nat)
  last   : Nat
  /-- Members of a Basin stack that follow the holder (R343). -/
  stack  : List (Nat × Nat)
  /-- Every member of the stack in progress, until its last row (R347). -/
  members : List (Nat × Nat)
  deriving DecidableEq, Repr, Inhabited

/-- A place of the key table (R340). -/
structure KeyPlace where
  key : BasinKey
  /-- The job and operation whose load builds the image. -/
  maker : Nat × Nat
  /-- none until the load has built it. -/
  img : Option Image
  deriving DecidableEq, Repr, Inhabited

/-- A result frozen in flight by a cycle stop (R443). -/
structure Frozen where
  num  : Nat
  push : Push
  left : Nat
  deriving DecidableEq, Repr, Inhabited

/-- A core. -/
structure Core where
  /-- The logical clock is the cycle plus this (R95). -/
  boost   : Nat
  l1      : List HeldCopy
  /-- The second-level translation cache; and the first-level ones of the C and A streams, of operand fetches and of the
  copy engine (R30), most recently filled first. -/
  tlb     : List Tlb
  tlb1    : Vector (List Tlb) 3
  matrix  : Grant
  load    : Grant
  vector  : Grant
  reduce  : Grant
  rowstat : Grant
  /-- Port engines in use: job, operation and number taken (R306). -/
  ports   : List (Nat × Nat × Nat)
  /-- The slot last granted port engines (R154, R306). -/
  portLast : Nat
  /-- The copy engine's bytes: the copies that have moved an element since the first in order last did, and the slot then
  chosen (R380). -/
  copyMoved : List (Nat × Nat)
  copyLast : Nat
  keys    : List KeyPlace
  sec     : Bool
  copySec : Bool
  /-- 64 KiB scratchpad blocks out of service (R46). -/
  oos     : List Nat
  stopAt  : Option Nat
  frozen  : Option (List Frozen)
  gated   : Bool
  deriving DecidableEq, Repr, Inhabited

/-- A launch record in a queue's ring, with its context as at the enqueue (R408). -/
structure QRec where
  words  : List Word
  ctx    : Ctx
  launch : Nat
  /-- The cycle its wait as head began, its cores reserved, and the cycle the reservation began (R411). -/
  since  : Nat
  cores  : List Nat
  resAt  : Option Nat
  /-- The next job of the share to admit (R147). -/
  next   : Nat
  /-- Report buffer and tag for a record from the launch port (R414). -/
  reply  : Option (Nat × Word)
  /-- The port that brought it: UALink stations 0 to 7, Ethernet ports 8 to 11 (R414, R429). -/
  port   : Nat
  deriving DecidableEq, Repr, Inhabited

/-- A requester of a walk: its job, core, and part of the job. -/
structure Requester where
  num  : Nat
  core : Nat
  by_  : Asker
  deriving DecidableEq, Repr, Inhabited

/-- A page-table walk wanted or in service (R32), with those that asked. -/
structure WalkReq where
  asid  : Nat
  sec   : Bool
  va    : Nat
  root  : Nat
  cls   : Nat
  since : Nat
  aged  : Bool
  who   : List Requester
  deriving DecidableEq, Repr, Inhabited

/-- An entry of a die's walk cache (R30): a table entry read for a level and VA prefix. -/
structure WalkEnt where
  asid    : Nat
  sec     : Bool
  level   : Nat
  prefix_ : Nat
  entry   : Nat
  entryPa : Nat
  deriving DecidableEq, Repr, Inhabited

/-- A line present in an L2 slice (R70): its priority record, and whether it is dirty; most recently used first. -/
structure L2Line where
  line  : Nat
  pri   : Nat
  dirty : Bool
  deriving DecidableEq, Repr, Inhabited

/-- A compute die. -/
structure Die where
  /-- LQDq word w at 8 q + w (R408). -/
  lqd    : Cells Word
  queues : List (Nat × List QRec)
  sfring : Word
  /-- Free save areas in the ring (R418). -/
  sfcnt  : Nat
  sfhead : Nat
  /-- RES of the last JCMD, and the job whose pre-emption it asked for (R419). -/
  jres   : Nat
  jjob   : Option Nat
  /-- For each class, the queue visited last and the records admitted in that visit (R411). -/
  visits : Vector (Nat × Nat) 4
  dcyc   : Word
  dres   : Nat
  /-- The step in progress that a command asked for (R437, R438): its job and streams. -/
  dstep  : Option (Nat × List StreamId)
  dsel   : Word
  wlring : Word
  wlhead : Nat
  wltail : Nat
  wldrop : Nat
  wlmin  : Nat
  ddump  : Word
  wp     : Vector Word 8
  whit   : Vector Word 8
  walkQ  : List WalkReq
  walking : List WalkReq
  walkCache : List WalkEnt
  l2     : List L2Line
  peer   : List HeldCopy
  /-- L2 ways out of service: for each, a line of its set (R425). -/
  ways   : List Nat
  /-- Corrected errors, and transient events of the error log (R46, R73, R425). -/
  errs   : Nat
  elog   : Nat
  /-- 64 KiB LPDDR6 frames and cluster SRAM blocks out of service, by local address (R46, R73, R425). -/
  oos    : List Nat
  gates  : List Block
  deriving DecidableEq, Repr

/-- A mapping command being carried out (R38): its words, the old entry, and the steps done. -/
structure MapCmd where
  words  : List Word
  old    : Nat
  stage  : Nat
  /-- Markers placed: job numbers. -/
  jobs   : List Nat
  deriving DecidableEq, Repr, Inhabited

/-- Boot progress (R426). -/
structure Boot where
  stage   : Nat
  started : Bool
  failed  : Bool
  failAt  : Nat
  /-- Resets so far, for the identity key (R428). -/
  resets  : Nat
  reports : Nat
  deriving DecidableEq, Repr, Inhabited

/-- The hub die. -/
structure Hub where
  mapq    : List Word
  mapdone : Nat
  mapRej  : Bool
  mapCmd  : Option MapCmd
  /-- RGNBn at 2 n, RGNLn at 2 n + 1 (R429). -/
  rgn     : Cells Word
  podmap  : Vector Word 16
  pod     : BitVec 11
  pos     : BitVec 10
  boot    : Boot
  mr      : Vector Digest 16
  /-- Module flash (R1, R2, R72): ordering code, GiB per channel of each of the 128 channels, data rate in Mb/s. -/
  code    : Nat
  caps    : List Nat
  rate    : Nat
  /-- Worlds of the hub functions: the PCIe endpoint, each UALink station, each Ethernet port (R429). -/
  pcieSec : Bool
  linkSec : Vector Bool 8
  ethSec  : Vector Bool 4
  /-- BAR2 pieces: 0 not pointed, else physical address plus 1 (R433). -/
  bar2    : Cells Nat
  msi     : List Nat
  errlog  : Nat
  nextLaunch : Nat
  /-- Peers that do not complete accesses (R454). -/
  deaf    : List Nat
  /-- Memory configuration errors reported through the management port since the last package reset (R2). -/
  configErrs : Nat
  /-- Status frames of boot failures sent on the management port since the last package reset (R426). -/
  bootFrames : Nat
  /-- Bytes of the mailbox registers of BAR0 (R433). -/
  mailbox : Cells Byte
  /-- The port that brings the next launch packet (R414, R429). -/
  arrival : Nat
  deriving DecidableEq, Repr

/-- What the last access or command of an agent outside the jobs got back (L23). -/
structure Reply where
  ok    : Bool
  code  : Nat
  value : Word
  bytes : List Byte
  deriving DecidableEq, Repr, Inhabited

/-- A 64-byte unit of this package's memory whose reads fail however often they are tried (R425): its local address, and
whether it lies in an L2 way that held it changed, and not in the memory itself. -/
structure BadUnit where
  pa : Nat
  l2 : Bool
  deriving DecidableEq, Repr, Inhabited

/-- An error of a memory structure, as the physical world makes it (R46, R73, R425, L22): one that is corrected; one whose
retry succeeds; one whose retry fails, of a 64-byte unit of memory or of its copy in the L2, with the bytes that it leaves
there; and a parity error, with the word that it leaves, met by an operation or by a stream. -/
inductive Upset where
  | corrected (pa : Nat)
  | transient (pa : Nat)
  | lasting (pa : Nat) (bytes : List Byte)
  | lastingL2 (pa : Nat) (bytes : List Byte)
  | parityOp (num id : Nat) (at_ : ParityAt) (v : Nat)
  | parityStream (num : Nat) (x : StreamId) (at_ : ParityAt) (v : Nat)
  | parityCode (num : Nat) (x : StreamId) (i : Nat)
  deriving DecidableEq, Repr, Inhabited

/-- One turn of the machine (L1): a stream's issue, an event of the table, a pending store's performance, an entry
leaving a cache, an error of a memory, or cycles in which nothing moves. -/
inductive Turn where
  | issue (num : Nat) (x : StreamId)
  | act (i : Instr)
  | perform (num : Nat) (x : StreamId) (i : Nat)
  | evictL1 (core i : Nat) | evictTlb (core i : Nat) | evictWalk (die i : Nat) | evictPeer (die i : Nat)
  | fillCode (num : Nat) (x : StreamId) (pc : Nat)
  | upset (u : Upset)
  /-- A store that the hardware posted is performed. -/
  | posted
  /-- The service cores take the interrupt of a die (R432); one of them reads a register by its name (R7). -/
  | takeInterrupt (die : Nat)
  | readRegister (r : RegName) (sec : Bool)
  /-- Secure firmware assigns a block to a world (R429), numbered as in the world assignment of the boot image. -/
  | assign (block : Nat) (sec : Bool)
  /-- The next launch packet comes through a port (R414). -/
  | port (n : Nat)
  /-- A peer package completes accesses from now on, or does not (R454). -/
  | peer (pos : Nat) (answers : Bool)
  | idle (n : Nat)
  deriving DecidableEq, Repr, Inhabited

/-- The package. The job in focus is the one whose turn it is; the others stand in `rest`. -/
structure State where
  job   : Job
  cur   : StreamId
  /-- The operation or stash fill that makes the accesses of this turn; none: the stream in turn. -/
  via   : Option Asker
  rest  : List Job
  mem   : Memory
  /-- Logical write and lease times of the homes, by 256-byte line (R95). -/
  wts   : Cells Nat
  lts   : Cells Nat
  /-- Core k of die d is number 32 d + k. -/
  cores : Vector Core 256
  dies  : Vector Die 8
  hub   : Hub
  cycle : Nat
  reply : Reply
  agenda : List Turn
  rota  : Nat
  /-- Units of memory with a lasting error (R425). -/
  bad   : List BadUnit
  /-- Logical clocks of the agents outside the jobs, above the cycle: 0 service cores, 1 host, 2 peers (R93, R104). -/
  clocks : Cells Nat
  /-- Stores by the hardware that wait for a line that holds provisional data, or in a scratchpad's order (R51, R61). -/
  posted : List Posted
  deriving DecidableEq, Repr

/-! ## Reset -/

def PortSlot.empty : PortSlot := ⟨[], false, [], [], 0, 0, 0, 0⟩
def BarState.zero : BarState := ⟨[], 0, none⟩

/-- The job state before any job exists: the values a job's state takes when it first becomes resident (R134), with no
record (L6). -/
def Job.empty : Job where
  num := 0
  status := .absent
  ctx := ⟨0, false, 0, 0, 0, 0⟩
  lrec := []
  index := 0
  launch := 0
  die := 0
  core := 0
  slot := 0
  base := 0
  admitted := 0
  c := .idle
  a := .idle
  m := .idle
  v := .idle
  vreg := []
  rb := 0
  rs := 0
  rot := 0
  acc := []
  latch := []
  pushes := []
  streg := []
  aq := Vector.replicate 4 []
  bq := []
  tk := Vector.replicate 8 0
  sem := Vector.replicate 16 ⟨0, 0xFFFF, []⟩
  tl := Vector.replicate 8 ⟨0, 0, []⟩
  slots := Vector.replicate 32 .empty
  crange := Vector.replicate 4 0
  ctide := Vector.replicate 4 0
  filled := Vector.replicate 4 []
  seed := Vector.replicate 4 1
  draws := []
  ctbase := 0
  bhold := 64
  bdom := 0
  trap := ⟨false, .C, 0, 0, 0, 0, [], false, none, none, 0, 0⟩
  stash := Vector.replicate 8 ⟨false, 0, 0, 0, 0⟩
  lines := []
  last := none
  images := []
  entries := []
  nextId := 0
  copyTurn := 4
  chans := Vector.replicate 4 []
  status5 := Vector.replicate 5 []
  inq := []
  inClosed := false
  lineages := []
  marks := []
  faults := []
  nextSeq := 1
  walkFaults := []
  parity := []
  debug := false
  bar0 := .zero
  bars := Vector.replicate 8 .zero
  winSaved := false
  area := none
  windowSave := []
  savedAt := 0
  urgent := false
  asked := false
  cores := []
  resAt := none
  hits := []

def Core.reset : Core where
  boost := 0
  l1 := []
  tlb := []
  tlb1 := Vector.replicate 3 []
  matrix := ⟨none, 7, [], []⟩
  load := ⟨none, 7, [], []⟩
  vector := ⟨none, 7, [], []⟩
  reduce := ⟨none, 7, [], []⟩
  rowstat := ⟨none, 7, [], []⟩
  ports := []
  portLast := 7
  copyMoved := []
  copyLast := 7
  keys := []
  sec := false
  copySec := false
  oos := []
  stopAt := none
  frozen := none
  gated := false

def Die.reset : Die where
  lqd := []
  queues := []
  sfring := 0
  sfcnt := 0
  sfhead := 0
  jres := 0
  jjob := none
  visits := Vector.replicate 4 (0, 0)
  dcyc := 0
  dres := 0
  dstep := none
  dsel := 0
  wlring := 0
  wlhead := 0
  wltail := 0
  wldrop := 0
  wlmin := 0
  ddump := 0
  wp := Vector.replicate 8 0
  whit := Vector.replicate 8 0
  walkQ := []
  walking := []
  walkCache := []
  l2 := []
  peer := []
  ways := []
  errs := 0
  elog := 0
  oos := []
  gates := []

/-- The hub after reset, before any boot stage (R426, R427, R429, R454); the ordering code is L7's choice, VL8-M512. -/
def Hub.reset : Hub where
  mapq := []
  mapdone := 0
  mapRej := false
  mapCmd := none
  rgn := []
  podmap := Vector.replicate 16 0
  pod := 0
  pos := 0
  boot := ⟨0, false, false, 0, 0, 0⟩
  mr := Vector.replicate 16 0
  code := 1
  caps := List.replicate 128 4
  rate := 14400
  pcieSec := false
  linkSec := Vector.replicate 8 false
  ethSec := Vector.replicate 4 false
  bar2 := []
  msi := []
  errlog := 0
  nextLaunch := 1
  deaf := []
  arrival := 0
  configErrs := 0
  bootFrames := 0
  mailbox := []

/-- The machine right after package reset (R426): no job, the compute dies held in reset, memory with nothing listed. -/
def State.reset : State where
  job := .empty
  cur := .C
  via := none
  rest := []
  mem := []
  wts := []
  lts := []
  cores := Vector.replicate 256 .reset
  dies := Vector.replicate 8 .reset
  hub := .reset
  cycle := 0
  reply := ⟨true, 0, 0, []⟩
  agenda := []
  rota := 0
  bad := []
  clocks := []
  posted := []

/-- Why a step stops for good. No instruction of the table raises one: every fault of the manual is taken as a next
state. -/
inductive Fault where
  /-- Raised by nobody: kept for a state whose own data contradict it. Stopping there is safe. -/
  | brokenState
  deriving DecidableEq, Repr

/-- Why an instruction has no meaning. -/
inductive Refusal where
  /-- Raised by the dispatch of an instruction that is not modelled yet. Safe: the machine does not go on. -/
  | notModelled (mnemonic : String)
  deriving DecidableEq, Repr

end Sys2Proof.Machine
end

