-- ==== Sys2Proof/Machine/Base.lean ====
section
/-! DEFINITION. Bit fields, accessors of the state, and the way a meaning ends: going on, waiting, or faulting. -/

namespace Sys2Proof.Machine

/-! ## Bit fields and bytes (R4, R8) -/

/-- Bits hi:lo of a number. -/
def fldN (w hi lo : Nat) : Nat := (w >>> lo) % 2 ^ (hi + 1 - lo)
/-- Bits hi:lo of a 64-bit value. -/
def fld (w : Word) (hi lo : Nat) : Nat := fldN w.toNat hi lo
/-- Bit i of a number. -/
def bitN (w i : Nat) : Bool := (w >>> i) % 2 == 1
/-- Bit i of a 64-bit value. -/
def bit (w : Word) (i : Nat) : Bool := bitN w.toNat i
/-- The number whose little-endian bytes are given (R4). -/
def leNum : List Byte → Nat
  | [] => 0
  | b :: bs => b.toNat + 256 * leNum bs
/-- The n little-endian bytes of a number (R4). -/
def leList : Nat → Nat → List Byte
  | 0, _ => []
  | n + 1, w => BitVec.ofNat 8 w :: leList n (w / 256)
/-- Sign extension of the low n bits to 64 bits. -/
def sextN (n w : Nat) : Word :=
  let x := w % 2 ^ n
  if bitN x (n - 1) then BitVec.ofNat 64 x - BitVec.ofNat 64 (2 ^ n) else BitVec.ofNat 64 x
/-- sext(IMM, 64) for the 48-bit immediate. -/
def sextImm (i : Imm) : Word := i.signExtend 64

/-- Bytes of an access size (R205). -/
def sizeBytes : Size → Nat
  | .b1 => 1 | .b2 => 2 | .b4 => 4 | .b8 => 8

/-! ## Streams and registers -/

/-- The stream x of a job. -/
def Job.str (j : Job) : StreamId → Stream
  | .C => j.c | .A => j.a | .M => j.m | .V => j.v

/-- Replaces the stream x of a job. -/
def Job.setStr (j : Job) : StreamId → Stream → Job
  | .C, t => { j with c := t }
  | .A, t => { j with a := t }
  | .M, t => { j with m := t }
  | .V, t => { j with v := t }

def State.modJob (s : State) (f : Job → Job) : State := { s with job := f s.job }
/-- The stream whose turn it is. -/
def State.str (s : State) : Stream := s.job.str s.cur
def State.setStr (s : State) (t : Stream) : State := { s with job := s.job.setStr s.cur t }
def State.modStr (s : State) (f : Stream → Stream) : State := s.setStr (f s.str)
/-- Changes the stream x of the job in focus. -/
def State.modStrOf (s : State) (x : StreamId) (f : Stream → Stream) : State :=
  { s with job := s.job.setStr x (f (s.job.str x)) }

/-- A scalar register; s0 reads 0 (R178). -/
def Stream.getS (t : Stream) (r : SReg) : Word := if r = 0 then 0 else t.s[r.toNat]'r.isLt
/-- Writes a scalar register; a write to s0 is discarded (R178). -/
def Stream.setS (t : Stream) (r : SReg) (v : Word) : Stream :=
  if r = 0 then t else { t with s := t.s.set r.toNat v r.isLt }
/-- A predicate; p0 is true (R134). -/
def Stream.getP (t : Stream) (p : PReg) : Bool := if p = 0 then true else t.p[p.toNat]'p.isLt
/-- Writes a predicate; p0 stays true. -/
def Stream.setP (t : Stream) (p : PReg) (v : Bool) : Stream :=
  if p = 0 then t else { t with p := t.p.set p.toNat v p.isLt }
def Stream.getLc (t : Stream) (n : LcReg) : Word := t.lc[n.toNat]'n.isLt
def Stream.setLc (t : Stream) (n : LcReg) (v : Word) : Stream := { t with lc := t.lc.set n.toNat v n.isLt }

def State.getS (s : State) (r : SReg) : Word := s.str.getS r
def State.setS (s : State) (r : SReg) (v : Word) : State := s.setStr (s.str.setS r v)
def State.getP (s : State) (p : PReg) : Bool := s.str.getP p
def State.setP (s : State) (p : PReg) (v : Bool) : State := s.setStr (s.str.setP p v)
def State.getLc (s : State) (n : LcReg) : Word := s.str.getLc n
def State.setLc (s : State) (n : LcReg) (v : Word) : State := s.setStr (s.str.setLc n v)

/-- All four streams in the order C, A, M, V. -/
def allStreams : List StreamId := [.C, .A, .M, .V]
/-- The number of a stream (R138, R422). -/
def streamNum : StreamId → Nat
  | .C => 0 | .A => 1 | .M => 2 | .V => 3
/-- The stream with a number. -/
def streamOf : Nat → StreamId
  | 0 => .C | 1 => .A | 2 => .M | _ => .V

/-! ## The launch record of a job (R136 to R139) -/

/-- Word i of a record (byte offset 8 i). -/
def recWord (r : List Word) (i : Nat) : Word := r.getD i 0
/-- CTRL (R137). -/
def recCtrl (r : List Word) : Word := recWord r 0
def recPri (r : List Word) : Nat := fld (recCtrl r) 55 54
def recWorld (r : List Word) : Bool := bit (recCtrl r) 53
def recGang (r : List Word) : Bool := bit (recCtrl r) 52
/-- L, the number of levels. -/
def recLevels (r : List Word) : Nat := fld (recCtrl r) 51 49 + 1
def recChan (r : List Word) : Nat := fld (recCtrl r) 48 45
def recPslots (r : List Word) : Nat := fld (recCtrl r) 44 40
def recAccs (r : List Word) : Nat := fld (recCtrl r) 39 36
/-- W, the registers of the window (R275). -/
def recVregs (r : List Word) : Nat := 64 * fld (recCtrl r) 35 32
/-- Window size in bytes (R49); an absent record has none. -/
def recWindow (r : List Word) : Nat := if r.isEmpty then 0 else (fld (recCtrl r) 31 25 + 1) * 65536
def recIqd (r : List Word) : Nat := fld (recCtrl r) 24 19 + 1
def recMdom (r : List Word) : Nat := fld (recCtrl r) 15 0
/-- Code entry of stream x. -/
def recEntry (r : List Word) (x : StreamId) : Word := recWord r (2 + streamNum x)
def recTrapv (r : List Word) : Word := recWord r 6
def recArgp (r : List Word) : Word := recWord r 7
def recBarbase (r : List Word) : Nat := (recWord r 8).toNat
def recCtbase (r : List Word) : Word := recWord r 9
def recDonea (r : List Word) : Nat := (recWord r 10).toNat
/-- LEVELk (R139). -/
def recLevel (r : List Word) (k : Nat) : Word := recWord r (16 + k)
def recDom (r : List Word) (k : Nat) : Nat := fld (recLevel r k) 63 61
def recFixc (r : List Word) (k : Nat) : Nat := fld (recLevel r k) 52 32
/-- N_k: 1 for k at or above L (R142). -/
def recN (r : List Word) (k : Nat) : Nat := if k < recLevels r then fld (recLevel r k) 20 0 + 1 else 1
/-- S_k (R140). -/
def recS (r : List Word) : Nat → Nat
  | 0 => 1
  | k + 1 => recS r k * recN r k
/-- AQV bit i (R138). -/
def recAqv (r : List Word) (i : Nat) : StreamId := if bit (recWord r 1) (32 + i) then .V else .M
/-- TKMAP nibble i (R138). -/
def recTk (r : List Word) (i : Nat) : Nat := fld (recWord r 1) (4 * i + 3) (4 * i)
/-- Lowest level of domain pod or system, or L (R143). -/
def recWide (r : List Word) : Nat :=
  ((List.range (recLevels r)).find? fun k => 6 ≤ recDom r k).getD (recLevels r)
/-- C_k (R140, R143): from the linear index, or fixed by the launch port. -/
def recCoord (r : List Word) (index k : Nat) : Nat :=
  if recLevels r ≤ k then 0
  else if recWide r < recLevels r && recWide r ≤ k + 1 then recFixc r k
  else index / recS r k % recN r k

/-- Bytes of the job's window. -/
def Job.window (j : Job) : Nat := recWindow j.lrec
/-- User-recoverable faults go to a handler of the job (R198): TRAPV and ENTC are not 0. -/
def Job.hasHandler (j : Job) : Bool := recTrapv j.lrec != 0 && recEntry j.lrec .C != 0

/-! ## Jobs, cores and dies -/

/-- Every job of the package. -/
def State.jobs (s : State) : List Job := s.job :: s.rest
/-- A job is there: admitted, not yet retired or ended (R413). -/
def Job.present (j : Job) : Bool :=
  match j.status with
  | .absent | .retired | .ended => false
  | _ => true
/-- A job stands on its core. -/
def Job.onCore (j : Job) : Bool :=
  match j.status with
  | .admitting | .resident | .retiring _ => true
  | _ => false
/-- The present job with a number. -/
def State.findJob (s : State) (num : Nat) : Option Job := s.jobs.find? fun j => j.present && j.num == num

/-- Takes the first element that satisfies p out of a list. -/
def takeOut {α : Type} (p : α → Bool) : List α → Option (α × List α)
  | [] => none
  | a :: r => if p a then some (a, r) else (takeOut p r).map fun (b, r') => (b, a :: r')

/-- Turns the focus to the present job with a number; none when there is no such job. -/
def State.focus (s : State) (num : Nat) : Option State :=
  if s.job.present && s.job.num == num then some s
  else (takeOut (fun j => j.present && j.num == num) s.rest).map fun (j, r) => { s with job := j, rest := s.job :: r }

/-- Applies f to the present job with a number, wherever it stands. -/
def State.modJobNum (s : State) (num : Nat) (f : Job → Job) : State :=
  if s.job.present && s.job.num == num then { s with job := f s.job }
  else { s with rest := s.rest.map fun j => if j.present && j.num == num then f j else j }

/-- Applies f to every job. -/
def State.mapJobs (s : State) (f : Job → Job) : State := { s with job := f s.job, rest := s.rest.map f }

/-- A vector's element, or the default outside its range. -/
def vget {α : Type} {n : Nat} (d : α) (v : Vector α n) (i : Nat) : α := v[i]?.getD d
/-- Writes a vector's element; nothing outside its range. -/
def vset {α : Type} {n : Nat} (v : Vector α n) (i : Nat) (a : α) : Vector α n := v.setIfInBounds i a

/-- Core number 32 d + k of a job. -/
def Job.coreIx (j : Job) : Nat := j.die * 32 + j.core
def State.coreAt (s : State) (i : Nat) : Core := vget .reset s.cores i
def State.modCore (s : State) (i : Nat) (f : Core → Core) : State := { s with cores := vset s.cores i (f (s.coreAt i)) }
def State.dieAt (s : State) (d : Nat) : Die := vget .reset s.dies d
def State.modDie (s : State) (d : Nat) (f : Die → Die) : State := { s with dies := vset s.dies d (f (s.dieAt d)) }
def State.modHub (s : State) (f : Hub → Hub) : State := { s with hub := f s.hub }
/-- The logical clock of core i (R95). -/
def State.clock (s : State) (i : Nat) : Nat := s.cycle + (s.coreAt i).boost
/-- Raises core i's clock to t (R95). -/
def State.raiseClock (s : State) (i t : Nat) : State :=
  if s.clock i < t then s.modCore i fun c => { c with boost := t - s.cycle } else s

/-- The core stands: a cycle stop has frozen it, or the last edge of its cycle has passed (R442). -/
def Core.stands (c : Core) (cycle : Nat) : Bool := c.frozen.isSome || c.stopAt.any fun a => decide (a < cycle)
/-- A core that stands, or whose power is gated, does nothing (R431, R442). -/
def State.coreRuns (s : State) (core : Nat) : Bool := !(s.coreAt core).stands s.cycle && !(s.coreAt core).gated

/-- A core wakes (R431): for an admission, a pre-emption or a resumption; a request to its scratchpad; a store to a copy aperture
of a job on it; a signal that one of its streams waits for. -/
def State.wakeCore (s : State) (i : Nat) : State :=
  let s := s.modDie (i / 32) fun d => { d with gates := d.gates.filter (· != .core i) }
  s.modCore i fun c => { c with gated := false }
/-- The same, of a core that sleeps. -/
def State.rouse (s : State) (i : Nat) : State := if (s.coreAt i).gated then s.wakeCore i else s

/-- The jobs that stand on core i. -/
def State.onCore (s : State) (i : Nat) : List Job := s.jobs.filter fun j => j.onCore && j.coreIx == i
/-- The priority class of a job (R410). -/
def Job.cls (j : Job) : Nat := Nat.min (recPri j.lrec) j.ctx.cls

/-! ## How a meaning ends -/

/-- A fault record with everything zero but the cause (R422). -/
def FaultInfo.of (cause : Nat) : FaultInfo :=
  ⟨cause, .C, 0, 0, 0, 0, 0, 0, 0, 0, 0, 0, 0, 0, 0, [], 0⟩

/-- Why a meaning stops before its end: it waits and is made again, or it faults with its restart point at the
instruction, or after it. -/
inductive Halt where
  | wait (w : WaitObj)
  | fault (f : FaultInfo)
  | after (f : FaultInfo)
  | halt
  deriving DecidableEq, Repr, Inhabited

/-- A meaning in progress: a state, and a stop. -/
abbrev M (α : Type) := EStateM Halt State α

/-- Where the stream goes on (R188, R192). -/
inductive Flow where
  | next
  | jump (target : Word)
  | call (target : Word)
  | loopTo (target : Word)
  | stay
  deriving DecidableEq, Repr, Inhabited

/-- Waits on an object when b is false. -/
def unlessWait (b : Bool) (w : WaitObj) : M Unit := if b then pure () else throw (.wait w)
/-- Faults when b is true. -/
def faultIf (b : Bool) (f : FaultInfo) : M Unit := if b then throw (.fault f) else pure ()

/-- Runs a part of a meaning whose fault is kept and not raised. -/
def attempt {α : Type} (m : M α) : M (Except FaultInfo α) := fun s =>
  match m s with
  | .ok a t => .ok (.ok a) t
  | .error (.fault f) t => .ok (.error f) t
  | .error e t => .error e t

/-- Runs a meaning for its state alone: unchanged from where it stopped. -/
def M.state {α : Type} (m : M α) (s : State) : State :=
  match m s with
  | .ok _ t => t
  | .error _ t => t

end Sys2Proof.Machine
end

