-- ==== Sys2Proof/Machine/Float.lean ====
section
/-! DEFINITION. Exact binary values, rounding to a grid (R241), and FP32 arithmetic (R235, R250, R101). -/

namespace Sys2Proof.Machine

/-- An exact value: NaN, a signed infinity, or (-1)^s × m × 2^e. -/
inductive Fp where
  | nan
  | inf (s : Bool)
  | fin (s : Bool) (m : Nat) (e : Int)
  deriving DecidableEq, Repr, Inhabited

/-! ## Exact arithmetic -/

/-- m × 2^k for k at or above 0, else m / 2^(-k) rounded down. -/
def shl (m : Nat) (k : Int) : Nat := if 0 ≤ k then m <<< k.toNat else m >>> (-k).toNat

/-- The signed integer of a finite value at exponent q, when q does not exceed its own exponent. -/
def signedAt (s : Bool) (m : Nat) (e q : Int) : Int :=
  let n : Int := (m <<< (e - q).toNat : Nat)
  if s then -n else n

def Fp.neg : Fp → Fp
  | .nan => .nan
  | .inf s => .inf !s
  | .fin s m e => .fin (!s) m e

def Fp.abs : Fp → Fp
  | .nan => .nan
  | .inf _ => .inf false
  | .fin _ m e => .fin false m e

/-- Exact sum; an exact zero sum is +0 except that −0 + −0 is −0 (R250). -/
def Fp.add : Fp → Fp → Fp
  | .nan, _ | _, .nan => .nan
  | .inf a, .inf b => if a = b then .inf a else .nan
  | .inf a, _ => .inf a
  | _, .inf b => .inf b
  | .fin sa ma ea, .fin sb mb eb =>
    if ma = 0 && mb = 0 then .fin (sa && sb) 0 0
    else
      let q := min ea eb
      let t := signedAt sa ma ea q + signedAt sb mb eb q
      if t = 0 then .fin false 0 0 else .fin (decide (t < 0)) t.natAbs q

/-- Exact product; 0 × ∞ is NaN (R250). -/
def Fp.mul : Fp → Fp → Fp
  | .nan, _ | _, .nan => .nan
  | .inf a, .inf b => .inf (a != b)
  | .inf a, .fin s m _ | .fin s m _, .inf a => if m = 0 then .nan else .inf (a != s)
  | .fin sa ma ea, .fin sb mb eb => .fin (sa != sb) (ma * mb) (ea + eb)

def Fp.sub (a b : Fp) : Fp := a.add b.neg

/-- The value times 2^k. -/
def Fp.scale (k : Int) : Fp → Fp
  | .fin s m e => .fin s m (e + k)
  | x => x

/-- Comparison of finite values and infinities; −0 equals +0. NaN is nobody's concern here. -/
def Fp.lt : Fp → Fp → Bool
  | .nan, _ | _, .nan => false
  | .inf a, .inf b => a && !b
  | .inf a, _ => a
  | _, .inf b => !b
  | .fin sa ma ea, .fin sb mb eb => decide (signedAt sa ma ea (min ea eb) < signedAt sb mb eb (min ea eb))

def Fp.isNan : Fp → Bool
  | .nan => true
  | _ => false
/-- Finite and not zero. -/
def Fp.isNum : Fp → Bool
  | .fin _ m _ => m != 0
  | _ => false
def Fp.isFin : Fp → Bool
  | .fin .. => true
  | _ => false
def Fp.sign : Fp → Bool
  | .nan => false
  | .inf s | .fin s _ _ => s
/-- floor(log2 |x|) of a finite non-zero value. -/
def log2Of (m : Nat) (e : Int) : Int := (m.log2 : Int) + e
def Fp.ofInt (i : Int) : Fp := .fin (decide (i < 0)) i.natAbs 0

/-! ## Grids and rounding (R240, R241) -/

/-- A grid of magnitudes, unbounded upward: a floating format's (fraction bits, bias), the integers, or the powers of
two of EP. -/
inductive Grid where
  | flt (m : Nat) (bias : Int)
  | int
  | pow2
  deriving DecidableEq, Repr, Inhabited

/-- Rounding mode codes (R240). -/
inductive Rnd where
  | rne | rz | ro | sr
  deriving DecidableEq, Repr, Inhabited

def rndOf : Nat → Rnd
  | 0 => .rne | 1 => .rz | 2 => .ro | _ => .sr

/-- Chooses between index n and n + 1, the input lying rem / 2^sh of the way between them (R241). -/
def choose (mode : Rnd) (draw : Nat) (n rem sh : Nat) : Nat :=
  if rem = 0 then n
  else match mode with
    | .rne => if 2 * rem < 2 ^ sh then n else if 2 ^ sh < 2 * rem then n + 1 else if n % 2 = 0 then n else n + 1
    | .rz => n
    | .ro => if n % 2 = 1 then n else n + 1
    | .sr => if 2 ^ 32 ≤ rem * 2 ^ 32 / 2 ^ sh + draw then n + 1 else n

/-- Index on the grid of the rounded magnitude m × 2^e (R241); an index's parity is its code's least significant bit. -/
def roundIdx (g : Grid) (mode : Rnd) (draw : Nat) (m : Nat) (e : Int) : Nat :=
  if m = 0 then 0
  else
    match g with
    | .flt mb bias =>
      let ex := max (log2Of m e + bias) 1
      let q := ex - bias - mb
      let base := ((ex - 1) * 2 ^ mb).toNat
      if q ≤ e then base + m <<< (e - q).toNat
      else
        let sh := (q - e).toNat
        choose mode draw (base + m >>> sh) (m % 2 ^ sh) sh
    | .int =>
      if 0 ≤ e then m <<< e.toNat
      else choose mode draw (m >>> (-e).toNat) (m % 2 ^ (-e).toNat) (-e).toNat
    | .pow2 =>
      let k := log2Of m e
      if k < 0 then
        -- between 0 and 1: the fraction is the value itself
        let sh := (-e).toNat
        choose mode draw 0 m sh
      else
        -- between 2^k and 2^(k+1): the fraction is (a - 2^k) / 2^k
        choose mode draw (k.toNat + 1) (m - 2 ^ m.log2) m.log2

/-- The value at an index of a grid. -/
def gridValue (g : Grid) (i : Nat) : Nat × Int :=
  match g with
  | .flt mb bias =>
    if i < 2 ^ mb then (i, 1 - bias - mb) else (2 ^ mb + i % 2 ^ mb, (i / 2 ^ mb : Nat) - bias - mb)
  | .int => (i, 0)
  | .pow2 => if i = 0 then (0, 0) else (1, (i - 1 : Nat))

/-! ## FP32 -/

def f32Grid : Grid := .flt 23 127

/-- The value of an FP32 pattern (R234). -/
def dec32 (x : Lane) : Fp :=
  let w := x.toNat
  let s := bitN w 31
  let i := w % 2 ^ 31
  if 0x7F80_0000 < i then .nan
  else if i = 0x7F80_0000 then .inf s
  else let (m, e) := gridValue f32Grid i; .fin s m e

def nan32 : Lane := 0x7FC0_0000
def signed32 (s : Bool) (i : Nat) : Lane := BitVec.ofNat 32 (if s then 2 ^ 31 + i else i)

/-- round_rne to FP32: an overflow is ±∞, a NaN the output NaN (R250). -/
def rnd32 : Fp → Lane
  | .nan => nan32
  | .inf s => signed32 s 0x7F80_0000
  | .fin s m e =>
    let i := roundIdx f32Grid .rne 0 m e
    signed32 s (if 0x7F80_0000 ≤ i then 0x7F80_0000 else i)

def add32 (a b : Lane) : Lane := rnd32 ((dec32 a).add (dec32 b))
def sub32 (a b : Lane) : Lane := rnd32 ((dec32 a).sub (dec32 b))
def mul32 (a b : Lane) : Lane := rnd32 ((dec32 a).mul (dec32 b))

/-- Larger and smaller (R286): NaN if either is NaN; +0 above −0. -/
def max32 (a b : Lane) : Lane :=
  let x := dec32 a
  let y := dec32 b
  if x.isNan || y.isNan then nan32
  else if x.lt y then b else if y.lt x then a else if x.sign then b else a
def min32 (a b : Lane) : Lane :=
  let x := dec32 a
  let y := dec32 b
  if x.isNan || y.isNan then nan32
  else if x.lt y then a else if y.lt x then b else if x.sign then a else b

/-- One round of the tree of R268: neighbours are combined, an odd last value passes up. -/
def pairUp (f : Lane → Lane → Lane) : List Lane → List Lane
  | a :: b :: r => f a b :: pairUp f r
  | l => l

/-- The fold of R268 and R286 in tree order; rounds are bounded by the fuel. -/
def treeFold (f : Lane → Lane → Lane) : Nat → List Lane → Lane
  | 0, l => l.headD 0
  | n + 1, l =>
    match l with
    | [] => 0
    | [a] => a
    | _ => treeFold f n (pairUp f l)

/-- tree_sum (R268). -/
def treeSum (l : List Lane) : Lane := treeFold add32 10 l

/-- Exact sum of values, from the first (R252): −0 only when every one is −0. -/
def exactSum : List Fp → Fp
  | [] => .fin false 0 0
  | a :: r => r.foldl Fp.add a

end Sys2Proof.Machine
end

