-- ==== Sys2Proof/Machine/Operands.lean ====
section
/-! DEFINITION. Operand forms: the values of the integer instructions (R179 to R183), effective addresses (R204), stream
registers and the tensors they describe (R219 to R222), vector register names (R275, R276). -/

namespace Sys2Proof.Machine

/-! ## Integer values (R179 to R183) -/

/-- Bits 127:64 of the exact product (R179). -/
def mulHigh (u : Bool) (a b : Word) : Word :=
  if u then BitVec.ofNat 64 (a.toNat * b.toNat / 2 ^ 64) else BitVec.ofInt 64 (a.toInt * b.toInt / 2 ^ 64)

/-- Quotient rounded toward zero, with the results of R180. -/
def divValue (u : Bool) (a b : Word) : Word :=
  if b = 0 then 0xFFFF_FFFF_FFFF_FFFF else if u then a.udiv b else a.sdiv b

/-- Remainder, with the results of R180. -/
def remValue (u : Bool) (a b : Word) : Word :=
  if b = 0 then a else if u then a.umod b else a.srem b

/-- A shift amount: bits 5:0 (R179). -/
def shiftAmount (b : Word) : Nat := fld b 5 0

def minValue (u : Bool) (a b : Word) : Word := if (if u then b.ult a else b.slt a) then b else a
def maxValue (u : Bool) (a b : Word) : Word := if (if u then a.ult b else a.slt b) then b else a

/-- Leading zero bits, 0 to 64 (R181). -/
def clzValue (a : Word) : Word := BitVec.ofNat 64 (if a = 0 then 64 else 63 - a.toNat.log2)
/-- One bits (R181). -/
def popcValue (a : Word) : Word :=
  BitVec.ofNat 64 ((List.range 64).foldl (fun n i => if bit a i then n + 1 else n) 0)

/-- EXT (R181). -/
def extValue (signed : Bool) (w : ExtWidth) (a : Word) : Word :=
  let n := match w with | .w8 => 8 | .w16 => 16 | .w32 => 32
  if signed then sextN n a.toNat else BitVec.ofNat 64 (a.toNat % 2 ^ n)

/-- BFX (R182); the signed form is bfx_signed of chapter 00. -/
def bfxValue (signed : Bool) (a : Word) (hi lo : Nat) : Word :=
  let x := fld a hi lo
  if signed then sextN (hi + 1 - lo) x else BitVec.ofNat 64 x

/-- BFI (R182): the low bits of a go into bits hi:lo of d. -/
def bfiValue (d a : Word) (hi lo : Nat) : Word :=
  let m := 2 ^ (hi + 1 - lo) - 1
  (d &&& ~~~(BitVec.ofNat 64 (m <<< lo))) ||| BitVec.ofNat 64 ((a.toNat &&& m) <<< lo)

/-- LEA (R183). -/
def leaValue (sc : BitVec 2) (a b : Word) (imm : Imm) : Word := a + (b <<< sc.toNat) + sextImm imm

/-- MOVI.H (R184): bits 63:48. -/
def movihValue (d : Word) (imm : BitVec 16) : Word := (d &&& 0x0000_FFFF_FFFF_FFFF) ||| (imm.zeroExtend 64 <<< 48)

/-- ea = sA + sext(IMM, 64) (R204). -/
def State.ea (s : State) (a : SReg) (imm : Imm) : Nat := (s.getS a + sextImm imm).toNat

/-- A program-counter-relative target (R188). -/
def State.relTarget (s : State) (imm : Imm) : Word := s.str.pc + (sextImm imm <<< 1)

/-! ## Stream registers (R219 to R222) -/

/-- Word w of stream register n of the job in focus. -/
def Job.stWord (j : Job) (n w : Nat) : Word := Cells.get 0 j.streg (8 * n + w)
def Job.setStWord (j : Job) (n w : Nat) (v : Word) : Job := { j with streg := Cells.set 0 j.streg (8 * n + w) v }
/-- All eight words (R226). -/
def Job.stWords (j : Job) (n : Nat) : List Word := (List.range 8).map (j.stWord n)

def stW (st : List Word) (i : Nat) : Word := st.getD i 0
def stBase (st : List Word) : Nat := (stW st 0).toNat
/-- Extent of dimension d (R219). -/
def stE (st : List Word) (d : Nat) : Nat := fld (stW st 1) (16 * d + 15) (16 * d) + 1
/-- Signed byte stride of dimension d. -/
def stS (st : List Word) (d : Nat) : Int := (BitVec.ofNat 32 (fld (stW st (2 + d / 2)) (32 * (d % 2) + 31) (32 * (d % 2)))).toInt
def stOvf (st : List Word) : Bool := bit (stW st 4) 31
/-- NDM1 + 1. -/
def stDims (st : List Word) : Nat := fld (stW st 4) 25 24 + 1
def stBdim (st : List Word) : Nat := fld (stW st 4) 17 16
def stBlen (st : List Word) : Nat := fld (stW st 4) 13 8
def stFmt (st : List Word) : Nat := fld (stW st 4) 5 0
def stSbase (st : List Word) : Nat := (stW st 5).toNat
/-- Signed scale stride of dimension d. -/
def stSS (st : List Word) (d : Nat) : Int := (BitVec.ofNat 16 (fld (stW st 6) (16 * d + 15) (16 * d))).toInt

/-- The formats of R220. -/
def fmtListed (f : Nat) : Bool :=
  (1 ≤ f && f ≤ 8) || (0x10 ≤ f && f ≤ 0x12) || (0x18 ≤ f && f ≤ 0x1A) || (0x20 ≤ f && f ≤ 0x22) || f == 0x28
/-- Formats with blocks of 32 and a scale byte (R220). -/
def fmtBlock (f : Nat) : Bool := f == 0x20 || f == 0x21 || f == 0x22 || f == 0x28
/-- Four-bit formats. -/
def fmtFour (f : Nat) : Bool := f == 0x22 || f == 0x28
/-- Integer formats. -/
def fmtInt (f : Nat) : Bool := 1 ≤ f && f ≤ 8
/-- Signed integer formats. -/
def fmtSigned (f : Nat) : Bool := fmtInt f && f % 2 == 0
/-- Floating formats without blocks that hold numbers (E8M0 apart). -/
def fmtFloat (f : Nat) : Bool := f == 0x10 || f == 0x11 || f == 0x12 || f == 0x18 || f == 0x19
/-- Element size in bytes; 0 for the four-bit formats (R220). -/
def fmtSize (f : Nat) : Nat :=
  if fmtFour f then 0
  else if f ≤ 2 then 1 else if f ≤ 4 then 2 else if f ≤ 6 then 4 else if f ≤ 8 then 8
  else if f == 0x10 then 4 else if f == 0x11 || f == 0x12 then 2 else 1

/-- Modulo 2^64 (R221). -/
def wrap64 (i : Int) : Nat := (i % 2 ^ 64).toNat

/-- Byte address and nibble of an element (R221). -/
def elemAddr (st : List Word) (ix : List Nat) : Nat × Nat :=
  let term := fun d =>
    if d = 0 && fmtFour (stFmt st) then ((ix.getD 0 0 / 2 : Nat) : Int) else (ix.getD d 0 : Int) * stS st d
  let a := (List.range (stDims st)).foldl (fun a d => a + term d) (stBase st : Int)
  (wrap64 a, if fmtFour (stFmt st) then ix.getD 0 0 % 2 else 0)

/-- Address of an element's scale byte (R221). -/
def scaleAddr (st : List Word) (ix : List Nat) : Nat :=
  let term := fun d => ((if d = stBdim st then ix.getD d 0 / 32 else ix.getD d 0 : Nat) : Int) * stSS st d
  wrap64 ((List.range (stDims st)).foldl (fun a d => a + term d) (stSbase st : Int))

/-- The stream register breaks R222. -/
def stBad (st : List Word) : Bool :=
  let w4 := stW st 4
  let f := stFmt st
  let beyond := (List.range 4).filter fun d => stDims st ≤ d
  fld w4 63 32 != 0 || fld w4 30 26 != 0 || fld w4 23 18 != 0 || fld w4 15 14 != 0 || fld w4 7 6 != 0 || stW st 7 != 0 ||
  !fmtListed f || stBlen st != (if fmtBlock f then 32 else 0) || stDims st ≤ stBdim st ||
  beyond.any (fun d => stE st d != 1 || stS st d != 0 || stSS st d != 0) ||
  (!fmtBlock f && (stSbase st != 0 || (List.range 4).any fun d => stSS st d != 0)) ||
  (fmtFour f && (stS st 0 != 0 || stE st 0 % 2 == 1))

/-- The stream-register fault, which names the register (R222, R423). -/
def stFault (n : Nat) : FaultInfo := { FaultInfo.of 0x18 with aux := n }

/-- Corners of the byte addresses that an index box touches: least and past-greatest; past 2^64 when one may wrap. -/
def boxOf (base : Nat) (terms : List Int) (size : Nat) : Nat × Nat :=
  let lo := terms.foldl (fun a t => a + min t 0) (base : Int)
  let hi := terms.foldl (fun a t => a + max t 0) (base : Int)
  if lo < 0 then (0, 2 ^ 64 + size) else (lo.toNat, hi.toNat + size)

/-- Bytes that the elements of a tensor touch, dimensions' extents given (R111). -/
def elemBox (st : List Word) (ext : List Nat) : Nat × Nat :=
  let term := fun d =>
    let e := ext.getD d 1 - 1
    if d = 0 && fmtFour (stFmt st) then ((e / 2 : Nat) : Int) else (e : Int) * stS st d
  boxOf (stBase st) ((List.range (stDims st)).map term) (Nat.max 1 (fmtSize (stFmt st)))

/-- Bytes that the scale bytes of a tensor touch. -/
def scaleBox (st : List Word) (ext : List Nat) : Nat × Nat :=
  let term := fun d =>
    let e := ext.getD d 1 - 1
    ((if d = stBdim st then e / 32 else e : Nat) : Int) * stSS st d
  boxOf (stSbase st) ((List.range (stDims st)).map term) 1

/-- All four extents of a stream register. -/
def stExt (st : List Word) : List Nat := (List.range 4).map (stE st)

/-! ## Vector register names (R275 to R277) -/

/-- The window index of a name, or none when it lies outside the window (R275, R276). -/
def Job.resolve (j : Job) (rotate : Bool) (name : Nat) : Option Nat :=
  let i :=
    if rotate && j.rs != 0 && j.rb ≤ name && name < j.rb + j.rs then
      j.rb + (name - j.rb + (j.rs - j.rot % j.rs)) % j.rs
    else name
  if 511 < name || recVregs j.lrec ≤ i then none else some i

/-- The window indices of a run of n names; none when one lies outside. -/
def Job.resolveRun (j : Job) (rotate : Bool) (name n : Nat) : Option (List Nat) :=
  (List.range n).mapM fun i => j.resolve rotate (name + i)

/-- Lane l of window register i. -/
def Job.lane (j : Job) (i l : Nat) : Lane := Cells.get 0 j.vreg (64 * i + l)
def Job.setLane (j : Job) (i l : Nat) (v : Lane) : Job := { j with vreg := Cells.set 0 j.vreg (64 * i + l) v }
def Job.lanes (j : Job) (i : Nat) : List Lane := Cells.getMany 0 j.vreg (64 * i) 64
def Job.setLanes (j : Job) (i : Nat) (vs : List Lane) : Job := { j with vreg := Cells.setMany 0 j.vreg (64 * i) vs }

/-- Element (i, n) of accumulator a (R256). -/
def Job.accAt (j : Job) (a i n : Nat) : Lane := Cells.get 0 j.acc (4096 * a + 64 * i + n)
def Job.setAcc (j : Job) (a i n : Nat) (v : Lane) : Job := { j with acc := Cells.set 0 j.acc (4096 * a + 64 * i + n) v }

/-- Lane l of latch q (R286). -/
def Job.latchAt (j : Job) (q l : Nat) : Lane := Cells.get 0 j.latch (64 * q + l)
def Job.setLatch (j : Job) (q l : Nat) (v : Lane) : Job := { j with latch := Cells.set 0 j.latch (64 * q + l) v }

end Sys2Proof.Machine
end

