-- ==== Sys2Proof/Machine/Formats.lean ====
section
/-! DEFINITION. Number formats and conversions (chapter 09): decoding, rounding to a format with what lies beyond its
largest code, MX and Emtum-4 blocks. -/

namespace Sys2Proof.Machine

/-- A floating format (R234): grid, code of its largest finite value, sign bit, infinity and output NaN. -/
structure FFmt where
  grid : Grid
  max  : Nat
  bits : Nat
  inf  : Option Nat
  nan  : Option Nat
  deriving DecidableEq, Repr, Inhabited

def fp32F : FFmt := ⟨.flt 23 127, 0x7F7F_FFFF, 32, some 0x7F80_0000, some 0x7FC0_0000⟩
def fp16F : FFmt := ⟨.flt 10 15, 0x7BFF, 16, some 0x7C00, some 0x7E00⟩
def bf16F : FFmt := ⟨.flt 7 127, 0x7F7F, 16, some 0x7F80, some 0x7FC0⟩
def e4m3F : FFmt := ⟨.flt 3 7, 0x7E, 8, none, some 0x7F⟩
def e5m2F : FFmt := ⟨.flt 2 15, 0x7B, 8, some 0x7C, some 0x7E⟩
def e2m1F : FFmt := ⟨.flt 1 1, 0x7, 4, none, none⟩

/-- The floating format of a code of R220; block formats give their element format (R237). -/
def ffmtOf (f : Nat) : FFmt :=
  if f = 0x11 then fp16F else if f = 0x12 then bf16F else if f = 0x18 || f = 0x20 then e4m3F
  else if f = 0x19 || f = 0x21 then e5m2F else if f = 0x22 then e2m1F else fp32F

/-- The value of a code of a floating format (R234). -/
def FFmt.dec (f : FFmt) (c : Nat) : Fp :=
  let s := bitN c (f.bits - 1)
  let i := c % 2 ^ (f.bits - 1)
  match f.inf with
  | some n => if n < i then .nan else if i = n then .inf s else let (m, e) := gridValue f.grid i; .fin s m e
  | none => if f.nan == some i then .nan else let (m, e) := gridValue f.grid i; .fin s m e

def FFmt.code (f : FFmt) (s : Bool) (i : Nat) : Nat := if s then 2 ^ (f.bits - 1) + i else i

/-- A conversion's result under OVF = 0, and whether the element lies beyond the largest code or is a non-finite input
that faults under OVF = 1 (R242, R244). -/
structure Conv where
  code : Nat
  bad  : Bool
  deriving DecidableEq, Repr, Inhabited

/-- Conversion to a floating format (R241, R242, R244). -/
def FFmt.conv (f : FFmt) (mode : Rnd) (draw : Nat) : Fp → Conv
  | .nan => match f.nan with | some n => ⟨n, false⟩ | none => ⟨0, true⟩
  | .inf s => match f.inf with | some n => ⟨f.code s n, false⟩ | none => ⟨f.code s f.max, true⟩
  | .fin s m e =>
    let i := roundIdx f.grid mode draw m e
    if f.max < i then ⟨f.code s f.max, true⟩ else ⟨f.code s i, false⟩

/-- Conversion to an integer format of n bits (R242, R244, R246). -/
def intConv (signed : Bool) (n : Nat) (mode : Rnd) (draw : Nat) : Fp → Conv
  | .nan => ⟨0, true⟩
  | .inf s =>
    ⟨if signed then (if s then 2 ^ (n - 1) else 2 ^ (n - 1) - 1) else if s then 0 else 2 ^ n - 1, true⟩
  | .fin s m e =>
    let i := roundIdx .int mode draw m e
    if signed then
      if s then (if 2 ^ (n - 1) < i then ⟨2 ^ (n - 1), true⟩ else ⟨(2 ^ n - i) % 2 ^ n, false⟩)
      else if 2 ^ (n - 1) ≤ i then ⟨2 ^ (n - 1) - 1, true⟩ else ⟨i, false⟩
    else if s && i != 0 then ⟨0, true⟩
    else if 2 ^ n ≤ i then ⟨2 ^ n - 1, true⟩ else ⟨i, false⟩

/-- Conversion to E8M0 (R236). -/
def e8m0Conv : Fp → Conv
  | .nan | .inf _ => ⟨0xFF, false⟩
  | .fin _ m e =>
    if m = 0 then ⟨0, false⟩ else ⟨(max 0 (min 254 (log2Of m e + 127))).toNat, false⟩

/-- The value of a code of a format without blocks (R233, R234, R236). -/
def decodeFmt (f c : Nat) : Fp :=
  if fmtInt f then
    let n := 8 * fmtSize f
    if fmtSigned f && bitN c (n - 1) then .fin true (2 ^ n - c % 2 ^ n) 0 else .fin false (c % 2 ^ n) 0
  else if f = 0x1A then (if c = 0xFF then .nan else .fin false 1 ((c : Int) - 127))
  else (ffmtOf f).dec c

/-- Conversion of an exact value to a format without blocks. -/
def convertFmt (f : Nat) (mode : Rnd) (draw : Nat) (x : Fp) : Conv :=
  if fmtInt f then intConv (fmtSigned f) (8 * fmtSize f) mode draw x
  else if f = 0x1A then e8m0Conv x
  else (ffmtOf f).conv mode draw x

/-! ## Block decode (R237 to R239) -/

/-- Grid and largest index of an Emtum-4 type (R239). -/
def emGrid : Nat → Grid
  | 0 => .int | 1 => .flt 1 1 | 2 => .pow2 | _ => .flt 1 0
/-- G_T (R239). -/
def emMax : Nat → Nat
  | 0 => 7 | 1 => 6 | 2 => 64 | _ => 12

/-- The value of an Emtum-4 code under its scale byte (R238, R239). -/
def emDec (scale c : Nat) : Fp :=
  let t := scale / 64 % 4
  let e : Int := ((scale % 64 : Nat) : Int) - 32
  if scale % 64 = 63 then .nan
  else if t = 0 then
    if 8 ≤ c % 16 then .fin true (16 - c % 16) e else .fin false (c % 16) e
  else
    let (m, x) := gridValue (emGrid t) (c % 8)
    .fin (bitN c 3) m (x + e)

/-- The exact value of a block element under its scale byte. -/
def blockExact (f scale c : Nat) : Fp :=
  if f = 0x28 then emDec scale c
  else if scale = 0xFF then .nan
  else ((ffmtOf f).dec c).scale ((scale : Int) - 127)

/-- Decodes a block element to FP32 (R237): a product beyond the largest code is marked. -/
def blockDec32 (f scale c : Nat) : Conv := fp32F.conv .rne 0 (blockExact f scale c)

/-- Decodes a code of any format to an FP32 lane, with its scale byte: FP32 is not converted, so a NaN keeps its bits (R235);
integers round RNE (R246); exact otherwise but for block products beyond FP32. -/
def decode32 (f scale c : Nat) : Conv :=
  if f = 0x10 then ⟨c, false⟩ else if fmtBlock f then blockDec32 f scale c else fp32F.conv .rne 0 (decodeFmt f c)

/-! ## Block quantisation (R247 to R249) -/

/-- The largest magnitude of finite values. -/
def amaxOf : List Fp → Nat × Int
  | [] => (0, 0)
  | x :: r =>
    let (n, q) := amaxOf r
    match x with
    | .fin _ m e => if (Fp.fin false n q).lt (.fin false m e) then (m, e) else (n, q)
    | _ => (n, q)

/-- emax of an MX element format (R237). -/
def mxEmax (f : Nat) : Int := if f = 0x20 then 8 else if f = 0x21 then 15 else 2

/-- The code of one element of an MX block divided by 2^x: beyond the largest code it takes it (R247 steps 4, 5). -/
def mxCode (f : Nat) (mode : Rnd) (x : Int) (v : Fp × Nat) : Nat :=
  match v.1 with
  | .fin s m e =>
    let g := ffmtOf f
    g.code s (Nat.min (roundIdx g.grid mode v.2 m (e - x)) g.max)
  | _ => 0

/-- Quantises a block to an MX format with a computed scale: the scale byte and the codes (R247). Each value comes with
its draw. -/
def mxQuant (f : Nat) (mode : Rnd) (vs : List (Fp × Nat)) : Nat × List Nat :=
  if vs.any fun v => !v.1.isFin then (0xFF, vs.map fun _ => 0)
  else
    let (m, e) := amaxOf (vs.map fun v => v.1)
    if m = 0 then (0, vs.map fun v => (ffmtOf f).code v.1.sign 0)
    else
      let x := max (-127) (min 127 (log2Of m e - mxEmax f))
      ((x + 127).toNat, vs.map (mxCode f mode x))

/-- The least t with m × 2^e ≤ g × 2^t: ceil(log2(a / G)). -/
def ceilLog2Div (m : Nat) (e : Int) (g : Nat) : Int :=
  let t := log2Of m e - (g.log2 : Int)
  let le := fun (t : Int) => !(Fp.fin false g t).lt (.fin false m e)
  if le (t - 1) then t - 1 else if le t then t else t + 1

/-- The code of one element under an Emtum-4 type and exponent (R248 steps 4, 5). -/
def emCode (t : Nat) (mode : Rnd) (x : Int) (v : Fp × Nat) : Nat :=
  match v.1 with
  | .fin s m e =>
    let i := roundIdx (emGrid t) mode v.2 m (e - x)
    if t = 0 then
      if s then (16 - Nat.min i 8) % 16 else Nat.min i 7
    else (if s then 8 else 0) + Nat.min i 7
  | _ => 0

/-- Quantises a block to a given Emtum-4 type (R248). -/
def emQuantType (t : Nat) (mode : Rnd) (vs : List (Fp × Nat)) : Nat × List Nat :=
  if vs.any fun v => !v.1.isFin then (t * 64 + 63, vs.map fun _ => 0)
  else
    let (m, e) := amaxOf (vs.map fun v => v.1)
    if m = 0 then (t * 64 + 32, vs.map fun v => if t ≠ 0 && v.1.sign then 8 else 0)
    else
      let x := max 0 (min 62 (ceilLog2Div m e (emMax t) + 32))
      (t * 64 + x.toNat, vs.map (emCode t mode (x - 32)))

/-- The exact sum of squared errors of a quantised block (R249). -/
def emError (vs : List (Fp × Nat)) (q : Nat × List Nat) : Fp :=
  ((vs.zip q.2).map fun (v, c) => let d := v.1.sub (emDec q.1 c); d.mul d).foldl Fp.add (.fin false 0 0)

/-- Automatic mode: the type of least error, a tie to the lower number (R249). -/
def emQuant (mode : Rnd) (vs : List (Fp × Nat)) : Nat × List Nat :=
  if vs.any fun v => !v.1.isFin then emQuantType 0 mode vs
  else
    let all := (List.range 4).map fun t => let q := emQuantType t mode vs; (q, emError vs q)
    (all.foldl (fun best c => if c.2.lt best.2 then c else best) (all.headD ((0, []), .nan))).1

/-- Quantises a block of 32 values to a block format: the scale byte and the codes. -/
def blockQuant (f : Nat) (mode : Rnd) (vs : List (Fp × Nat)) : Nat × List Nat :=
  if f = 0x28 then emQuant mode vs else mxQuant f mode vs

/-- Bytes of block codes: one to a byte, or two with even elements in bits 3:0 (R221). -/
def packCodes (f : Nat) (cs : List Nat) : List Byte := if fmtFour f then packPairs cs else cs.map (BitVec.ofNat 8)
where
  packPairs : List Nat → List Byte
    | c :: d :: r => BitVec.ofNat 8 (c % 16 + d % 16 * 16) :: packPairs r
    | [c] => [BitVec.ofNat 8 c]
    | [] => []

end Sys2Proof.Machine
end

