-- ==== Sys2Proof/Machine/MatArith.lean ====
section
/-! DEFINITION. The arithmetic of the matrix engine: format classes (R259), exact operands, group sums (R251, R252, R264),
and the selection of MTOPK (R265). -/

namespace Sys2Proof.Machine

/-- Classes of stationary formats (R259): 0 16-bit, 1 8-bit, 2 four-bit. -/
def fmtClass (f : Nat) : Option Nat :=
  if f = 0x11 || f = 0x12 then some 0
  else if f = 0x18 || f = 0x19 || f = 0x20 || f = 0x21 then some 1
  else if fmtFour f then some 2
  else none

/-- Kmax and K-group of a class (R251, R259). -/
def classKmax (c : Nat) : Nat := 64 * 2 ^ c
def classGroup (c : Nat) : Nat := 16 * 2 ^ c

/-- A moving format goes with a stationary format (R259); FP32 moves on 16-bit stationaries. -/
def pairOk (stat mov : Nat) : Bool :=
  match fmtClass stat with
  | none => false
  | some c => fmtClass mov == some c || (c == 0 && mov == 0x10)

/-- Formats to which ports A and B may be bound (R260). -/
def abPortFmt (f : Nat) : Bool := fmtFloat f

/-- The exact value of an operand element (R252). -/
def operandVal (f scale code : Nat) : Fp := if fmtBlock f then blockExact f scale code else (ffmtOf f).dec code

/-- The value of an operand element after its port: rounded back to the operand's format (R260). -/
def portedVal (f : Nat) (v : Lane) : Fp :=
  if f = 0x10 then dec32 v else (ffmtOf f).dec ((ffmtOf f).conv .rne 0 (dec32 v)).code

/-- Column n of an image as exact values. -/
def Image.col (g : Image) (n : Nat) : List Fp :=
  (List.range g.k).map fun k => operandVal g.fmt (Cells.get 0 g.sc (256 * n + k / 32)) (Cells.get 0 g.el (256 * n + k))

/-- Splits a list into groups of g, the last one short; fuel bounds their number. -/
def groupsOf {α : Type} (g : Nat) : Nat → List α → List (List α)
  | 0, _ => []
  | f + 1, l => if l.isEmpty then [] else l.take g :: groupsOf g f (l.drop g)

/-- Terms of a group: products, or squared differences (R252, R264). -/
def term (dist : Bool) (a b : Fp) : Fp := if dist then (let d := a.sub b; d.mul d) else a.mul b

/-- One result element: the groups' exact sums, each rounded, added in order (R252). -/
def dotRow (dist : Bool) (group : Nat) (a b : List Fp) (c : Lane) : Lane :=
  (groupsOf group 256 (a.zip b)).foldl (fun c g => add32 c (rnd32 (exactSum (g.map fun x => term dist x.1 x.2)))) c

/-- A row against an image: the elements of columns below N, their starting values given (R262). -/
def mulRow (dist : Bool) (g : Image) (a : List Fp) (c : Nat → Lane) : List Lane :=
  (List.range g.n).map fun n => dotRow dist (classGroup ((fmtClass g.fmt).getD 0)) a (g.col n) (c n)

/-- a goes before b in MTOPK's order (R265): numbers before NaN, ascending, or descending with L. -/
def topkBefore (l : Bool) (a b : Lane) : Bool :=
  let x := dec32 a
  let y := dec32 b
  if x.isNan then false else if y.isNan then true else if l then y.lt x else x.lt y

/-- Inserts after everything that does not come later, so equal values keep their order. -/
def topkInsert (l : Bool) (x : Lane × Nat) : List (Lane × Nat) → List (Lane × Nat)
  | [] => [x]
  | y :: r => if topkBefore l x.1 y.1 then x :: y :: r else y :: topkInsert l x r

/-- MTOPK's choice for one row: values and column numbers, k of each (R265). -/
def topkRow (l : Bool) (row : List Lane) (off : Lane) (k : Nat) : List Lane × List Lane :=
  let sorted := row.zipIdx.foldl (fun s x => topkInsert l x s) []
  let pick := (List.range k).map fun j => sorted[j]?
  (pick.map fun p => (p.map fun x => x.1).getD nan32, pick.map fun p => (p.map fun x => BitVec.ofNat 32 x.2 + off).getD 0xFFFF_FFFF)

end Sys2Proof.Machine
end

