-- ==== Sys2Proof/WellFormed.lean ====
section
/-! DEFINITION. Well-formed instructions: the reserved values of each entry, as a checkable predicate. -/

namespace Sys2Proof

/-- Bytes of a byte form (R156). -/
def Form.len : Form → Nat
  | .short => 2 | .scalar => 4 | .guarded => 6 | .wide => 8 | .literal => 12

/-- R160: `(!p0)` is a reserved encoding. -/
def Hdr.wf (h : Hdr) : Bool := !(h.g.neg && h.g.p == 0)

/-- R82: ordering code 0b11 and scope code 0b111 are reserved. -/
def Ose.wf (o : Ose) : Bool := o.ord != 3 && o.scp != 7

/-- R179: the immediate of an immediate shift lies in 0 to 63. -/
def shiftImmWf (imm : Imm) : Bool := imm.toNat < 64

/-- R190: the body of a loop is not empty: IMM x 2 is greater than the word's own length. -/
def loopWf (h : Hdr) (imm : Imm) : Bool := decide ((h.form.len : Int) < imm.toInt * 2)

/-- R308: slot number 0 is a reserved encoding of the port instructions. -/
def slotWf (n : Slot) : Bool := n != 0

/-- The numbers of the system registers (R195). -/
def sysRegListed (r : BitVec 12) : Bool :=
  let n := r.toNat
  n ≤ 3 || (0x10 ≤ n && n ≤ 0x20) || (0x24 ≤ n && n ≤ 0x31) || (0x40 ≤ n && n ≤ 0x4F) || (0x60 ≤ n && n ≤ 0x62)

/-- R310: the slot-state indices that are listed. -/
def slotIndexListed (i : BitVec 12) : Bool := i.toNat ≤ 0x403

/-- The header of an instruction; a short form has guard p0 (R162); an event has none. -/
def Instr.hdr : Instr → Option Hdr
  | .add h .. | .sub h .. | .mul h .. | .mulh h .. | .div h .. | .rem h .. | .and h .. | .or h .. | .xor h ..
  | .andn h .. | .shl h .. | .shr h .. | .sar h .. | .min h .. | .max h .. | .addImm h .. | .subImm h .. | .mulImm h ..
  | .mulhImm h .. | .divImm h .. | .remImm h .. | .andImm h .. | .orImm h .. | .xorImm h .. | .andnImm h ..
  | .shlImm h .. | .shrImm h .. | .sarImm h .. | .minImm h .. | .maxImm h .. | .clz h .. | .popc h .. | .ext h ..
  | .bfx h .. | .bfi h .. | .lea h .. | .mov h .. | .movFromLc h .. | .movToLc h .. | .movi h .. | .moviH h ..
  | .cmp h .. | .cmpImm h .. | .sel h .. | .plog h .. | .br h .. | .brQ h .. | .jmp h .. | .call h .. | .callR h ..
  | .ret h .. | .nop h | .loop h .. | .loopp h .. | .ld h .. | .st h .. | .amo h .. | .cas h .. | .fence h ..
  | .pref h .. | .wback h .. | .smap h .. | .sunmap h .. | .sflush h .. | .qpush h .. | .qpushP h .. | .qpop h ..
  | .qdrop h .. | .tksend h .. | .tkwait h .. | .bar h .. | .bara h .. | .barw h .. | .join h | .setf h ..
  | .setfAdd h .. | .waitf h .. | .semset h .. | .semacq h .. | .semrel h .. | .tlwait h .. | .tlget h .. | .tlgetI h ..
  | .vld h .. | .vst h .. | .vmov h .. | .vsplat h .. | .vperm h .. | .vidx h .. | .vget h .. | .vput h .. | .vtest h ..
  | .vred h .. | .vredStream h .. | .vdrain h .. | .vrow h .. | .vrbase h .. | .mlds h .. | .mldsK h .. | .mmul h ..
  | .mmulAm h .. | .mmulg h .. | .mdist h .. | .mtopk h .. | .mzero h .. | .mst h .. | .mlda h .. | .mpub h ..
  | .settle h .. | .settleAll h | .lqry h .. | .lqryT h .. | .lqryR h .. | .pload h .. | .psget h .. | .psset h ..
  | .preset h .. | .pinfo h .. | .stset h .. | .stget h .. | .stld h .. | .stadv h .. | .cpy h .. | .renq h ..
  | .cstat h .. | .srd h .. | .swr h .. | .crangeWrite h .. | .lfsrSeed h .. | .trap h .. | .brk h .. | .isync h
  | .eret h | .launch h .. | .sliceof h .. => some h
  | .nopShort | .movShort .. | .addShort .. | .subShort .. | .andShort .. | .orShort .. | .xorShort .. | .shlShort ..
  | .shrShort .. | .sarShort .. | .addImmShort .. | .moviShort .. | .joinShort | .retShort => some ⟨⟨false, 0⟩, .short⟩
  | _ => none

/-- Is this row an event of the part, which no program encodes? -/
def Instr.isEvent (i : Instr) : Bool := i.hdr.isNone

/-- The reserved values that the entries name, beyond fields that must be zero (R172). -/
def Instr.fieldsWf : Instr → Bool
  | .shlImm _ _ _ imm | .shrImm _ _ _ imm | .sarImm _ _ _ imm => shiftImmWf imm
  | .bfx _ _ _ _ hi lo | .bfi _ _ _ hi lo => decide (lo.toNat ≤ hi.toNat)
  | .cmp _ _ d _ _ | .cmpImm _ _ d _ _ => d != 0
  | .plog _ op d a b =>
    d != 0 && (match op with
      | .not => b == 0
      | .set | .clr => a == 0 && b == 0
      | _ => true)
  | .loop h _ _ imm | .loopp h _ _ _ imm => loopWf h imm
  | .ld _ size signed _ _ ose _ => ose.wf && !(signed && size == .b8)
  | .st _ _ _ _ ose _ | .cas _ _ _ _ _ ose => ose.wf
  | .amo _ op size _ _ _ ose => ose.wf && !(op == .fadd && size != .b4)
  | .fence _ scp | .setf _ _ _ scp _ _ | .setfAdd _ _ _ scp _ _ | .waitf _ _ _ _ _ scp _ _ => scp != 7
  | .sflush _ mask => mask != 0
  | .vtest _ _ n _ => n != 0
  | .vmov _ t2 _ _ t _ _ py _ => t2 || (t == 0 && py == 0)
  | .vrbase _ _ size => decide (size.toNat ≤ 512)
  | .vrow _ _ _ _ nc => nc != 0 && decide (nc.toNat ≤ 64)
  | .mmulAm _ _ _ _ _ m => m != 0 && decide (m.toNat ≤ 64)
  | .mmulg _ _ _ _ _ _ g _ _ => g != 0 && decide (g.toNat ≤ 256)
  | .mtopk _ _ _ _ _ k nc => k != 0 && decide (k.toNat ≤ 16) && nc != 0 && decide (nc.toNat ≤ 64)
  | .mpub _ _ n => n != 0 && decide (n.toNat ≤ 8)
  | .settle _ mask => mask != 0
  | .pload _ _ n _ _ | .preset _ n | .pinfo _ _ n => slotWf n
  | .psget _ _ n i | .psset _ n i _ => slotWf n && slotIndexListed i
  | .cstat _ _ c _ => decide (c.toNat ≤ 4)
  | .srd _ _ r => sysRegListed r
  | .swr _ r _ => sysRegListed r && !(decide (0x24 ≤ r.toNat) && decide (r.toNat ≤ 0x27))
      && !(decide (0x2C ≤ r.toNat) && decide (r.toNat ≤ 0x2F))
  | _ => true

/-- A well-formed instruction: its guard and its fields hold no reserved value (R160, R172). Events are always well
formed: parameters that name nothing make an event do nothing. -/
def Instr.wf (i : Instr) : Bool :=
  (match i.hdr with
    | some h => h.wf
    | none => true) && i.fieldsWf

end Sys2Proof
end

