-- ==== Sys2Proof/Decode.lean ====
section
/-! DEFINITION. The byte forms, the internal word, the decoder and the encoder (R156 to R168). Words are natural numbers:
field hi:lo of w is w / 2^lo mod 2^(hi-lo+1), which Lean's kernel evaluates on numerals. -/

namespace Sys2Proof

/-- Bits hi:lo of a number (R8). -/
def bits (w hi lo : Nat) : Nat := w / 2 ^ lo % 2 ^ (hi + 1 - lo)

/-- Why bytes are not an instruction. -/
inductive Reject where
  /-- Fewer bytes than the first byte's form needs. -/
  | truncated
  /-- First byte 0b1111_1xxx (R156, R169): fill status 1. -/
  | reservedPrefix
  /-- The byte form breaks R162 to R165: fill status 2. -/
  | reservedForm
  /-- The opcode is reserved (R168): fill status 2. -/
  | reservedOpcode
  /-- A reserved value, a reserved guard, or an unused field that is not zero (R160, R161, R172): fill status 2. -/
  | reservedEncoding
  deriving DecidableEq, Repr

/-- The form that a first byte names (R156). -/
def formOfByte (b : Nat) : Option Form :=
  if b < 0x80 then some .short
  else if b < 0xC0 then some .scalar
  else if b < 0xE0 then some .guarded
  else if b < 0xF0 then some .wide
  else if b < 0xF8 then some .literal
  else none

/-- The little-endian number of a list of bytes (R157). -/
def leNat : List Byte → Nat
  | [] => 0
  | b :: bs => b.toNat + 256 * leNat bs

/-- The n low bytes of a number, little-endian. -/
def leBytes : Nat → Nat → List Byte
  | 0, _ => []
  | n + 1, w => BitVec.ofNat 8 w :: leBytes n (w / 256)

/-- Sign-extend the n-bit number v to m bits (R8). -/
def sextNat (n m v : Nat) : Nat := if v < 2 ^ (n - 1) then v else v + (2 ^ m - 2 ^ n)

/-! ### The internal word (R159) -/

/-- OP, G and MOD in their places. -/
def wHead (op g md : Nat) : Nat := op * 2 ^ 88 + g * 2 ^ 83 + md * 2 ^ 79

/-- The S format (R159). -/
def wS (op g md sd sa sb ose imm : Nat) : Nat :=
  wHead op g md + sd * 2 ^ 73 + sa * 2 ^ 67 + sb * 2 ^ 61 + ose * 2 ^ 53 + imm * 2 ^ 5

/-- The V format (R159). -/
def wV (op g md vd vs vt st ss px py pz imm : Nat) : Nat :=
  wHead op g md + vd * 2 ^ 70 + vs * 2 ^ 61 + vt * 2 ^ 52 + st * 2 ^ 47 + ss * 2 ^ 41 + px * 2 ^ 36 + py * 2 ^ 31
    + pz * 2 ^ 26 + imm * 2 ^ 5

/-- The M format (R159). -/
def wM (op g md acd acs sta stb stc ss pa pb pc vd imm : Nat) : Nat :=
  wHead op g md + acd * 2 ^ 76 + acs * 2 ^ 73 + sta * 2 ^ 68 + stb * 2 ^ 63 + stc * 2 ^ 58 + ss * 2 ^ 52 + pa * 2 ^ 47
    + pb * 2 ^ 42 + pc * 2 ^ 37 + vd * 2 ^ 28 + imm * 2 ^ 5

/-- The three operand formats of R159. -/
inductive Fmt where
  | S | V | M
  deriving DecidableEq, Repr

/-- The format of a major opcode, none where it is reserved (R168). -/
def opFormat (op : Nat) : Option Fmt :=
  if op ≤ 0x0E || (0x10 ≤ op && op ≤ 0x1E) || (0x20 ≤ op && op ≤ 0x2A) || (0x40 ≤ op && op ≤ 0x43) || op == 0x4F
      || (0x50 ≤ op && op ≤ 0x52) || (0x60 ≤ op && op ≤ 0x69) || (0x80 ≤ op && op ≤ 0x8F) || (0xB0 ≤ op && op ≤ 0xB4)
      || (0xB8 ≤ op && op ≤ 0xBB) || (0xC0 ≤ op && op ≤ 0xC2) || (0xD0 ≤ op && op ≤ 0xD7) then some .S
  else if 0x90 ≤ op && op ≤ 0x9C then some .V
  else if 0xA0 ≤ op && op ≤ 0xAA then some .M
  else none

/-- Opcodes whose scalar form carries an immediate in place of SB (R163). -/
def scalarImmOp (op : Nat) : Bool := (0x10 ≤ op && op ≤ 0x1E) || op == 0x27 || op == 0x29

/-- The word of a scalar form (R163). -/
def expandScalar (q : Nat) : Except Reject Nat :=
  let op := bits q 5 0
  if scalarImmOp op then
    .ok (wS op 0 (bits q 29 26) (bits q 13 8) (bits q 19 14) 0 0 (sextNat 8 48 (bits q 31 30 * 64 + bits q 25 20)))
  else if bits q 31 30 = 0 then .ok (wS op 0 (bits q 29 26) (bits q 13 8) (bits q 19 14) (bits q 25 20) 0 0)
  else .error .reservedForm

/-- The word of a guarded form (R164). A reserved opcode is told apart from a V or M opcode in this form. -/
def expandGuarded (q : Nat) : Except Reject Nat :=
  let op := bits q 15 8
  match opFormat op with
  | none => .error .reservedOpcode
  | some .S =>
    if 0x60 ≤ op && op ≤ 0x7F then
      .ok (wS op (bits q 4 0) (bits q 19 16) (bits q 25 20) (bits q 31 26) 0 (bits q 39 32) (sextNat 8 48 (bits q 47 40)))
    else
      .ok (wS op (bits q 4 0) (bits q 19 16) (bits q 25 20) (bits q 31 26) (bits q 37 32) 0 (sextNat 10 48 (bits q 47 38)))
  | some _ => .error .reservedForm

/-- The word of a wide form (R165). -/
def expandWide (q : Nat) : Except Reject Nat :=
  let op := bits q 15 8
  let g := bits q 20 16
  let md := bits q 3 0
  match opFormat op with
  | none => .error .reservedOpcode
  | some .S => .ok (wS op g md (bits q 26 21) (bits q 32 27) (bits q 38 33) (bits q 46 39) (sextNat 17 48 (bits q 63 47)))
  | some .V =>
    if bits q 63 63 = 0 then
      .ok (wV op g md (bits q 29 21) (bits q 38 30) (bits q 47 39) (bits q 52 48) 0 (bits q 57 53) 0 (bits q 62 58) 0)
    else .error .reservedForm
  | some .M =>
    if bits q 63 63 = 0 then
      .ok (wM op g md (bits q 23 21) (bits q 26 24) (bits q 31 27) (bits q 36 32) (bits q 41 37) (bits q 47 42)
        (bits q 52 48) (bits q 57 53) (bits q 62 58) 0 0)
    else .error .reservedForm

/-- The word of a literal form (R166). -/
def expandLiteral (q : Nat) : Except Reject Nat :=
  .ok (bits q 15 8 * 2 ^ 88 + bits q 95 16 * 2 ^ 8 + bits q 2 0 * 2 ^ 5)

/-! ### Codes of suffixes -/

def Size.code : Size → Nat
  | .b1 => 0 | .b2 => 1 | .b4 => 2 | .b8 => 3
def sizeOf2 (n : Nat) : Size := if n = 0 then .b1 else if n = 1 then .b2 else if n = 2 then .b4 else .b8
def ExtWidth.code : ExtWidth → Nat
  | .w8 => 0 | .w16 => 1 | .w32 => 2
def Cond.code : Cond → Nat
  | .eq => 0 | .ne => 1 | .lt => 2 | .ge => 3 | .ltu => 4 | .geu => 5 | .bs => 6 | .bc => 7
def condOf : Nat → Option Cond
  | 0 => some .eq | 1 => some .ne | 2 => some .lt | 3 => some .ge
  | 4 => some .ltu | 5 => some .geu | 6 => some .bs | 7 => some .bc | _ => none
def PlogOp.code : PlogOp → Nat
  | .and => 0 | .or => 1 | .xor => 2 | .andn => 3 | .orn => 4 | .not => 5 | .set => 6 | .clr => 7
def plogOf : Nat → Option PlogOp
  | 0 => some .and | 1 => some .or | 2 => some .xor | 3 => some .andn
  | 4 => some .orn | 5 => some .not | 6 => some .set | 7 => some .clr | _ => none
def AmoOp.code : AmoOp → Nat
  | .swap => 0 | .add => 1 | .and => 2 | .or => 3 | .xor => 4 | .min => 5 | .max => 6 | .minu => 7 | .maxu => 8 | .fadd => 9
def amoOf : Nat → Option AmoOp
  | 0 => some .swap | 1 => some .add | 2 => some .and | 3 => some .or | 4 => some .xor
  | 5 => some .min | 6 => some .max | 7 => some .minu | 8 => some .maxu | 9 => some .fadd | _ => none
def FlagCond.code : FlagCond → Nat
  | .eq => 0 | .ne => 1 | .geu => 2 | .ge => 3 | .bs => 4
def flagCondOf : Nat → Option FlagCond
  | 0 => some .eq | 1 => some .ne | 2 => some .geu | 3 => some .ge | 4 => some .bs | _ => none
def VCond.code : VCond → Nat
  | .any => 0 | .all => 1 | .nan => 2 | .none => 3
def vcondOf : Nat → Option VCond
  | 0 => some .any | 1 => some .all | 2 => some .nan | 3 => some VCond.none | _ => none
def RedOp.code : RedOp → Nat
  | .add => 0 | .max => 1 | .min => 2
def redOf : Nat → Option RedOp
  | 0 => some .add | 1 => some .max | 2 => some .min | _ => none
def DrainClear.code : DrainClear → Nat
  | .keep => 0 | .cp => 1 | .cn => 2 | .ci => 3
def clearOf : Nat → DrainClear
  | 0 => .keep | 1 => .cp | 2 => .cn | _ => .ci
def QName.code : QName → Nat
  | .aq n => n.toNat | .bq => 8
def qOf (n : Nat) : Option QName := if n < 4 then some (.aq (BitVec.ofNat 2 n)) else if n = 8 then some .bq else none
def boolCode (b : Bool) : Nat := if b then 1 else 0
def Guard.code (g : Guard) : Nat := boolCode g.neg * 16 + g.p.toNat
def guardOf (n : Nat) : Guard := ⟨n / 16 % 2 == 1, BitVec.ofNat 4 n⟩
def Ose.code (o : Ose) : Nat := o.ord.toNat * 64 + o.scp.toNat * 8 + o.ev.toNat
def oseOf (n : Nat) : Ose := ⟨BitVec.ofNat 2 (n / 64), BitVec.ofNat 3 (n / 8), BitVec.ofNat 3 n⟩

/-! ### From the word to the instruction -/

/-- The instruction that the used fields of a word name, before the unused fields are checked. -/
def candidate (form : Form) (w : Nat) : Except Reject Instr :=
  let op := bits w 95 88
  let h : Hdr := ⟨guardOf (bits w 87 83), form⟩
  let md := bits w 82 79
  let m0 := md % 2 == 1
  -- S fields
  let sd : SReg := BitVec.ofNat 6 (bits w 78 73)
  let sa : SReg := BitVec.ofNat 6 (bits w 72 67)
  let sb : SReg := BitVec.ofNat 6 (bits w 66 61)
  let ose : Ose := oseOf (bits w 60 53)
  let immN := bits w 52 5
  let imm : Imm := BitVec.ofNat 48 immN
  let sd2 : BitVec 2 := BitVec.ofNat 2 (bits w 78 73)
  let sd4 : BitVec 4 := BitVec.ofNat 4 (bits w 78 73)
  let sd5 : BitVec 5 := BitVec.ofNat 5 (bits w 78 73)
  let sa2 : BitVec 2 := BitVec.ofNat 2 (bits w 72 67)
  let sa4 : BitVec 4 := BitVec.ofNat 4 (bits w 72 67)
  let sa5 : BitVec 5 := BitVec.ofNat 5 (bits w 72 67)
  let sb3 : BitVec 3 := BitVec.ofNat 3 (bits w 66 61)
  let sb4 : BitVec 4 := BitVec.ofNat 4 (bits w 66 61)
  let sb5 : BitVec 5 := BitVec.ofNat 5 (bits w 66 61)
  let i2 : BitVec 2 := BitVec.ofNat 2 immN
  let i3 : BitVec 3 := BitVec.ofNat 3 immN
  let i4 : BitVec 4 := BitVec.ofNat 4 immN
  let i12 : BitVec 12 := BitVec.ofNat 12 immN
  let i16 : BitVec 16 := BitVec.ofNat 16 immN
  -- V fields
  let vd : VReg := BitVec.ofNat 9 (bits w 78 70)
  let vs : VReg := BitVec.ofNat 9 (bits w 69 61)
  let vt : VReg := BitVec.ofNat 9 (bits w 60 52)
  let vst : StReg := BitVec.ofNat 5 (bits w 51 47)
  let vss : SReg := BitVec.ofNat 6 (bits w 46 41)
  let px : Slot := BitVec.ofNat 5 (bits w 40 36)
  let py : Slot := BitVec.ofNat 5 (bits w 35 31)
  let pz : Slot := BitVec.ofNat 5 (bits w 30 26)
  let vimm := bits w 25 5
  let v6 : BitVec 6 := BitVec.ofNat 6 vimm
  -- M fields
  let acd : AccReg := BitVec.ofNat 3 (bits w 78 76)
  let acs : AccReg := BitVec.ofNat 3 (bits w 75 73)
  let sta : StReg := BitVec.ofNat 5 (bits w 72 68)
  let stb : StReg := BitVec.ofNat 5 (bits w 67 63)
  let stc : StReg := BitVec.ofNat 5 (bits w 62 58)
  let mss : SReg := BitVec.ofNat 6 (bits w 57 52)
  let pa : Slot := BitVec.ofNat 5 (bits w 51 47)
  let pb : Slot := BitVec.ofNat 5 (bits w 46 42)
  let pc : Slot := BitVec.ofNat 5 (bits w 41 37)
  let mvd : VReg := BitVec.ofNat 9 (bits w 36 28)
  let mimm := bits w 27 5
  let r0 : BitVec 6 := BitVec.ofNat 6 mimm
  let bad : Except Reject Instr := .error .reservedEncoding
  match op with
  | 0x00 => .ok (.add h sd sa sb)
  | 0x01 => .ok (.sub h sd sa sb)
  | 0x02 => .ok (.mul h sd sa sb)
  | 0x03 => .ok (.mulh h m0 sd sa sb)
  | 0x04 => .ok (.div h m0 sd sa sb)
  | 0x05 => .ok (.rem h m0 sd sa sb)
  | 0x06 => .ok (.and h sd sa sb)
  | 0x07 => .ok (.or h sd sa sb)
  | 0x08 => .ok (.xor h sd sa sb)
  | 0x09 => .ok (.andn h sd sa sb)
  | 0x0A => .ok (.shl h sd sa sb)
  | 0x0B => .ok (.shr h sd sa sb)
  | 0x0C => .ok (.sar h sd sa sb)
  | 0x0D => .ok (.min h m0 sd sa sb)
  | 0x0E => .ok (.max h m0 sd sa sb)
  | 0x10 => .ok (.addImm h sd sa imm)
  | 0x11 => .ok (.subImm h sd sa imm)
  | 0x12 => .ok (.mulImm h sd sa imm)
  | 0x13 => .ok (.mulhImm h m0 sd sa imm)
  | 0x14 => .ok (.divImm h m0 sd sa imm)
  | 0x15 => .ok (.remImm h m0 sd sa imm)
  | 0x16 => .ok (.andImm h sd sa imm)
  | 0x17 => .ok (.orImm h sd sa imm)
  | 0x18 => .ok (.xorImm h sd sa imm)
  | 0x19 => .ok (.andnImm h sd sa imm)
  | 0x1A => .ok (.shlImm h sd sa imm)
  | 0x1B => .ok (.shrImm h sd sa imm)
  | 0x1C => .ok (.sarImm h sd sa imm)
  | 0x1D => .ok (.minImm h m0 sd sa imm)
  | 0x1E => .ok (.maxImm h m0 sd sa imm)
  | 0x20 => .ok (.clz h sd sa)
  | 0x21 => .ok (.popc h sd sa)
  | 0x22 =>
    (match md % 4 with
      | 0 => .ok (.ext h (md / 4 % 2 == 1) .w8 sd sa)
      | 1 => .ok (.ext h (md / 4 % 2 == 1) .w16 sd sa)
      | 2 => .ok (.ext h (md / 4 % 2 == 1) .w32 sd sa)
      | _ => bad)
  | 0x23 => .ok (.bfx h m0 sd sa (BitVec.ofNat 6 (immN / 64)) (BitVec.ofNat 6 immN))
  | 0x24 => .ok (.bfi h sd sa (BitVec.ofNat 6 (immN / 64)) (BitVec.ofNat 6 immN))
  | 0x25 => .ok (.lea h (BitVec.ofNat 2 md) sd sa sb imm)
  | 0x26 =>
    (match md with
      | 0 => .ok (.mov h sd sa)
      | 1 => .ok (.movFromLc h sd sa2)
      | 2 => .ok (.movToLc h sd2 sa)
      | _ => bad)
  | 0x27 =>
    (match md with
      | 0 => .ok (.movi h sd imm)
      | 1 => .ok (.moviH h sd i16)
      | _ => bad)
  | 0x28 =>
    (match condOf md with
      | some cc => .ok (.cmp h cc sd4 sa sb)
      | none => bad)
  | 0x29 =>
    (match condOf md with
      | some cc => .ok (.cmpImm h cc sd4 sa imm)
      | none => bad)
  | 0x2A => .ok (.sel h (BitVec.ofNat 4 md) sd sa sb)
  | 0x40 =>
    (match md with
      | 0 => .ok (.br h imm)
      | 1 => .ok (.brQ h imm)
      | _ => bad)
  | 0x41 => .ok (.jmp h sa imm)
  | 0x42 =>
    (match md with
      | 0 => .ok (.call h sd imm)
      | 1 => .ok (.callR h sd sa imm)
      | _ => bad)
  | 0x43 => .ok (.ret h sa)
  | 0x4F => .ok (.nop h)
  | 0x50 =>
    (match plogOf md with
      | some o => .ok (.plog h o sd4 sa4 sb4)
      | none => bad)
  | 0x51 => .ok (.loop h (BitVec.ofNat 2 md) sa imm)
  | 0x52 => .ok (.loopp h (BitVec.ofNat 2 md) sa sb3 imm)
  | 0x60 => .ok (.ld h (sizeOf2 (md % 4)) (md / 4 % 2 == 1) sd sa ose imm)
  | 0x61 => .ok (.st h (sizeOf2 (md % 4)) sa sb ose imm)
  | 0x62 =>
    (match amoOf md with
      | some o => .ok (.amo h o (sizeOf2 (immN % 4)) sd sa sb ose)
      | none => bad)
  | 0x63 => .ok (.cas h (sizeOf2 (md % 4)) sd sa sb ose)
  | 0x64 => .ok (.fence h ose.scp)
  | 0x65 => .ok (.pref h m0 sa ose.ev imm)
  | 0x66 => .ok (.wback h m0 sa imm)
  | 0x67 => .ok (.smap h i3 sa sb)
  | 0x68 => .ok (.sunmap h i3)
  | 0x69 => .ok (.sflush h (BitVec.ofNat 8 immN))
  | 0x80 =>
    (match md with
      | 0 => (match qOf (immN % 16) with
          | some q => .ok (.qpush h q sa)
          | none => bad)
      | 1 => if immN = 8 then .ok (.qpushP h sa4) else bad
      | _ => bad)
  | 0x81 =>
    (match qOf (immN % 16) with
      | some q => .ok (.qpop h sd q)
      | none => bad)
  | 0x82 =>
    (match qOf (immN % 16) with
      | some q => .ok (.qdrop h q sa)
      | none => bad)
  | 0x83 => .ok (.tksend h i3)
  | 0x84 => .ok (.tkwait h i3)
  | 0x85 => .ok (.bar h i3)
  | 0x86 => .ok (.bara h sd i3)
  | 0x87 => .ok (.barw h i3 sa)
  | 0x88 => .ok (.join h)
  | 0x89 => if m0 then .ok (.setfAdd h sa sb ose.scp ose.ev imm) else .ok (.setf h sa sb ose.scp ose.ev imm)
  | 0x8A =>
    (match flagCondOf md with
      | some cc => .ok (.waitf h cc sd sa sb ose.scp ose.ev imm)
      | none => bad)
  | 0x8B => .ok (.semset h i4 sa)
  | 0x8C => .ok (.semacq h i4 (BitVec.ofNat 4 (immN / 16)))
  | 0x8D => .ok (.semrel h i4 (BitVec.ofNat 4 (immN / 16)))
  | 0x8E => .ok (.tlwait h i3 sa (BitVec.ofNat 45 (immN / 8)))
  | 0x8F => if m0 then .ok (.tlgetI h sd i3) else .ok (.tlget h sd i3)
  | 0x90 => .ok (.vld h vd vst vss px)
  | 0x91 => .ok (.vst h vst vs vss pz)
  | 0x92 => .ok (.vmov h m0 vd vs vt v6 px py pz)
  | 0x93 => .ok (.vsplat h vd vss)
  | 0x94 => .ok (.vperm h vd vs vt)
  | 0x95 => .ok (.vidx h vd vss (BitVec.ofNat 21 vimm))
  | 0x96 => .ok (.vget h m0 vss vs v6)
  | 0x97 => .ok (.vput h vd v6 vss)
  | 0x98 =>
    (match vcondOf md with
      | some cc => .ok (.vtest h cc (BitVec.ofNat 4 vimm) vs)
      | none => bad)
  | 0x99 =>
    (match redOf (md % 4) with
      | some o =>
        if md / 8 % 2 == 1 then .ok (.vredStream h o (md / 4 % 2 == 1) (BitVec.ofNat 2 (bits w 78 70)) vst px)
        else .ok (.vred h o (md / 4 % 2 == 1) (BitVec.ofNat 2 (bits w 78 70)) vs v6)
      | none => bad)
  | 0x9A => .ok (.vdrain h (clearOf (md % 4)) vd (BitVec.ofNat 2 (bits w 69 61)))
  | 0x9B => .ok (.vrow h m0 vd (BitVec.ofNat 3 (bits w 69 61)) (BitVec.ofNat 7 vimm))
  | 0x9C => .ok (.vrbase h (BitVec.ofNat 9 vimm) (BitVec.ofNat 10 (vimm / 512)))
  | 0xA0 => if m0 then .ok (.mldsK h stb pb) else .ok (.mlds h stb pb)
  | 0xA1 =>
    if md / 2 % 2 == 1 then .ok (.mmulAm h m0 acd r0 acs (BitVec.ofNat 7 (mimm / 64)))
    else .ok (.mmul h m0 acd r0 sta pa)
  | 0xA2 => .ok (.mmulg h m0 acd sta stb mss (BitVec.ofNat 9 mimm) pa pb)
  | 0xA3 => .ok (.mdist h m0 acd r0 sta pa)
  | 0xA4 => .ok (.mtopk h m0 mvd acs mss (BitVec.ofNat 5 mimm) (BitVec.ofNat 7 (mimm / 32)))
  | 0xA5 => .ok (.mzero h acd)
  | 0xA6 => .ok (.mst h stc acs r0 pc)
  | 0xA7 => .ok (.mlda h acd r0 sta)
  | 0xA8 => .ok (.mpub h acd (BitVec.ofNat 4 mimm))
  | 0xA9 =>
    (match md with
      | 0 => .ok (.settle h (BitVec.ofNat 8 mimm))
      | 1 => .ok (.settleAll h)
      | _ => bad)
  | 0xAA =>
    (match md with
      | 0 => .ok (.lqry h mss acs)
      | 1 => .ok (.lqryT h mss (BitVec.ofNat 4 mimm))
      | 2 => .ok (.lqryR h mss)
      | _ => bad)
  | 0xB0 => .ok (.pload h sd sb5 sa imm)
  | 0xB1 => .ok (.psget h sd sb5 i12)
  | 0xB2 => .ok (.psset h sb5 i12 sa)
  | 0xB3 => .ok (.preset h sb5)
  | 0xB4 => .ok (.pinfo h sd sb5)
  | 0xB8 => .ok (.stset h sd5 (BitVec.ofNat 3 md) sa)
  | 0xB9 => .ok (.stget h sd sa5 (BitVec.ofNat 3 md))
  | 0xBA => .ok (.stld h sd5 sa imm)
  | 0xBB => .ok (.stadv h sd5 (BitVec.ofNat 2 md) sa)
  | 0xC0 => .ok (.cpy h i2 sa)
  | 0xC1 => .ok (.renq h sd sa sb)
  | 0xC2 => .ok (.cstat h sd i3 sa)
  | 0xD0 => .ok (.srd h sd i12)
  | 0xD1 =>
    if 0x24 ≤ immN && immN ≤ 0x27 then .ok (.crangeWrite h i2 sa)
    else if 0x2C ≤ immN && immN ≤ 0x2F then .ok (.lfsrSeed h i2 sa)
    else .ok (.swr h i12 sa)
  | 0xD2 => .ok (.trap h i16)
  | 0xD3 => .ok (.brk h i16)
  | 0xD4 => .ok (.isync h)
  | 0xD5 => .ok (.eret h)
  | 0xD6 => .ok (.launch h sd sa sb)
  | 0xD7 => .ok (.sliceof h sd sa imm)
  | _ => .error .reservedOpcode

/-! ### The encoder -/

/-- Bits 95:5 of the internal word of an instruction, with bits 4:0 zero (the encoding tables of R179 to R388). Short
forms have no word of their own here, and events have none: 0. -/
def encodeWord : Instr → Nat
  | .add h d a b => wS 0x00 h.g.code 0 d.toNat a.toNat b.toNat 0 0
  | .sub h d a b => wS 0x01 h.g.code 0 d.toNat a.toNat b.toNat 0 0
  | .mul h d a b => wS 0x02 h.g.code 0 d.toNat a.toNat b.toNat 0 0
  | .mulh h u d a b => wS 0x03 h.g.code (boolCode u) d.toNat a.toNat b.toNat 0 0
  | .div h u d a b => wS 0x04 h.g.code (boolCode u) d.toNat a.toNat b.toNat 0 0
  | .rem h u d a b => wS 0x05 h.g.code (boolCode u) d.toNat a.toNat b.toNat 0 0
  | .and h d a b => wS 0x06 h.g.code 0 d.toNat a.toNat b.toNat 0 0
  | .or h d a b => wS 0x07 h.g.code 0 d.toNat a.toNat b.toNat 0 0
  | .xor h d a b => wS 0x08 h.g.code 0 d.toNat a.toNat b.toNat 0 0
  | .andn h d a b => wS 0x09 h.g.code 0 d.toNat a.toNat b.toNat 0 0
  | .shl h d a b => wS 0x0A h.g.code 0 d.toNat a.toNat b.toNat 0 0
  | .shr h d a b => wS 0x0B h.g.code 0 d.toNat a.toNat b.toNat 0 0
  | .sar h d a b => wS 0x0C h.g.code 0 d.toNat a.toNat b.toNat 0 0
  | .min h u d a b => wS 0x0D h.g.code (boolCode u) d.toNat a.toNat b.toNat 0 0
  | .max h u d a b => wS 0x0E h.g.code (boolCode u) d.toNat a.toNat b.toNat 0 0
  | .addImm h d a imm => wS 0x10 h.g.code 0 d.toNat a.toNat 0 0 imm.toNat
  | .subImm h d a imm => wS 0x11 h.g.code 0 d.toNat a.toNat 0 0 imm.toNat
  | .mulImm h d a imm => wS 0x12 h.g.code 0 d.toNat a.toNat 0 0 imm.toNat
  | .mulhImm h u d a imm => wS 0x13 h.g.code (boolCode u) d.toNat a.toNat 0 0 imm.toNat
  | .divImm h u d a imm => wS 0x14 h.g.code (boolCode u) d.toNat a.toNat 0 0 imm.toNat
  | .remImm h u d a imm => wS 0x15 h.g.code (boolCode u) d.toNat a.toNat 0 0 imm.toNat
  | .andImm h d a imm => wS 0x16 h.g.code 0 d.toNat a.toNat 0 0 imm.toNat
  | .orImm h d a imm => wS 0x17 h.g.code 0 d.toNat a.toNat 0 0 imm.toNat
  | .xorImm h d a imm => wS 0x18 h.g.code 0 d.toNat a.toNat 0 0 imm.toNat
  | .andnImm h d a imm => wS 0x19 h.g.code 0 d.toNat a.toNat 0 0 imm.toNat
  | .shlImm h d a imm => wS 0x1A h.g.code 0 d.toNat a.toNat 0 0 imm.toNat
  | .shrImm h d a imm => wS 0x1B h.g.code 0 d.toNat a.toNat 0 0 imm.toNat
  | .sarImm h d a imm => wS 0x1C h.g.code 0 d.toNat a.toNat 0 0 imm.toNat
  | .minImm h u d a imm => wS 0x1D h.g.code (boolCode u) d.toNat a.toNat 0 0 imm.toNat
  | .maxImm h u d a imm => wS 0x1E h.g.code (boolCode u) d.toNat a.toNat 0 0 imm.toNat
  | .clz h d a => wS 0x20 h.g.code 0 d.toNat a.toNat 0 0 0
  | .popc h d a => wS 0x21 h.g.code 0 d.toNat a.toNat 0 0 0
  | .ext h s w d a => wS 0x22 h.g.code (boolCode s * 4 + w.code) d.toNat a.toNat 0 0 0
  | .bfx h s d a hi lo => wS 0x23 h.g.code (boolCode s) d.toNat a.toNat 0 0 (hi.toNat * 64 + lo.toNat)
  | .bfi h d a hi lo => wS 0x24 h.g.code 0 d.toNat a.toNat 0 0 (hi.toNat * 64 + lo.toNat)
  | .lea h sc d a b imm => wS 0x25 h.g.code sc.toNat d.toNat a.toNat b.toNat 0 imm.toNat
  | .mov h d a => wS 0x26 h.g.code 0 d.toNat a.toNat 0 0 0
  | .movFromLc h d n => wS 0x26 h.g.code 1 d.toNat n.toNat 0 0 0
  | .movToLc h n a => wS 0x26 h.g.code 2 n.toNat a.toNat 0 0 0
  | .movi h d imm => wS 0x27 h.g.code 0 d.toNat 0 0 0 imm.toNat
  | .moviH h d imm => wS 0x27 h.g.code 1 d.toNat 0 0 0 imm.toNat
  | .cmp h cc d a b => wS 0x28 h.g.code cc.code d.toNat a.toNat b.toNat 0 0
  | .cmpImm h cc d a imm => wS 0x29 h.g.code cc.code d.toNat a.toNat 0 0 imm.toNat
  | .sel h n d a b => wS 0x2A h.g.code n.toNat d.toNat a.toNat b.toNat 0 0
  | .plog h o d a b => wS 0x50 h.g.code o.code d.toNat a.toNat b.toNat 0 0
  | .br h imm => wS 0x40 h.g.code 0 0 0 0 0 imm.toNat
  | .brQ h imm => wS 0x40 h.g.code 1 0 0 0 0 imm.toNat
  | .jmp h a imm => wS 0x41 h.g.code 0 0 a.toNat 0 0 imm.toNat
  | .call h d imm => wS 0x42 h.g.code 0 d.toNat 0 0 0 imm.toNat
  | .callR h d a imm => wS 0x42 h.g.code 1 d.toNat a.toNat 0 0 imm.toNat
  | .ret h a => wS 0x43 h.g.code 0 0 a.toNat 0 0 0
  | .nop h => wS 0x4F h.g.code 0 0 0 0 0 0
  | .loop h n a imm => wS 0x51 h.g.code n.toNat 0 a.toNat 0 0 imm.toNat
  | .loopp h n a st imm => wS 0x52 h.g.code n.toNat 0 a.toNat st.toNat 0 imm.toNat
  | .ld h sz sg d a o imm => wS 0x60 h.g.code (boolCode sg * 4 + sz.code) d.toNat a.toNat 0 o.code imm.toNat
  | .st h sz a b o imm => wS 0x61 h.g.code sz.code 0 a.toNat b.toNat o.code imm.toNat
  | .amo h op sz d a b o => wS 0x62 h.g.code op.code d.toNat a.toNat b.toNat o.code sz.code
  | .cas h sz d a b o => wS 0x63 h.g.code sz.code d.toNat a.toNat b.toNat o.code 0
  | .fence h scp => wS 0x64 h.g.code 0 0 0 0 (scp.toNat * 8) 0
  | .pref h l2 a ev imm => wS 0x65 h.g.code (boolCode l2) 0 a.toNat 0 ev.toNat imm.toNat
  | .wback h dr a imm => wS 0x66 h.g.code (boolCode dr) 0 a.toNat 0 0 imm.toNat
  | .smap h n a b => wS 0x67 h.g.code 0 0 a.toNat b.toNat 0 n.toNat
  | .sunmap h n => wS 0x68 h.g.code 0 0 0 0 0 n.toNat
  | .sflush h mask => wS 0x69 h.g.code 0 0 0 0 0 mask.toNat
  | .qpush h q a => wS 0x80 h.g.code 0 0 a.toNat 0 0 q.code
  | .qpushP h n => wS 0x80 h.g.code 1 0 n.toNat 0 0 8
  | .qpop h d q => wS 0x81 h.g.code 0 d.toNat 0 0 0 q.code
  | .qdrop h q a => wS 0x82 h.g.code 0 0 a.toNat 0 0 q.code
  | .tksend h n => wS 0x83 h.g.code 0 0 0 0 0 n.toNat
  | .tkwait h n => wS 0x84 h.g.code 0 0 0 0 0 n.toNat
  | .bar h k => wS 0x85 h.g.code 0 0 0 0 0 k.toNat
  | .bara h d k => wS 0x86 h.g.code 0 d.toNat 0 0 0 k.toNat
  | .barw h k a => wS 0x87 h.g.code 0 0 a.toNat 0 0 k.toNat
  | .join h => wS 0x88 h.g.code 0 0 0 0 0 0
  | .setf h a b scp ev imm => wS 0x89 h.g.code 0 0 a.toNat b.toNat (scp.toNat * 8 + ev.toNat) imm.toNat
  | .setfAdd h a b scp ev imm => wS 0x89 h.g.code 1 0 a.toNat b.toNat (scp.toNat * 8 + ev.toNat) imm.toNat
  | .waitf h cc d a b scp ev imm => wS 0x8A h.g.code cc.code d.toNat a.toNat b.toNat (scp.toNat * 8 + ev.toNat) imm.toNat
  | .semset h n a => wS 0x8B h.g.code 0 0 a.toNat 0 0 n.toNat
  | .semacq h n k => wS 0x8C h.g.code 0 0 0 0 0 (k.toNat * 16 + n.toNat)
  | .semrel h n k => wS 0x8D h.g.code 0 0 0 0 0 (k.toNat * 16 + n.toNat)
  | .tlwait h t a imm => wS 0x8E h.g.code 0 0 a.toNat 0 0 (imm.toNat * 8 + t.toNat)
  | .tlget h d t => wS 0x8F h.g.code 0 d.toNat 0 0 0 t.toNat
  | .tlgetI h d t => wS 0x8F h.g.code 1 d.toNat 0 0 0 t.toNat
  | .vld h d st ss px => wV 0x90 h.g.code 0 d.toNat 0 0 st.toNat ss.toNat px.toNat 0 0 0
  | .vst h st s ss pz => wV 0x91 h.g.code 0 0 s.toNat 0 st.toNat ss.toNat 0 0 pz.toNat 0
  | .vmov h t2 d s t n px py pz => wV 0x92 h.g.code (boolCode t2) d.toNat s.toNat t.toNat 0 0 px.toNat py.toNat pz.toNat n.toNat
  | .vsplat h d ss => wV 0x93 h.g.code 0 d.toNat 0 0 0 ss.toNat 0 0 0 0
  | .vperm h d s t => wV 0x94 h.g.code 0 d.toNat s.toNat t.toNat 0 0 0 0 0 0
  | .vidx h d ss step => wV 0x95 h.g.code 0 d.toNat 0 0 0 ss.toNat 0 0 0 step.toNat
  | .vget h sg ss s lane => wV 0x96 h.g.code (boolCode sg) 0 s.toNat 0 0 ss.toNat 0 0 0 lane.toNat
  | .vput h d lane ss => wV 0x97 h.g.code 0 d.toNat 0 0 0 ss.toNat 0 0 0 lane.toNat
  | .vtest h cc n s => wV 0x98 h.g.code cc.code 0 s.toNat 0 0 0 0 0 0 n.toNat
  | .vred h op x q s n => wV 0x99 h.g.code (boolCode x * 4 + op.code) q.toNat s.toNat 0 0 0 0 0 0 n.toNat
  | .vredStream h op x q st px => wV 0x99 h.g.code (8 + boolCode x * 4 + op.code) q.toNat 0 0 st.toNat 0 px.toNat 0 0 0
  | .vdrain h clr d q => wV 0x9A h.g.code clr.code d.toNat q.toNat 0 0 0 0 0 0 0
  | .vrow h ab d s nc => wV 0x9B h.g.code (boolCode ab) d.toNat s.toNat 0 0 0 0 0 0 nc.toNat
  | .vrbase h base size => wV 0x9C h.g.code 0 0 0 0 0 0 0 0 0 (size.toNat * 512 + base.toNat)
  | .mlds h b pb => wM 0xA0 h.g.code 0 0 0 0 b.toNat 0 0 0 pb.toNat 0 0 0
  | .mldsK h b pb => wM 0xA0 h.g.code 1 0 0 0 b.toNat 0 0 0 pb.toNat 0 0 0
  | .mmul h z d r0 a pa => wM 0xA1 h.g.code (boolCode z) d.toNat 0 a.toNat 0 0 0 pa.toNat 0 0 0 r0.toNat
  | .mmulAm h z d r0 s m => wM 0xA1 h.g.code (2 + boolCode z) d.toNat s.toNat 0 0 0 0 0 0 0 0 (m.toNat * 64 + r0.toNat)
  | .mmulg h z d a b ss g pa pb =>
    wM 0xA2 h.g.code (boolCode z) d.toNat 0 a.toNat b.toNat 0 ss.toNat pa.toNat pb.toNat 0 0 g.toNat
  | .mdist h z d r0 a pa => wM 0xA3 h.g.code (boolCode z) d.toNat 0 a.toNat 0 0 0 pa.toNat 0 0 0 r0.toNat
  | .mtopk h l d s ss k nc => wM 0xA4 h.g.code (boolCode l) 0 s.toNat 0 0 0 ss.toNat 0 0 0 d.toNat (nc.toNat * 32 + k.toNat)
  | .mzero h d => wM 0xA5 h.g.code 0 d.toNat 0 0 0 0 0 0 0 0 0 0
  | .mst h c s r0 pc => wM 0xA6 h.g.code 0 0 s.toNat 0 0 c.toNat 0 0 0 pc.toNat 0 r0.toNat
  | .mlda h d r0 a => wM 0xA7 h.g.code 0 d.toNat 0 a.toNat 0 0 0 0 0 0 0 r0.toNat
  | .mpub h d n => wM 0xA8 h.g.code 0 d.toNat 0 0 0 0 0 0 0 0 0 n.toNat
  | .settle h mask => wM 0xA9 h.g.code 0 0 0 0 0 0 0 0 0 0 0 mask.toNat
  | .settleAll h => wM 0xA9 h.g.code 1 0 0 0 0 0 0 0 0 0 0 0
  | .lqry h ss s => wM 0xAA h.g.code 0 0 s.toNat 0 0 0 ss.toNat 0 0 0 0 0
  | .lqryT h ss t => wM 0xAA h.g.code 1 0 0 0 0 0 ss.toNat 0 0 0 0 t.toNat
  | .lqryR h ss => wM 0xAA h.g.code 2 0 0 0 0 0 ss.toNat 0 0 0 0 0
  | .pload h d n a imm => wS 0xB0 h.g.code 0 d.toNat a.toNat n.toNat 0 imm.toNat
  | .psget h d n i => wS 0xB1 h.g.code 0 d.toNat 0 n.toNat 0 i.toNat
  | .psset h n i a => wS 0xB2 h.g.code 0 0 a.toNat n.toNat 0 i.toNat
  | .preset h n => wS 0xB3 h.g.code 0 0 0 n.toNat 0 0
  | .pinfo h d n => wS 0xB4 h.g.code 0 d.toNat 0 n.toNat 0 0
  | .stset h n w a => wS 0xB8 h.g.code w.toNat n.toNat a.toNat 0 0 0
  | .stget h d n w => wS 0xB9 h.g.code w.toNat d.toNat n.toNat 0 0 0
  | .stld h n a imm => wS 0xBA h.g.code 0 n.toNat a.toNat 0 0 imm.toNat
  | .stadv h n dim a => wS 0xBB h.g.code dim.toNat n.toNat a.toNat 0 0 0
  | .cpy h n a => wS 0xC0 h.g.code 0 0 a.toNat 0 0 n.toNat
  | .renq h d a b => wS 0xC1 h.g.code 0 d.toNat a.toNat b.toNat 0 0
  | .cstat h d c a => wS 0xC2 h.g.code 0 d.toNat a.toNat 0 0 c.toNat
  | .srd h d r => wS 0xD0 h.g.code 0 d.toNat 0 0 0 r.toNat
  | .swr h r a => wS 0xD1 h.g.code 0 0 a.toNat 0 0 r.toNat
  | .crangeWrite h n a => wS 0xD1 h.g.code 0 0 a.toNat 0 0 (0x24 + n.toNat)
  | .lfsrSeed h n a => wS 0xD1 h.g.code 0 0 a.toNat 0 0 (0x2C + n.toNat)
  | .trap h c => wS 0xD2 h.g.code 0 0 0 0 0 c.toNat
  | .brk h c => wS 0xD3 h.g.code 0 0 0 0 0 c.toNat
  | .isync h => wS 0xD4 h.g.code 0 0 0 0 0 0
  | .eret h => wS 0xD5 h.g.code 0 0 0 0 0 0
  | .launch h d a b => wS 0xD6 h.g.code 0 d.toNat a.toNat b.toNat 0 0
  | .sliceof h d a imm => wS 0xD7 h.g.code 0 d.toNat a.toNat 0 0 imm.toNat
  | _ => 0

/-- Decode an internal word that came from a given form: the candidate, with no reserved value (R160, R172) and every
unused field zero (R161), which is to say that the word is the candidate's own. -/
def decodeWord (form : Form) (w : Nat) : Except Reject Instr :=
  match candidate form w with
  | .error r => .error r
  | .ok i => if i.wf && encodeWord i == w then .ok i else .error .reservedEncoding

/-- Decode a short form (R162). -/
def decodeShort (q : Nat) : Except Reject Instr :=
  let c := bits q 6 2
  let o := bits q 15 8 * 4 + bits q 1 0
  let d : BitVec 5 := BitVec.ofNat 5 (o / 32)
  let a : BitVec 5 := BitVec.ofNat 5 o
  match c with
  | 0 => if o = 0 then .ok .nopShort else .error .reservedForm
  | 1 => .ok (.movShort d a)
  | 2 => .ok (.addShort d a)
  | 3 => .ok (.subShort d a)
  | 4 => .ok (.andShort d a)
  | 5 => .ok (.orShort d a)
  | 6 => .ok (.xorShort d a)
  | 7 => .ok (.shlShort d a)
  | 8 => .ok (.shrShort d a)
  | 9 => .ok (.sarShort d a)
  | 10 => .ok (.addImmShort d a)
  | 11 => .ok (.moviShort d a)
  | 12 => if o = 0 then .ok .joinShort else .error .reservedForm
  | 13 => if o = 0 then .ok .retShort else .error .reservedForm
  | _ => .error .reservedForm

/-- The word that a byte form of n bytes, read as Q, expands to (R163 to R166). -/
def expandForm (form : Form) (q : Nat) : Except Reject Nat :=
  match form with
  | .short => .error .reservedForm
  | .scalar => expandScalar q
  | .guarded => expandGuarded q
  | .wide => expandWide q
  | .literal => expandLiteral q

/-- The instruction of Q in a form. -/
def decodeQ (form : Form) (q : Nat) : Except Reject Instr :=
  match form with
  | .short => decodeShort q
  | f =>
    match expandForm f q with
    | .error r => .error r
    | .ok w => decodeWord f w

/-- Decode the instruction at the head of a byte stream, with the bytes that follow it (R156, R158). -/
def decode (bs : List Byte) : Except Reject (Instr × List Byte) :=
  match bs with
  | [] => .error .truncated
  | b :: _ =>
    match formOfByte b.toNat with
    | none => .error .reservedPrefix
    | some f =>
      if bs.length < f.len then .error .truncated
      else
        match decodeQ f (leNat (bs.take f.len)) with
        | .error r => .error r
        | .ok i => .ok (i, bs.drop f.len)

/-! ### From the instruction to bytes -/

/-- May the form carry the word (R163 to R166)? Every field that the form does not carry is zero, and the immediate fits. -/
def Form.carries (f : Form) (w : Nat) : Bool :=
  let op := bits w 95 88
  let imm := bits w 52 5
  let fits (n : Nat) : Bool := decide (imm < 2 ^ (n - 1)) || decide (2 ^ 48 - 2 ^ (n - 1) ≤ imm)
  match f with
  | .short => false
  | .scalar =>
    decide (op < 0x40) && bits w 87 83 == 0 && bits w 60 53 == 0
      && (if scalarImmOp op then bits w 66 61 == 0 && fits 8 else imm == 0)
  | .guarded =>
    opFormat op == some .S
      && (if 0x60 ≤ op && op ≤ 0x7F then bits w 66 61 == 0 && fits 8 else bits w 60 53 == 0 && fits 10)
  | .wide =>
    match opFormat op with
    | none => false
    | some .S => fits 17
    | some .V => bits w 46 41 == 0 && bits w 35 31 == 0 && bits w 25 5 == 0
    | some .M => bits w 36 5 == 0
  | .literal => true

/-- Q of a word in a form that carries it. -/
def packForm (f : Form) (w : Nat) : Nat :=
  let op := bits w 95 88
  let g := bits w 87 83
  let md := bits w 82 79
  let sd := bits w 78 73
  let sa := bits w 72 67
  let sb := bits w 66 61
  let ose := bits w 60 53
  let imm := bits w 52 5
  match f with
  | .short => 0
  | .scalar =>
    if scalarImmOp op then
      0x80 + op + sd * 2 ^ 8 + sa * 2 ^ 14 + imm % 64 * 2 ^ 20 + md * 2 ^ 26 + imm / 64 % 4 * 2 ^ 30
    else 0x80 + op + sd * 2 ^ 8 + sa * 2 ^ 14 + sb * 2 ^ 20 + md * 2 ^ 26
  | .guarded =>
    if 0x60 ≤ op && op ≤ 0x7F then
      0xC0 + g + op * 2 ^ 8 + md * 2 ^ 16 + sd * 2 ^ 20 + sa * 2 ^ 26 + ose * 2 ^ 32 + imm % 256 * 2 ^ 40
    else 0xC0 + g + op * 2 ^ 8 + md * 2 ^ 16 + sd * 2 ^ 20 + sa * 2 ^ 26 + sb * 2 ^ 32 + imm % 1024 * 2 ^ 38
  | .wide =>
    0xE0 + md + op * 2 ^ 8 + g * 2 ^ 16 +
      (match opFormat op with
        | some .V => bits w 78 70 * 2 ^ 21 + bits w 69 61 * 2 ^ 30 + bits w 60 52 * 2 ^ 39 + bits w 51 47 * 2 ^ 48
            + bits w 40 36 * 2 ^ 53 + bits w 30 26 * 2 ^ 58
        | some .M => bits w 78 76 * 2 ^ 21 + bits w 75 73 * 2 ^ 24 + bits w 72 68 * 2 ^ 27 + bits w 67 63 * 2 ^ 32
            + bits w 62 58 * 2 ^ 37 + bits w 57 52 * 2 ^ 42 + bits w 51 47 * 2 ^ 48 + bits w 46 42 * 2 ^ 53
            + bits w 41 37 * 2 ^ 58
        | _ => sd * 2 ^ 21 + sa * 2 ^ 27 + sb * 2 ^ 33 + ose * 2 ^ 39 + imm % 2 ^ 17 * 2 ^ 47)
  | .literal => 0xF0 + bits w 7 5 + op * 2 ^ 8 + bits w 87 8 * 2 ^ 16

/-- Q of a short form: code c and operand O = 32 d + a (R162). -/
def packShort (c : Nat) (d a : BitVec 5) : Nat :=
  let o := d.toNat * 32 + a.toNat
  c * 4 + o % 4 + o / 4 * 256

/-- Q of a short instruction; none for any other. -/
def encodeShort : Instr → Option Nat
  | .nopShort => some (packShort 0 0 0)
  | .movShort d a => some (packShort 1 d a)
  | .addShort d a => some (packShort 2 d a)
  | .subShort d a => some (packShort 3 d a)
  | .andShort d a => some (packShort 4 d a)
  | .orShort d a => some (packShort 5 d a)
  | .xorShort d a => some (packShort 6 d a)
  | .shlShort d a => some (packShort 7 d a)
  | .shrShort d a => some (packShort 8 d a)
  | .sarShort d a => some (packShort 9 d a)
  | .addImmShort d a => some (packShort 10 d a)
  | .moviShort d a => some (packShort 11 d a)
  | .joinShort => some (packShort 12 0 0)
  | .retShort => some (packShort 13 0 0)
  | _ => none

/-- Can the instruction be encoded in the form its header names? Short instructions always; events never. -/
def Instr.encodable (i : Instr) : Bool :=
  match encodeShort i with
  | some _ => true
  | none =>
    match i.hdr with
    | some h => h.form.carries (encodeWord i)
    | none => false

/-- The bytes of an instruction in the form that its header names (R157). -/
def encode (i : Instr) : List Byte :=
  match encodeShort i with
  | some q => leBytes 2 q
  | none =>
    match i.hdr with
    | some h => leBytes h.form.len (packForm h.form (encodeWord i))
    | none => []

/-- The decoder on the host's numbering: nbits bits w, the least significant byte first, every further bit 0. -/
def decodeTableWord (_nbits w : Nat) : Option Instr :=
  match decode (leBytes 12 w) with
  | .ok (i, _) => some i
  | .error _ => none

/-- The instruction that a short form stands for: its expansion of R162. -/
def Instr.core : Instr → Instr
  | .nopShort => .nop ⟨⟨false, 0⟩, .short⟩
  | .movShort d a => .mov ⟨⟨false, 0⟩, .short⟩ (d.setWidth 6) (a.setWidth 6)
  | .addShort d a => .add ⟨⟨false, 0⟩, .short⟩ (d.setWidth 6) (d.setWidth 6) (a.setWidth 6)
  | .subShort d a => .sub ⟨⟨false, 0⟩, .short⟩ (d.setWidth 6) (d.setWidth 6) (a.setWidth 6)
  | .andShort d a => .and ⟨⟨false, 0⟩, .short⟩ (d.setWidth 6) (d.setWidth 6) (a.setWidth 6)
  | .orShort d a => .or ⟨⟨false, 0⟩, .short⟩ (d.setWidth 6) (d.setWidth 6) (a.setWidth 6)
  | .xorShort d a => .xor ⟨⟨false, 0⟩, .short⟩ (d.setWidth 6) (d.setWidth 6) (a.setWidth 6)
  | .shlShort d a => .shl ⟨⟨false, 0⟩, .short⟩ (d.setWidth 6) (d.setWidth 6) (a.setWidth 6)
  | .shrShort d a => .shr ⟨⟨false, 0⟩, .short⟩ (d.setWidth 6) (d.setWidth 6) (a.setWidth 6)
  | .sarShort d a => .sar ⟨⟨false, 0⟩, .short⟩ (d.setWidth 6) (d.setWidth 6) (a.setWidth 6)
  | .addImmShort d i => .addImm ⟨⟨false, 0⟩, .short⟩ (d.setWidth 6) (d.setWidth 6) (i.signExtend 48)
  | .moviShort d i => .movi ⟨⟨false, 0⟩, .short⟩ (d.setWidth 6) (i.signExtend 48)
  | .joinShort => .join ⟨⟨false, 0⟩, .short⟩
  | .retShort => .ret ⟨⟨false, 0⟩, .short⟩ 0
  | i => i

end Sys2Proof
end

