-- ==== Sys2Proof/Machine/Errors.lean ====
section
/-! DEFINITION. Lasting errors of the memories (R46, R73, R425): the fault that a read of a failed unit takes, and what goes
out of service. -/

namespace Sys2Proof.Machine

/-- The first failed unit that n bytes at a local address meet. -/
def State.failing (s : State) (pa n : Nat) : Option BadUnit :=
  s.bad.find? fun b => decide (b.pa < pa + n) && decide (pa < b.pa + 64)

/-- No unit of memory has a lasting error. -/
def State.sound (s : State) : Prop := s.bad = []

/-- Adds a number to a list that does not hold it. -/
def addNew (l : List Nat) (n : Nat) : List Nat := if l.contains n then l else l ++ [n]

/-- What holds a failed unit goes out of service until the next package reset (R425): the 64 KiB block of a scratchpad or of
cluster SRAM, the 64 KiB frame of LPDDR6. The way of a failed L2 copy is out of service already, and the copy is gone. -/
def State.outOfService (s : State) (b : BadUnit) : State :=
  if b.l2 then { s with bad := s.bad.erase b }
  else if b.pa % 2 ^ 47 / 2 ^ 44 = 5 then
    let k := b.pa / 2 ^ 48 * 32 + b.pa % 2 ^ 44 / 0x80_0000
    s.modCore k fun c => { c with oos := addNew c.oos (b.pa % 0x80_0000 / 65536) }
  else s.modDie (b.pa / 2 ^ 48) fun d => { d with oos := addNew d.oos (b.pa / 65536) }

/-- A read of n bytes at a local address: a failed unit is the fault 0x24, with its address in AUX (R423, R425). -/
def probe (pa n : Nat) : M Unit := do
  let s ← get
  match s.failing pa n with
  | none => pure ()
  | some b =>
    set (s.outOfService b)
    throw (.fault { FaultInfo.of 0x24 with aux := b.pa })

/-- A part of an access at va: a memory error that it meets is recorded with the access's kind and address (R422), unless
the part that met it has recorded its own. -/
def tagged {α : Type} (acck va : Nat) (m : M α) : M α := fun s =>
  match m s with
  | .error (.fault f) t =>
    .error (.fault (if f.cause = 0x24 ∧ f.va = 0 then { f with va := va, acck := if f.acck = 0 then acck else f.acck } else f)) t
  | r => r

end Sys2Proof.Machine
end

