-- ==== Sys2Proof/Machine/Translate.lean ====
section
/-! DEFINITION. Address spaces and translation (chapter 01): the virtual ranges, the physical ranges, page-table walks,
the translation caches and the order of the translation faults. -/

namespace Sys2Proof.Machine

/-! ## Virtual ranges (R9, R10) -/

/-- What a virtual address names. -/
inductive VRange where
  | mapped
  | scratch (off : Nat)
  | copy (n off : Nat)
  | dtree (off : Nat)
  | reserved
  deriving DecidableEq, Repr, Inhabited

/-- The parts of the virtual space (R10). -/
def vrange (va : Nat) : VRange :=
  if va < 0x01FF_FFFF_0000_0000 then .mapped
  else if va < 0x01FF_FFFF_0080_0000 then .scratch (va - 0x01FF_FFFF_0000_0000)
  else if va < 0x01FF_FFFF_8000_0000 then .reserved
  else if va < 0x01FF_FFFF_8000_4000 then
    .copy ((va - 0x01FF_FFFF_8000_0000) / 4096) ((va - 0x01FF_FFFF_8000_0000) % 4096)
  else if va < 0x01FF_FFFF_C000_0000 then .reserved
  else if va < 0x01FF_FFFF_C001_0000 then .dtree (va - 0x01FF_FFFF_C000_0000)
  else .reserved

/-- First byte of the scratch aperture (R10). -/
def scratchVa : Nat := 0x01FF_FFFF_0000_0000
/-- R9: bits 63:57 are zero and the extent does not cross 2^57. -/
def vaOk (va n : Nat) : Bool := va + n ≤ 0x0200_0000_0000_0000

/-! ## Physical ranges (R15 to R19) -/

/-- What a physical address names. -/
inductive Region where
  | lpddr (die off : Nat)
  | cluster (die c off : Nat)
  | scratch (die k off : Nat)
  | dieCtl (die off : Nat)
  | hubCtl (off : Nat)
  | peer (pos die off : Nat)
  /-- A reserved range, at a physical address. -/
  | none (pa : Nat)
  deriving DecidableEq, Repr, Inhabited

/-- The die and offset of an interleaved-alias offset (R17). -/
def aliasOf (o : Nat) : Nat × Nat := (o / 65536 % 8, o / 65536 / 8 * 65536 + o % 65536)

/-- What a physical address names, before any question of capacity or presence (R15, R16, R19). DESIGN CHOICE (log entry 76):
offsets under 0b100 and 0b101 of PA[46:44] beyond cluster 3 and core 31, which no row of R16 names, are reserved like the rows
that R16 calls so. -/
def regionOf (ownPos pa : Nat) : Region :=
  let low := pa % 2 ^ 47
  if 2 ^ 51 ≤ pa then
    let pos := pa / 2 ^ 41 % 1024
    let (die, off) := if bitN pa 40 then aliasOf (pa % 2 ^ 40) else (pa / 2 ^ 37 % 8, pa % 2 ^ 37)
    if pos = ownPos then .lpddr die off else .peer pos die off
  else if bitN pa 47 then
    match pa / 2 ^ 48 with
    | 0 => let (die, off) := aliasOf low; .lpddr die off
    | 1 => .hubCtl low
    | _ => .none pa
  else
    let die := pa / 2 ^ 48
    match low / 2 ^ 44 with
    | 0 => .lpddr die low
    | 4 => let o := low - 0x4000_0000_0000
           if o < 0x400_0000 then .cluster die (o / 0x100_0000) (o % 0x100_0000) else .none pa
    | 5 => let o := low - 0x5000_0000_0000
           if o < 0x1000_0000 then .scratch die (o / 0x80_0000) (o % 0x80_0000) else .none pa
    | 6 => .dieCtl die (low - 0x6000_0000_0000)
    | _ => .none pa

/-- The local address of a place: where memory keeps its bytes, and its line for coherence (R18); a reserved address stands
for itself. -/
def placeAddr : Region → Nat
  | .lpddr die off => die * 2 ^ 48 + off
  | .cluster die c off => die * 2 ^ 48 + 0x4000_0000_0000 + c * 0x100_0000 + off
  | .scratch die k off => die * 2 ^ 48 + 0x5000_0000_0000 + k * 0x80_0000 + off
  | .dieCtl die off => die * 2 ^ 48 + 0x6000_0000_0000 + off
  | .hubCtl off => 2 ^ 48 + 2 ^ 47 + off
  | .peer pos die off => 2 ^ 51 + pos * 2 ^ 41 + die * 2 ^ 37 + off
  | .none pa => pa

/-- LPDDR6 capacity of one die (R16, R72). -/
def State.capacity (s : State) : Nat := s.hub.caps.headD 4 * 16 * 2 ^ 30

/-- The presence bit of a pod position (R454); the own position is always present. -/
def State.podPresent (s : State) (p : Nat) : Bool :=
  p == s.hub.pos.toNat || bit (vget 0 s.hub.podmap (p / 64)) (p % 64)

/-- A place has backing (R15, R16, R17, R19); a control region has none for a job. DESIGN CHOICE (log entry 58): a peer's
installed capacity, which the manual does not give, is this package's own. -/
def State.backed (s : State) : Region → Bool
  | .lpddr _ off => off < s.capacity
  | .cluster .. => true
  | .scratch .. => true
  | .peer pos _ off => s.podPresent pos && !s.hub.deaf.contains pos && off < s.capacity
  | .dieCtl .. | .hubCtl .. | .none _ => false

/-- A byte lies in the secure world when an enabled secure region covers it (R429). -/
def State.secureByte (s : State) (pa : Nat) : Bool :=
  (List.range 64).any fun n =>
    let b := Cells.get 0 s.hub.rgn (2 * n)
    let l := Cells.get 0 s.hub.rgn (2 * n + 1)
    bit b 63 && bit l 63 && decide (fld b 51 16 ≤ pa / 65536) && decide (pa / 65536 ≤ fld l 51 16)

/-- A world check on n bytes at a local address (R27): a non-secure access meets no secure byte. -/
def State.worldOk (s : State) (sec : Bool) (pa n : Nat) : Bool :=
  sec || s.hub.rgn.isEmpty || !(s.secureByte pa || s.secureByte (pa + n - 1))

/-- The owner check on physical scratchpad (R20): the byte lies in the window of a job resident on that core, of the same
ASID and world; and not in a mapped stash window of it (R62). -/
def State.scratchOwner (s : State) (die k off : Nat) : Option Job :=
  s.jobs.find? fun j => j.onCore && j.die == die && j.core == k && decide (j.base ≤ off) &&
    decide (off < j.base + j.window)

/-- A window byte lies in a mapped stash window (R52). -/
def Job.stashAt (j : Job) (off : Nat) : Option (Nat × StashWin) :=
  ((List.range 8).map fun i => (i, vget ⟨false, 0, 0, 0, 0⟩ j.stash i)).find? fun (_, w) =>
    w.v && decide (w.off * 65536 ≤ off) && decide (off < (w.off + w.sizem1 + 1) * 65536)

def State.ownerOk (s : State) (asid : Nat) (sec : Bool) : Region → Bool
  | .scratch die k off =>
    match s.scratchOwner die k off with
    | some j => j.ctx.asid == asid && j.ctx.sec == sec && (j.stashAt (off - j.base)).isNone
    | none => false
  | _ => true

/-! ## Page-table entries (R22 to R24) -/

def pteV (e : Nat) : Bool := bitN e 0
def pteKind (e : Nat) : Nat := fldN e 2 1
def pteR (e : Nat) : Bool := bitN e 4
def pteW (e : Nat) : Bool := bitN e 5
def pteX (e : Nat) : Bool := bitN e 6
def pteRO (e : Nat) : Bool := bitN e 7
def pteAddr (e : Nat) : Nat := fldN e 51 8 * 256
def pteS (e : Nat) : Bool := bitN e 52
def pteG (e : Nat) : Bool := bitN e 53
def pteCC (e : Nat) : Nat := fldN e 55 54
def pteHome (e : Nat) : Nat := fldN e 59 56

/-- Bytes that a leaf of a level maps (R22). -/
def pageSize : Nat → Nat
  | 0 => 2 ^ 16 | 1 => 2 ^ 21 | 2 => 2 ^ 30 | _ => 2 ^ 43
/-- Size and alignment of a table of a level (R22). -/
def tableSize : Nat → Nat
  | 0 => 256 | 1 => 4096 | 2 => 65536 | _ => 131072
/-- The index a level takes from the address (R22). -/
def tableIndex (va : Nat) : Nat → Nat
  | 0 => fldN va 20 16 | 1 => fldN va 29 21 | 2 => fldN va 42 30 | _ => fldN va 56 43

/-- A leaf breaks R22, R23 or R24. -/
def leafBad (level e : Nat) : Bool :=
  let pa := pteAddr e
  let home := pteHome e
  level == 3 || fldN e 63 60 != 0 || bitN e 3 || pa % pageSize level != 0 ||
  (pteW e && !pteR e) || (pteW e && pteX e) || (pteRO e && pteW e) ||
  (if 2 ^ 51 ≤ pa then home != 0xE
   else if bitN pa 47 then !(pa / 2 ^ 48 == 0 && home == 0xF)
   else match regionOf 1024 pa with
     | .lpddr d _ | .cluster d _ _ | .scratch d _ _ => home != d
     | _ => true)

/-- A table entry of a level breaks R22 to R24. -/
def tableBad (level e : Nat) : Bool :=
  let pa := pteAddr e
  level == 0 || pa % tableSize (level - 1) != 0 || 2 ^ 51 ≤ pa ||
  (match regionOf 1024 pa with | .hubCtl _ | .dieCtl .. => true | _ => false)

/-! ## The walk (R31, R42) -/

/-- A walk's outcome: the leaf with its level and its entry's address, or a fault. -/
inductive Walk where
  | leaf (level entry entryPa : Nat)
  | fault (f : TFault)
  deriving DecidableEq, Repr, Inhabited

/-- One table entry read, with the checks of R42 on it. -/
inductive EntryRead where
  | leaf (e : Nat)
  | table (pa : Nat)
  | fault (f : TFault)
  deriving DecidableEq, Repr, Inhabited

/-- A walk-cache entry serves a level's read for an address in a context (R30). -/
def WalkEnt.hits (w : WalkEnt) (asid : Nat) (sec : Bool) (va level : Nat) : Bool :=
  w.asid == asid && w.sec == sec && w.level == level && w.prefix_ == va / pageSize level

/-- Reads the entry at a level: from the walk cache given, else from memory, with its checks in order: world of the read,
backing of the read, not present, format (R30, R42); a read that fails for good is a memory error (R425). No table is read in
the fabric window (R24): a root that lies there is a format fault (log entry 58). -/
def readEntry (s : State) (cache : List WalkEnt) (asid : Nat) (sec : Bool) (va level pa : Nat) : EntryRead :=
  match cache.find? fun w => w.hits asid sec va level with
  | some w => .table (pteAddr w.entry)
  | none =>
  let r := regionOf s.hub.pos.toNat pa
  let loc := placeAddr r
  if 2 ^ 51 ≤ pa then .fault ⟨0x11, va, level, 0, pa⟩
  else if !s.worldOk sec loc 8 then .fault ⟨0x13, va, level, 0, pa⟩
  else if !s.backed r then .fault ⟨0x15, va, level, 0, pa⟩
  else match s.failing loc 8 with
  | some b => .fault ⟨0x24, va, 0, 0, b.pa⟩
  | none =>
    let e := leNum (s.mem.readMany loc 8)
    if !pteV e then .fault ⟨0x10, va, level, e, pa⟩
    else match pteKind e with
      | 0 => if tableBad level e then .fault ⟨0x11, va, level, e, pa⟩ else .table (pteAddr e)
      | 1 => if leafBad level e then .fault ⟨0x11, va, level, e, pa⟩ else .leaf e
      | _ => .fault ⟨0x11, va, level, e, pa⟩

/-- The walk from a table of a level (R22). -/
def walkFrom (s : State) (cache : List WalkEnt) (asid : Nat) (sec : Bool) (va : Nat) : Nat → Nat → Walk
  | 0, table =>
    let pa := table + tableIndex va 0 * 8
    match readEntry s cache asid sec va 0 pa with
    | .leaf e => .leaf 0 e pa
    | .table _ => .fault ⟨0x11, va, 0, 0, pa⟩
    | .fault f => .fault f
  | l + 1, table =>
    let pa := table + tableIndex va (l + 1) * 8
    match readEntry s cache asid sec va (l + 1) pa with
    | .leaf e => .leaf (l + 1) e pa
    | .table t => walkFrom s cache asid sec va l t
    | .fault f => .fault f

/-- A walk from the root (R22), reading every entry from memory. -/
def walk (s : State) (c : Ctx) (va : Nat) : Walk := walkFrom s [] c.asid c.sec va 3 c.root

/-! ## Permissions and the data checks (R25, R27, R42) -/

/-- What an access needs of its leaf (R25). -/
inductive Need where
  | r | w | rw | x
  deriving DecidableEq, Repr, Inhabited

def needOk (n : Need) (e : Nat) : Bool :=
  match n with
  | .r => pteR e
  | .w => pteW e
  | .rw => pteR e && pteW e
  | .x => pteX e

/-- A translated access: its place, local address, cacheability class, and the world it is made in. -/
structure Xl where
  region : Region
  pa     : Nat
  cc     : Nat
  sec    : Bool
  leaf   : Nat
  level  : Nat
  deriving DecidableEq, Repr, Inhabited

/-- The scope of a translated access (R19): system through the fabric window, the own position's part of it too. -/
def Xl.scope (x : Xl) (scp : Nat) : Nat := if 2 ^ 51 ≤ pteAddr x.leaf then 6 else scp

/-- The physical address under a leaf. -/
def leafPa (level e va : Nat) : Nat := pteAddr e + va % pageSize level

/-- The checks after the walk: protection, world, unbacked, scratch owner (R42). -/
def checkLeaf (s : State) (c : Ctx) (need : Need) (va n level e : Nat) : Except TFault Xl :=
  let r := regionOf s.hub.pos.toNat (leafPa level e va)
  let loc := placeAddr r
  let sec := c.sec && pteS e
  if !needOk need e then .error ⟨0x12, va, 0, 0, 0⟩
  else if (!c.sec && pteS e) || !s.worldOk sec loc n then .error ⟨0x13, va, 0, 0, 0⟩
  else if !s.backed r then .error ⟨0x15, va, 0, 0, 0⟩
  else if !s.ownerOk c.asid c.sec r then .error ⟨0x16, va, 0, 0, 0⟩
  else .ok ⟨r, loc, pteCC e, sec, e, level⟩

/-- A translation made with a walk of its own: what the hardware's record writes use (L16). -/
def xlateNow (s : State) (c : Ctx) (need : Need) (va n : Nat) : Except TFault Xl :=
  if !vaOk va n then .error ⟨0x14, va, 0, 0, 0⟩
  else match vrange va with
    | .mapped =>
      match walk s c va with
      | .leaf l e _ => checkLeaf s c need va n l e
      | .fault f => .error f
    | _ => .error ⟨0x14, va, 0, 0, 0⟩

/-! ## Translation caches and walk requests (R30, R32) -/

/-- A cached translation serves an address in a context. -/
def Tlb.hits (t : Tlb) (asid : Nat) (sec : Bool) (va : Nat) : Bool :=
  (t.asid == asid || pteG t.leaf) && t.sec == sec && decide (t.va ≤ va) && decide (va < t.va + pageSize t.level)

/-- The cached translation that serves a requester of a kind: of the first level, its own cache alone; and of the second,
which is shared (R30). -/
def State.tlbFind (s : State) (core kind : Nat) (c : Ctx) (va : Nat) : Option Tlb :=
  let k := s.coreAt core
  (k.tlb ++ vget [] k.tlb1 kind).find? fun t => t.hits c.asid c.sec va

/-- Two translations stand in one set of the second-level cache, of 256 sets (R30: 2,048 entries, 8 ways). -/
def Tlb.sameSet (t u : Tlb) : Bool := Config.tlbSet (t.va / 65536) % 256 == Config.tlbSet (u.va / 65536) % 256

/-- A translation enters a core's second level, where the entry of its set filled first goes when 8 stand there, and the
first level of its requester's kind, which holds 64 (R30). -/
def Core.fillTlb (c : Core) (t : Tlb) (kind : Nat) : Core :=
  let rest := c.tlb.filter fun u => !(u.hits t.asid t.sec t.va)
  let full := decide (8 ≤ rest.length) && decide (8 ≤ (rest.filter t.sameSet).length)
  let rest :=
    match (if full then (rest.filter t.sameSet).getLast? else none) with
    | some v => rest.erase v
    | none => rest
  { c with
    tlb := t :: rest
    tlb1 := vset c.tlb1 kind ((t :: (vget [] c.tlb1 kind).filter fun u => !(u.hits t.asid t.sec t.va)).take 64) }

/-- Who makes the access. -/
def State.asker (s : State) : Asker := s.via.getD (.strm s.cur)

/-- The first-level translation cache that serves a requester of a job (R30): 0 that of the C and A streams, 1 that of operand
fetches, 2 the copy engine's, which takes inbound commands. DESIGN CHOICE (log entry 70): instruction fills, stash fills and
retirement, which the manual does not place, are served by the first. -/
def Job.tlbKind (j : Job) : Asker → Nat
  | .strm .M | .strm .V => 1
  | .inbound => 2
  | .op id => if j.entries.any (fun e => e.id == id && (match e.kind with | .op o => o.copy.isSome | _ => false)) then 2 else 1
  | _ => 0

/-- A request is for the same granule of the same context (R32). -/
def WalkReq.same (w : WalkReq) (asid : Nat) (sec : Bool) (va : Nat) : Bool :=
  w.asid == asid && w.sec == sec && w.va / 65536 == va / 65536

/-- Distinct walks in service for a core (R32). -/
def Die.serving (d : Die) (core : Nat) : Nat := (d.walking.filter fun w => w.who.any fun x => x.core == core).length

/-- A core may have a request merged into walk w: the walk is in service for it already, or fewer than 8 are (R32). -/
def Die.mayServe (d : Die) (w : WalkReq) (core : Nat) : Bool :=
  (w.who.any fun x => x.core == core) || decide (d.serving core < 8)

/-- A request gets the requesters of another that asks for the same walk. -/
def WalkReq.merge (w : WalkReq) (who : List Requester) (cls : Nat) : WalkReq :=
  { w with who := w.who ++ who.filter (fun x => !w.who.contains x), cls := Nat.max w.cls cls }

/-- Enters a walk request for a job, merged with an equal one, in service or queued; a full queue takes none (R32). -/
def State.requestWalk (s : State) (j : Job) (va : Nat) : State :=
  let who : Requester := ⟨j.num, j.coreIx, s.asker⟩
  let d := s.dieAt j.die
  let mine := fun (w : WalkReq) => w.same j.ctx.asid j.ctx.sec va
  let into := fun (w : WalkReq) => if mine w then w.merge [who] j.cls else w
  if (d.walkQ ++ d.walking).any (fun w => mine w && w.who.contains who) then s
  else if d.walking.any (fun w => mine w && d.mayServe w j.coreIx) then
    s.modDie j.die fun d => { d with walking := d.walking.map into }
  else if d.walkQ.any mine then s.modDie j.die fun d => { d with walkQ := d.walkQ.map into }
  else if d.walkQ.length < 1024 then
    s.modDie j.die fun d =>
      { d with walkQ := d.walkQ ++ [⟨j.ctx.asid, j.ctx.sec, va, j.ctx.root, j.cls, s.cycle, false, [who]⟩] }
  else s

/-- Requesters that p names no longer want their walks; a walk that nobody wants is abandoned (R41). -/
def State.dropWalkers (s : State) (die : Nat) (p : Requester → Bool) : State :=
  let left := fun (w : WalkReq) =>
    let who := w.who.filter fun x => !p x
    if who.isEmpty then none else some { w with who := who }
  s.modDie die fun d => { d with walkQ := d.walkQ.filterMap left, walking := d.walking.filterMap left }

/-- The fault record of a translation fault (R43). -/
def TFault.info (f : TFault) (acck : Nat) : FaultInfo :=
  let walker := f.cause == 0x10 || f.cause == 0x11 || f.entryPa != 0
  { FaultInfo.of f.cause with va := f.va, acck := acck, level := f.level, entry := f.entry,
                              aux := if walker then f.entryPa else 0 }

/-- Translates one unit of the mapped range for the job in focus: through its core's cached translations, else by a walk
request on which the access waits (R30, R32, R33). A walk that failed for this requester raises its fault (R42, R43); one
whose address is translated by now is forgotten (R31). -/
def xlate (need : Need) (acck va n : Nat) : M Xl := do
  let s ← get
  if !vaOk va n then throw (.fault (TFault.info ⟨0x14, va, 0, 0, 0⟩ acck))
  let kept := takeOut (fun f => f.1 == s.asker && f.2.va / 65536 == va / 65536) s.job.walkFaults
  match s.tlbFind s.job.coreIx (s.job.tlbKind s.asker) s.job.ctx va with
  | some t =>
    match kept with
    | some (_, rest) => set (s.modJob fun j => { j with walkFaults := rest })
    | none => pure ()
    match checkLeaf s s.job.ctx need va n t.level t.leaf with
    | .ok x => pure x
    | .error f => throw (.fault (TFault.info f acck))
  | none =>
    match kept with
    | some ((_, f), rest) =>
      set (s.modJob fun j => { j with walkFaults := rest })
      throw (.fault (TFault.info { f with va := va } acck))
    | none =>
      set (s.requestWalk s.job va)
      throw (.wait (.walk va))

/-- The device-tree page (R13): reads only, of the frame named in the context. -/
def dtreeXl (need : Need) (acck off n : Nat) : M Xl := do
  let s ← get
  let va := 0x01FF_FFFF_C000_0000 + off
  if 65536 < off + n then throw (.fault (TFault.info ⟨0x14, va, 0, 0, 0⟩ acck))
  if need ≠ .r then throw (.fault (TFault.info ⟨0x12, va, 0, 0, 0⟩ acck))
  let r := regionOf s.hub.pos.toNat (s.job.ctx.dtree + off)
  let loc := placeAddr r
  if !s.worldOk s.job.ctx.sec loc n then throw (.fault (TFault.info ⟨0x13, va, 0, 0, 0⟩ acck))
  if !s.backed r then throw (.fault (TFault.info ⟨0x15, va, 0, 0, 0⟩ acck))
  pure ⟨r, loc, 2, s.job.ctx.sec, s.job.ctx.dtree, 0⟩

end Sys2Proof.Machine
end

