-- ==== Sys2Proof/Machine/Scope.lean ====
section
/-! DEFINITION. Scopes (R79, R84 to R87, R91): the agents that a scope reaches, by their placement at the time of the access;
the effective scope of an access; and what the stream's words say of the FENCE to come. -/

namespace Sys2Proof.Machine

/-- The agents of the model (R84). -/
inductive Agent where
  | stream (num : Nat) (x : StreamId)
  | service
  | host
  | peer
  deriving DecidableEq, Repr, Inhabited

/-- Core c of the package lies in the instance that a scope of core, cluster, die or wider has around core d. -/
def coreReach (scp d c : Nat) : Bool :=
  match scp with
  | 0 | 1 | 2 => c == d
  | 3 => c / 8 == d / 8
  | 4 => c / 32 == d / 32
  | _ => true

/-- The instance of a scope around agent a holds agent b, both where they stand now (R85, R86). A service core's instance
is its package at the least, a host's and a peer's the system. -/
def State.inScope (s : State) (scp : Nat) (a b : Agent) : Bool :=
  match a, b with
  | .stream n x, .stream m y =>
    if scp = 0 then n == m && x == y
    else if scp = 1 then n == m
    else match s.findJob n, s.findJob m with
      | some j, some k => coreReach scp j.coreIx k.coreIx
      | _, _ => false
  | .stream .., .service => decide (5 ≤ scp)
  | .stream .., _ => decide (6 ≤ scp)
  | .service, .stream .. | .service, .service => true
  | .service, _ => decide (6 ≤ scp)
  | .host, _ | .peer, _ => true

/-- Two accesses, of effective scopes p and q by agents a and b, are mutually scoped (R91). -/
def State.mutual (s : State) (a : Agent) (p : Nat) (b : Agent) (q : Nat) : Bool := s.inScope p a b && s.inScope q b a

/-- The stream in turn, as an agent. An engine's accesses are its stream's (R84). -/
def State.agent (s : State) : Agent := .stream s.job.num s.cur

/-- A scope code after R83, R19: an access through the fabric window is of system scope. -/
def scopeAt (pa scp : Nat) : Nat := if 2 ^ 51 ≤ pa then 6 else scp

/-- Bytes of instruction memory from an address on, as far as they are filled in its unit and the next. -/
def Stream.codeFrom (t : Stream) (pc : Nat) : List Byte :=
  let unit := fun (base : Nat) => ((t.imem.find? fun u => u.here && u.base == base).map fun u => u.bytes).getD []
  (unit (pc / 256 * 256)).drop (pc % 256) ++ unit (pc / 256 * 256 + 256)

/-- The scope of the first FENCE that the stream comes to, as its words tell when nothing but plain work stands before it:
FENCE itself, SETF, which fences first, and JOIN, which is FENCE.job (R401, R406). none: the words do not tell. -/
def fenceIn : Nat → List Byte → Option Nat
  | 0, _ => none
  | n + 1, bs =>
    let always := fun (h : Hdr) => h.g.p == 0 && !h.g.neg
    match decode bs with
    | .error _ => none
    | .ok (i, rest) =>
      match i with
      | .fence h scp | .setf h _ _ scp _ _ | .setfAdd h _ _ scp _ _ => if always h then some scp.toNat else none
      | .join h => if always h then some 1 else none
      | .joinShort => some 1
      | .add .. | .sub .. | .mul .. | .and .. | .or .. | .xor .. | .shl .. | .shr .. | .addImm .. | .subImm .. | .mov ..
      | .movi .. | .moviH .. | .cmp .. | .cmpImm .. | .sel .. | .lea .. | .nop .. | .nopShort | .movShort .. | .addShort ..
      | .addImmShort .. | .moviShort .. | .ld .. | .st .. | .amo .. | .cas .. => fenceIn n rest
      | _ => none

/-- The scope of the first FENCE after the instruction in turn (R91), when the stream's words tell it. -/
def Stream.fenceAhead (t : Stream) : Option Nat :=
  if t.frames.isEmpty then fenceIn 16 (t.codeFrom t.pc.toNat) else none

/-- The effective scope of an access of the stream (R91): the widest of its own, that of the FENCE before it, and that of the
FENCE after it; the widest of all when the words do not tell the last. -/
def Stream.effective (t : Stream) (scp : Nat) : Nat := Nat.max (Nat.max scp t.fence) (t.fenceAhead.getD 6)

end Sys2Proof.Machine
end

