-- ==== Sys2Proof/Machine/Order.lean ====
section
/-! DEFINITION. The order of Weir entries (R111 to R113): keys and what they name of an entry that has begun, provisional marks of
scratch lines, and the accesses from outside the core that enter the owner's Weir (R51). -/

namespace Sys2Proof.Machine

/-! ## Keys and overlap (R111, R113) -/

/-- The run of whole 64-byte blocks that holds bytes lo to hi - 1. -/
def blocks (lo hi : Nat) : Range := (lo / 64 * 64, (hi + 63) / 64 * 64)

def rangeMeet (a b : Range) : Bool := decide (a.1 < b.2) && decide (b.1 < a.2)
def rangesMeet (a b : List Range) : Bool := a.any fun x => b.any (rangeMeet x)
def listsMeet (a b : List Nat) : Bool := a.any b.contains

/-- Two entries overlap under scratch keys. -/
def Keys.scratchMeet (x y : Keys) : Bool := rangesMeet x.sw (y.sr ++ y.sw) || rangesMeet x.sr y.sw
def Keys.accMeet (x y : Keys) : Bool := listsMeet x.aw (y.ar ++ y.aw) || listsMeet x.ar y.aw
def Keys.regMeet (x y : Keys) : Bool := listsMeet x.vw (y.vr ++ y.vw) || listsMeet x.vr y.vw
def Keys.slotMeet (x y : Keys) : Bool := listsMeet x.pr y.pr
/-- Two entries of one job overlap: one of them writes under a key that meets a key of the other (R113). -/
def Keys.overlap (x y : Keys) : Bool := x.scratchMeet y || x.accMeet y || x.regMeet y || x.slotMeet y

/-- The kind and index of the first key under which x waits on y, for the wait log (R441). -/
def Keys.why (x y : Keys) : WaitObj :=
  if x.slotMeet y then .order 0 ((x.pr.find? y.pr.contains).getD 0)
  else if x.accMeet y then .order 1 (((x.aw ++ x.ar).find? (y.aw ++ y.ar).contains).getD 0)
  else if x.regMeet y then .order 2 (((x.vw ++ x.vr).find? (y.vw ++ y.vr).contains).getD 0)
  else .order 3 ((((x.sw ++ x.sr).find? fun r => rangesMeet [r] (y.sr ++ y.sw)).map fun r => r.1 / 65536).getD 0)

/-! ## What an entry has still to access (R115) -/

def PortRun.start : PortRun := ⟨0, false, [], [], 0⟩
/-- The progress of port i of an operation. -/
def Op.run (o : Op) (i : Nat) : PortRun := o.runs.getD i .start

/-- Lag of the program of a slot (R300); 0 for no program. -/
def Job.lagOf (j : Job) (n : Nat) : Nat :=
  if n = 0 then 0 else fldN (((vget .empty j.slots n).image.headD 0).toNat) 28 25

/-- A contribution is outstanding until its delta is added to the source (R322). -/
def Job.addPending (j : Job) (id : Nat) : SpillRole → Bool
  | .contrib tag _ => j.lineages.any fun l => l.tag == tag && l.deltas.any fun d => d.id == id && !d.added
  | _ => false

/-- Every access under the entry's keys has been made: the entry has left the Weir, though its operation may still have
pushes to be applied or completion actions to make (R115, R285, R287, R379). -/
def Job.spent (j : Job) (e : Entry) : Bool :=
  match e.kind with
  | .op o => o.finished && !j.addPending e.id o.role
  | _ => false

/-- Vector registers of its rows that an operation has still to read, and to write, those of ARG apart. -/
def Job.regsLeft (j : Job) (o : Op) : List Nat × List Nat :=
  let got := fun (i : Nat) => (o.run i).q + if (o.run i).taken then 1 else 0
  let put := fun (i slot : Nat) => (o.run i).q - j.lagOf slot
  match o.instr with
  | .vld _ _ _ _ px => (o.vs, o.vd.drop (put 0 px.toNat))
  | .vst .. => (o.vs.drop (got 0), o.vd)
  | .vmov _ t2 _ _ _ _ px py pz =>
    -- a port reads its element's register, and the partner of the row that it gives (R293)
    let x := if t2 then Nat.min (o.run 0).q (put 1 py.toNat) else (o.run 0).q
    (o.vs.drop x ++ o.vt.drop (Nat.min (o.run 1).q (put 0 px.toNat)), o.vd.drop (put 2 pz.toNat))
  | .vred .. => (o.vs.drop o.unit, o.vd)
  | _ => (o.vs ++ o.vt, o.vd)

/-- The keys under which an entry has still an access to make: none for one that is spent, or that stands away; a vector
operation is done with the registers of its earlier rows (R115, R285). -/
def Job.keysLeft (j : Job) (e : Entry) : Keys :=
  if e.away || j.spent e then Keys.none
  else match e.kind with
    | .op o =>
      let arg := (o.argv.filter (· != 0)).map (· - 1)
      let (rd, wr) := j.regsLeft o
      { e.keys with vr := e.keys.vr.filter (rd ++ arg).contains, vw := e.keys.vw.filter wr.contains }
    | _ => e.keys

/-- The accesses that an entry has still to make, be it that it stands away and is yet to enter again (R116). -/
def Job.keysDue (j : Job) (e : Entry) : Keys := j.keysLeft { e with away := false }

/-! ## Places in the Weir (R115) -/

/-- Entries of the core that stand in the Weir in no kept place. -/
def State.generalEntries (s : State) (core : Nat) : Nat :=
  ((s.onCore core).map fun j => (j.entries.filter fun e => !e.kept && !e.away && !j.spent e).length).foldl (· + ·) 0

/-- A free place of a core that is not kept (R115: 64 places, of which 24 are kept). -/
def State.roomOn (s : State) (core : Nat) : Bool := s.generalEntries core < 40

/-! ## Provisional bytes (R131, R132) -/

/-- The lineage whose mark a byte range of the window meets. -/
def Job.markAt (j : Job) (lo hi : Nat) : Option Nat :=
  (j.marks.find? fun m => decide (m.1 * 256 < hi) && decide (lo < m.1 * 256 + 256)).map fun m => m.2

/-- The lineage for whose settle a read of window bytes by entry id waits: one published after the entry does not count
(R330). -/
def Job.markFor (j : Job) (id lo hi : Nat) : Option Nat :=
  (j.marks.find? fun m => decide (m.1 * 256 < hi) && decide (lo < m.1 * 256 + 256) &&
    j.lineages.any fun l => l.tag == m.2 && decide (l.born ≤ id)).map fun m => m.2

/-- The source accumulator of a lineage. -/
def Job.srcOf (j : Job) (tag : Nat) : Nat := ((j.lineages.find? fun l => l.tag == tag).map fun l => l.src).getD 0

/-! ## Who ends a wait (R441) -/

/-- ENG of an operation (R422). -/
def Op.eng (o : Op) : Nat :=
  match o.copy with
  | some c => if c.chan < 4 then 4 else 5
  | none => match o.instr with
    | .vrow .. => 3
    | _ => if o.tl = 5 then 2 else 1

/-- The ender that a Weir entry of a job is: its engine, or the stream whose held instruction it is; 0xE for an agent outside, 0xF
when it is not known. -/
def Entry.ender (e : Entry) (num : Nat) : Ender :=
  match e.kind with
  | .op o => ⟨o.eng, num, 0⟩
  | .held x => ⟨0, num, streamNum x⟩
  | .outside (.agent _) | .outside (.debugger ..) => ⟨0xE, 0, 0⟩
  | _ => ⟨0xF, 0, 0⟩

/-- The ender that makes the access in hand. -/
def State.maker (s : State) : Ender :=
  match s.asker with
  | .strm x => ⟨0, s.job.num, streamNum x⟩
  | .op id => ((s.job.entries.find? fun e => e.id == id).map fun e => e.ender s.job.num).getD ⟨0xF, 0, 0⟩
  | .inbound => ⟨5, s.job.num, 0⟩
  | .retire => ⟨6, s.job.num, 0⟩
  | _ => ⟨0xF, 0, 0⟩

/-- An agent acts on what the streams named wait on: the wait that ends next was ended by it. -/
def State.tell (s : State) (p : Job → StreamId → WaitObj → Bool) (e : Ender) : State :=
  let waits := fun (j : Job) (x : StreamId) => (j.str x).wait.any fun w => p j x w.obj
  let js := s.jobs.filter fun j => allStreams.any (waits j)
  if js.isEmpty then s
  else
    (js.filter Job.onCore).foldl (fun s j => s.rouse j.coreIx)
      (s.mapJobs fun j => allStreams.foldl (fun k x => if waits j x then k.setStr x { k.str x with ender := some e } else k) j)

/-- The same for the objects of waits in the job in focus. -/
def State.tellOwn (s : State) (p : WaitObj → Bool) (e : Ender) : State := s.tell (fun j _ o => j.num == s.job.num && p o) e

/-- The same for what waits on timeline t, of which an operation is complete. -/
def State.tellLine (s : State) (t : Nat) (e : Ender) : State :=
  s.tellOwn (fun o => match o with | .timeline u => u == t | _ => false) e

/-- A store or atomic on n bytes at a local address: flags and barrier objects that it meets. -/
def State.tellWord (s : State) (pa n : Nat) (e : Ender) : State :=
  s.tell (fun _ _ o => match o with
    | .flag q => decide (q < pa + n) && decide (pa < q + 8)
    | .barrier k q => k != 0 && decide (q < pa + n) && decide (pa < q + 16)
    | _ => false) e

/-- The key of a kind and index, as R441 gives them, is one of an entry's. -/
def Keys.covers (ks : Keys) (kind idx : Nat) : Bool :=
  match kind with
  | 0 => ks.pr.contains idx
  | 1 => (ks.ar ++ ks.aw).contains idx
  | 2 => (ks.vr ++ ks.vw).contains idx
  | _ => (ks.sr ++ ks.sw).any fun r => decide (r.1 / 65536 ≤ idx) && decide (idx * 65536 < r.2)

/-- Entry id of the job in focus has made accesses, or leaves: what waits in Weir order on its keys, and for a place. -/
def State.tellEntry (s : State) (id : Nat) : State :=
  match s.job.entries.find? fun e => e.id == id with
  | none => s
  | some e => s.tell (fun j _ o => match o with
      | .order k i => j.num == s.job.num && e.keys.covers k i
      | .weir => j.coreIx == s.job.coreIx
      | _ => false) (e.ender s.job.num)

/-! ## Accesses from outside the core (R51) -/

/-- It is the entry of an access from outside by an agent that p names. -/
def Entry.outsideOf (e : Entry) (p : Outsider → Bool) : Bool :=
  match e.kind with
  | .outside w => p w
  | _ => false

/-- The accesses from outside that wait, by the agents that p names, are made or given up: their entries leave. -/
def State.dropOutside (s : State) (p : Outsider → Bool) : State :=
  if s.jobs.any fun j => j.entries.any fun e => e.outsideOf p then
    s.mapJobs fun j => { j with entries := j.entries.filter fun e => !e.outsideOf p }
  else s

/-- An access from outside to bytes of a job's window, as the Weir entry that it is. -/
def Job.outsideEntry (j : Job) (who : Outsider) (keys : Keys) : Option Entry :=
  j.entries.find? fun e => e.kind == .outside who && e.keys == keys

/-- The access has still to wait on o: it takes its place in entry order at its arrival, and keeps it (R111, R112). -/
def outsideStay (num : Nat) (who : Outsider) (keys : Keys) (o : WaitObj) : M Unit := do
  let s ← get
  if !((s.findJob num).any fun j => (j.outsideEntry who keys).isSome) then
    set (s.modJobNum num fun j =>
      { j with entries := j.entries ++ [⟨j.nextId, .C, 0, .outside who, keys, false, false⟩], nextId := j.nextId + 1 })
  throw (.wait o)

/-- The access is made: its entry leaves. -/
def outsideLeave (num : Nat) (who : Outsider) (keys : Keys) : M Unit :=
  modify fun s => s.modJobNum num fun j => { j with entries := j.entries.filter fun e => !(e.kind == .outside who && e.keys == keys) }

/-- An access through the physical scratchpad range enters the owner's Weir, and waits behind the earlier entries under keys
that meet its bytes, and on provisional bytes, but for those of a lineage published after it (R51, R111 to R113, R115, R132,
R330); no tide stalls it. A core that stands keeps it waiting (R442). The entries that p names do not hold it. With `keep` the access
is still to come, and its entry stays. -/
def outsideWait (who : Outsider) (p : Nat → Entry → Bool) (r : Region) (n : Nat) (write keep : Bool) : M Unit := do
  let s ← get
  match r with
  | .scratch die k off =>
    set (s.rouse (die * 32 + k))
    if (s.coreAt (die * 32 + k)).stands s.cycle then throw (.wait .weir)
    match s.scratchOwner die k off with
    | none => pure ()
    | some j =>
      let lo := off - j.base
      let run := [blocks lo (lo + n)]
      let keys := { Keys.none with sr := run, sw := if write then run else [] }
      let own := j.outsideEntry who keys
      if own.isNone && !s.roomOn (die * 32 + k) then throw (.wait .weir)
      let before := match own with | some e => j.entries.takeWhile fun (x : Entry) => x.id != e.id | none => j.entries
      match before.find? fun e => keys.overlap (j.keysLeft e) && !p j.num e with
      | some e => outsideStay j.num who keys (keys.why e.keys)
      | none =>
        let mark := match own with | some e => j.markFor e.id lo (lo + n) | none => j.markAt lo (lo + n)
        match mark with
        | some t => outsideStay j.num who keys (.lineage (j.srcOf t))
        | none => if keep then pure () else outsideLeave j.num who keys
  | _ => pure ()

/-- It is the entry of the part of the job in focus that makes the access: its operation, or its stream's held instruction. -/
def Entry.madeBy (e : Entry) (by_ : Asker) : Bool :=
  match by_ with
  | .strm x => e.kind == .held x
  | .op id => e.id == id
  | _ => false

/-- The same for an access of the job in focus: its own entry, or the held instruction that makes it, does not hold it. An
operation keeps the place of an access that it is still to make until it has made it, or stops. -/
def outsideHold (self : Option Nat) (r : Region) (n : Nat) (write keep : Bool) : M Unit := do
  let s ← get
  let keep := keep && (match s.asker with | .op _ => true | _ => false)
  outsideWait (.part s.job.num s.asker) (fun num e => num == s.job.num && (some e.id == self || e.madeBy s.asker)) r n write keep

def outsideClear (self : Option Nat) (r : Region) (n : Nat) (write : Bool) : M Unit := outsideHold self r n write false

end Sys2Proof.Machine
end

