-- ==== Sys2Proof/Machine/Mem.lean ====
section
/-! DEFINITION. The homes and held copies (chapters 02 and 03): performing loads, stores and atomics at their homes,
leases and logical time, stash recalls, the L2's record of lines, and a stream's pending relaxed stores. -/

namespace Sys2Proof.Machine

/-- The 256-byte line of a local address. -/
def lineOf (pa : Nat) : Nat := pa / 256

/-- A local address may be held in an L1 or an L2: LPDDR6 of this package or a peer's memory (R20, R67, R69). -/
def leased (pa : Nat) : Bool :=
  decide (2 ^ 51 ≤ pa) || (pa % 2 ^ 47 / 2 ^ 44 == 0 && !bitN pa 47)

/-- The home slice of a die-local LPDDR6 offset (R68). -/
def homeSlice (x : Nat) : Nat :=
  fldN x 11 8 ^^^ fldN x 15 12 ^^^ fldN x 19 16 ^^^ fldN x 23 20 ^^^ fldN x 27 24 ^^^ fldN x 31 28 ^^^ fldN x 35 32
    ^^^ fldN x 36 36

/-! ## The L2's record of lines (R70, R74) -/

/-- The slice of a die's L2 that holds a line: its home slice, or that of PA[36:0] for a peer's line (R68, R69). -/
def lineSlice (line : Nat) : Nat := homeSlice (line * 256 % (if 2 ^ 43 ≤ line then 2 ^ 37 else 2 ^ 47))

/-- Lines of one set of one slice, among those recorded: 3,072 sets of 16 ways and 256-byte lines are a slice's 12 MiB (R67;
the set of a line has no visible effect). -/
def sameSet (a b : Nat) : Bool := lineSlice a == lineSlice b && Config.l2Set a % 3072 == Config.l2Set b % 3072

/-- The victim of an allocation among the lines of the set, most recently used first, with so many of its ways in service:
the least recently used of the lowest recorded priority; at priority 7 with 12 such lines, the least recently used of those
(R70). -/
def l2Victim (set : List L2Line) (ways pri : Nat) : Option L2Line :=
  if pri == 7 && 12 ≤ (set.filter fun l => l.pri == 7).length then (set.filter fun l => l.pri == 7).getLast?
  else if set.length < ways then none
  else
    let low := (set.map fun l => l.pri).foldl Nat.min 7
    (set.filter fun l => l.pri == low).getLast?

/-- A hit at priority 7 leaves the record as it is when 12 other lines of the set record 7 (R70: at most 12 do; DESIGN
CHOICE, log entry 4). -/
def l2Hit (rest : List L2Line) (l : L2Line) (pri : Nat) : Nat :=
  if pri == 0 then l.pri
  else if pri == 7 && decide (12 ≤ rest.length) && decide (12 ≤ (rest.filter fun m => m.pri == 7 && sameSet m.line l.line).length)
  then l.pri
  else pri

/-- Records an access to a line: a hit of priority 1 to 7 records it; a miss of priority 1 to 7 allocates (R70), in a set
without its ways out of service (R425); a set with none keeps nothing. -/
def l2Touch (ls : List L2Line) (out : List Nat) (line pri : Nat) (write : Bool) : List L2Line :=
  match takeOut (fun l => l.line == line) ls with
  | some (l, rest) => ⟨line, l2Hit rest l pri, l.dirty || write⟩ :: rest
  | none =>
    let ways := 16 - (out.filter fun l => sameSet l line).length
    if pri == 0 || ways == 0 then ls
    else
      let slice := ls.filter fun l => lineSlice l.line == lineSlice line
      let ls' :=
        if slice.length < 12 && ways == 16 then ls
        else match l2Victim (slice.filter fun l => sameSet l.line line) ways pri with
          | some v => ls.filter fun l => l.line != v.line
          | none => ls
      ⟨line, pri, write⟩ :: ls'

/-- A die's L2 holds the lines given: a peer's line that it holds no longer loses its copy (R69, R70). -/
def Die.setL2 (d : Die) (ls : List L2Line) : Die :=
  { d with l2 := ls, peer := d.peer.filter fun c => ls.any fun l => l.line == c.line }

/-- An access of class cc at priority ev reaches the L2 of its home die (R28, R74). -/
def State.touchL2 (s : State) (pa cc ev : Nat) (write : Bool) : State :=
  if 2 ^ 51 ≤ pa || !leased pa || cc == 2 then s
  else s.modDie (pa / 2 ^ 48) fun d => d.setL2 (l2Touch d.l2 d.ways (lineOf pa) (if cc == 3 then 0 else ev) write)

/-- A die's L2 takes a leased copy of a peer's line, at a priority (R69, R70). -/
def Die.keepPeer (d : Die) (c : HeldCopy) (ev : Nat) : Die :=
  let d := d.setL2 (l2Touch d.l2 d.ways c.line ev false)
  { d with peer := if d.l2.any (fun l => l.line == c.line) then c :: d.peer.filter fun k => k.line != c.line else d.peer }

/-! ## The L1 (R66, R74) -/

/-- A copy enters an L1 of 32 sets and 8 ways, most recently used first: the least recently used copy of its set goes when 8
stand there. -/
def keepL1 (l : List HeldCopy) (c : HeldCopy) : List HeldCopy :=
  let rest := l.filter fun k => k.line != c.line
  let same := fun (k : HeldCopy) => Config.l1Set k.line % 32 == Config.l1Set c.line % 32
  let full := decide (8 ≤ rest.length) && decide (8 ≤ (rest.filter same).length)
  match (if full then (rest.filter same).getLast? else none) with
  | some v => c :: rest.filter fun k => k.line != v.line
  | none => c :: rest

/-! ## Two ranges, and bytes of a line -/

/-- Two byte ranges meet. -/
def meets (a n b m : Nat) : Bool := decide (a < b + m) && decide (b < a + n)

/-- Bytes bs replace the bytes at off of a line. -/
def patch (line : List Byte) (off : Nat) (bs : List Byte) : List Byte :=
  line.take off ++ bs ++ line.drop (off + bs.length)

/-! ## Stash lines owned dirty, and their recall (R57, R61) -/

/-- The dirty stash line that owns the line of a local address. -/
def Job.dirtyAt (j : Job) (line : Nat) : Option StashLine :=
  j.lines.find? fun l => l.dirty && lineOf l.pa == line

/-- Local address of byte off of a job's window. -/
def Job.windowPa (j : Job) (off : Nat) : Nat := placeAddr (.scratch j.die j.core (j.base + off))

/-- Window offset of a stash line. -/
def Job.stashOff (j : Job) (l : StashLine) : Nat := (vget ⟨false, 0, 0, 0, 0⟩ j.stash l.win).off * 65536 + l.line * 256

/-- A stash line holds provisional data (R61). -/
def Job.stashProv (j : Job) (l : StashLine) : Bool := j.marks.any fun m => m.1 == j.stashOff l / 256

/-- The home's logical write and lease times of a line. -/
def State.wtsAt (s : State) (line : Nat) : Nat := Cells.get 0 s.wts line
def State.ltsAt (s : State) (line : Nat) : Nat := Cells.get 0 s.lts line

/-! ## Watchpoints (R442) -/

/-- Watchpoints in force at the home die of an object that name it, of one kind. -/
def State.watching (s : State) (pa kind : Nat) : List Nat :=
  (List.range 8).filter fun n =>
    let w := vget 0 (s.dieAt (pa / 2 ^ 48)).wp n
    bit w 63 && fld w 62 61 == kind && placeAddr (regionOf s.hub.pos.toNat (fld w 51 6 * 64)) / 64 == pa / 64

/-- The watchpoints of a kind hit at an object: each count rises; a halting one hit by the job in focus is kept until the
job's next instruction. -/
def State.hit (s : State) (pa kind okind : Nat) (mine : Bool) : State :=
  if 2 ^ 51 ≤ pa then s
  else (s.watching pa kind).foldl (fun s n =>
    let w := vget 0 (s.dieAt (pa / 2 ^ 48)).wp n
    let s := s.modDie (pa / 2 ^ 48) fun d => { d with whit := vset d.whit n (vget 0 d.whit n + 1) }
    if mine && bit w 60 then s.modJob fun j => { j with hits := j.hits ++ [(okind, pa / 64 * 64)] } else s) s

/-- Phase flips: the write of n bytes at pa has changed word 0 of objects it meets. -/
def State.flips (s : State) (old : Memory) (pa n : Nat) (mine : Bool) : State :=
  (List.range ((pa + n + 63) / 64 - pa / 64)).foldl (fun s i =>
    let obj := (pa / 64 + i) * 64
    if old.readMany obj 8 == s.mem.readMany obj 8 then s else s.hit obj 2 1 mine) s

/-- A die has a phase-flip watchpoint in force. -/
def Die.watchesFlips (d : Die) : Bool := d.wp.toList.any fun w => bit w 63 && fld w 62 61 == 2

/-- A performed write of n bytes at pa, over what memory held, is checked by the watchpoints of its die. -/
def State.watchWrite (s : State) (old : Memory) (pa n : Nat) (mine : Bool) : State :=
  if (s.dieAt (pa / 2 ^ 48)).watchesFlips then s.flips old pa n mine else s

/-- Bytes written at the home: the line's write time is one above its lease time, or the writer's clock (R95). Every home
keeps times: a slice, a cluster SRAM, a scratchpad, a peer. -/
def State.homeWriteBy (s : State) (mine : Bool) (pa : Nat) (bs : List Byte) (clock : Nat) : State × Nat :=
  let line := lineOf pa
  let t := Nat.max (s.ltsAt line + 1) clock
  (({ s with mem := s.mem.writeMany pa bs, wts := Cells.set 0 s.wts line t, lts := Cells.set 0 s.lts line t } : State).watchWrite
    s.mem pa bs.length mine, t)

/-- A read at the home, by a clock that has risen to the write time: whatever the home grants no lease of, a later write comes
after the read in logical time (R92, R95). DESIGN CHOICE (log entry 69): the home's lease time is what keeps that order. -/
def State.readMark (s : State) (line clock : Nat) : State :=
  { s with lts := Cells.set 0 s.lts line (Nat.max (s.ltsAt line) clock) }

/-- Bytes of a window written in place: the scratchpad's lines take their times, and the core's clock rises to them (R88,
R95). -/
def State.stamp (s : State) (core pa n : Nat) : State :=
  (List.range ((pa + n + 255) / 256 - pa / 256)).foldl (fun s i =>
    let line := pa / 256 + i
    let t := Nat.max (s.ltsAt line + 1) (s.clock core)
    ({ s with wts := Cells.set 0 s.wts line t, lts := Cells.set 0 s.lts line t } : State).raiseClock core t) s

/-- A run of bytes of a scratchpad written at once: all of its lines take one time (R88, R95). -/
def State.stampRun (s : State) (core pa n : Nat) : State :=
  let lo := pa / 256
  let hi := (pa + n + 255) / 256
  let old := (s.lts.filter fun e => decide (lo ≤ e.1) && decide (e.1 < hi)).foldl (fun t e => Nat.max t e.2) 0
  let t := Nat.max (old + 1) (s.clock core)
  let run := (List.range (hi - lo)).map fun i => (i, t)
  ({ s with wts := Cells.graft s.wts lo hi run, lts := Cells.graft s.lts lo hi run } : State).raiseClock core t

/-- Bytes of a window read in place: the core's clock rises to the write times of their lines, and their home keeps the time
of the read (R92, R95). -/
def State.observe (s : State) (core pa n : Nat) : State :=
  (List.range ((pa + n + 255) / 256 - pa / 256)).foldl (fun s i =>
    let s := s.raiseClock core (s.wtsAt (pa / 256 + i))
    s.readMark (pa / 256 + i) (s.clock core)) s

/-- A write at the home by no job's instruction. -/
def State.homeWrite (s : State) (pa : Nat) (bs : List Byte) (clock : Nat) : State × Nat := s.homeWriteBy false pa bs clock

/-- Performs a store of the bytes of one line at its home, for core number `core`; `mine`: for the job in focus. The L1 copy
of the line is updated as it passes; one that other stores have made old lapses (R66, R88, R95). -/
def State.storeBy (s : State) (mine : Bool) (core pa : Nat) (bs : List Byte) (cc ev : Nat) : State :=
  let was := s.wtsAt (lineOf pa)
  let (s, t) := s.homeWriteBy mine pa bs (s.clock core)
  let s := (s.touchL2 pa cc ev true).raiseClock core t
  let upd := fun (l : HeldCopy) =>
    if l.line != lineOf pa then some l
    else if l.wts == was then some { l with bytes := patch l.bytes (pa % 256) bs, wts := t, lease := t }
    else none
  if leased pa then s.modCore core fun c => { c with l1 := c.l1.filterMap upd } else s

/-- The same for an instruction of the job in focus, or its engines. -/
def State.storeAt (s : State) (core pa : Nat) (bs : List Byte) (cc ev : Nat) : State := s.storeBy true core pa bs cc ev

/-- The home grants a lease to a clock: its new lease time, and the copy's lease end (R95). -/
def State.grantLease (s : State) (line clock : Nat) : State × Nat :=
  let l := Nat.max (s.ltsAt line) (clock + 65536)
  ({ s with lts := Cells.set 0 s.lts line l }, clock + 65536)

/-- A hardware store is performed: in the logical time of a core, or of none. -/
def State.performPosted (s : State) (p : Posted) : State :=
  match p.core with
  | some c => s.storeBy false c p.pa p.bytes p.cc 4
  | none => (s.homeWrite p.pa p.bytes s.cycle).1

/-- A posted store waits for a place in the order of a scratchpad's accesses; others wait for their line alone. -/
def State.inScratch (s : State) (pa : Nat) : Bool :=
  match regionOf s.hub.pos.toNat pa with
  | .scratch .. => true
  | _ => false

/-- The hardware stores that waited for a line to be written back are performed, in order (R57, R61). -/
def State.flushPosted (s : State) (line : Nat) : State :=
  let now := s.posted.filter fun p => lineOf p.pa == line && !s.inScratch p.pa
  if now.isEmpty then s
  else now.foldl State.performPosted { s with posted := s.posted.filter fun p => !now.contains p }

/-- Writes a dirty stash line of a job back to its home, keeping it clean under a fresh lease; the hardware's stores that waited
for it follow (R57, R61). -/
def State.writeBack (s : State) (num : Nat) (l : StashLine) : State :=
  match s.findJob num with
  | none => s
  | some j =>
    let bs := s.mem.readMany (j.windowPa (j.stashOff l)) 256
    let (s, t) := s.homeWrite (lineOf l.pa * 256) bs (s.clock j.coreIx)
    let (s, e) := s.grantLease (lineOf l.pa) t
    let w := vget ⟨false, 0, 0, 0, 0⟩ j.stash l.win
    let s := s.touchL2 l.pa l.cc w.epri true
    ((s.raiseClock j.coreIx t).modJobNum num fun j =>
      { j with lines := j.lines.map fun m =>
          if m.win == l.win && m.line == l.line then { m with dirty := false, wts := t, lease := e } else m }).flushPosted
      (lineOf l.pa)

/-- The write-back of a stash line whose home is a scratchpad is an access from outside that core: it enters the Weir there and
waits, but not for the entries that p names (R51). -/
def backWait (p : Nat → Entry → Bool) (j : Job) (l : StashLine) : M Unit := do
  outsideWait (.back j.num l.win l.line) p (regionOf (← get).hub.pos.toNat (lineOf l.pa * 256)) 256 true false

/-- Entry e stands in job num's Weir from the entry that makes the access in hand on. -/
def State.fromMine (s : State) (num : Nat) (e : Entry) : Bool :=
  let mine := fun (x : Entry) => x.outsideOf (· == .part s.job.num s.asker) || (num == s.job.num && x.madeBy s.asker)
  (s.findJob num).any fun j => (j.entries.dropWhile fun x => !mine x).any fun x => x.id == e.id

/-- A write-back that is made for an access takes that access's place in the order. -/
def backClear (j : Job) (l : StashLine) : M Unit := do backWait (← get).fromMine j l

/-- The dirty lines of a job that p names can be written back now (R51). -/
def backsReady (num : Nat) (p : Job → StashLine → Bool) : M Unit := do
  match (← get).findJob num with
  | none => pure ()
  | some j => (j.lines.filter fun l => l.dirty && p j l).forM (backWait (fun _ _ => false) j)

/-- Who owns the line of a local address dirty. -/
def State.dirtyOwner (s : State) (pa : Nat) : Option (Job × StashLine) :=
  (s.jobs.filterMap fun j => (j.dirtyAt (lineOf pa)).map fun l => (j, l)).head?

/-- Recalls the line of a local address from whoever owns it dirty; a provisional line is not written back, and the
requester waits (R57, R61). The read of the owner's window may meet a memory error, which the requester takes (R425). -/
def recallLine (pa : Nat) : M Unit := do
  match (← get).dirtyOwner pa with
  | none => pure ()
  | some (j, l) =>
    if j.stashProv l then throw (.wait (.stash l.win l.line))
    backClear j l
    tagged 7 0 (probe (j.windowPa (j.stashOff l)) 256)
    modify fun s => s.writeBack j.num l

/-- A store by the hardware itself at a local address, whose line is recalled first. One that must wait, for a line that holds
provisional data or in the order of a scratchpad's accesses, is posted (R51, R57, R61). A memory error in the line recalled
does not stop it. -/
def tryStore (p : Posted) : M Unit := do
  let s ← get
  outsideWait (.hw p) (fun _ _ => false) (regionOf s.hub.pos.toNat p.pa) p.bytes.length true true
  match ← attempt (recallLine p.pa) with
  | .ok _ => pure ()
  | .error _ => modify fun s => match s.dirtyOwner p.pa with | some (j, l) => s.writeBack j.num l | none => s
  outsideWait (.hw p) (fun _ _ => false) (regionOf s.hub.pos.toNat p.pa) p.bytes.length true false
  modify fun s => s.performPosted p

def State.hardStore (s : State) (p : Posted) : State :=
  let post := fun (t : State) => { t with posted := t.posted ++ [p] }
  if s.posted.any fun q => lineOf q.pa == lineOf p.pa then post s
  else match tryStore p s with
    | .ok _ t => t
    | .error _ t => post t

/-- The first posted store that can be performed now is performed; those of one line keep their order. -/
def State.postGo (s : State) (lines : List Nat) : List Posted → State
  | [] => s
  | p :: r =>
    if lines.contains (lineOf p.pa) then s.postGo lines r
    else match tryStore p { s with posted := s.posted.erase p } with
      | .ok _ t => t
      | .error _ t => ({ t with posted := s.posted } : State).postGo (lineOf p.pa :: lines) r

/-! ## Loads and stores at the home, and through held copies (R89, R95 to R97) -/

/-- What an access carries (R78 to R80), after the overrides of R83: prompt, the class, the priority, whether it may use and
fill the L1 (R66: the C and A streams), the scope code, and whether it fills a stash line, which takes a lease whatever its
class (R54). -/
structure How where
  prompt : Bool
  cc     : Nat
  ev     : Nat
  l1     : Bool
  scp    : Nat
  stash  : Bool
  deriving DecidableEq, Repr, Inhabited

/-- An access of an engine, a copy or the hardware itself: at package scope, and never through the L1 (R66, R84). -/
def How.engine (cc ev : Nat) : How := ⟨true, cc, ev, false, 5, false⟩
/-- The same for a translated access, of the scope that R19 gives it. -/
def Xl.engine (x : Xl) (ev : Nat) : How := { How.engine x.cc ev with scp := x.scope 5 }

/-! ## Stores that an ordered access of wider scope has gone ahead of (R91 to R93) -/

/-- Pending store p of stream x of job j must be performed before an access of agent b, of scope q, to n bytes at pa: it went
out of order, its bytes meet, its scope reaches b (R85), and either the two are mutually scoped (R92) or b has read something
that came after it, by its logical clock (R93). -/
def State.owes (s : State) (j : Job) (x : StreamId) (p : Pending) (b : Agent) (q clock pa n : Nat) : Bool :=
  match p.left with
  | none => false
  | some t =>
    let a := Agent.stream j.num x
    a != b && meets p.pa p.bytes.length pa n && s.inScope p.scp a b && (s.mutual a p.scp b q || decide (t ≤ clock))

/-- The clocks of the cores that a scope reaches from a core rise to a write time: what they hold older lapses (R95). -/
def State.raiseScope (s : State) (scp core t : Nat) : State :=
  if scp ≤ 2 then s.raiseClock core t
  else (List.range 256).foldl (fun s c => if coreReach scp core c then s.raiseClock c t else s) s

/-- Performs a pending store that was left behind, for stream x of job j. -/
def State.performLeft (s : State) (j : Job) (x : StreamId) (p : Pending) : State :=
  let s := (s.storeBy false j.coreIx p.pa p.bytes p.cc p.ev).tellWord p.pa p.bytes.length ⟨0, j.num, streamNum x⟩
  (s.raiseScope p.scp j.coreIx (s.wtsAt (lineOf p.pa))).modJobNum j.num fun j =>
    j.setStr x { j.str x with stores := (j.str x).stores.erase p }

/-- Stores of a list up to the last that p names. -/
def uptoLast (p : Pending → Bool) : List Pending → List Pending
  | [] => []
  | a :: r => if (a :: r).any p then a :: uptoLast p r else []

/-- Stores left behind that an access of an agent meets, with their jobs and streams, and what their streams issued before
them (R89, R90). -/
def State.owed (s : State) (b : Agent) (q clock pa n : Nat) : List (Job × StreamId × Pending) :=
  s.jobs.flatMap fun j => if !j.present then [] else allStreams.flatMap fun x =>
    (uptoLast (fun p => s.owes j x p b q clock pa n) (j.str x).stores).map fun p => (j, x, p)

/-- Performs, before an access of agent b to n bytes at pa, the stores left behind that it must see. -/
def callFor (b : Agent) (q clock pa n : Nat) : M Unit := do
  let s ← get
  match s.owed b q clock pa n with
  | [] => pure ()
  | l => do
    l.forM fun x => recallLine x.2.2.pa
    modify fun s => l.foldl (fun s (j, x, p) => s.performLeft j x p) s

/-- The same for an access of the stream in turn, of a scope code. -/
def callIn (scp pa n : Nat) : M Unit := do
  let s ← get
  callFor s.agent (s.str.effective (scopeAt pa scp)) (s.clock s.job.coreIx) pa n

/-! ## Loads (R89, R95, R96) -/

/-- A copy that a load at the home leaves: in the core's L1 for class normal, and for a peer's line in the die's L2 for class
normal and L2 only, at priorities 1 to 7 (R28, R66, R69, R74). -/
def State.keepCopy (s : State) (h : How) (pa : Nat) (c : HeldCopy) : State :=
  if h.ev = 0 then s
  else
    let s := if 2 ^ 51 ≤ pa && decide (h.cc ≤ 1) then s.modDie s.job.die fun d => d.keepPeer c h.ev else s
    if h.l1 && h.cc == 0 then s.modCore s.job.coreIx fun k => { k with l1 := keepL1 k.l1 c } else s

/-- The home's value of n bytes, with its write time; the requesting clock rises to it, and a copy takes a lease (R95). A
line with a failed unit leaves no copy (R425). -/
def homeLoad (h : How) (pa n : Nat) : M (List Byte) := do
  callIn h.scp pa n
  recallLine pa
  probe pa n
  let s ← get
  let bs := s.mem.readMany pa n
  let core := s.job.coreIx
  let line := lineOf pa
  let w := s.wtsAt line
  let s := (s.raiseClock core w).touchL2 pa h.cc h.ev false
  if h.stash || (leased pa && h.cc != 2) then
    let (s, e) := s.grantLease line (s.clock core)
    set (if h.stash || (s.failing (line * 256) 256).isSome then s
         else s.keepCopy h pa ⟨line, s.mem.readMany (line * 256) 256, w, e, s.cycle⟩)
  else set (s.readMark line (s.clock core))
  pure bs

/-- A held copy a load may use: the core's clock lies between its write time and its lease end (R95), and the home gave it no
longer ago than R96 lets a load's value be old. -/
def HeldCopy.usable (c : HeldCopy) (line clock cycle : Nat) : Bool :=
  c.line == line && decide (c.wts ≤ clock) && decide (clock ≤ c.lease) && decide (cycle ≤ c.got + 65536)

/-- A load uses a core's held copy, which becomes the most recently used of its set (R66). -/
def Core.useL1 (c : Core) (line : Nat) : Core :=
  match takeOut (fun k : HeldCopy => k.line == line) c.l1 with
  | some (k, rest) => { c with l1 := k :: rest }
  | none => c

/-- The copies of a line that a load of the job in focus may use: in its core's L1, and of a peer's line in its die's L2. -/
def State.heldL1 (s : State) (line : Nat) : Option HeldCopy :=
  (s.coreAt s.job.coreIx).l1.find? fun c => c.usable line (s.clock s.job.coreIx) s.cycle
def State.heldPeer (s : State) (line : Nat) : Option HeldCopy :=
  if 2 ^ 43 ≤ line then (s.dieAt s.job.die).peer.find? fun c => c.usable line (s.clock s.job.coreIx) s.cycle else none

/-- A copy of a peer's line in the die's L2 is hit at the access's priority, and enters the L1 as one from the home would (R28,
R66, R70, R74). -/
def State.usePeer (s : State) (h : How) (c : HeldCopy) : State :=
  let s := s.modDie s.job.die fun d => d.setL2 (l2Touch d.l2 d.ways c.line (if h.cc == 3 then 0 else h.ev) false)
  if h.ev != 0 && h.l1 && h.cc == 0 then s.modCore s.job.coreIx fun k => { k with l1 := keepL1 k.l1 c } else s

/-- Performs a load of n bytes of one line: from a held copy while its lease lasts, unless the load is prompt or of class
device; else at the home (R83, R95, R96). -/
def load (h : How) (pa n : Nat) : M (List Byte) := do
  callIn h.scp pa n
  let s ← get
  let line := lineOf pa
  if h.prompt || h.cc == 2 || !h.l1 || !leased pa then homeLoad h pa n
  else match s.heldL1 line, s.heldPeer line with
    | some c, _ => do
      set (s.modCore s.job.coreIx fun k => k.useL1 line)
      pure ((c.bytes.drop (pa % 256)).take n)
    | none, some c => do
      set (s.usePeer h c)
      pure ((c.bytes.drop (pa % 256)).take n)
    | none, none => homeLoad h pa n

/-- Performs a store for the job in focus. -/
def store (h : How) (pa : Nat) (bs : List Byte) : M Unit := do
  callIn h.scp pa bs.length
  recallLine pa
  modify fun s => (s.storeAt s.job.coreIx pa bs h.cc h.ev).tellWord pa bs.length s.maker

/-- One atomic at the home: reads n bytes, writes what f gives, returns the old value (R71, R89, R100). -/
def atomic (h : How) (pa n : Nat) (f : Nat → Option Nat) : M Nat := do
  callIn h.scp pa n
  recallLine pa
  probe pa n
  let s ← get
  let old := leNum (s.mem.readMany pa n)
  let core := s.job.coreIx
  let s := (s.raiseClock core (s.wtsAt (lineOf pa))).touchL2 pa h.cc h.ev false
  match f old with
  | some v => set ((s.storeAt core pa (leList n v) h.cc h.ev).tellWord pa n s.maker)
  | none => set (s.readMark (lineOf pa) (s.clock core))
  pure old

/-! ## Pending relaxed stores (R88, R90) -/

/-- Performs the stores of a list in order, each leaving the stream's list as it is performed. What its scope reaches sees
a store that was left behind before anything that came after it (R93). -/
def performAll : List Pending → M Unit
  | [] => pure ()
  | p :: ps => do
    store ⟨false, p.cc, p.ev, true, p.scp, false⟩ p.pa p.bytes
    modify fun s =>
      let s := if p.left.isSome then s.raiseScope p.scp s.job.coreIx (s.wtsAt (lineOf p.pa)) else s
      s.modStr fun t => { t with stores := t.stores.tail }
    performAll ps

/-- Performs every pending store of the stream (R90, R98). -/
def drain : M Unit := do performAll (← get).str.stores

/-- The stream fences at a scope: what precedes is performed, none of it at a narrower scope, and the scope counts for what
follows (R91, R98). -/
def fenceAt (scp : Nat) : M Unit := do
  modify fun s => s.modStr fun t => { t with stores := t.stores.map fun p => { p with scp := Nat.max p.scp scp } }
  drain
  modify fun s => s.modStr fun t => { t with fence := scp }

/-- What an ordered access of a scope waits for (R90): the pending stores are performed, but for those whose effective scope,
when the words of the stream tell it, is narrower than the access's: they owe nothing to what the access reaches beyond
(R91), and stay, left behind. None stays that one of the others meets. -/
def orderScope (scp : Nat) : M Unit := do
  let s ← get
  let t := s.str
  match (if t.stores.isEmpty then none else t.fenceAhead) with
  | none => drain
  | some g =>
    let width := Nat.max (Nat.max scp t.fence) g
    let narrow := fun (p : Pending) => decide (Nat.max p.scp g < width)
    let kept := t.stores.filter narrow
    let rest := t.stores.filter fun p => !narrow p
    if kept.isEmpty || rest.any (fun p => kept.any fun q => meets p.pa p.bytes.length q.pa q.bytes.length) then drain
    else
      let now := s.clock s.job.coreIx
      let leave := fun (p : Pending) => { p with scp := Nat.max p.scp g, left := some (p.left.getD now) }
      set (s.modStr fun t => { t with stores := rest ++ kept.map leave })
      performAll rest

/-- Performs the pending stores of the stream when one of them meets the bytes (R90, item 3). -/
def drainMeeting (pa n : Nat) : M Unit := do
  if (← get).str.stores.any (fun p => meets p.pa p.bytes.length pa n) then drain else pure ()

end Sys2Proof.Machine
end

