-- ==== Sys2Proof/Machine/Ops.lean ====
section
/-! DEFINITION. Named operations every meaning uses: going on to the next instruction with its loop end check, transfers
of control, waits and their log, fault records, taking a fault (R198, R421 to R424) and returning from one (R200). -/

namespace Sys2Proof.Machine

/-! ## Loop frames (R191 to R193) -/

/-- Sets the stage predicates p8 to p15 of kernel iteration k (R191). -/
def setStages (t : Stream) (n s k : Nat) : Stream :=
  (List.range 8).foldl (fun t i => t.setP (BitVec.ofNat 4 (8 + i)) (decide (i < s) && decide (i ≤ k) && decide (k < n + i))) t

/-- Clears p8 to p15. -/
def clearStages (t : Stream) : Stream := setStages t 0 0 0

/-- The end check of R192 on the frames left, innermost first; `seen` are the frames passed, innermost last. The result
says whether a LOOPP frame returned to its start. -/
def endCheckGo (x e : Word) : List Frame → List Frame → Stream → Stream × Bool
  | [], seen, t => ({ t with frames := seen.reverse }, false)
  | f :: r, seen, t =>
    if f.start ≤ x && x < f.stop && f.stop == e then
      if 1 < (t.getLc f.n).toNat then
        let t := { (t.setLc f.n (t.getLc f.n - 1)) with pc := f.start }
        match f.pipe with
        | none => ({ t with frames := seen.reverse ++ f :: r }, false)
        | some p =>
          let t := setStages t p.n p.s (p.k + 1)
          ({ t with frames := seen.reverse ++ { f with pipe := some { p with k := p.k + 1 } } :: r }, true)
      else
        let t := t.setLc f.n 0
        endCheckGo x e r seen (if f.pipe.isSome then clearStages t else t)
    else endCheckGo x e r (f :: seen) t

/-- Rotates the job's vector register region once, when a region is set (R192, R276). -/
def Job.rotate (j : Job) : Job := if j.rs = 0 then j else { j with rot := (j.rot + 1) % j.rs }

/-- The stream goes on after an instruction of length len that transfers no control (R158, R192). -/
def State.advance (s : State) (len : Nat) : State :=
  let t := s.str
  let e := t.pc + BitVec.ofNat 64 len
  if t.frames.isEmpty then s.setStr { t with pc := e }
  else
    let (t', turned) := endCheckGo t.pc e t.frames [] { t with pc := e }
    let s := s.setStr t'
    if turned && s.cur == .V then s.modJob Job.rotate else s

/-- The frames left when a transfer at x goes to y: a frame that holds x and not y goes, with every frame inside it
(R193). -/
def cutFrames (x y : Word) : List Frame → List Frame
  | [] => []
  | f :: r =>
    let r' := cutFrames x y r
    if r'.length < r.length then r'
    else if f.start ≤ x && x < f.stop && !(f.start ≤ y && y < f.stop) then r
    else f :: r

/-- A taken BR, JMP or RET (R188, R193). -/
def State.jumpTo (s : State) (y : Word) : State :=
  s.modStr fun t => { t with pc := y, frames := cutFrames t.pc y t.frames }

/-- The stream is to go on at another address: what it has kept to restart its instruction is not that one's. -/
def Stream.goTo (t : Stream) (pc : Word) : Stream :=
  if pc = t.pc then t else { t with pc := pc, qdrop := none, bar := none, renq := none }

/-! ## Waits and the wait log (R153, R441) -/

/-- OKIND and OBJ of a wait that R441 logs; none for the waits that it does not name. -/
def waitLogObj (num : Nat) : WaitObj → Option (Nat × Nat)
  | .flag pa => some (0, pa)
  | .barrier _ pa => some (1, pa)
  | .fault q => some (11, num * 2 ^ 32 + q % 65536)
  | .sem n _ => some (2, num * 2 ^ 32 + n)
  | .token n => some (3, num * 2 ^ 32 + n)
  | .queue (.aq n) => some (4, num * 2 ^ 32 + n.toNat)
  | .queue .bq => some (4, num * 2 ^ 32 + 4)
  | .timeline t => some (5, num * 2 ^ 32 + t)
  | .tide n => some (6, num * 2 ^ 32 + n)
  | .settle a => some (7, num * 2 ^ 32 + a)
  | .lineage a => some (7, num * 2 ^ 32 + a)
  | .weir => some (8, num * 2 ^ 32)
  | .channel m c => some (9, m * 2 ^ 32 + c)
  | .order k i => some (12, num * 2 ^ 32 + k * 4096 + i)
  | .copies n _ => some (5, num * 2 ^ 32 + n)
  | .basin a => some (10, num * 2 ^ 32 + a)
  | .drain | .walk _ | .stash .. | .fill => none

/-- What ended a wait of stream x (R441): the object tells it, or who acted on it last; 0xF when it is not known (log entry 27). A
producer's wait on a full object is ended by its consumer, a consumer's on an empty one by its producer (R148). -/
def waitEnder (j : Job) (x : StreamId) : WaitObj → Ender
  | .queue .bq => ⟨0, j.num, if x == .A then 0 else 1⟩
  | .queue (.aq n) => ⟨0, j.num, if x == .A then streamNum (recAqv j.lrec n.toNat) else 1⟩
  | .token n =>
    ⟨0, j.num, if streamNum x = fldN (recTk j.lrec n) 3 2 then fldN (recTk j.lrec n) 1 0 else fldN (recTk j.lrec n) 3 2⟩
  | .tide _ | .copies .. => ⟨4, j.num, 0⟩
  | .settle _ | .lineage _ | .basin _ => ⟨1, j.num, 0⟩
  | .channel m c => ⟨if c < 4 then 4 else 5, m, 0⟩
  | _ => (j.str x).ender.getD ⟨0xF, 0, 0⟩

/-- Word 3 of a wait-log entry. -/
def Ender.word (e : Ender) : Nat :=
  e.eng * 2 ^ 52 + (if 0xE ≤ e.eng then 0xFFFF else e.num % 65536) * 2 ^ 36 + (if e.eng = 0 then e.strm else 0) * 2 ^ 34

/-- Writes one wait-log entry of the job in focus in its die's ring (R441): why 0 ended, 1 abandoned, 2 in progress. -/
def State.putLog (s : State) (x : StreamId) (w : Wait) (why : Nat) : State :=
  let j := s.job
  let d := s.dieAt j.die
  let cyc := s.cycle - w.since
  match waitLogObj j.num w.obj with
  | none => s
  | some (okind, obj) =>
      let size := 2 ^ (fld d.wlring 3 0 + 8)
      if size ≤ (d.wltail + 2 ^ 32 - d.wlhead) % 2 ^ 32 then
        s.modDie j.die fun d => { d with wldrop := Nat.min (d.wldrop + 1) 0xFFFF_FFFF }
      else
        let ender := if why = 0 then waitEnder j x w.obj else ⟨0xF, 0, 0⟩
        let pa := fld d.wlring 51 12 * 4096 + d.wltail % size * 32
        let w1 := okind * 2 ^ 60 + j.num % 65536 * 2 ^ 32 + streamNum x * 2 ^ 30 + why
        let r := regionOf s.hub.pos.toNat pa
        let bs := leList 8 obj ++ leList 8 w1 ++ leList 8 cyc ++ leList 8 ender.word
        let s := if s.backed r then s.hardStore ⟨some j.coreIx, placeAddr r, bs, 2⟩ else s
        s.modDie j.die fun d => { d with wltail := (d.wltail + 1) % 2 ^ 32 }

/-- A wait that ends or is abandoned is logged when it lasted MIN cycles or more (R441). -/
def State.logWait (s : State) (x : StreamId) (w : Wait) (why : Nat) : State :=
  if s.cycle - w.since < (s.dieAt s.job.die).wlmin then s else s.putLog x w why

/-- The stream's wait ends or is abandoned, and is logged (R441). -/
def State.endWait (s : State) (x : StreamId) (why : Nat) : State :=
  match (s.job.str x).wait with
  | none => s
  | some w => (s.logWait x w why).modStrOf x fun t => { t with wait := none, ender := none }

/-- The stream waits on an object; a wait on the same object goes on. -/
def State.beginWait (s : State) (o : WaitObj) : State :=
  match s.str.wait with
  | none => s.modStr fun t => { t with wait := some ⟨o, s.cycle⟩, ender := none }
  | some w =>
    if w.obj = o then s
    else (s.endWait s.cur 0).modStr fun t => { t with wait := some ⟨o, s.cycle⟩ }

/-- Weir entries of a job without those that a stream's held instruction has (R115). -/
def Job.dropHeld (j : Job) (x : StreamId) : Job :=
  { j with entries := j.entries.filter fun e => e.kind != .held x }

/-- A stream that abandons its wait raises no fault of a walk or stash fill that it waited for (R31, R43). -/
def Job.dropFaults (j : Job) (x : StreamId) : Job :=
  { j with walkFaults := j.walkFaults.filter fun f => match f.1 with | .strm y | .code y => y != x | .stash .. => false | _ => true }

/-- Waiters that are served against a count, in order: the count left, and the waiters with those served marked (R391). -/
def serveGo : Nat → List (StreamId × Nat) → Nat × List (StreamId × Nat)
  | c, [] => (c, [])
  | c, (x, k) :: r =>
    if k ≤ c then
      let (c', r') := serveGo (c - k) r
      (c', (x, 0) :: r')
    else (c, (x, k) :: r)

/-- Serves the waiters of a semaphore (R390, R391). -/
def Sem.serve (m : Sem) : Sem :=
  let (c, ws) := serveGo m.count m.waiters
  { m with count := c, waiters := ws }

/-- A stream leaves the order of a semaphore, which then serves those behind it (R391). -/
def Sem.quit (m : Sem) (x : StreamId) : Sem :=
  if m.waiters.any fun w => w.1 == x && w.2 != 0 then
    ({ m with waiters := m.waiters.filter fun w => w.1 != x || w.2 == 0 } : Sem).serve
  else m

/-- A stream that waits on a semaphore and is served has its units: its SEMACQ is done, and is not the one abandoned. -/
def State.served (s : State) (x : StreamId) : State :=
  match (s.job.str x).wait with
  | some ⟨.sem n len, _⟩ =>
    let m := vget ⟨0, 0xFFFF, []⟩ s.job.sem n
    if m.waiters.contains (x, 0) then
      let s := s.modJob fun j => { j with sem := vset j.sem n { m with waiters := m.waiters.filter fun w => w.1 != x } }
      let was := s.cur
      { (({ s with cur := x } : State).endWait x 0).advance len with cur := was }
    else s
  | _ => s

/-- The wait in which a stream stands is abandoned, and its instruction is the restart point (R198, R417, R438): a
semaphore's order is left unless `keep` (R391), a RENQ's hold ends. -/
def State.abandon (s : State) (x : StreamId) (keep : Bool) : State :=
  let s := s.served x
  let s := (s.endWait x 1).modJob fun j => (j.dropHeld x).dropFaults x
  let s := s.dropWalkers s.job.die fun r => r.num == s.job.num && (r.by_ == .strm x || r.by_ == .code x)
  let s := s.dropOutside fun w => w == .part s.job.num (.strm x) || w == .part s.job.num (.code x)
  let s := s.modStrOf x fun t => { t with renq := none }
  if keep then s else s.modJob fun j => { j with sem := j.sem.map fun m => m.quit x }

/-! ## Fault records (R421, R422) -/

/-- Address of record s of a job. -/
def faultAddr (j : Job) (seq : Nat) : Nat := j.ctx.fqva * 65536 + 4096 * j.num + 256 * (seq % 16)

/-- The 256 bytes of a record (R422). -/
def faultBytes (f : FaultInfo) (seq state : Nat) : List Byte :=
  leList 1 f.cause ++ leList 1 (streamNum f.strm) ++ leList 1 f.eng ++ leList 1 f.chan ++ leList 2 f.code ++
  leList 1 state ++ leList 1 f.dstat ++ leList 8 f.pc ++ leList 8 f.va ++ leList 8 f.opnum ++ leList 1 f.tl ++
  leList 1 f.acck ++ leList 1 f.level ++ leList 1 0 ++ leList 4 f.unit ++ leList 8 f.entry ++ leList 8 seq ++
  leList 8 f.aux ++ (f.port ++ List.replicate (96 - f.port.length) 0).take 96 ++ leList 4 f.qb ++ List.replicate 92 0

/-- Writes bytes at a virtual address through the job's context, as hardware stores at job scope (R421); the cause of the
fault it meets, if any. -/
def State.hwStore (s : State) (va : Nat) (bs : List Byte) : State × Option Nat :=
  match xlateNow s s.job.ctx .w va bs.length with
  | .error f => (s, some f.cause)
  | .ok x => (s.hardStore ⟨some s.job.coreIx, x.pa, bs, x.cc⟩, none)

/-- Writes STATE of a record again (R421). -/
def State.hwState (s : State) (seq st : Nat) : State := (s.hwStore (faultAddr s.job seq + 6) (leList 1 st)).1

/-- Faults that go to the job's own handler when it has one (R423). -/
def userCause (c : Nat) : Bool := c == 0x09 || c == 0x0C || c == 0x1B || c == 0x21

/-- A fault can be delivered to the handler now (R198, R201). -/
def Job.deliverable (j : Job) : Bool :=
  j.hasHandler && !j.trap.inTrap && j.c.hold.isNone && !j.c.halted

/-- User trap entry for a fault raised on stream x (R198): C stops, TRET, TSTAT and TFREC are written, its frames are set
aside, and its pc becomes TRAPV. -/
def State.trapEntry (s : State) (x : StreamId) (code cause seq : Nat) : State :=
  let s := s.abandon .C false
  s.modJob fun j =>
    { j with
      trap := { j.trap with
        inTrap := true, strm := x, code := code, cause := cause, seq := seq,
        tret := j.c.pc &&& 0x01FF_FFFF_FFFF_FFFE, tfrec := BitVec.ofNat 64 (faultAddr j seq), frames := j.c.frames,
        joined := j.c.st == .joined, bar := j.c.bar, qdrop := j.c.qdrop, back := j.c.pc }
      c := { j.c with pc := recTrapv j.lrec, frames := [], st := .running, bar := none, qdrop := none } }

/-- A die notifies the service cores (R432). -/
def State.notifyAt (s : State) (die : Nat) : State :=
  s.modHub fun h => { h with msi := if h.msi.contains die then h.msi else h.msi ++ [die] }

/-- The die of the job in focus does. -/
def State.notify (s : State) : State := s.notifyAt s.job.die

/-- A fault holds a stream, unless another fault holds it already (R198, R424). -/
def State.holdStream (s : State) (x : StreamId) (seq : Nat) : State :=
  if (s.job.str x).hold.isSome then s
  else (s.endWait x 0).modStrOf x fun t => { t with hold := some seq, wait := some ⟨.fault seq, s.cycle⟩, ender := none }

/-- An operation stops at a fault. -/
def Job.holdOp (j : Job) (id seq : Nat) : Job :=
  { j with entries := j.entries.map fun e =>
      match e.kind with
      | .op o => if e.id == id then { e with kind := .op { o with hold := some seq } } else e
      | _ => e }

/-- What a fault holds (R198, R272, R424): its stream, but not C for a fault of its own that its handler takes; an operation,
and with it the stream of a fault that goes to the handler. -/
def State.holdFor (s : State) (f : FaultInfo) (held : Held) (user toOs : Bool) (seq : Nat) : State :=
  match held with
  | .stream x => if x == .C && user && !toOs then s else s.holdStream x seq
  | .op i =>
    let s := s.modJob fun j => j.holdOp i seq
    if user && f.strm != .C then s.holdStream f.strm seq else s
  | _ => if user && f.strm != .C then s.holdStream f.strm seq else s

/-- Where a fault goes (R198, R424): to the operating system, to the handler now, or nowhere yet. -/
def State.sendFault (s : State) (f : FaultInfo) (toOs now : Bool) (seq : Nat) : State :=
  if toOs then s.notify
  else if now then s.trapEntry f.strm f.code f.cause seq
  else s

/-- A fault on C that its handler would take, while a trap is in service (R201). -/
def Job.doubles (j : Job) (f : FaultInfo) : Bool := userCause f.cause && j.hasHandler && f.strm == .C && j.trap.inTrap

/-- Takes a fault of the job in focus: the one shared operation (R198, R201, R421 to R424). The record is written; the
fault holds its stream or operation; it goes to the handler at once, stays pending behind those raised before it, or goes to
the operating system. A fault on C while a trap is in service is a double fault (R201). -/
def State.takeFault (s : State) (f : FaultInfo) (held : Held) : State :=
  let seq := s.job.nextSeq
  let user := userCause f.cause && s.job.hasHandler
  let double := s.job.doubles f
  let f := if double then { f with cause := 0x0F, aux := s.job.trap.seq } else f
  let now := user && !double && s.job.deliverable && !s.job.faults.any fun r => r.state == 2 && !r.toOs
  let w := s.hwStore (faultAddr s.job seq) (faultBytes f seq (if user && !double && !now then 2 else 1))
  let toOs := !user || double || w.2.isSome
  let now := now && w.2.isNone
  let r : FaultRec := ⟨seq, f, if toOs || now then 1 else 2, toOs, held, w.2⟩
  ((w.1.modJob fun j => { j with nextSeq := seq + 1, faults := j.faults ++ [r] }).holdFor f held user toOs seq).sendFault f
    toOs now seq

/-- Turns the focus to a job, if it is there, and changes the state. -/
def State.atJob (s : State) (num : Nat) (f : State → State) : State :=
  match s.focus num with
  | some t => f t
  | none => s

/-- The hardware has read n bytes of a job's window at a local address, for a write-back or a save: each failed unit goes out
of service, and the job takes the fault for the data lost (R425). The job in focus stays so. -/
def State.windowLoss (s : State) (num pa n : Nat) : State :=
  let bad := s.bad.filter fun b => decide (b.pa < pa + n) && decide (pa < b.pa + 64)
  if bad.isEmpty then s
  else
    (bad.foldl (fun s b => (s.outOfService b).atJob num fun t =>
      t.takeFault { FaultInfo.of 0x24 with acck := 7, aux := b.pa } .nothing) s).atJob s.job.num id

/-- The information every fault of a stream's own carries: stream and address of its instruction. -/
def State.ownFault (s : State) (f : FaultInfo) : FaultInfo :=
  { f with strm := s.cur, pc := if f.pc = 0 then s.str.pc.toNat else f.pc }

/-! ## How an instruction ends -/

/-- The operation that a step's instruction issued is complete. -/
def Job.lastDone (j : Job) (x : StreamId) : Bool :=
  match (j.str x).last with
  | some (t, n) => let l := vget ⟨0, 0, []⟩ j.tl t; decide (n ≤ l.completed) || l.ahead.contains n
  | none => true

/-- A correction of the target is pushed and not yet applied (R327). -/
def Job.corrPending (j : Job) (t : Target) : Bool :=
  match t.places.headD (.acc 0) with
  | .latch q => j.pushes.any fun p => p.num == 0 && p.q == q
  | _ => false

/-- The corrections due now: for each target whose base is written, by its entry, those of the contributions added. -/
def Job.dueNow (j : Job) : List (Nat × Nat) :=
  j.lineages.flatMap fun l => (l.targets.filter fun t => t.based).map fun t => (t.id, l.nadd)

/-- The corrections named have reached their targets; a lineage that has settled has made all of its own. -/
def Job.corrected (j : Job) (due : List (Nat × Nat)) : Bool :=
  due.all fun d => j.lineages.all fun l => l.targets.all fun t =>
    t.id != d.1 || (decide (d.2 ≤ t.corrs.length) && !j.corrPending t)

/-- A step with drain comes to its end when its operation is complete and every correction due by then is made (R337, R438):
the stream, which has halted, then steps no more. -/
def Job.endDrain (j : Job) (x : StreamId) : Job :=
  let go := fun (due : List (Nat × Nat)) =>
    j.setStr x { j.str x with stepping := if j.corrected due then .none else .left due }
  if !(j.str x).halted then j
  else match (j.str x).stepping with
    | .drain => if j.lastDone x then go j.dueNow else j
    | .left due => go due
    | _ => j

/-- Something that a step with drain may wait for has happened. -/
def State.endDrains (s : State) : State :=
  if allStreams.all fun x => (s.job.str x).stepping == .none then s else s.modJob fun j => allStreams.foldl Job.endDrain j

/-- After the instruction: the wait it stood in is over; a step halts the stream again (R438). -/
def State.settleStep (s : State) : State :=
  let s := s.endWait s.cur 0
  match s.str.stepping with
  | .none => s
  | .one => s.modStr fun t => { t with stepping := .none, halted := true }
  | _ => (s.modStr fun t => { t with halted := true }).modJob fun j => j.endDrain s.cur

/-- The stream goes on as the meaning says (R158, R188, R192, R193). -/
def State.goOn (s : State) (len : Nat) : Flow → State
  | .next => s.advance len
  | .jump y => s.jumpTo y
  | .call y => s.modStr fun t => { t with pc := y }
  | .loopTo y => s.modStr fun t => { t with pc := y }
  | .stay => s

/-- A meaning has stopped: it waits, or its fault is taken. -/
def State.stopped (s : State) (len : Nat) : Halt → State
  | .wait o => s.beginWait o
  | .fault f =>
    let s := (s.endWait s.cur 0).modJob fun j => j.dropHeld s.cur
    (s.takeFault (s.ownFault f) (.stream s.cur)).settleStep
  | .after f =>
    let f := s.ownFault f
    let s := (s.endWait s.cur 0).advance len
    (s.takeFault f (.stream s.cur)).settleStep
  | .halt => ((s.advance len).settleStep).modStr fun t => { t with halted := true }

/-- The guard of an instruction holds (R160). -/
def State.guardOk (s : State) (g : Guard) : Bool := s.getP g.p != g.neg

/-- Length in bytes of a byte form (R156). -/
def formLen : Form → Nat
  | .short => 2 | .scalar => 4 | .guarded => 6 | .wide => 8 | .literal => 12

/-- What a stream has kept to restart an instruction goes with an instruction that is not to be restarted (R230, R398). -/
def Stream.noRestart (t : Stream) : Stream := { t with qdrop := none, bar := none, renq := none }

/-- One instruction of the stream in turn: a wrong stream faults whether or not the guard holds (R168, R170); a failing
guard has no effect but the loop end check (R160, R192), and ends what was kept of the instruction's restart; else the meaning
runs. -/
def runInstr (h : Hdr) (ok : List StreamId) (body : M Flow) (s : State) : Host.Outcome State Fault Refusal :=
  .next <|
    if !ok.contains s.cur then s.stopped (formLen h.form) (.fault (FaultInfo.of 0x09))
    else if !s.guardOk h.g then ((s.modStr Stream.noRestart).goOn (formLen h.form) .next).settleStep
    else match body s with
      | .ok f t => (t.goOn (formLen h.form) f).settleStep
      | .error e t => t.stopped (formLen h.form) e

/-- An event whose conditions do not hold leaves the machine as it is; one that waits leaves its walk request. -/
def runEvent (body : M Unit) (s : State) : Host.Outcome State Fault Refusal :=
  match body s with
  | .ok _ t => .next t
  | .error (.wait _) t => .next t
  | .error _ _ => .next s

/-- An event needs a condition. -/
def need (b : Bool) : M Unit := if b then pure () else throw .halt

/-- Turns the focus to a job that stands on its core, for an event. -/
def focusOn (num : Nat) : M Unit := do
  match (← get).focus num with
  | some s =>
    need s.job.onCore
    set s
  | none => throw .halt

/-! ## Returning from a user trap (R200) -/

/-- STATE of a record becomes 0 and the fault is no longer outstanding (R421). -/
def State.release (s : State) (seq : Nat) : State :=
  (s.hwState seq 0).modJob fun j => { j with faults := j.faults.filter fun r => r.seq != seq }

/-- Steps 1, 2 and 4 of R200: handler frames go, the frames set aside return, INTRAP becomes 0, C goes on at TRET. The
restart state of an abandoned wait returns when C goes back to it. -/
def State.trapReturn (s : State) : State :=
  s.modJob fun j =>
    let same := j.trap.tret == j.trap.back
    { j with
      trap := { j.trap with inTrap := false, bar := none, qdrop := none, joined := false }
      c := { j.c with
        pc := j.trap.tret, frames := j.trap.frames, bar := if same then j.trap.bar else none,
        qdrop := if same then j.trap.qdrop else none } }

end Sys2Proof.Machine
end

