-- ==== Sys2Proof/Machine/Weir.lean ====
section
/-! DEFINITION. The Weir (R111 to R117), tides (R118 to R123), stash lines on touch (R54 to R56), and the accesses that
streams and engines make through them. -/

namespace Sys2Proof.Machine

/-! ## Tides (R118 to R123) -/

def crangeEn (w : Word) : Bool := bit w 63
/-- First and past-last byte of a range (R118). -/
def crangeLo (w : Word) : Nat := fld w 22 8 * 256
def crangeHi (w : Word) : Nat := (fld w 54 40 + 1) * 256

/-- The channel on whose tide an access to bytes lo to hi - 1 of the window stalls, exempt channels apart (R121). -/
def Job.tideAt (j : Job) (exempt : List Nat) (lo hi : Nat) : Option Nat :=
  (List.range 4).find? fun n =>
    let w := vget 0 j.crange n
    crangeEn w && !exempt.contains n &&
      decide (Nat.max lo (Nat.max (crangeLo w) (vget 0 j.ctide n)) < Nat.min hi (crangeHi w))

/-- Adds a run to a list of runs and merges what touches. -/
def addRun (lo hi : Nat) (rs : List Range) : List Range :=
  let near := rs.filter fun r => decide (r.1 ≤ hi) && decide (lo ≤ r.2)
  let far := rs.filter fun r => !(decide (r.1 ≤ hi) && decide (lo ≤ r.2))
  (near.foldl (fun a r => (Nat.min a.1 r.1, Nat.max a.2 r.2)) (lo, hi)) :: far

/-- A performed write of channel n counts for its tide (R120): the tide is the lowest offset not written. -/
def Job.countWrite (j : Job) (n lo hi : Nat) : Job :=
  let w := vget 0 j.crange n
  if !crangeEn w then j
  else
    let lo := Nat.max lo (crangeLo w)
    let hi := Nat.min hi (crangeHi w)
    if hi ≤ lo then j
    else
      let rs := addRun lo hi (vget [] j.filled n)
      let tide := ((rs.find? fun r => decide (r.1 ≤ vget 0 j.ctide n) && decide (vget 0 j.ctide n ≤ r.2)).map
        fun r => r.2).getD (vget 0 j.ctide n)
      { j with filled := vset j.filled n rs, ctide := vset j.ctide n (Nat.max (vget 0 j.ctide n) tide) }

/-! ## Entries (R112, R115) -/

def State.weirFree (s : State) : Bool := s.roomOn s.job.coreIx

/-- Operations of the job have still to enter again after its pre-emption; nothing new of it enters before (R116). -/
def Job.returning (j : Job) : Bool := j.entries.any fun e => e.away && !j.spent e

/-- A new entry of the job may enter at a place that is not kept. -/
def State.mayEnter (s : State) : Bool := s.weirFree && !s.job.returning

/-- Enters an entry for the stream in turn; its number within the job. -/
def enter (kind : EntryKind) (keys : Keys) (kept : Bool) : M Nat := do
  let s ← get
  let id := s.job.nextId
  let e : Entry := ⟨id, s.cur, s.str.pc, kind, keys, kept, false⟩
  set (s.modJob fun j => { j with entries := j.entries ++ [e], nextId := id + 1 })
  pure id

/-- An entry leaves the Weir. -/
def Job.leave (j : Job) (id : Nat) : Job := { j with entries := j.entries.filter fun e => e.id != id }

/-- What the entry waits on; an access from outside waits on no object of the job's own. -/
def Job.waitOf (j : Job) (e : Entry) : Option WaitObj :=
  match e.kind with
  | .op o => o.stall.map fun w => w.obj
  | .held x => (j.str x).wait.map fun w => w.obj
  | .outside _ => none

/-- The entry is stalled on channel n's tide (R122). -/
def Job.stalledOn (j : Job) (e : Entry) (n : Nat) : Bool := j.waitOf e == some (.tide n)

/-- The entry is an outstanding contribution of lineage t (R117, R322). -/
def Entry.contribOf (e : Entry) : Option Nat :=
  match e.kind with
  | .op o => match o.role with | .contrib t _ => some t | _ => none
  | _ => none
/-- The entry is a linear consumer of lineage t. -/
def Entry.consumerOf (e : Entry) : Option Nat :=
  match e.kind with
  | .op o => match o.role with | .consumer t => some t | _ => none
  | _ => none
/-- The moving operand of an entry is provisional (R335). -/
def Job.movingProv (j : Job) (e : Entry) : Bool := e.keys.sr.any fun r => (j.markFor e.id r.1 r.2).isSome

/-- Window bytes of the ranges hold a mark of lineage tag. -/
def Job.marked (j : Job) (tag : Nat) (rs : List Range) : Bool :=
  j.marks.any fun m => m.2 == tag && rs.any fun r => decide (m.1 * 256 < r.2) && decide (r.1 < m.1 * 256 + 256)

/-- The entry waits for lineage l to settle: it has met a place of l, it is to enter the Basin with a moving operand that l has
made provisional, or it is an access that carries such bytes out (R132, R330, R335). -/
def Job.standsFor (j : Job) (l : Lineage) (e : Entry) : Bool :=
  decide (l.born ≤ e.id) &&
  match e.kind with
  | .op o =>
    (o.stall.map fun w => w.obj) == some (.lineage l.src) || ((o.basin.isSome || o.late.isSome) && j.marked l.tag e.keys.sr)
  | _ => j.marked l.tag (e.keys.sr ++ e.keys.sw)

/-- The entry waits for lineage l to settle, or reads its source and will: a linear consumer takes base values (R322, R330). -/
def Job.awaitsSettle (j : Job) (l : Lineage) (e : Entry) : Bool :=
  j.standsFor l e || (decide (l.born ≤ e.id) && match e.kind with
    | .op o => !o.started && o.copy.isNone && e.keys.ar.contains l.src && !e.keys.aw.contains l.src
    | _ => false)

/-- The entries that p names, and the later ones that have not begun and stand behind them (R113). -/
def Job.queueBehind (j : Job) (p : Entry → Bool) : List Entry :=
  j.entries.foldl (fun q e =>
    let begun := match e.kind with | .op o => o.started | _ => false
    if p e || (!begun && q.any fun x => (j.keysLeft e).overlap (j.keysLeft x)) then q ++ [e] else q) []

/-- Entries that wait for lineage l to settle, and what stands behind them. -/
def Job.settleQueue (j : Job) (l : Lineage) : List Entry := j.queueBehind (j.awaitsSettle l)

/-- Contribution y of a lineage is not held behind what waits for the settle of that lineage (R113, R322). -/
def Job.passesSettle (j : Job) (x y : Entry) : Bool :=
  match y.contribOf.bind fun t => j.lineages.find? fun l => l.tag == t with
  | some l => (j.settleQueue l).any fun e => e.id == x.id
  | none => false

/-- Channels whose tide the entry's own copy moves (R122, R373). -/
def Entry.fills (e : Entry) : List Nat :=
  match e.kind with
  | .op o => match o.copy with
    | some c => if c.chan < 4 then c.chan :: (if fld (c.tmpl.getD 0 0) 63 60 = 5 then [fld (c.tmpl.getD 0 0) 11 10] else [])
                else []
    | none => []
  | _ => []

/-- A filling copy y is not held behind x for bytes of its range: those that lie above the tide, where every access of x
stalls, and all of them while x is stalled on the tide. An x that fills the same range, or comes from outside the core, is never
stalled (R121, R122, R373). -/
def Job.fillExempt (j : Job) (x y : Entry) (ks : Keys) : Bool :=
  y.fills.any fun n =>
    let w := vget 0 j.crange n
    crangeEn w && !x.fills.contains n && !(x.outsideOf fun _ => true) && !ks.accMeet x.keys && !ks.regMeet x.keys && !ks.slotMeet x.keys &&
    let above := fun (r : Range) =>
      decide (crangeLo w ≤ r.1) && decide (r.2 ≤ crangeHi w) && (j.stalledOn x n || decide (vget 0 j.ctide n ≤ r.1))
    (ks.sr.all fun r => !rangesMeet [r] x.keys.sw || above r) &&
      ks.sw.all fun r => !rangesMeet [r] (x.keys.sr ++ x.keys.sw) || above r

/-- Earlier entry x holds the accesses ks of entry y back: they overlap, and none of the exceptions applies: a linear
consumer is not held behind contributions, a contribution is not held behind consumers of its lineage nor behind what
waits for its settle (R117, R322); nor is a filling copy behind what its tide stalls (R122). -/
def Job.holds (j : Job) (x y : Entry) (ks : Keys) : Bool :=
  ks.overlap (j.keysLeft x) &&
  !(match x.contribOf, y.consumerOf with | some t, some u => t == u | _, _ => false) &&
  !(match y.contribOf, x.consumerOf with | some t, some u => t == u | _, _ => false) &&
  !j.passesSettle x y && !j.fillExempt x y ks

/-- The first earlier entry that holds back the accesses ks of entry id. -/
def Job.heldOn (j : Job) (id : Nat) (ks : Keys) : Option Entry :=
  match j.entries.find? fun e => e.id == id with
  | none => none
  | some y => (j.entries.takeWhile fun e => e.id != id).find? fun x => j.holds x y ks

/-- Keys of an entry. -/
def Job.keysOf (j : Job) (id : Nat) : Keys := ((j.entries.find? fun e => e.id == id).map fun e => e.keys).getD Keys.none

/-- Waits until no earlier entry holds back the accesses ks of entry id (R113). -/
def waitOrder (id : Nat) (ks : Keys) : M Unit := do
  match (← get).job.heldOn id ks with
  | some x => throw (.wait (ks.why x.keys))
  | none => pure ()

/-- A held instruction of the stream in turn takes its place (R115). -/
def takePlace (keys : Keys) : M Nat := do
  let s ← get
  match s.job.entries.find? fun e => e.kind == .held s.cur with
  | some e => pure e.id
  | none => do
    unlessWait s.mayEnter .weir
    enter (.held s.cur) keys false

/-- The held instruction has taken effect and leaves. -/
def leavePlace : M Unit := modify fun s =>
  let s := match s.job.entries.find? fun e => e.kind == .held s.cur with
    | some e => s.tellEntry e.id
    | none => s
  s.modJob fun j => j.dropHeld s.cur

/-- The fault of a word with a parity error: 0x24, at the unit in hand (R425). -/
def parityFault (cycle : Nat) : FaultInfo := { FaultInfo.of 0x24 with aux := Config.parityAux cycle }

/-- A word with a parity error lies under keys, or in the image of MLDS number img. -/
def Job.spoilt (j : Job) (ks : Keys) (img : Nat) : Bool :=
  j.parity.any fun p =>
    match p with
    | .vreg i _ => ks.vr.contains i
    | .acc a _ _ => ks.ar.contains a
    | .carry n _ => ks.pr.contains n
    | .image i _ => img != 0 && (j.images[i]?.map fun m => m.num) == some img

/-- An operation whose structures hold a word with a parity error faults at its current unit (R425). -/
def opParity (id : Nat) : M Unit := do
  let s ← get
  if !s.job.parity.isEmpty then
    match s.job.entries.find? fun e => e.id == id with
    | some e =>
      let img := match e.kind with | .op o => o.img | _ => 0
      faultIf (s.job.spoilt (s.job.keysLeft e) img) (parityFault s.cycle)
    | none => pure ()

/-- An instruction that is not an entry waits until earlier entries, those that are yet to enter again among them, have made their
accesses under its keys (R116, R215, R285). -/
def waitClear (keys : Keys) : M Unit := do
  let s ← get
  match s.job.entries.find? fun e => keys.overlap (s.job.keysDue e) with
  | some e => throw (.wait (keys.why e.keys))
  | none => faultIf (s.job.spoilt keys 0) (parityFault s.cycle)

/-! ## Provisional lines (R131, R132) -/

/-- An entry's access that would carry a provisional value out, or write a provisional byte, waits for the settle (R132); an
entry older than the lineage is ordered by R113 alone (R330). -/
def settledFor (id lo hi : Nat) : M Unit := do
  let j := (← get).job
  match j.markFor id lo hi with
  | some t => throw (.wait (.lineage (j.srcOf t)))
  | none => pure ()

/-- The same for an access that has no entry. -/
def settledBytes (lo hi : Nat) : M Unit := do
  let j := (← get).job
  match j.markAt lo hi with
  | some t => throw (.wait (.lineage (j.srcOf t)))
  | none => pure ()

/-- Waits while a byte of the range lies above a tide that is in force (R121). -/
def waitTide (exempt : List Nat) (off n : Nat) : M Unit := do
  match (← get).job.tideAt exempt off (off + n) with
  | some c => throw (.wait (.tide c))
  | none => pure ()

/-- The hold of an unnumbered scratch-aperture access until it can be made: its place, tides, earlier overlapping entries,
provisional bytes (R115, R121, R132). -/
def scratchHold (off n : Nat) (rd wr : Bool) : M Unit := do
  let r := [blocks off (off + n)]
  let keys := { Keys.none with sr := if rd then r else [], sw := if wr then r else [] }
  let id ← takePlace keys
  waitTide [] off n
  waitOrder id keys
  settledFor id off (off + n)

/-! ## Stash lines on touch (R54 to R56, R60) -/

def Job.lineAt (j : Job) (w line : Nat) : Option StashLine := j.lines.find? fun l => l.win == w && l.line == line
def Job.setLine (j : Job) (l : StashLine) : Job :=
  { j with lines := l :: j.lines.filter fun m => !(m.win == l.win && m.line == l.line) }

/-- Fetches a stash line from its home into the window and marks it clean, under a read lease (R54); it waits while a byte
that it would write is provisional (R132). -/
def fillLine (w line : Nat) : M Unit := do
  let j := (← get).job
  let d := vget ⟨false, 0, 0, 0, 0⟩ j.stash w
  let off := d.off * 65536 + line * 256
  settledBytes off (off + 256)
  let x ← xlate .r 7 (d.gva * 65536 + line * 256) 256
  outsideClear none x.region 256 false
  let bs ← tagged 7 (d.gva * 65536 + line * 256) (homeLoad ⟨true, x.cc, d.epri, false, x.scope 5, true⟩ x.pa 256)
  let s ← get
  let clk := s.clock j.coreIx
  set { s with mem := s.mem.writeMany (j.windowPa off) bs
               job := s.job.setLine ⟨w, line, x.pa, x.cc, false, s.wtsAt (lineOf x.pa), clk + 65536⟩ }

/-- How an access touches a stash line: it reads; it will write, and everything that it may wait for or fault on comes first;
it writes. -/
inductive Touch where
  | read | check | write
  deriving DecidableEq, Repr, Inhabited

/-- Takes write ownership of a stash line at its home (R55). -/
def ownLine (w line : Nat) (x : Xl) : M Unit := do
  callIn (x.scope 5) (lineOf x.pa * 256) 256
  recallLine x.pa
  modify fun s =>
    let t := Nat.max (s.ltsAt (lineOf x.pa) + 1) (s.clock s.job.coreIx)
    { (s.raiseClock s.job.coreIx t) with job := s.job.setLine ⟨w, line, x.pa, x.cc, true, t, 0⟩ }

/-- Touches the stash line of n bytes at off (all in one line) before an access: an invalid line is filled by an event; a
clean line whose lease has lapsed is renewed; a first write takes ownership, of a line that holds what the home holds, or
of one that it covers whole (R54 to R56). -/
def touchStash (off n : Nat) (how : Touch) : M Unit := do
  let s ← get
  let j := s.job
  match j.stashAt off with
  -- another job may have taken the line for its own stash, through the physical range (R52, R57)
  | none => recallLine (j.windowPa off)
  | some (w, d) =>
    let line := (off - d.off * 65536) / 256
    let va := d.gva * 65536 + line * 256
    let take : M Unit := do
      let x ← xlate .w 7 va 256
      outsideHold none x.region 256 true (how ≠ .write)
      if how = .write then ownLine w line x else recallLine x.pa
    match j.lineAt w line with
    | none =>
      if how ≠ .read && n = 256 then take
      else
        match takeOut (fun f => f.1 == .stash w line) j.walkFaults with
        | some ((_, f), rest) =>
          set (s.modJob fun j => { j with walkFaults := rest })
          throw (.fault (f.info 7))
        | none => throw (.wait (.stash w line))
    | some l =>
      if !l.dirty then
        if how ≠ .read || l.lease < s.clock j.coreIx then fillLine w line
        if how ≠ .read then take

/-! ## Window bytes -/

/-- Touches every stash line that n bytes at off meet. -/
def touchAll (off n : Nat) (how : Touch) : M Unit :=
  (List.range ((off + n + 255) / 256 - off / 256)).forM fun i => do
    let lo := Nat.max off ((off / 256 + i) * 256)
    let hi := Nat.min (off + n) ((off / 256 + i + 1) * 256)
    touchStash lo (hi - lo) how

/-- A load or an atomic through the scratch aperture returns the home's value: it renews the clean stash lines that it meets
(R56, R83, R96). -/
def renewAll (off n : Nat) : M Unit :=
  (List.range ((off + n + 255) / 256 - off / 256)).forM fun i => do
    let j := (← get).job
    match j.stashAt (Nat.max off ((off / 256 + i) * 256)) with
    | none => pure ()
    | some (w, d) =>
      let line := (off / 256 + i) - d.off * 256
      match j.lineAt w line with
      | some l => if !l.dirty then fillLine w line
      | none => pure ()

/-- Reads n bytes of the job's window, that no failed unit holds (R425). -/
def windowRead (exempt : List Nat) (off n : Nat) : M (List Byte) := do
  waitTide exempt off n
  touchAll off n .read
  probe ((← get).job.windowPa off) n
  modify fun s => s.observe s.job.coreIx (s.job.windowPa off) n
  let s ← get
  pure (s.mem.readMany (s.job.windowPa off) n)

/-- Writes bytes of the job's window. -/
def windowWrite (exempt : List Nat) (off : Nat) (bs : List Byte) : M Unit := do
  waitTide exempt off bs.length
  touchAll off bs.length .write
  modify fun s =>
    let pa := s.job.windowPa off
    (({ s with mem := s.mem.writeMany pa bs } : State).stamp s.job.coreIx pa bs.length).watchWrite s.mem pa bs.length true

/-! ## Accesses of engines and copies by virtual address (R33, R84) -/

/-- An access of an engine: its kind for the record (R422), priority, channels whose tide does not stall it, and its entry. -/
structure Eng where
  acck : Nat
  ev   : Nat
  fills : List Nat
  /-- The Weir entry that makes the access. -/
  self : Option Nat
  deriving DecidableEq, Repr, Inhabited

def addrFault (va acck : Nat) : Halt := .fault (TFault.info ⟨0x14, va, 0, 0, 0⟩ acck)

/-- No aperture grants X (R14, R25). -/
def noX (need : Need) (va acck : Nat) : M Unit := faultIf (need == .x) (TFault.info ⟨0x12, va, 0, 0, 0⟩ acck)

/-- Reads n bytes at va, all in one 256-byte line. -/
def vread (g : Eng) (va n : Nat) : M (List Byte) := do
  if !vaOk va n then throw (addrFault va g.acck)
  match vrange va with
  | .mapped =>
    let x ← xlate .r g.acck va n
    outsideClear g.self x.region n false
    tagged g.acck va (homeLoad (x.engine g.ev) x.pa n)
  | .scratch off =>
    if (← get).job.window < off + n then throw (addrFault va g.acck)
    tagged g.acck va (windowRead g.fills off n)
  | .dtree off =>
    let x ← dtreeXl .r g.acck off n
    tagged g.acck va (homeLoad (x.engine g.ev) x.pa n)
  | .copy .. | .reserved => throw (addrFault va g.acck)

/-- Checks that n bytes at va may be written, without writing them. -/
def vcheck (g : Eng) (need : Need) (va n : Nat) : M Unit := do
  if !vaOk va n then throw (addrFault va g.acck)
  match vrange va with
  | .mapped =>
    let x ← xlate need g.acck va n
    outsideHold g.self x.region n true true
    tagged g.acck va (recallLine x.pa)
  | .scratch off =>
    if (← get).job.window < off + n then throw (addrFault va g.acck)
    noX need va g.acck
    waitTide g.fills off n
    touchAll off n .check
  | .dtree off => let _ ← dtreeXl need g.acck off n
  | .copy .. | .reserved => throw (addrFault va g.acck)

/-- Writes bytes at va, all in one 256-byte line, under a permission (R25). -/
def vwrite (g : Eng) (need : Need) (va : Nat) (bs : List Byte) : M Unit := do
  if !vaOk va bs.length then throw (addrFault va g.acck)
  match vrange va with
  | .mapped =>
    let x ← xlate need g.acck va bs.length
    outsideClear g.self x.region bs.length true
    tagged g.acck va (store (x.engine g.ev) x.pa bs)
  | .scratch off =>
    if (← get).job.window < off + bs.length then throw (addrFault va g.acck)
    noX need va g.acck
    windowWrite g.fills off bs
  | .dtree off => let _ ← dtreeXl need g.acck off bs.length
  | .copy .. | .reserved => throw (addrFault va g.acck)

/-- One atomic at va on n bytes; the old value (R100, R378). -/
def vatomic (g : Eng) (va n : Nat) (f : Nat → Option Nat) : M Nat := do
  if !vaOk va n then throw (addrFault va g.acck)
  match vrange va with
  | .mapped =>
    let x ← xlate .rw g.acck va n
    outsideClear g.self x.region n true
    tagged g.acck va (atomic (x.engine g.ev) x.pa n f)
  | .scratch off =>
    if (← get).job.window < off + n then throw (addrFault va g.acck)
    touchAll off n .check
    renewAll off n
    let old := leNum (← tagged g.acck va (windowRead g.fills off n))
    match f old with
    | some v => windowWrite g.fills off (leList n v)
    | none => pure ()
    pure old
  | .dtree off => do
    let _ ← dtreeXl .rw g.acck off n
    pure 0
  | .copy .. | .reserved => throw (addrFault va g.acck)

/-- Window bytes that an address range touches, as Weir keys (R111). -/
def scratchKey (va n : Nat) : List Range :=
  if scratchVa ≤ va && va < scratchVa + 0x80_0000 then [blocks (va - scratchVa) (va - scratchVa + n)] else []

end Sys2Proof.Machine
end

