-- ==== Sys2Proof/Machine/Fetch.lean ====
section
/-! DEFINITION. Instruction memory: filling it (R127, R169, R171, R173, R175) and reading the instruction at the program
counter (R158, R170, R172). -/

namespace Sys2Proof.Machine

/-! ## Fills -/

/-- Reads n bytes of code under R127: a prompt load at package scope that needs X, with the logical write time of the line;
no aperture grants X (R14). -/
def codeRead (va n : Nat) : M (List Byte × Nat) := do
  if !vaOk va n then throw (.fault (TFault.info ⟨0x14, va, 0, 0, 0⟩ 3))
  match vrange va with
  | .mapped =>
    let x ← xlate .x 3 va n
    outsideClear none x.region n false
    let bs ← tagged 3 va (homeLoad (x.engine 4) x.pa n)
    pure (bs, (← get).wtsAt (lineOf x.pa))
  | .reserved => throw (.fault (TFault.info ⟨0x14, va, 0, 0, 0⟩ 3))
  | _ => throw (.fault (TFault.info ⟨0x12, va, 0, 0, 0⟩ 3))

/-- Value of `hdrVer` for a broken header. -/
def hdrBroken : Nat := 256

/-- What a kernel header says for a stream (R175). -/
def headerVer (x : StreamId) (bs : List Byte) : Nat :=
  let w := leNum bs
  if fldN w 31 0 = 0x5944_4E46 && fldN w 39 32 = 1 && fldN w 55 48 = streamNum x && fldN w 63 56 = 0 && fldN w 127 64 = 0
  then fldN w 47 40 else hdrBroken

/-- The unit of a stream at an address, when its words are in instruction memory. -/
def Stream.unitAt (t : Stream) (base : Nat) : Option CodeUnit := t.imem.find? fun u => u.here && u.base == base

/-- Bytes of the instruction that begins with a byte; 1 for a reserved prefix. -/
def instrLen (b : Byte) : Nat :=
  match formOfByte b.toNat with
  | some f => formLen f
  | none => 1

/-- A run of expansion: the offsets at which instructions begin, from an offset of the unit on until the unit ends, or a reserved
prefix (R169). -/
def expandGo : Nat → Nat → List Byte → List Nat
  | 0, _, _ => []
  | _ + 1, _, [] => []
  | n + 1, off, b :: r =>
    match formOfByte b.toNat with
    | none => [off]
    | some f => off :: expandGo n (off + formLen f) ((b :: r).drop (formLen f))

/-- The words of one run, of at most 128. -/
def expand (bs : List Byte) (off : Nat) : List Nat := expandGo 128 off (bs.drop off)

/-- Bytes of the next unit that the last instruction of a unit takes; none when no run of the unit has come to its end: a run that
a reserved prefix ended has not (R169). -/
def CodeUnit.reach (u : CodeUnit) : Option Nat :=
  let whole := u.words.filter fun o => (formOfByte (u.bytes.getD o 0).toNat).isSome
  let top := (whole.map fun o => o + instrLen (u.bytes.getD o 0)).foldl Nat.max 0
  if 256 ≤ top then some (top - 256) else none

/-- A unit that leaves instruction memory keeps the times of its first fill (R173). -/
def CodeUnit.out (u : CodeUnit) : CodeUnit :=
  { u with here := false, bytes := [], tail := [], words := [], fault := none, tailFault := none }

/-- The unit of a stream at an address, there or displaced. -/
def Stream.unitKept (t : Stream) (base : Nat) : CodeUnit :=
  (t.imem.find? fun u => u.base == base).getD ⟨base, [], [], [], none, none, none, 0, none, 0, false, 0⟩

/-- Puts a unit into a stream's instruction memory. -/
def Stream.putUnit (t : Stream) (u : CodeUnit) : Stream := { t with imem := u :: t.imem.filter fun v => v.base != u.base }

/-- The unit after a fill that read bytes bs, of a line written at w, for a program counter at an offset: the run from there is
expanded, unless the line has been written since the unit's first fill (R169, R173). -/
def CodeUnit.fill (u : CodeUnit) (bs : List Byte) (w off cycle : Nat) : CodeUnit :=
  let first := u.first.getD w
  let old := if u.here && u.fault.isNone then u.words else []
  let new := if first < w then [] else (expand bs off).filter fun o => !old.contains o
  { u with bytes := bs, words := old ++ new, fault := none, first := some first, wts := w, here := true, used := cycle }

/-- The unit after a fill that met a fault (R171). -/
def CodeUnit.bad (u : CodeUnit) (f : FaultInfo) (cycle : Nat) : CodeUnit :=
  { u.out with fault := some f, here := true, used := cycle }

/-- Reads the kernel header below the code entry, at the first fill of a stream (R175). -/
def fillHeader (x : StreamId) : M Unit := do
  let s ← get
  if (s.job.str x).hdrVer.isNone then
    let entry := (recEntry s.job.lrec x).toNat
    let ver ← if entry % 16 != 0 then pure hdrBroken
      else do
        let (bs, _) ← codeRead ((entry + 2 ^ 64 - 16) % 2 ^ 64) 16
        pure (headerVer x bs)
    modify fun s => s.modStrOf x fun t => { t with hdrVer := some ver }

/-- The second load of an instruction that ends in the next unit: its remaining bytes, of a line written at a time (R169); a
fault is recorded against the unit (R171). -/
def fillTail (u : CodeUnit) (next : Option Nat) : M CodeUnit := do
  match u.reach with
  | none | some 0 => pure u
  | some _ =>
    match ← attempt (codeRead (u.base + 256) 256) with
    | .ok (bs, w) =>
      let first := match u.tailFirst with | some t => t | none => next.getD w
      pure { u with tail := bs.take 11, tailFirst := some first, tailWts := w, tailFault := none }
    | .error f => pure { u with tail := [], tailFault := some f }

/-- Fills the unit at a base for stream x, for a program counter at an offset of it; a fault of the fill is recorded against
the unit (R169, R171). -/
def fillUnit (x : StreamId) (base off : Nat) : M Unit := do
  match ← attempt (do fillHeader x; codeRead base 256) with
  | .ok (bs, w) =>
    let s ← get
    let t := s.job.str x
    let u ← fillTail ((t.unitKept base).fill bs w off s.cycle) (t.unitKept (base + 256)).first
    modify fun s => s.modStrOf x fun t => t.putUnit u
  | .error f => modify fun s => s.modStrOf x fun t => t.putUnit ((t.unitKept base).bad f s.cycle)

/-- The job's streams may issue: it is resident; a handler may run while it retires (R150, R198). -/
def Job.issues (j : Job) : Bool :=
  match j.status with
  | .resident | .retiring _ => true
  | _ => false

/-! ### The memory that the contexts of a core share (R169, R173) -/

/-- The words of the contexts of a core in the instruction memory of one kind of stream. -/
def State.codeWords (s : State) (core : Nat) (x : StreamId) : Nat :=
  ((s.onCore core).flatMap fun j => (j.str x).imem.map fun u => u.words.length).foldl (· + ·) 0

/-- The unit used least recently, that at `keep` of job num apart. -/
def State.oldestUnit (s : State) (core : Nat) (x : StreamId) (num keep : Nat) : Option (Nat × CodeUnit) :=
  let all := (s.onCore core).flatMap fun j =>
    ((j.str x).imem.filter fun u => u.here && !u.words.isEmpty && !(j.num == num && u.base == keep)).map fun u => (j.num, u)
  match all with
  | [] => none
  | a :: r => some (r.foldl (fun a b => if b.2.used < a.2.used then b else a) a)

/-- A full memory of 4,096 words displaces the least recently used units of any context (R173). -/
def State.makeRoom (s : State) (core : Nat) (x : StreamId) (num keep : Nat) : Nat → State
  | 0 => s
  | n + 1 =>
    if s.codeWords core x ≤ 4096 then s
    else match s.oldestUnit core x num keep with
      | none => s
      | some (m, u) =>
        (s.modJobNum m fun j => j.setStr x ((j.str x).putUnit u.out)).makeRoom core x num keep n

/-- The stream's words at an address are still to be filled (R169). -/
def Stream.wants (t : Stream) (pc : Nat) : Bool :=
  match t.unitAt (pc / 256 * 256) with
  | none => true
  | some u => u.fault.isNone && !(u.first.any fun f => decide (f < u.wts)) && !u.words.contains (pc % 256)

/-- Where a fill that runs ahead goes on: the first byte after the last instruction expanded, of the units that follow the one
given (R127, R169). -/
def Stream.ahead (t : Stream) : Nat → Nat → Option Nat
  | 0, _ => none
  | n + 1, base =>
    match (t.unitAt base).bind CodeUnit.reach with
    | none => none
    | some o => if t.wants (base + 256 + o) then some (base + 256 + o) else t.ahead n (base + 256)

/-- Fills the unit in which address pc of a stream lies, and makes room for its words. -/
def fillAt (num : Nat) (x : StreamId) (pc : Nat) : M Unit := do
  modify fun s => { s with via := some (.code x), cur := x }
  fillUnit x (pc / 256 * 256) (pc % 256)
  modify fun s => s.makeRoom s.job.coreIx x num (pc / 256 * 256) 128

/-- A job's stream for whose instruction memory a fill may be made: the job is resident (R127), and
its core runs (R431, R442). -/
def fillFor (num : Nat) (x : StreamId) : M Stream := do
  focusOn num
  let s ← get
  need (s.job.issues && (s.job.str x).st != .idle && s.coreRuns s.job.coreIx)
  pure (s.job.str x)

/-- INSTRUCTION_FILL (R127, R169): the words at the program counter, or, when they are there, those with which a fill that
runs ahead of it goes on. -/
def execInstructionFill (num : Nat) (x : StreamId) (s : State) : Host.Outcome State Fault Refusal :=
  runEvent (do
    let t ← fillFor num x
    let pc := t.pc.toNat
    if t.wants pc || t.hdrVer.isNone then fillAt num x pc
    else match t.ahead 16 (pc / 256 * 256) with
      | some a => fillAt num x a
      | none => throw .halt) s

/-! ## The instruction at the program counter -/

/-- A pending fault is to be delivered at C's next boundary, which is now (R198, R201). -/
def Job.trapDue (j : Job) : Bool := j.deliverable && j.faults.any fun r => r.state == 2 && !r.toOs

/-- The stream in turn may issue (R135, R150, R198, R201, R431, R438, R442). -/
def State.mayIssue (s : State) : Bool :=
  s.job.issues && s.str.st == .running && s.str.hold.isNone && !s.str.halted && s.job.hits.isEmpty &&
    s.coreRuns s.job.coreIx && !(s.cur == .C && s.job.trapDue)

/-- What stands at the program counter. -/
inductive Fetched where
  /-- Its words are not in instruction memory. -/
  | fill
  /-- A fault of decoding or of the fill; the unit that is filled again afterwards. -/
  | fault (f : FaultInfo) (unit : Nat)
  | instr (i : Instr)
  deriving DecidableEq, Repr

/-- Fill status of bytes that are no instruction (R172, R175). -/
def dstatOf (ver : Nat) : Reject → Nat
  | .reservedPrefix => 1
  | _ => if ver = 0 then 2 else 3

/-- The illegal-instruction fault (R170). -/
def illegal (dstat : Nat) : FaultInfo := { FaultInfo.of 0x08 with dstat := dstat }

/-- The instruction that bytes begin with, under the header version. A port slot in a field of a port that a matrix instruction does
not have is a reserved encoding (R161, R170, R172; log entry 68). -/
def decodeAs (ver : Nat) (bs : List Byte) : Fetched :=
  if ver = hdrBroken then .fault (illegal 3) 0
  else match decode bs with
    | .ok (i, _) => .instr i
    | .error e => .fault (illegal (dstatOf ver e)) 0

/-- A unit whose fill faulted or that is stale, when the program counter reaches it (R170, R171, R173). -/
def CodeUnit.fails (u : CodeUnit) : Option Fetched :=
  match u.fault with
  | some f => some (.fault f u.base)
  | none => if u.first.any fun f => decide (f < u.wts) then some (.fault (FaultInfo.of 0x0B) 0) else none

/-- The same for the bytes that an instruction takes from the next unit. -/
def CodeUnit.tailFails (u : CodeUnit) : Option Fetched :=
  match u.tailFault with
  | some f => some (.fault f u.base)
  | none => if u.tailFirst.any fun f => decide (f < u.tailWts) then some (.fault (FaultInfo.of 0x0B) 0) else none

/-- The instruction at the program counter of the stream in turn, its faults in the order of R170. -/
def State.fetch (s : State) : Fetched :=
  let t := s.str
  let pc := t.pc.toNat
  if pc % 2 = 1 then .fault (FaultInfo.of 0x0A) 0
  else match t.unitAt (pc / 256 * 256) with
    | none => .fill
    | some u =>
      match u.fails, t.hdrVer with
      | some f, _ => f
      | none, none => .fill
      | none, some ver =>
        let bs := u.bytes.drop (pc % 256)
        if !u.words.contains (pc % 256) then .fill
        else if instrLen (bs.headD 0) ≤ bs.length then decodeAs ver bs
        else (u.tailFails).getD (decodeAs ver (bs ++ u.tail))

/-- The fault is taken; the unit it came from is filled again afterwards (R171). -/
def State.fetchFault (s : State) (f : FaultInfo) (unit : Nat) : State :=
  let gone := fun (u : CodeUnit) => u.base == unit && (u.fault.isSome || u.tailFault.isSome)
  let s := s.modStr fun t => { t with imem := t.imem.map fun u => if gone u then u.out else u }
  ((s.endWait s.cur 0).takeFault (s.ownFault f) (.stream s.cur)).settleStep

/-- The unit at the program counter is used (R173). -/
def State.useCode (s : State) : State :=
  let base := s.str.pc.toNat / 256 * 256
  s.modStr fun t => { t with imem := t.imem.map fun u => if u.here && u.base == base then { u with used := s.cycle } else u }

end Sys2Proof.Machine
end

