-- ==== Sys2Proof/Machine/Flags.lean ====
section
/-! DEFINITION. Conditions and predicate logic: CMP, PLOG, WAITF, VTEST (R185, R187, R402, R284). -/

namespace Sys2Proof.Machine

/-- The conditions of CMP (R185). -/
def condHolds (cc : Cond) (a b : Word) : Bool :=
  match cc with
  | .eq => a == b
  | .ne => a != b
  | .lt => a.slt b
  | .ge => !a.slt b
  | .ltu => a.ult b
  | .geu => !a.ult b
  | .bs => a &&& b != 0
  | .bc => a &&& b == 0

/-- The operations of PLOG (R187). -/
def plogValue (op : PlogOp) (a b : Bool) : Bool :=
  match op with
  | .and => a && b
  | .or => a || b
  | .xor => a != b
  | .andn => a && !b
  | .orn => a || !b
  | .not => !a
  | .set => true
  | .clr => false

/-- The conditions of WAITF (R402). -/
def flagHolds (cc : FlagCond) (x b : Word) : Bool :=
  match cc with
  | .eq => x == b
  | .ne => x != b
  | .geu => !x.ult b
  | .ge => !x.slt b
  | .bs => x &&& b != 0

/-- A lane read as FP32 is NaN. -/
def laneNan (x : Lane) : Bool := x &&& 0x7FFF_FFFF > 0x7F80_0000

/-- The conditions of VTEST (R284). -/
def vcondHolds (cc : VCond) (lanes : List Lane) : Bool :=
  match cc with
  | .any => lanes.any (· != 0)
  | .all => lanes.all (· != 0)
  | .nan => lanes.any laneNan
  | .none => lanes.all (· == 0)

end Sys2Proof.Machine
end

