-- ==== Sys2Proof/Machine/Scalar.lean ====
section
/-! DEFINITION. The scalar instructions (R178 to R187) and the short forms of them (R162). -/

namespace Sys2Proof.Machine

/-- An instruction whose whole effect is one value written to sD (R178). -/
def scalarTo (h : Hdr) (d : SReg) (f : State → Word) (s : State) : Host.Outcome State Fault Refusal :=
  runInstr h allStreams (do
    modify fun s => s.setS d (f s)
    pure .next) s

/-- An instruction whose whole effect is one predicate written. -/
def predTo (h : Hdr) (d : PReg) (f : State → Bool) (s : State) : Host.Outcome State Fault Refusal :=
  runInstr h allStreams (do
    modify fun s => s.setP d (f s)
    pure .next) s

/-- The header of a short form: guard p0, two bytes (R162). -/
def shortHdr : Hdr := ⟨⟨false, 0⟩, .short⟩

/-- s0 to s31 as named by a short form (R162). -/
def shortReg (r : BitVec 5) : SReg := r.zeroExtend 6

/-- ADD sD, sA, sB (R179). -/
def execAdd (h : Hdr) (d a b : SReg) (s : State) : Host.Outcome State Fault Refusal :=
  scalarTo h d (fun s => (s.getS a) + (s.getS b)) s

/-- ADD sD, sA, imm (R179): b is the sign-extended immediate. -/
def execAddImm (h : Hdr) (d a : SReg) (imm : Imm) (s : State) : Host.Outcome State Fault Refusal :=
  scalarTo h d (fun s => (s.getS a) + (sextImm imm)) s

/-- SUB sD, sA, sB (R179). -/
def execSub (h : Hdr) (d a b : SReg) (s : State) : Host.Outcome State Fault Refusal :=
  scalarTo h d (fun s => (s.getS a) - (s.getS b)) s

/-- SUB sD, sA, imm (R179): b is the sign-extended immediate. -/
def execSubImm (h : Hdr) (d a : SReg) (imm : Imm) (s : State) : Host.Outcome State Fault Refusal :=
  scalarTo h d (fun s => (s.getS a) - (sextImm imm)) s

/-- MUL sD, sA, sB (R179). -/
def execMul (h : Hdr) (d a b : SReg) (s : State) : Host.Outcome State Fault Refusal :=
  scalarTo h d (fun s => (s.getS a) * (s.getS b)) s

/-- MUL sD, sA, imm (R179): b is the sign-extended immediate. -/
def execMulImm (h : Hdr) (d a : SReg) (imm : Imm) (s : State) : Host.Outcome State Fault Refusal :=
  scalarTo h d (fun s => (s.getS a) * (sextImm imm)) s

/-- MULH sD, sA, sB (R179). -/
def execMulh (h : Hdr) (u : Bool) (d a b : SReg) (s : State) : Host.Outcome State Fault Refusal :=
  scalarTo h d (fun s => mulHigh u (s.getS a) (s.getS b)) s

/-- MULH sD, sA, imm (R179): b is the sign-extended immediate. -/
def execMulhImm (h : Hdr) (u : Bool) (d a : SReg) (imm : Imm) (s : State) : Host.Outcome State Fault Refusal :=
  scalarTo h d (fun s => mulHigh u (s.getS a) (sextImm imm)) s

/-- DIV sD, sA, sB (R180). -/
def execDiv (h : Hdr) (u : Bool) (d a b : SReg) (s : State) : Host.Outcome State Fault Refusal :=
  scalarTo h d (fun s => divValue u (s.getS a) (s.getS b)) s

/-- DIV sD, sA, imm (R180): b is the sign-extended immediate. -/
def execDivImm (h : Hdr) (u : Bool) (d a : SReg) (imm : Imm) (s : State) : Host.Outcome State Fault Refusal :=
  scalarTo h d (fun s => divValue u (s.getS a) (sextImm imm)) s

/-- REM sD, sA, sB (R180). -/
def execRem (h : Hdr) (u : Bool) (d a b : SReg) (s : State) : Host.Outcome State Fault Refusal :=
  scalarTo h d (fun s => remValue u (s.getS a) (s.getS b)) s

/-- REM sD, sA, imm (R180): b is the sign-extended immediate. -/
def execRemImm (h : Hdr) (u : Bool) (d a : SReg) (imm : Imm) (s : State) : Host.Outcome State Fault Refusal :=
  scalarTo h d (fun s => remValue u (s.getS a) (sextImm imm)) s

/-- AND sD, sA, sB (R179). -/
def execAnd (h : Hdr) (d a b : SReg) (s : State) : Host.Outcome State Fault Refusal :=
  scalarTo h d (fun s => (s.getS a) &&& (s.getS b)) s

/-- AND sD, sA, imm (R179): b is the sign-extended immediate. -/
def execAndImm (h : Hdr) (d a : SReg) (imm : Imm) (s : State) : Host.Outcome State Fault Refusal :=
  scalarTo h d (fun s => (s.getS a) &&& (sextImm imm)) s

/-- OR sD, sA, sB (R179). -/
def execOr (h : Hdr) (d a b : SReg) (s : State) : Host.Outcome State Fault Refusal :=
  scalarTo h d (fun s => (s.getS a) ||| (s.getS b)) s

/-- OR sD, sA, imm (R179): b is the sign-extended immediate. -/
def execOrImm (h : Hdr) (d a : SReg) (imm : Imm) (s : State) : Host.Outcome State Fault Refusal :=
  scalarTo h d (fun s => (s.getS a) ||| (sextImm imm)) s

/-- XOR sD, sA, sB (R179). -/
def execXor (h : Hdr) (d a b : SReg) (s : State) : Host.Outcome State Fault Refusal :=
  scalarTo h d (fun s => (s.getS a) ^^^ (s.getS b)) s

/-- XOR sD, sA, imm (R179): b is the sign-extended immediate. -/
def execXorImm (h : Hdr) (d a : SReg) (imm : Imm) (s : State) : Host.Outcome State Fault Refusal :=
  scalarTo h d (fun s => (s.getS a) ^^^ (sextImm imm)) s

/-- ANDN sD, sA, sB (R179). -/
def execAndn (h : Hdr) (d a b : SReg) (s : State) : Host.Outcome State Fault Refusal :=
  scalarTo h d (fun s => (s.getS a) &&& ~~~(s.getS b)) s

/-- ANDN sD, sA, imm (R179): b is the sign-extended immediate. -/
def execAndnImm (h : Hdr) (d a : SReg) (imm : Imm) (s : State) : Host.Outcome State Fault Refusal :=
  scalarTo h d (fun s => (s.getS a) &&& ~~~(sextImm imm)) s

/-- SHL sD, sA, sB (R179). -/
def execShl (h : Hdr) (d a b : SReg) (s : State) : Host.Outcome State Fault Refusal :=
  scalarTo h d (fun s => (s.getS a) <<< shiftAmount (s.getS b)) s

/-- SHL sD, sA, imm (R179): b is the sign-extended immediate. -/
def execShlImm (h : Hdr) (d a : SReg) (imm : Imm) (s : State) : Host.Outcome State Fault Refusal :=
  scalarTo h d (fun s => (s.getS a) <<< shiftAmount (sextImm imm)) s

/-- SHR sD, sA, sB (R179). -/
def execShr (h : Hdr) (d a b : SReg) (s : State) : Host.Outcome State Fault Refusal :=
  scalarTo h d (fun s => (s.getS a) >>> shiftAmount (s.getS b)) s

/-- SHR sD, sA, imm (R179): b is the sign-extended immediate. -/
def execShrImm (h : Hdr) (d a : SReg) (imm : Imm) (s : State) : Host.Outcome State Fault Refusal :=
  scalarTo h d (fun s => (s.getS a) >>> shiftAmount (sextImm imm)) s

/-- SAR sD, sA, sB (R179). -/
def execSar (h : Hdr) (d a b : SReg) (s : State) : Host.Outcome State Fault Refusal :=
  scalarTo h d (fun s => (s.getS a).sshiftRight (shiftAmount (s.getS b))) s

/-- SAR sD, sA, imm (R179): b is the sign-extended immediate. -/
def execSarImm (h : Hdr) (d a : SReg) (imm : Imm) (s : State) : Host.Outcome State Fault Refusal :=
  scalarTo h d (fun s => (s.getS a).sshiftRight (shiftAmount (sextImm imm))) s

/-- MIN sD, sA, sB (R179). -/
def execMin (h : Hdr) (u : Bool) (d a b : SReg) (s : State) : Host.Outcome State Fault Refusal :=
  scalarTo h d (fun s => minValue u (s.getS a) (s.getS b)) s

/-- MIN sD, sA, imm (R179): b is the sign-extended immediate. -/
def execMinImm (h : Hdr) (u : Bool) (d a : SReg) (imm : Imm) (s : State) : Host.Outcome State Fault Refusal :=
  scalarTo h d (fun s => minValue u (s.getS a) (sextImm imm)) s

/-- MAX sD, sA, sB (R179). -/
def execMax (h : Hdr) (u : Bool) (d a b : SReg) (s : State) : Host.Outcome State Fault Refusal :=
  scalarTo h d (fun s => maxValue u (s.getS a) (s.getS b)) s

/-- MAX sD, sA, imm (R179): b is the sign-extended immediate. -/
def execMaxImm (h : Hdr) (u : Bool) (d a : SReg) (imm : Imm) (s : State) : Host.Outcome State Fault Refusal :=
  scalarTo h d (fun s => maxValue u (s.getS a) (sextImm imm)) s

/-- CLZ (R181). -/
def execClz (h : Hdr) (d a : SReg) (s : State) : Host.Outcome State Fault Refusal :=
  scalarTo h d (fun s => clzValue (s.getS a)) s

/-- POPC (R181). -/
def execPopc (h : Hdr) (d a : SReg) (s : State) : Host.Outcome State Fault Refusal :=
  scalarTo h d (fun s => popcValue (s.getS a)) s

/-- EXT (R181). -/
def execExt (h : Hdr) (signed : Bool) (w : ExtWidth) (d a : SReg) (s : State) : Host.Outcome State Fault Refusal :=
  scalarTo h d (fun s => extValue signed w (s.getS a)) s

/-- BFX and BFX.S (R182). -/
def execBfx (h : Hdr) (signed : Bool) (d a : SReg) (hi lo : BitVec 6) (s : State) : Host.Outcome State Fault Refusal :=
  scalarTo h d (fun s => bfxValue signed (s.getS a) hi.toNat lo.toNat) s

/-- BFI (R182). -/
def execBfi (h : Hdr) (d a : SReg) (hi lo : BitVec 6) (s : State) : Host.Outcome State Fault Refusal :=
  scalarTo h d (fun s => bfiValue (s.getS d) (s.getS a) hi.toNat lo.toNat) s

/-- LEA (R183). -/
def execLea (h : Hdr) (sc : BitVec 2) (d a b : SReg) (imm : Imm) (s : State) : Host.Outcome State Fault Refusal :=
  scalarTo h d (fun s => leaValue sc (s.getS a) (s.getS b) imm) s

/-- MOV sD, sA (R184). -/
def execMov (h : Hdr) (d a : SReg) (s : State) : Host.Outcome State Fault Refusal :=
  scalarTo h d (fun s => s.getS a) s

/-- MOV sD, lcN (R184). -/
def execMovFromLc (h : Hdr) (d : SReg) (n : LcReg) (s : State) : Host.Outcome State Fault Refusal :=
  scalarTo h d (fun s => s.getLc n) s

/-- MOV lcN, sA (R184): how many more iterations run; k and n of a frame do not change (R192). -/
def execMovToLc (h : Hdr) (n : LcReg) (a : SReg) (s : State) : Host.Outcome State Fault Refusal :=
  runInstr h allStreams (do
    modify fun s => s.setLc n (s.getS a)
    pure .next) s

/-- MOVI (R184). -/
def execMovi (h : Hdr) (d : SReg) (imm : Imm) (s : State) : Host.Outcome State Fault Refusal :=
  scalarTo h d (fun _ => sextImm imm) s

/-- MOVI.H (R184). -/
def execMoviH (h : Hdr) (d : SReg) (imm : BitVec 16) (s : State) : Host.Outcome State Fault Refusal :=
  scalarTo h d (fun s => movihValue (s.getS d) imm) s

/-- CMP pD, sA, sB (R185). -/
def execCmp (h : Hdr) (cc : Cond) (d : PReg) (a b : SReg) (s : State) : Host.Outcome State Fault Refusal :=
  predTo h d (fun s => condHolds cc (s.getS a) (s.getS b)) s

/-- CMP pD, sA, imm (R185). -/
def execCmpImm (h : Hdr) (cc : Cond) (d : PReg) (a : SReg) (imm : Imm) (s : State) : Host.Outcome State Fault Refusal :=
  predTo h d (fun s => condHolds cc (s.getS a) (sextImm imm)) s

/-- SEL (R186). -/
def execSel (h : Hdr) (n : PReg) (d a b : SReg) (s : State) : Host.Outcome State Fault Refusal :=
  scalarTo h d (fun s => if s.getP n then s.getS a else s.getS b) s

/-- PLOG (R187). -/
def execPlog (h : Hdr) (op : PlogOp) (d a b : PReg) (s : State) : Host.Outcome State Fault Refusal :=
  predTo h d (fun s => plogValue op (s.getP a) (s.getP b)) s

/-! ## Short forms (R162) -/

/-- MOV, short form. -/
def execMovShort (d a : BitVec 5) (s : State) : Host.Outcome State Fault Refusal :=
  scalarTo shortHdr (shortReg d) (fun s => s.getS (shortReg a)) s

/-- ADD sD, sD, sA, short form. -/
def execAddShort (d a : BitVec 5) (s : State) : Host.Outcome State Fault Refusal :=
  scalarTo shortHdr (shortReg d) (fun s => (s.getS (shortReg d)) + (s.getS (shortReg a))) s

/-- SUB sD, sD, sA, short form. -/
def execSubShort (d a : BitVec 5) (s : State) : Host.Outcome State Fault Refusal :=
  scalarTo shortHdr (shortReg d) (fun s => (s.getS (shortReg d)) - (s.getS (shortReg a))) s

/-- AND sD, sD, sA, short form. -/
def execAndShort (d a : BitVec 5) (s : State) : Host.Outcome State Fault Refusal :=
  scalarTo shortHdr (shortReg d) (fun s => (s.getS (shortReg d)) &&& (s.getS (shortReg a))) s

/-- OR sD, sD, sA, short form. -/
def execOrShort (d a : BitVec 5) (s : State) : Host.Outcome State Fault Refusal :=
  scalarTo shortHdr (shortReg d) (fun s => (s.getS (shortReg d)) ||| (s.getS (shortReg a))) s

/-- XOR sD, sD, sA, short form. -/
def execXorShort (d a : BitVec 5) (s : State) : Host.Outcome State Fault Refusal :=
  scalarTo shortHdr (shortReg d) (fun s => (s.getS (shortReg d)) ^^^ (s.getS (shortReg a))) s

/-- SHL sD, sD, sA, short form. -/
def execShlShort (d a : BitVec 5) (s : State) : Host.Outcome State Fault Refusal :=
  scalarTo shortHdr (shortReg d) (fun s => (s.getS (shortReg d)) <<< shiftAmount (s.getS (shortReg a))) s

/-- SHR sD, sD, sA, short form. -/
def execShrShort (d a : BitVec 5) (s : State) : Host.Outcome State Fault Refusal :=
  scalarTo shortHdr (shortReg d) (fun s => (s.getS (shortReg d)) >>> shiftAmount (s.getS (shortReg a))) s

/-- SAR sD, sD, sA, short form. -/
def execSarShort (d a : BitVec 5) (s : State) : Host.Outcome State Fault Refusal :=
  scalarTo shortHdr (shortReg d) (fun s => (s.getS (shortReg d)).sshiftRight (shiftAmount (s.getS (shortReg a)))) s

/-- ADD sD, sD, imm, short form, imm from -16 to 15. -/
def execAddImmShort (d i : BitVec 5) (s : State) : Host.Outcome State Fault Refusal :=
  scalarTo shortHdr (shortReg d) (fun s => s.getS (shortReg d) + i.signExtend 64) s

/-- MOVI, short form, imm from -16 to 15. -/
def execMoviShort (d i : BitVec 5) (s : State) : Host.Outcome State Fault Refusal :=
  scalarTo shortHdr (shortReg d) (fun _ => i.signExtend 64) s

end Sys2Proof.Machine
end

