-- ==== Sys2Proof/Machine/Control.lean ====
section
/-! DEFINITION. Branches, calls and hardware loops (R188 to R193). -/

namespace Sys2Proof.Machine

/-- The streams that may branch (R168). -/
def branchStreams : List StreamId := [.C, .A]

/-- BR (R189). -/
def execBr (h : Hdr) (imm : Imm) (s : State) : Host.Outcome State Fault Refusal :=
  runInstr h branchStreams (do
    let s ← get
    pure (.jump (s.relTarget imm))) s

/-- BR.Q (R189): pops the head of bq and jumps when it is 1; waits while bq is empty. On the C stream only. -/
def execBrQ (h : Hdr) (imm : Imm) (s : State) : Host.Outcome State Fault Refusal :=
  runInstr h [.C] (do
    drain
    let s ← get
    match s.job.bq with
    | [] => throw (.wait (.queue .bq))
    | b :: r =>
      set (s.modJob fun j => { j with bq := r })
      pure (if b then .jump (s.relTarget imm) else .next)) s

/-- JMP (R189). -/
def execJmp (h : Hdr) (a : SReg) (imm : Imm) (s : State) : Host.Outcome State Fault Refusal :=
  runInstr h branchStreams (do
    let s ← get
    pure (.jump (s.getS a + sextImm imm))) s

/-- The link register: s63 when it is not written (R189). -/
def linkReg (d : SReg) : SReg := if d = 0 then 63 else d

/-- The return address of a call (R189). -/
def State.returnAddr (s : State) (h : Hdr) : Word := s.str.pc + BitVec.ofNat 64 (formLen h.form)

/-- CALL (R189): the link register gets the return address; removes no frame (R193). -/
def execCall (h : Hdr) (d : SReg) (imm : Imm) (s : State) : Host.Outcome State Fault Refusal :=
  runInstr h branchStreams (do
    let s ← get
    set (s.setS (linkReg d) (s.returnAddr h))
    pure (.call (s.relTarget imm))) s

/-- CALL.R (R189): the target register is read before the link is written. -/
def execCallR (h : Hdr) (d a : SReg) (imm : Imm) (s : State) : Host.Outcome State Fault Refusal :=
  runInstr h branchStreams (do
    let s ← get
    set (s.setS (linkReg d) (s.returnAddr h))
    pure (.call (s.getS a + sextImm imm))) s

/-- The register a RET goes through: s63 when SA is 0 (R189). -/
def retReg (a : SReg) : SReg := if a = 0 then 63 else a

/-- RET (R189). -/
def execRet (h : Hdr) (a : SReg) (s : State) : Host.Outcome State Fault Refusal :=
  runInstr h branchStreams (do
    let s ← get
    pure (.jump (s.getS (retReg a)))) s

/-- RET, short form: through s63 (R162). -/
def execRetShort (s : State) : Host.Outcome State Fault Refusal :=
  runInstr shortHdr branchStreams (do
    let s ← get
    pure (.jump (s.getS 63))) s

/-- NOP (R189). -/
def execNop (h : Hdr) (s : State) : Host.Outcome State Fault Refusal := runInstr h allStreams (pure .next) s

/-- NOP, short form (R162). -/
def execNopShort (s : State) : Host.Outcome State Fault Refusal := runInstr shortHdr allStreams (pure .next) s

/-- The frames left when a loop begins on lcN: a frame of N goes, with every frame made after it (R191). -/
def dropLoop (n : LcReg) (fs : List Frame) : List Frame :=
  if fs.any (fun f => f.n == n) then (fs.dropWhile fun f => f.n != n).tail else fs

/-- The trip count: zext(sA[47:0]) (R190). -/
def tripCount (a : Word) : Nat := fld a 47 0

/-- LOOP (R191). -/
def execLoop (h : Hdr) (n : LcReg) (a : SReg) (imm : Imm) (s : State) : Host.Outcome State Fault Refusal :=
  runInstr h allStreams (do
    let s ← get
    let trip := tripCount (s.getS a)
    let stop := s.relTarget imm
    let fs := dropLoop n s.str.frames
    if trip = 0 then
      set (s.modStr fun t => { t with frames := fs })
      pure (.loopTo stop)
    else
      set (s.modStr fun t =>
        { (t.setLc n (BitVec.ofNat 64 trip)) with frames := ⟨s.returnAddr h, stop, n, none⟩ :: fs })
      pure .next) s

/-- LOOPP (R191), with S = stages + 1. -/
def execLoopp (h : Hdr) (n : LcReg) (a : SReg) (stages : BitVec 3) (imm : Imm) (s : State) :
    Host.Outcome State Fault Refusal :=
  runInstr h allStreams (do
    let s ← get
    let trip := tripCount (s.getS a)
    let sn := stages.toNat + 1
    let stop := s.relTarget imm
    let fs := dropLoop n s.str.frames
    if trip = 0 then
      set (s.modStr fun t => { (clearStages t) with frames := fs })
      pure (.loopTo stop)
    else
      set (s.modStr fun t =>
        { (setStages (t.setLc n (BitVec.ofNat 64 (trip + sn - 1))) trip sn 0) with
          frames := ⟨s.returnAddr h, stop, n, some ⟨trip, sn, 0⟩⟩ :: fs })
      pure .next) s

end Sys2Proof.Machine
end

