-- ==== Sys2Proof/Machine/Special.lean ====
section
/-! DEFINITION. The special functions of port programs, correctly rounded to FP32 (R302): enough digits are computed in
whole numbers, and a value that is not exact is marked by a low bit before it is rounded. -/

namespace Sys2Proof.Machine

/-- Digits kept below the binary point. -/
def spP : Nat := 200
/-- floor(ln 2 × 2^200). -/
def ln2Fix : Nat := 1113844574712631719546256151097547306333272293549090750737802

/-- Rounds a value strictly between q and q + 1, times 2^e, or exactly q when `exact`. -/
def rndSticky (s exact : Bool) (q : Nat) (e : Int) : Lane := rnd32 (.fin s (2 * q + if exact then 0 else 1) (e - 1))

/-- Sum of the terms of exp x from x^k/k!, the term given: fuel terms. -/
def expTerms : Nat → Nat → Nat → Nat → Nat → Nat
  | 0, _, _, _, acc => acc
  | n + 1, k, x, term, acc => let t := term * x / 2 ^ spP / k; expTerms n (k + 1) x t (acc + t)

/-- exp x for x from 0 to ln 2, in units of 2^-200. -/
def expFix (x : Nat) : Nat := expTerms 60 1 x (2 ^ spP) (2 ^ spP)

/-- The integer floor and the fraction in units of 2^-200 of m × 2^e with a sign; magnitudes below 2^-200 do not occur. -/
def splitFix (s : Bool) (m : Nat) (e : Int) : Int × Nat :=
  let v := signedAt s (shl m (e + spP)) 0 0
  (v / 2 ^ spP, (v % 2 ^ spP).toNat)

/-- 2^a. -/
def exp2f (a : Lane) : Lane :=
  match dec32 a with
  | .nan => nan32
  | .inf s => if s then 0 else 0x7F80_0000
  | .fin s m e =>
    if m = 0 then 0x3F80_0000
    else if 10 ≤ log2Of m e then (if s then 0 else 0x7F80_0000)
    else
      let (n, f) := splitFix s m e
      if f = 0 then rnd32 (.fin false 1 n)
      else rndSticky false false (expFix (f * ln2Fix / 2 ^ spP)) (n - spP)

/-- Binary digits of log2 of x, 1 ≤ x < 2 in units of 2^-255, by squaring. -/
def log2Bits : Nat → Nat → Nat → Nat
  | 0, _, acc => acc
  | n + 1, x, acc =>
    let y := x * x / 2 ^ 255
    if 2 ^ 256 ≤ y then log2Bits n (y / 2) (2 * acc + 1) else log2Bits n y (2 * acc)

/-- log2 a. -/
def log2f (a : Lane) : Lane :=
  match dec32 a with
  | .nan => nan32
  | .inf s => if s then nan32 else 0x7F80_0000
  | .fin s m e =>
    if m = 0 then 0xFF80_0000
    else if s then nan32
    else
      let k := log2Of m e
      if m = 2 ^ m.log2 then rnd32 (Fp.ofInt k)
      else
        let v : Int := k * 2 ^ 110 + (log2Bits 110 (m * 2 ^ (255 - m.log2)) 0 : Nat)
        if 0 ≤ v then rndSticky false false v.toNat (-110) else rndSticky true false (-v - 1).toNat (-110)

/-- 1 / a. -/
def rcpf (a : Lane) : Lane :=
  match dec32 a with
  | .nan => nan32
  | .inf s => signed32 s 0
  | .fin s m e =>
    if m = 0 then signed32 s 0x7F80_0000
    else
      let k := m.log2 + 70
      rndSticky s (decide (2 ^ k % m = 0)) (2 ^ k / m) (-e - k)

/-- The integer square root, bit by bit from bit n - 1. -/
def isqrtGo (x : Nat) : Nat → Nat → Nat
  | 0, r => r
  | n + 1, r => let c := r + 2 ^ n; isqrtGo x n (if c * c ≤ x then c else r)

/-- 1 / √a. -/
def rsqf (a : Lane) : Lane :=
  match dec32 a with
  | .nan => nan32
  | .inf s => if s then nan32 else 0
  | .fin s m e =>
    if m = 0 then signed32 s 0x7F80_0000
    else if s then nan32
    else
      let (m, e) := if e % 2 = 0 then (m, e) else (2 * m, e - 1)
      let q := isqrtGo (2 ^ 160 / m) 81 0
      rndSticky false (decide (q * q * m = 2 ^ 160)) q (-(e / 2) - 80)

/-- tanh a: a itself below 2^-12, 1 from 32 up, else (1 - t) / (1 + t) with t = exp(-2 |a|). -/
def tanhf (a : Lane) : Lane :=
  match dec32 a with
  | .nan => nan32
  | .inf s => signed32 s 0x3F80_0000
  | .fin s m e =>
    if m = 0 || log2Of m e < -12 then a
    else if 5 ≤ log2Of m e then signed32 s 0x3F80_0000
    else
      let x := shl m (e + 1 + spP)
      let n := x / ln2Fix
      let t := 2 ^ (2 * spP) / expFix (x % ln2Fix) / 2 ^ n
      rndSticky s false ((2 ^ spP - t) * 2 ^ 80 / (2 ^ spP + t)) (-80)

end Sys2Proof.Machine
end

