-- ==== Sys2Proof/Machine/Port.lean ====
section
/-! DEFINITION. Port programs (chapter 12): images and their checks (R292 to R295, R309), class and cost (R305, R307), and
the evaluation of one block on one element (R296 to R304). -/

namespace Sys2Proof.Machine

/-! ## Images (R292, R294) -/

/-- One dataflow instruction: its word index, operation, target codes, field, and the literal of a CONST. -/
structure Dfi where
  w   : Nat
  opc : Nat
  tg  : List Nat
  fld : Nat
  lit : Lane
  deriving DecidableEq, Repr, Inhabited

def h0Blocks (h : Nat) : Nat := fldN h 31 29 + 1
def h0Lag (h : Nat) : Nat := fldN h 28 25
def h0Xfill (h : Nat) : Nat := fldN h 24 23
def h0Wfill (h : Nat) : Nat := fldN h 22 21
def h0Argk (h : Nat) : Nat := fldN h 20 18
def h0Argv (h : Nat) : Nat := fldN h 17 9

def opcConst : Nat := 0x25
def opcExit : Nat := 0x2B
def opcEmit : Nat := 0x2C

/-- The instruction at word w. -/
def dfiAt (ws : List Nat) (w : Nat) : Dfi :=
  let x := ws.getD w 0
  ⟨w, fldN x 31 26, [fldN x 25 20, fldN x 19 14, fldN x 13 8], fldN x 7 0, BitVec.ofNat 32 (ws.getD (w + 1) 0)⟩

/-- n instructions from word w on, and the word after them. -/
def takeIns (ws : List Nat) : Nat → Nat → List Dfi × Nat
  | 0, w => ([], w)
  | n + 1, w =>
    let d := dfiAt ws w
    let (r, e) := takeIns ws n (w + if d.opc = opcConst then 2 else 1)
    (d :: r, e)

/-- Blocks b onward, n of them, from word w on. -/
def takeBlocks (ws : List Nat) (h1 : Nat) : Nat → Nat → Nat → List (List Dfi) × Nat
  | 0, _, w => ([], w)
  | n + 1, b, w =>
    let (blk, w') := takeIns ws (fldN h1 (4 * b + 3) (4 * b) + 1) w
    let (r, e) := takeBlocks ws h1 n (b + 1) w'
    (blk :: r, e)

/-- A program as read from its words: H0, its blocks, and the number of words they take. -/
structure Prog where
  h0     : Nat
  blocks : List (List Dfi)
  nw     : Nat
  deriving DecidableEq, Repr, Inhabited

/-- Reads headers and words; ws are the dataflow words. -/
def progOf (h0 h1 : Nat) (ws : List Nat) : Prog :=
  let (bs, e) := takeBlocks ws h1 (h0Blocks h0) 0 0
  ⟨h0, bs, e⟩

/-- The program of a slot's image (headers first). -/
def slotProg (s : PortSlot) : Prog :=
  let ws := s.image.map BitVec.toNat
  progOf (ws.getD 0 0) (ws.getD 1 0) (ws.drop 2)

/-- Every instruction with its block number and its index in the block. -/
def Prog.all (p : Prog) : List (Nat × Nat × Dfi) :=
  (p.blocks.zipIdx.map fun (b, bi) => b.zipIdx.map fun (d, i) => (bi, i, d)).flatten

/-- Operand positions of an operation (R302). -/
def opcPos (o : Nat) : Nat :=
  if o = 0x03 || o = 0x09 || o = 0x12 then 3
  else if o ≤ 0x02 || o = 0x04 || o = 0x05 || o = 0x08 || o = 0x10 || o = 0x11 || (0x14 ≤ o && o ≤ 0x1E) || o = opcEmit then 2
  else if 0x21 ≤ o && o ≤ 0x28 then 0
  else 1

/-- Cost of an operation (R302). -/
def opcCost (o : Nat) : Nat :=
  if 0x0A ≤ o && o ≤ 0x0E then 4 else if 0x21 ≤ o && o ≤ 0x27 then 0 else if o = opcExit || o = opcEmit then 0 else 1

/-- The predicate position of an exit (R295). -/
def predPos (o : Nat) : Option Nat := if o = opcExit then some 0 else if o = opcEmit then some 1 else none

/-- The field of an operation keeps R294 and R303. -/
def fieldOk (o f : Nat) : Bool :=
  if o = 0x0F || o = 0x10 then f < 64 && fldN f 4 3 != 3
  else if o = 0x1F then f < 16 && fldN f 2 1 != 3
  else if o = 0x20 then f < 8 && fldN f 2 1 != 3
  else if o = 0x08 then f < 7
  else if o = 0x1E then f < 6
  else if 0x1B ≤ o && o ≤ 0x1D then f < 2
  else if o = 0x27 then f < 11
  else if o = 0x26 || (0x28 ≤ o && o ≤ 0x2B) then f < 8
  else f = 0

/-! ## The checks of PLOAD (R295, R309) -/

/-- Non-zero targets of an instruction as (index, position). -/
def Dfi.targets (d : Dfi) : List (Nat × Nat) := (d.tg.filter (· != 0)).map fun t => (t / 4, t % 4)

/-- How often operand position q of instruction i is fed in a block. -/
def fedCount (blk : List Dfi) (i q : Nat) : Nat :=
  ((blk.map fun d => (d.targets.filter (· == (i, q))).length)).foldl (· + ·) 0

def predFed (blk : List Dfi) (i : Nat) (d : Dfi) : Bool :=
  match predPos d.opc with
  | some q => fedCount blk i q != 0
  | none => false

/-- Carried word named by a CST or AMAX. -/
def Dfi.carried (d : Dfi) : Option Nat := if d.opc = 0x29 || d.opc = 0x2A then some d.fld else none

/-- A header breaks R292. -/
def headerBad (h0 h1 : Nat) : Bool :=
  8 < h0Lag h0 || 4 < h0Argk h0 || fldN h0 8 0 != 0 || (h0Argv h0 != 0 && h0Argk h0 != 2 && h0Argk h0 != 3) ||
  h1 >>> (4 * h0Blocks h0) != 0

/-- The first rule that an image breaks: its code and word index (R309); none when it is accepted. -/
def imageBreach (h0 h1 : Nat) (ws : List Nat) : Option (Nat × Nat) :=
  let p := progOf h0 h1 ws
  let ins := p.all
  let blk := fun b => p.blocks.getD b []
  let word := fun (code : Nat) (c : Nat × Nat × Dfi → Bool) => (ins.find? c).map fun x => (code, x.2.2.w)
  if headerBad h0 h1 then some (0x10, 0xFF)
  else
    ((ins.find? fun x => 64 ≤ x.2.2.w || (x.2.2.opc == opcConst && 64 ≤ x.2.2.w + 1)).map
      fun x => (0x11, Nat.min x.2.2.w 64)) <|>
    word 0x12 (fun x => 0x2C < x.2.2.opc || x.2.2.tg.any (fun t => t % 4 == 3) || !fieldOk x.2.2.opc x.2.2.fld) <|>
    word 0x13 (fun (b, i, d) =>
      (!d.targets.isEmpty && (d.opc == 0x29 || d.opc == opcExit || d.opc == opcEmit)) ||
      d.targets.any fun t => t.1 ≤ i || (blk b).length ≤ t.1 || opcPos ((blk b).getD t.1 default).opc ≤ t.2) <|>
    word 0x14 (fun (b, i, d) =>
      (List.range (opcPos d.opc)).any fun q =>
        let n := fedCount (blk b) i q
        1 < n || (n == 0 && predPos d.opc != some q)) <|>
    (ins.find? fun (b, i, d) =>
      (d.opc == opcExit && !(b < d.fld && d.fld < p.blocks.length)) ||
      (i + 1 == (blk b).length && ((predPos d.opc).isNone || predFed (blk b) i d))).map
        (fun (_, _, d) => (0x15, d.w + if d.opc == opcConst then 1 else 0)) <|>
    word 0x16 (fun x => x.2.2.opc == 0x22 && h0Argk h0 == 0) <|>
    word 0x17 (fun (b, i, d) => d.carried.isSome && ((blk b).take i).any fun e => e.carried == d.carried)

/-! ## Class and cost (R305, R307, R312) -/

/-- The operands of instruction i come from the instructions of this set, position by position. -/
def fedBy (blk : List Dfi) (ds : List Nat) (i q : Nat) : Bool :=
  blk.zipIdx.any fun (d, j) => ds.contains j && d.targets.contains (i, q)

/-- Walks the block forward collecting D; none when an instruction breaks the third condition of R305. -/
def linearGo (blk : List Dfi) (argk : Nat) : List (Dfi × Nat) → List Nat → Bool
  | [], _ => false
  | (d, i) :: r, ds =>
    let a := fedBy blk ds i 0
    let b := fedBy blk ds i 1
    let c := fedBy blk ds i 2
    if d.opc = opcEmit then a
    else if d.opc = 0x21 || (d.opc = 0x22 && argk = 1) then linearGo blk argk r (i :: ds)
    else if !(a || b || c) then linearGo blk argk r ds
    else if d.opc = 0x07 || ((d.opc = 0x00 || d.opc = 0x01) && a && b) || (d.opc = 0x02 && a != b) ||
        (d.opc = 0x03 && a != b && c) then linearGo blk argk r (i :: ds)
    else false

/-- PLOAD's class (R305). -/
def Prog.isLinear (p : Prog) : Bool :=
  match p.blocks with
  | [blk] =>
    h0Lag p.h0 == 0 &&
    !(blk.any fun d => d.opc == opcExit || (0x28 ≤ d.opc && d.opc ≤ 0x2A) || d.opc == 0x26 || d.opc == 0x27 || d.opc == 0x10) &&
    (blk.filter fun d => d.opc == opcEmit).length == 1 && linearGo blk (h0Argk p.h0) blk.zipIdx []
  | _ => false

/-- Largest cost of a path from block b to an EMIT, n blocks from the last one known. -/
def costFrom (p : Prog) : Nat → List Nat
  | 0 => []
  | n + 1 =>
    let later := costFrom p n
    let b := p.blocks.length - (n + 1)
    let blk := p.blocks.getD b []
    let own := (blk.map fun d => opcCost d.opc).foldl (· + ·) 0
    let next := blk.map fun d => if d.opc = opcExit then later.getD (d.fld - b - 1) 0 else 0
    (own + next.foldl Nat.max 0) :: later

/-- n of R307. -/
def Prog.cost (p : Prog) : Nat := (costFrom p p.blocks.length).headD 0

/-- STATE of PINFO (R312). -/
def Prog.hasState (p : Prog) : Bool :=
  h0Lag p.h0 != 0 ||
  p.all.any fun x => (0x28 ≤ x.2.2.opc && x.2.2.opc ≤ 0x2A) || x.2.2.opc == 0x26 || x.2.2.opc == 0x10

/-- The program uses WIN. -/
def Prog.usesWin (p : Prog) : Bool := p.all.any fun x => x.2.2.opc == 0x26
/-- Rows enter the window of the slot (R299, R300; L18). -/
def Prog.keepsWindow (p : Prog) : Bool := p.usesWin || h0Lag p.h0 != 0

/-! ## Conversions of programs (R303, R304) -/

/-- The FP32 pattern that a conversion to a grid gives, and whether the value lies beyond it (R242, R244). -/
def gridConv (g : Nat) (mode : Rnd) (x : Fp) : Lane × Bool :=
  if g < 5 then
    let f := if g = 0 then fp16F else if g = 1 then bf16F else if g = 2 then e4m3F else if g = 3 then e5m2F else e2m1F
    let c := f.conv mode 0 x
    (rnd32 (f.dec c.code), c.bad)
  else
    let t := if g = 5 then 0 else if g = 6 then 2 else 3
    let top := fun (s : Bool) => if t = 0 then (if s then 8 else 7) else emMax t
    match x with
    | .nan => (0, true)
    | .inf s => (rnd32 (.fin s (top s) 0), true)
    | .fin s m e =>
      let i := roundIdx (emGrid t) mode 0 m e
      let (m', e') := gridValue (emGrid t) i
      let bad := (Fp.fin false (top s) 0).lt (.fin false m' e')
      if bad then (rnd32 (.fin s (top s) 0), true) else (rnd32 (.fin (s && !(t == 0 && m' == 0)) m' e'), false)

/-- The exponent of QNT and DQ; beyond ±1000 the result is that of ±1000. -/
def dfExp (b : Lane) : Int := max (-1000) (min 1000 b.toInt)

/-- Comparisons of FCMP (R303). -/
def fcmp (f : Nat) (a b : Lane) : Bool :=
  let x := dec32 a
  let y := dec32 b
  let un := x.isNan || y.isNan
  let lt := x.lt y
  let gt := y.lt x
  match f with
  | 0 => !un && !lt && !gt
  | 1 => un || lt || gt
  | 2 => lt
  | 3 => !un && !gt
  | 4 => gt
  | 5 => !un && !lt
  | _ => un

/-- Comparisons of ICMP (R303). -/
def icmp (f : Nat) (a b : Lane) : Bool :=
  match f with
  | 0 => a == b
  | 1 => a != b
  | 2 => a.slt b
  | 3 => !a.slt b
  | 4 => a.ult b
  | _ => !a.ult b

def bool32 (b : Bool) : Lane := if b then 1 else 0

/-- EXPO (R302). -/
def expo (a : Lane) : Lane :=
  match dec32 a with
  | .nan | .inf _ => 0x7FFF_FFFF
  | .fin _ m e => if m = 0 then 0x8000_0000 else BitVec.ofInt 32 (log2Of m e)

/-- NaN replaced by the output NaN (R235). -/
def orNan (a r : Lane) : Lane := if laneIsNan a then nan32 else r
where
  laneIsNan (a : Lane) : Bool := (dec32 a).isNan

/-- The operations without a port input, a conversion or state (R302). -/
def pureOp (o f : Nat) (a b c : Lane) : Lane :=
  let x := dec32 a
  let y := dec32 b
  let z := dec32 c
  match o with
  | 0x00 => add32 a b
  | 0x01 => sub32 a b
  | 0x02 => mul32 a b
  | 0x03 => rnd32 ((x.mul y).add z)
  | 0x04 => min32 a b
  | 0x05 => max32 a b
  | 0x06 => orNan a (a &&& 0x7FFF_FFFF)
  | 0x07 => orNan a (a ^^^ 0x8000_0000)
  | 0x08 => bool32 (fcmp f a b)
  | 0x09 => if c = 0 then b else a
  | 0x0A => exp2f a
  | 0x0B => log2f a
  | 0x0C => rcpf a
  | 0x0D => rsqf a
  | 0x0E => tanhf a
  | 0x11 => rnd32 (x.scale (dfExp b))
  | 0x12 => min32 (max32 a b) c
  | 0x13 => expo a
  | 0x14 => a + b
  | 0x15 => a - b
  | 0x16 => a * b
  | 0x17 => a &&& b
  | 0x18 => a ||| b
  | 0x19 => a ^^^ b
  | 0x1A => a <<< (b.toNat % 32)
  | 0x1B => if f = 1 then a.sshiftRight (b.toNat % 32) else a >>> (b.toNat % 32)
  | 0x1C => if (if f = 1 then b.ult a else b.slt a) then b else a
  | 0x1D => if (if f = 1 then a.ult b else a.slt b) then b else a
  | 0x1E => bool32 (icmp f a b)
  | 0x20 =>
    let v : Int := if f % 2 = 1 then a.toNat else a.toInt
    BitVec.ofNat 32 (fp32F.conv (rndOf (fldN f 2 1)) 0 (Fp.ofInt v)).code
  | _ => 0

/-! ## One block on one element (R296 to R301) -/

/-- What a program sees of its element: ELEM, the row it lies in, its coordinates, ARG, and the lane's state. -/
structure PEnv where
  elem   : Lane
  row    : List Lane
  /-- The row is one of the L rows after the last (R300). -/
  fill   : Bool
  col    : Nat
  rowi   : Nat
  arg    : Lane
  carry  : List Lane
  win    : List Lane
  wdepth : Nat
  /-- Conversions that would fault saturate (R317). -/
  sat    : Bool
  deriving DecidableEq, Repr, Inhabited

/-- A fill value of R292; the clamp code is the caller's. -/
def fillValue (code : Nat) : Lane := if code = 2 then 0xFF80_0000 else if code = 3 then 0x7F80_0000 else 0

/-- The column that XL with field f names beside column c (R298). -/
def xlCol (c f : Nat) : Int := if f < 4 then (c : Int) + f + 1 else if f < 8 then (c : Int) - (f - 3) else ((c ^^^ 2 ^ (f - 8) : Nat) : Int)

/-- Columns of a row of n that the XL instructions of a program may take beside column c; with the clamp code, the outermost
ones for those beyond the row (R298). -/
def Prog.xlCols (p : Prog) (n c : Nat) : List Nat :=
  p.all.filterMap fun x =>
    if x.2.2.opc = 0x27 then
      let k := xlCol c x.2.2.fld
      if 0 ≤ k && k < n then some k.toNat
      else if h0Xfill p.h0 = 1 then some (if k < 0 then 0 else n - 1) else none
    else none

/-- XL (R298, R300). -/
def xlValue (p : Prog) (v : PEnv) (f : Nat) : Lane :=
  if v.fill && h0Wfill p.h0 != 1 then fillValue (h0Wfill p.h0)
  else
    let n : Int := v.row.length
    let c' : Int := xlCol v.col f
    if 0 ≤ c' && c' < n then v.row.getD c'.toNat 0
    else if h0Xfill p.h0 = 1 then v.row.getD (if c' < 0 then 0 else v.row.length - 1) 0
    else fillValue (h0Xfill p.h0)

/-- WIN d, d = f + 1 (R299). -/
def winValue (p : Prog) (v : PEnv) (f : Nat) : Lane :=
  if f < v.wdepth then v.win.getD f 0
  else if h0Wfill p.h0 = 1 then (if v.wdepth = 0 then v.elem else v.win.getD (v.wdepth - 1) 0)
  else fillValue (h0Wfill p.h0)

/-- A conversion in a program that faults (R314, R316): word index, KIND, VALUE, QB. -/
structure PStop where
  w     : Nat
  kind  : Nat
  value : Lane
  qb    : Lane
  deriving DecidableEq, Repr, Inhabited

/-- A block in evaluation: operands fed so far at 4 × index + position, and the writes it would commit. -/
structure BlockRun where
  feeds  : List (Nat × Lane)
  writes : List (Nat × Lane)
  satn   : Nat
  flun   : Nat
  deriving DecidableEq, Repr, Inhabited

def BlockRun.opd (r : BlockRun) (i q : Nat) : Lane := ((r.feeds.find? fun x => x.1 == 4 * i + q).map fun x => x.2).getD 0

/-- CVT, QNT and F2I: the result, whether it was beyond, and QNT's counts (R304, R353). -/
def convOp (v : PEnv) (d : Dfi) (a b : Lane) : Except PStop (Lane × Nat × Nat) :=
  let stop := fun (kind : Nat) (qb : Lane) => Except.error ⟨d.w, kind, a, qb⟩
  if d.opc = 0x1F then
    let c := intConv (d.fld % 2 == 0) 32 (rndOf (fldN d.fld 2 1)) 0 (dec32 a)
    if c.bad && bitN d.fld 3 && !v.sat then stop 2 0 else .ok (BitVec.ofNat 32 c.code, 0, 0)
  else
    let x := if d.opc = 0x10 then (dec32 a).scale (-(dfExp b)) else dec32 a
    let (r, bad) := gridConv (d.fld % 8) (rndOf (fldN d.fld 4 3)) x
    if bad && bitN d.fld 5 && !v.sat then stop (if d.opc = 0x10 then 1 else 0) (if d.opc = 0x10 then b else 0)
    else if d.opc = 0x10 then
      .ok (r, if bad && !(dec32 a).isNan then 1 else 0, if (dec32 a).isNum && r &&& 0x7FFF_FFFF = 0 then 1 else 0)
    else .ok (r, 0, 0)

/-- Evaluates one instruction of a block: its result goes to its targets. -/
def evalIns (p : Prog) (v : PEnv) (r : BlockRun) (d : Dfi) (i : Nat) : Except PStop BlockRun :=
  let a := r.opd i 0
  let b := r.opd i 1
  let c := r.opd i 2
  let give := fun (r : BlockRun) (x : Lane) =>
    { r with feeds := r.feeds ++ d.targets.map fun t => (4 * t.1 + t.2, x) }
  match d.opc with
  | 0x0F | 0x10 | 0x1F => (convOp v d a b).map fun (x, s, f) => give { r with satn := r.satn + s, flun := r.flun + f } x
  | 0x21 => .ok (give r v.elem)
  | 0x22 => .ok (give r v.arg)
  | 0x23 => .ok (give r (BitVec.ofNat 32 (v.col % 64)))
  | 0x24 => .ok (give r (BitVec.ofNat 32 v.rowi))
  | 0x25 => .ok (give r d.lit)
  | 0x26 => .ok (give r (winValue p v d.fld))
  | 0x27 => .ok (give r (xlValue p v d.fld))
  | 0x28 => .ok (give r (v.carry.getD d.fld 0))
  | 0x29 => .ok { r with writes := r.writes ++ [(d.fld, a)] }
  | 0x2A =>
    let m := max32 (v.carry.getD d.fld 0) (orNan a (a &&& 0x7FFF_FFFF))
    .ok (give { r with writes := r.writes ++ [(d.fld, m)] } m)
  | 0x2B | 0x2C => .ok r
  | o => .ok (give r (pureOp o d.fld a b c))

/-- Evaluates a block. -/
def evalBlock (p : Prog) (v : PEnv) (blk : List Dfi) : Except PStop BlockRun :=
  blk.zipIdx.foldlM (fun r x => evalIns p v r x.1 x.2) ⟨[], [], 0, 0⟩

/-- The exit that fires (R296): the output of an EMIT, or the block that an EXIT names. -/
def exitOf (blk : List Dfi) (r : BlockRun) : Sum Lane Nat :=
  match blk.zipIdx.find? fun (d, i) =>
    match predPos d.opc with
    | some q => fedCount blk i q == 0 || r.opd i q != 0
    | none => false with
  | some (d, i) => if d.opc = opcEmit then .inl (r.opd i 0) else .inr d.fld
  | none => .inl 0

/-! ## Slots of a job, and the keys of bindings -/

/-- Slot n of a job. -/
def Job.slotAt (j : Job) (n : Nat) : PortSlot := vget .empty j.slots n

/-- The window register of ARGV, plus 1; 0 when the program has none (R293). -/
def Job.argvOf (j : Job) (n : Nat) : Nat :=
  if n = 0 then 0
  else
    let h0 := ((j.slotAt n).image.headD 0).toNat
    if h0Argk h0 = 2 || h0Argk h0 = 3 then ((j.resolve true (h0Argv h0)).map fun i => i + 1).getD 0 else 0

/-- Register and slot keys of bindings (R111, R293). -/
def Job.portKeys (j : Job) (slots : List Nat) (k : Keys) : Keys :=
  let bound := slots.filter (· != 0)
  { k with pr := k.pr ++ bound, vr := k.vr ++ ((bound.map j.argvOf).filter (· != 0)).map (· - 1) }

end Sys2Proof.Machine
end

