-- ==== Sys2Proof/Machine/Template.lean ====
section
/-! DEFINITION. Copy templates (R367 to R375): their fields, the checks of R381, and the bytes a copy may touch (R111). -/

namespace Sys2Proof.Machine

def tCtl (t : List Word) : Word := t.getD 0 0
def tKind (t : List Word) : Nat := fld (tCtl t) 63 60
def tSfmt (t : List Word) : Nat := fld (tCtl t) 59 54
def tDfmt (t : List Word) : Nat := fld (tCtl t) 53 48
def tRnd (t : List Word) : Nat := fld (tCtl t) 47 46
def tOvf (t : List Word) : Bool := bit (tCtl t) 45
def tPol (t : List Word) : Bool := bit (tCtl t) 44
def tRed (t : List Word) : Nat := fld (tCtl t) 43 42
def tPack (t : List Word) : Nat := fld (tCtl t) 41 40
/-- w: packing element width in bytes. -/
def tPw (t : List Word) : Nat := 2 ^ fld (tCtl t) 39 38
/-- B: packing block size. -/
def tPb (t : List Word) : Nat := 512 * 2 ^ fld (tCtl t) 37 36
/-- P: padded size. -/
def tPp (t : List Word) : Nat := 64 * fld (tCtl t) 35 29
def tPsin (t : List Word) : Nat := fld (tCtl t) 28 24
def tPsout (t : List Word) : Nat := fld (tCtl t) 23 19
def tSev (t : List Word) : Nat := fld (tCtl t) 18 16
def tDev (t : List Word) : Nat := fld (tCtl t) 15 13
def tCode (t : List Word) : Bool := bit (tCtl t) 12
def tVch (t : List Word) : Nat := fld (tCtl t) 11 10
def tDrule (t : List Word) : Nat := fld (tCtl t) 9 8
def tDsh (t : List Word) : Nat := fld (tCtl t) 7 4
def tW (t : List Word) (i : Nat) : Word := t.getD i 0
/-- Extent of dimension d (R367, word 3). -/
def tE (t : List Word) (d : Nat) : Nat := fld (tW t 3) (16 * d + 15) (16 * d) + 1
/-- Signed 32-bit strides S1 to S3 and D1 to D3 (words 4 to 6). -/
def tS (t : List Word) (d : Nat) : Int := (BitVec.ofNat 32 (fld (tW t (3 + d)) 31 0)).toInt
def tD (t : List Word) (d : Nat) : Int := (BitVec.ofNat 32 (fld (tW t (3 + d)) 63 32)).toInt
/-- Index width in bytes of a gather or scatter. -/
def tIw (t : List Word) : Nat := 2 * 2 ^ fld (tW t 6) 1 0
/-- Compressed-row walk: FIRST, the number of rows, NNZ (word 3). -/
def tFirst (t : List Word) : Nat := fld (tW t 3) 31 0
def tRows (t : List Word) : Nat := fld (tW t 3) 43 32 + 1
def tNnz (t : List Word) : Nat := fld (tW t 3) 63 44
/-- Relocation: LEN and NREC (word 3). -/
def tLen (t : List Word) : Nat := fld (tW t 3) 31 0
def tNrec (t : List Word) : Nat := fld (tW t 3) 63 32
/-- The completion word (R370). -/
def tFen (t : List Word) : Bool := bit (tW t 7) 63
def tFop (t : List Word) : Bool := bit (tW t 7) 59
def tSemen (t : List Word) : Bool := bit (tW t 7) 58
def tFaddr (t : List Word) : Nat := fld (tW t 7) 56 6 * 64
def tSemn (t : List Word) : Nat := fld (tW t 7) 5 2
def tScnt (t : List Word) : Nat := fld (tW t 7) 1 0 + 1

/-- Element sizes of a side; 1 for raw bytes (R368), 0 for four-bit formats. -/
def sideSize (f : Nat) : Nat := if f = 0 then 1 else fmtSize f

/-- SRC′ and DST′ (R369). -/
def tBases (t : List Word) (cmd : Word) : Nat × Nat :=
  let d := fld cmd 63 12
  let sh := fun (v : Word) => (v <<< tDsh t).toNat
  let whole := sh (sextN 52 d)
  let low := sh (BitVec.ofNat 64 (d % 2 ^ 26))
  let high := sh (BitVec.ofNat 64 (d / 2 ^ 26))
  let s := (tW t 1).toNat
  let e := (tW t 2).toNat
  match tDrule t with
  | 0 => (s, e)
  | 1 => ((s + whole) % 2 ^ 64, (e + whole) % 2 ^ 64)
  | 2 => ((s + low) % 2 ^ 64, (e + high) % 2 ^ 64)
  | _ => (s, (e + whole) % 2 ^ 64)

/-- Data elements of a copy of the kinds of R371 and R372. -/
def tCount (t : List Word) : Nat :=
  match tKind t with
  | 0 | 2 => tE t 0 * tE t 1 * tE t 2 * tE t 3
  | _ => tE t 0 * tE t 1

/-- Mask bytes of a packed block (R64). -/
def tMask (t : List Word) : Nat := tPb t / tPw t / 8

/-- The first breach of R367 to R375 as a byte offset in the template; chan is the channel, 4 for an inbound command, and
chans the job's CHAN (R381). -/
def templateBreach (t : List Word) (cmd : Word) (chan chans : Nat) : Option Nat :=
  let k := tKind t
  let sf := tSfmt t
  let df := tDfmt t
  let pk := tPack t
  let (src, dst) := tBases t cmd
  let blk := fmtBlock sf || fmtBlock df
  let walk := k = 5
  let gs := k = 3 || k = 4
  let zero := fun (w : Word) => w == 0
  let checks : List (Bool × Nat) := [
    (7 ≤ k, 7),
    (sf != 0 && !fmtListed sf, 6),
    (df != 0 && !fmtListed df, 6),
    ((sf == 0) != (df == 0), 6),
    ((sf == 0x1A) != (df == 0x1A), 6),
    (blk && (k != 0 || pk != 0 || tCount t % 32 != 0), 6),
    (walk && !(fmtInt sf || fmtFloat sf), 6),
    (walk && !(fmtInt df || fmtFloat df), 6),
    (k == 6 && sf != 0, 6),
    (tRed t != 0 && (4 < k || pk != 0 || !(df == 0x10 || (5 ≤ df && df ≤ 8))), 5),
    (pk == 3 || (pk != 0 && (k != 0 || sf != 0)), 5),
    (pk != 0 && fld (tCtl t) 39 38 == 3, 4),
    (pk == 0 && fld (tCtl t) 39 29 != 0, 4),
    (pk != 0 && (tPp t < tMask t || tPb t + tMask t < tPp t || tPp t == 0), 3),
    (tPsin t != 0 && (4 < k || pk != 0 || !(fmtFloat sf || fmtBlock sf)), 3),
    (tPsout t != 0 && (4 < k || pk != 0 || !(fmtFloat df || fmtBlock df)), 2),
    (k != 6 && tCode t, 1),
    (if walk then chan < 4 && (tVch t == chan || chans ≤ tVch t) else tVch t != 0, 1),
    (fld (tCtl t) 3 0 != 0, 0),
    (k == 6 && src % 8 != 0, 8),
    (k == 6 && dst % 8 != 0, 16),
    ((k == 1 || gs) && fld (tW t 3) 63 32 != 0, 28),
    (pk != 0 && fld (tW t 3) 63 16 != 0, 26),
    (k == 0 && !(if fmtBlock sf then true else if pk == 2 then fld (tW t 4) 63 32 == 0 else zero (tW t 4)), 32),
    (k == 6 && (tW t 4).toNat % 8 != 0, 32),
    (k == 0 && !(fmtBlock df || zero (tW t 5)), 40),
    (k == 1 && !zero (tW t 5), 40),
    ((k == 0 || k == 1 || k == 6) && !zero (tW t 6), 48),
    (gs && (3 ≤ (tW t 6).toNat), 48),
    (bit (tW t 7) 57, 63),
    (fld (tW t 7) 62 60 == 7, 63)]
  (checks.find? fun c => c.1).map fun c => c.2

/-- The template is read and keeps every rule (R381). -/
def templateOk (t : List Word) (cmd : Word) (chan chans : Nat) : Bool :=
  !t.isEmpty && (templateBreach t cmd chan chans).isNone

/-! ## The bytes a copy may touch (R111) -/

/-- Window blocks within an address box; a box that may wrap counts as the whole window. -/
def boxKey (window : Nat) (b : Nat × Nat) : List Range :=
  if 2 ^ 64 ≤ b.2 then [(0, window)]
  else
    let lo := Nat.max b.1 scratchLo
    let hi := Nat.min b.2 (scratchLo + window)
    if lo < hi then [blockRun (lo - scratchLo) (hi - scratchLo)] else []
where
  scratchLo : Nat := 0x01FF_FFFF_0000_0000
  blockRun (lo hi : Nat) : Range := (lo / 64 * 64, (hi + 63) / 64 * 64)

/-- Keys of a copy from its template: what it may read, and what it may write. A copy whose template is not read, or is
broken, covers the whole window (R111). -/
def copyKeys (t : List Word) (cmd : Word) (chan chans window : Nat) : Keys :=
  if !templateOk t cmd chan chans then { Keys.none with sr := [(0, window)], sw := [(0, window)] }
  else
    let (src, dst) := tBases t cmd
    let ss := sideSize (tSfmt t)
    let ds := sideSize (tDfmt t)
    let n := tCount t
    let bytes := fun (f size : Nat) => if fmtFour f then n / 2 else n * size
    let key := boxKey window
    let e := fun d => ((tE t d - 1 : Nat) : Int)
    let rw := fun (r w : List Range) =>
      { Keys.none with sr := r, sw := w }
    match tKind t with
    | 0 =>
      if tPack t = 1 then rw (key (src, src + tE t 0 * tPb t)) (key (dst, dst + tE t 0 * tPp t))
      else if tPack t = 2 then rw (key (src, src + tE t 0 * tPp t)) (key (dst, dst + Nat.max (fld (tW t 4) 31 0) 1))
      else
        let sc := if fmtBlock (tSfmt t) then key ((tW t 4).toNat, (tW t 4).toNat + n / 32) else []
        let dc := if fmtBlock (tDfmt t) then key ((tW t 5).toNat, (tW t 5).toNat + n / 32) else []
        rw (key (src, src + bytes (tSfmt t) ss) ++ sc) (key (dst, dst + bytes (tDfmt t) ds) ++ dc)
    | 1 =>
      rw (key (boxOf src [e 0 * ss, e 1 * tS t 1] ss)) (key (boxOf dst [e 0 * ds, e 1 * tD t 1] ds))
    | 2 =>
      rw (key (boxOf src [e 0 * ss, e 1 * tS t 1, e 2 * tS t 2, e 3 * tS t 3] ss))
        (key (boxOf dst [e 0 * ds, e 1 * tD t 1, e 2 * tD t 2, e 3 * tD t 3] ds))
    | 3 | 4 =>
      let x := (2 ^ (8 * tIw t) - 1 : Nat)
      let ib := (tW t 5).toNat
      let ix := key (ib, ib + tE t 1 * tIw t)
      if tKind t = 3 then
        rw (ix ++ key (boxOf src [e 0 * ss, x * tS t 1] ss)) (key (boxOf dst [e 0 * ds, e 1 * tD t 1] ds))
      else
        rw (ix ++ key (boxOf src [e 0 * ss, e 1 * tS t 1] ss)) (key (boxOf dst [e 0 * ds, x * tD t 1] ds))
    | 5 =>
      let q := 2 ^ 32
      rw (key (src + 4 * tFirst t, src + 4 * (tFirst t + tRows t + 1)) ++ key ((tW t 4).toNat, (tW t 4).toNat + 4 * q) ++
          key ((tW t 5).toNat, (tW t 5).toNat + ss * q))
        (key (dst, dst + 4 * tNnz t) ++ key ((tW t 6).toNat, (tW t 6).toNat + ds * tNnz t))
    | _ =>
      rw (key (src, src + tLen t) ++ key ((tW t 4).toNat, (tW t 4).toNat + 8 * tNrec t)) (key (dst, dst + tLen t))

end Sys2Proof.Machine
end

