-- ==== Sys2Proof/Machine/CopyIssue.lean ====
section
/-! DEFINITION. Starting a copy: the store at a copy-channel aperture (R12, R365, R366), and numbering an engine operation
(R106, R107). -/

namespace Sys2Proof.Machine

/-- Gives the next number on a timeline (R107). -/
def Job.issueOn (j : Job) (t : Nat) : Job × Nat :=
  let l := vget ⟨0, 0, []⟩ j.tl t
  ({ j with tl := vset j.tl t { l with issued := l.issued + 1 } }, l.issued + 1)

/-- Takes finished numbers that follow on into the completed count (R107). -/
def absorb : Nat → Nat → List Nat → Nat × List Nat
  | 0, c, ahead => (c, ahead)
  | f + 1, c, ahead => if ahead.contains (c + 1) then absorb f (c + 1) (ahead.filter (· != c + 1)) else (c, ahead)

/-- Operation n of a timeline is complete; the completed count never passes one that is not (R107). -/
def Timeline.complete (t : Timeline) (n : Nat) : Timeline :=
  let ahead := n :: t.ahead
  let (c, rest) := absorb ahead.length t.completed ahead
  { t with completed := c, ahead := rest }

def Job.completeOn (j : Job) (t n : Nat) : Job := { j with tl := vset j.tl t ((vget ⟨0, 0, []⟩ j.tl t).complete n) }

/-- An operation with nothing captured but its instruction. -/
def Op.of (i : Instr) (tl num since : Nat) : Op where
  instr := i
  copy := none
  tl := tl
  num := num
  scal := 0
  sts := []
  vd := []
  vs := []
  vt := []
  img := 0
  key := none
  started := false
  since := since
  aged := false
  unit := 0
  argv := []
  runs := []
  queue := []
  sat := []
  srcs := []
  table := []
  gimg := none
  hold := none
  resume := none
  role := .plain
  late := none
  basin := none
  alone := false
  stall := none
  finished := false

/-- A new copy with its template as read (R366). -/
def CopyOp.of (chan : Nat) (cmd : Word) (base : Nat) (tmpl : List Word) (bad : Option FaultInfo) : CopyOp :=
  ⟨chan, cmd, base, tmpl, bad, false, 0, 0, 0, 0, 0, [], [], 0, 0⟩

/-- The 64-bit words of bytes. -/
def wordsOf : Nat → List Byte → List Word
  | 0, _ => []
  | n + 1, bs => BitVec.ofNat 64 (leNum (bs.take 8)) :: wordsOf n (bs.drop 8)

/-- Reads the template of a command word (R366): one ordered load at job scope that needs R. Provisional bytes of a template
in the window settle first (R132). -/
def readTemplate (base : Nat) (cmd : Word) : M (List Word) := do
  match vrange (base + 64 * fld cmd 11 0) with
  | .scratch off => settledBytes off (off + 64)
  | _ => pure ()
  let bs ← vread ⟨0, 4, [], none⟩ (base + 64 * fld cmd 11 0) 64
  pure (wordsOf 8 bs)

/-- Copies in a channel's queue (R365). -/
def queuedCopies (q : List ChanEntry) : Nat := (q.filter fun e => e != .marker).length

/-- A copy of the channel has the channel's kept place (R115). -/
def Job.keptTaken (j : Job) (chan : Nat) : Bool :=
  j.entries.any fun e => e.kept && !e.away && !j.spent e &&
    match e.kind with
    | .op o => (o.copy.map fun c => c.chan) == some chan
    | _ => false

/-- A copy's operation as it enters: the registers of its ports' ARG are resolved then (R293). -/
def copyEntryOp (j : Job) (chan tl num cycle : Nat) (cmd : Word) (base : Nat) (tmpl : List Word) (bad : Option FaultInfo) : Op :=
  { Op.of (.cpy ⟨⟨false, 0⟩, .guarded⟩ (BitVec.ofNat 2 chan) 0) tl num cycle with
    copy := some (CopyOp.of chan cmd base tmpl bad), argv := [j.argvOf (tPsin tmpl), j.argvOf (tPsout tmpl)] }

/-- A copy's keys: the bytes of its template's walk, its slots and their registers (R111, R293). -/
def copyEntryKeys (j : Job) (chan : Nat) (cmd : Word) (tmpl : List Word) : Keys :=
  j.portKeys [tPsin tmpl, tPsout tmpl] (copyKeys tmpl cmd chan (recChan j.lrec) j.window)

/-- The store of a command word at channel n's aperture (R365): holds while the queue is full or the Weir has no place;
then the template is read, the copy is numbered, and it enters the Weir and the queue. -/
def startCopy (n : Nat) (cmd : Word) : M Unit := do
  drain
  let j := (← get).job
  if recChan j.lrec ≤ n then throw (addrFault (0x01FF_FFFF_8000_0000 + n * 4096) 1)
  unlessWait (decide (queuedCopies (vget [] j.chans n) < 32)) (.channel j.num n)
  let free := (← get).weirFree
  unlessWait (!j.returning && (free || !j.keptTaken n)) .weir
  let base := j.ctbase.toNat
  let (tmpl, bad) := match ← attempt (readTemplate base cmd) with
    | .ok t => (t, none)
    | .error f => ([], some f)
  let s ← get
  let (job, num) := s.job.issueOn n
  set { s with job := job }
  let o := copyEntryOp job n n num s.cycle cmd base tmpl bad
  let id ← enter (.op o) (copyEntryKeys job n cmd tmpl) (!free)
  modify fun s => s.modJob fun j => { j with chans := vset j.chans n (vget [] j.chans n ++ [.copy id]) }
  modify fun s => s.modStr fun t => { t with last := some (n, num) }

end Sys2Proof.Machine
end

