-- ==== Sys2Proof/Machine/MemInstr.lean ====
section
/-! DEFINITION. Loads, stores, atomics, fences, cache hints, stash mapping and stream-register instructions (chapter 08). -/

namespace Sys2Proof.Machine

/-! ## Where an access goes (R9 to R12, R218) -/

/-- The target of an access that keeps the address and alignment rules. -/
inductive Spot where
  | mapped
  | scratch (off : Nat)
  | chan (c : Nat)
  | dtree (off : Nat)
  deriving DecidableEq, Repr, Inhabited

/-- The target of n bytes at va, when no address rule is broken. -/
def spotOf (j : Job) (va n : Nat) (chanOk : Bool) : Option Spot :=
  match vrange va with
  | .mapped => some .mapped
  | .scratch off => if off + n ≤ j.window then some (.scratch off) else none
  | .dtree off => if off + n ≤ 65536 then some (.dtree off) else none
  | .copy c off => if chanOk && off == 0 && n == 8 && decide (c < recChan j.lrec) then some (.chan c) else none
  | .reserved => none

/-- An alignment fault (R208, R211, R224). -/
def alignFault (va acck : Nat) : FaultInfo := { FaultInfo.of 0x17 with va := va, acck := acck }

/-- Address checks, then alignment: n bytes within one 256-byte line, or at a multiple of `unit` (R208, R211, R218). -/
def spot (va n acck unit : Nat) (chanOk : Bool) : M Spot := do
  match spotOf (← get).job va n chanOk with
  | none => throw (addrFault va acck)
  | some t =>
    faultIf (va % unit != 0 || decide (256 < va % 256 + n)) (alignFault va acck)
    pure t

/-- Performs what an access that is not relaxed waits for (R90, R91). -/
def orderFirst (o : Ose) : M Unit := if o.ord = 1 then pure () else orderScope o.scp.toNat

/-- What a stream's access carries to the home (R79, R80, R83). -/
def howOf (o : Ose) (x : Xl) : How := ⟨o.ord == 2, x.cc, o.ev.toNat, true, x.scope o.scp.toNat, false⟩

/-! ## LD and ST (R206 to R208) -/

/-- The n bytes that an LD reads at va, as a number. -/
def loadAt (o : Ose) (va n : Nat) : M Nat := do
  let t ← spot va n 0 1 true
  orderFirst o
  match t with
  | .chan c => do
    drain
    pure (vget ⟨0, 0, []⟩ (← get).job.tl c).issued
  | .dtree off => do
    drain
    let x ← dtreeXl .r 0 off n
    pure (leNum (← tagged 0 va (homeLoad (x.engine o.ev.toNat) x.pa n)))
  | .scratch off => do
    -- an aperture is of class device, and so ordered (R14, R28, R83)
    drain
    scratchHold off n true false
    renewAll off n
    let bs ← tagged 0 va (windowRead [] off n)
    leavePlace
    pure (leNum bs)
  | .mapped => do
    let x ← xlate .r 0 va n
    if x.cc = 2 then drain else drainMeeting x.pa n
    outsideClear none x.region n false
    pure (leNum (← tagged 0 va (load (howOf o x) x.pa n)))

/-- LD (R206). -/
def execLd (h : Hdr) (size : Size) (signed : Bool) (d a : SReg) (ose : Ose) (imm : Imm) (s : State) :
    Host.Outcome State Fault Refusal :=
  runInstr h branchStreams (do
    let n := sizeBytes size
    let x ← loadAt ose ((← get).ea a imm) n
    modify fun s => s.setS d (if signed then sextN (8 * n) x else BitVec.ofNat 64 x)
    pure .next) s

/-- A store may stay pending (R88, R90): it is relaxed, of a class other than device, and not to a scratchpad. -/
def maySit (o : Ose) (x : Xl) : Bool :=
  o.ord == 1 && x.cc != 2 &&
    (match x.region with
     | .scratch .. => false
     | _ => true)

/-- Stores v's low n bytes at va. -/
def storeTo (o : Ose) (va n : Nat) (v : Word) : M Unit := do
  let t ← spot va n 1 1 true
  orderFirst o
  let bs := leList n v.toNat
  match t with
  | .chan c => startCopy c v
  | .dtree off => do
    let _ ← dtreeXl .w 1 off n
  | .scratch off => do
    drain
    scratchHold off n false true
    windowWrite [] off bs
    leavePlace
  | .mapped => do
    let x ← xlate .w 1 va n
    if maySit o x then
      modify fun s => s.modStr fun t => { t with stores := t.stores ++
        [⟨x.pa, bs, o.ev.toNat, x.cc, Nat.max (x.scope o.scp.toNat) t.fence, none⟩] }
    else do
      if x.cc = 2 then drain else drainMeeting x.pa n
      outsideClear none x.region n true
      tagged 1 va (store (howOf o x) x.pa bs)

/-- ST (R207). -/
def execSt (h : Hdr) (size : Size) (a b : SReg) (ose : Ose) (imm : Imm) (s : State) : Host.Outcome State Fault Refusal :=
  runInstr h branchStreams (do
    let s ← get
    storeTo ose (s.ea a imm) (sizeBytes size) (s.getS b)
    pure .next) s

/-! ## Atomics (R209 to R211) -/

/-- The new value of an AMO on n bytes (R209). -/
def amoValue (op : AmoOp) (n old b : Nat) : Nat :=
  let sx := fun (x : Nat) => sextN (8 * n) x
  match op with
  | .swap => b
  | .add => (old + b) % 2 ^ (8 * n)
  | .and => old &&& b
  | .or => old ||| b
  | .xor => old ^^^ b
  | .min => if (sx b).slt (sx old) then b else old
  | .max => if (sx old).slt (sx b) then b else old
  | .minu => Nat.min old b
  | .maxu => Nat.max old b
  | .fadd => (add32 (BitVec.ofNat 32 old) (BitVec.ofNat 32 b)).toNat

/-- One atomic of a stream at va; the old value. -/
def atomicAt (o : Ose) (va n : Nat) (f : Nat → Option Nat) : M Nat := do
  let t ← spot va n 2 n false
  orderFirst o
  match t with
  | .chan _ => throw (addrFault va 2)
  | .dtree off => do
    let _ ← dtreeXl .rw 2 off n
    pure 0
  | .scratch off => do
    drain
    scratchHold off n true true
    touchAll off n .check
    renewAll off n
    let old := leNum (← tagged 2 va (windowRead [] off n))
    match f old with
    | some v => windowWrite [] off (leList n v)
    | none => pure ()
    leavePlace
    pure old
  | .mapped => do
    let x ← xlate .rw 2 va n
    if x.cc = 2 then drain else drainMeeting x.pa n
    outsideClear none x.region n true
    tagged 2 va (atomic (howOf o x) x.pa n f)

/-- AMO (R209). -/
def execAmo (h : Hdr) (op : AmoOp) (size : Size) (d a b : SReg) (ose : Ose) (s : State) :
    Host.Outcome State Fault Refusal :=
  runInstr h branchStreams (do
    let s ← get
    let n := sizeBytes size
    let v := (s.getS b).toNat % 2 ^ (8 * n)
    let old ← atomicAt ose (s.getS a).toNat n fun x => some (amoValue op n x v)
    modify fun s => s.setS d (BitVec.ofNat 64 old)
    pure .next) s

/-- CAS (R210). -/
def execCas (h : Hdr) (size : Size) (d a b : SReg) (ose : Ose) (s : State) : Host.Outcome State Fault Refusal :=
  runInstr h branchStreams (do
    let s ← get
    let n := sizeBytes size
    let want := (s.getS d).toNat % 2 ^ (8 * n)
    let new := (s.getS b).toNat % 2 ^ (8 * n)
    let old ← atomicAt ose (s.getS a).toNat n fun x => if x = want then some new else none
    modify fun s => s.setS d (BitVec.ofNat 64 old)
    pure .next) s

/-! ## Fences and hints (R98, R212 to R214) -/

/-- FENCE (R98): every access of the stream that precedes it is performed; its scope widens those of its neighbours (R91). -/
def execFence (h : Hdr) (scp : BitVec 3) (s : State) : Host.Outcome State Fault Refusal :=
  runInstr h branchStreams (do
    fenceAt scp.toNat
    pure .next) s

/-- An address lies in the global range of a stash window (R213). -/
def Job.inStashRange (j : Job) (va : Nat) : Bool :=
  j.stash.toList.any fun w =>
    w.v && decide (w.gva * 65536 ≤ va) && decide (va < w.gva * 65536 + (w.sizem1 + 1) * 65536)

/-- The translation a hint acts on; none when it is dropped (R213): an aperture, a stash window's range, a failed walk, a
missing permission, class device. -/
def hintXl (va : Nat) : M (Option Xl) := do
  let s ← get
  match vrange va with
  | .mapped =>
    if s.job.inStashRange va then pure none
    else match ← attempt (xlate .r 0 va 1) with
      | .ok x => pure (if x.cc = 2 || !leased x.pa then none else some x)
      | .error _ => pure none
  | _ => pure none

/-- Runs m when it can be made now; else nothing happens. -/
def ifFree (m : M Unit) : M Unit := fun s =>
  match m s with
  | .ok _ t => .ok () t
  | .error _ _ => .ok () s

/-- A prefetch of a line: into the L2, and into the L1 unless L2 alone is asked for. A level that holds a copy that a load may
use keeps it. It orders nothing, raises no clock and replaces nothing that a load could have used: the copy serves once the
core's clock reaches its write time (R95, R213). -/
def prefetch (l2 : Bool) (x : Xl) (ev : Nat) : M Unit := do
  let line := lineOf x.pa
  let s ← get
  let h : How := ⟨true, x.cc, ev, !l2 && (s.heldL1 line).isNone, 5, false⟩
  match s.heldPeer line with
  | some c => set (s.usePeer h c)
  | none => do
    recallLine x.pa
    probe (line * 256) 256
    let s := (← get).touchL2 x.pa x.cc ev false
    if (h.l1 && h.cc == 0) || 2 ^ 51 ≤ x.pa then
      let (s, e) := s.grantLease line (s.clock s.job.coreIx)
      set (s.keepCopy h x.pa ⟨line, s.mem.readMany (line * 256) 256, s.wtsAt line, e, s.cycle⟩)
    else set s

/-- PREF (R213): the line comes into the L2, and into the L1 unless L2 alone is asked for. DESIGN CHOICE (log entry 67): fills are
made at once here, so that a fill buffer of the core is always free. -/
def execPref (h : Hdr) (l2 : Bool) (a : SReg) (ev : BitVec 3) (imm : Imm) (s : State) : Host.Outcome State Fault Refusal :=
  runInstr h branchStreams (do
    let va := (← get).ea a imm
    match ← hintXl va with
    | none => pure ()
    | some x => ifFree (prefetch l2 x ev.toNat)
    pure .next) s

/-- WBACK (R214): the L2 line is written to LPDDR6, and with DROP its priority becomes 0. A peer's line stands in the L2 of the
requesting die (R69). -/
def execWback (h : Hdr) (drop : Bool) (a : SReg) (imm : Imm) (s : State) : Host.Outcome State Fault Refusal :=
  runInstr h branchStreams (do
    let va := (← get).ea a imm
    match ← hintXl va with
    | none => pure ()
    | some x =>
      let clean := fun (l : L2Line) =>
        if l.line == lineOf x.pa then { l with dirty := false, pri := if drop then 0 else l.pri } else l
      modify fun s => s.modDie (if 2 ^ 51 ≤ x.pa then s.job.die else x.pa / 2 ^ 48) fun d => { d with l2 := d.l2.map clean }
    pure .next) s

/-! ## Stash windows (R52, R58, R59, R215, R216) -/

/-- Two spans of units meet. -/
def spansMeet (a n b m : Nat) : Bool := decide (a < b + m) && decide (b < a + n)

/-- SMAP's request is refused (R52, R215). -/
def smapBad (j : Job) (n : Nat) (a b : Word) : Bool :=
  let size := fld b 6 0 + 1
  let off := fld b 14 8
  let gva := a.toNat / 65536
  fld b 63 19 != 0 || bit b 15 || bit b 7 || fld a 15 0 != 0 || (vget ⟨false, 0, 0, 0, 0⟩ j.stash n).v ||
  decide (j.window < (off + size) * 65536) || decide (0x01FF_FFFF_0000_0000 < (gva + size) * 65536) ||
  j.stash.toList.any fun w =>
    w.v && (spansMeet off size w.off (w.sizem1 + 1) || spansMeet gva size w.gva (w.sizem1 + 1))

/-- Window bytes of a stash window. -/
def StashWin.range (w : StashWin) : Range := (w.off * 65536, (w.off + w.sizem1 + 1) * 65536)

/-- SMAP (R215). -/
def execSmap (h : Hdr) (n : BitVec 3) (a b : SReg) (s : State) : Host.Outcome State Fault Refusal :=
  runInstr h branchStreams (do
    let s ← get
    let va := s.getS a
    let de := s.getS b
    faultIf (smapBad s.job n.toNat va de) { FaultInfo.of 0x14 with va := va.toNat }
    let w : StashWin := ⟨true, va.toNat / 65536, fld de 6 0, fld de 14 8, fld de 18 16⟩
    waitClear { Keys.none with sw := [w.range] }
    modify fun s => s.modJob fun j =>
      { j with stash := vset j.stash n.toNat w, lines := j.lines.filter fun l => l.win != n.toNat }
    pure .next) s

/-- The mapped windows of a mask. -/
def Job.windowsOf (j : Job) (mask : Nat → Bool) : List Nat :=
  (List.range 8).filter fun n => mask n && (vget ⟨false, 0, 0, 0, 0⟩ j.stash n).v

/-- The windows of a mask that stream x flushes: those that were mapped when its held instruction took its place, for a window
mapped later has the stores of later entries (R59, R215). -/
def Job.flushSet (j : Job) (x : StreamId) (mask : Nat → Bool) : List Nat :=
  let ws := j.windowsOf mask
  match j.entries.find? fun e => e.kind == .held x with
  | some e => ws.filter fun n => e.keys.sw.contains (vget ⟨false, 0, 0, 0, 0⟩ j.stash n).range
  | none => ws

/-- Writes back every dirty line of the windows named, none of them provisional (R58, R61); a memory error in one is met
before any of them is (R425). -/
def flushLines (ws : List Nat) : M Unit := do
  let j := (← get).job
  let dirty := j.lines.filter fun l => l.dirty && ws.contains l.win
  match dirty.find? j.stashProv with
  | some l =>
    let o := j.stashOff l
    throw (.wait (.lineage (((j.markAt o (o + 256)).map j.srcOf).getD 0)))
  | none =>
    dirty.forM fun l =>
      tagged 7 ((vget ⟨false, 0, 0, 0, 0⟩ j.stash l.win).gva * 65536 + l.line * 256) (probe (j.windowPa (j.stashOff l)) 256)
    dirty.forM (backClear j)
    modify fun s => dirty.foldl (fun s l => s.writeBack j.num l) s

/-- Flushes windows under a held Weir entry (R59, R115, R121). -/
def flushHeld (ws : List Nat) : M Unit := do
  drain
  let j := (← get).job
  let rs := ws.map fun n => (vget ⟨false, 0, 0, 0, 0⟩ j.stash n).range
  let keys := { Keys.none with sr := rs, sw := rs }
  let id ← takePlace keys
  rs.forM fun r => waitTide [] r.1 (r.2 - r.1)
  waitOrder id keys
  flushLines ws
  leavePlace

/-- SUNMAP (R216). -/
def execSunmap (h : Hdr) (n : BitVec 3) (s : State) : Host.Outcome State Fault Refusal :=
  runInstr h branchStreams (do
    let s ← get
    let ws := s.job.flushSet s.cur fun i => i == n.toNat
    if ws.isEmpty then leavePlace
    else
      flushHeld ws
      modify fun s => s.modJob fun j =>
        { j with stash := vset j.stash n.toNat ⟨false, 0, 0, 0, 0⟩, lines := j.lines.filter fun l => l.win != n.toNat }
    pure .next) s

/-- SFLUSH (R216). -/
def execSflush (h : Hdr) (mask : BitVec 8) (s : State) : Host.Outcome State Fault Refusal :=
  runInstr h branchStreams (do
    let s ← get
    let ws := s.job.flushSet s.cur fun i => bitN mask.toNat i
    if ws.isEmpty then leavePlace else flushHeld ws
    pure .next) s

/-- STASH_FILL (R54): the line is fetched for whoever waits on it; a translation fault is kept for the access (R60). -/
def execStashFill (num w line : Nat) (s : State) : Host.Outcome State Fault Refusal :=
  runEvent (do
    focusOn num
    let j := (← get).job
    let d := vget ⟨false, 0, 0, 0, 0⟩ j.stash w
    need (j.onCore && d.v && decide (line < (d.sizem1 + 1) * 256) && (j.lineAt w line).isNone)
    modify fun s => { s with via := some (.stash w line), cur := .C }
    match ← attempt (fillLine w line) with
    | .ok _ => pure ()
    | .error f =>
      let t : TFault := ⟨f.cause, d.gva * 65536 + line * 256, f.level, f.entry, f.aux⟩
      modify fun s => s.modJob fun j => { j with walkFaults := j.walkFaults ++ [(.stash w line, t)] }) s

/-- The home recalls a dirty line that holds no provisional data; a memory error in it is its owner's (R57, R425). -/
def recallOf (num w line : Nat) : M Unit := do
  match (← get).findJob num with
  | none => throw .halt
  | some j =>
    match j.lineAt w line with
    | none => throw .halt
    | some l =>
      need (l.dirty && !j.stashProv l)
      backWait (fun _ _ => false) j l
      modify fun s => (s.writeBack num l).windowLoss num (j.windowPa (j.stashOff l)) 256

/-- STASH_RECALL (R57). -/
def execStashRecall (num w line : Nat) (s : State) : Host.Outcome State Fault Refusal := runEvent (recallOf num w line) s

/-- LEASE_LAPSE (R95): a held copy whose lease the core's clock has passed is no longer held. -/
def execLeaseLapse (core i : Nat) (s : State) : Host.Outcome State Fault Refusal :=
  runEvent (do
    let s ← get
    match (s.coreAt core).l1[i]? with
    | none => throw .halt
    | some c =>
      need (c.lease < s.clock core)
      set (s.modCore core fun k => { k with l1 := k.l1.take i ++ k.l1.drop (i + 1) })) s

/-! ## Stream registers (R223 to R227) -/

/-- STSET (R223). -/
def execStset (h : Hdr) (n : StReg) (w : BitVec 3) (a : SReg) (s : State) : Host.Outcome State Fault Refusal :=
  runInstr h branchStreams (do
    drain
    modify fun s => s.modJob fun j => j.setStWord n.toNat w.toNat (s.getS a)
    pure .next) s

/-- STGET (R223). -/
def execStget (h : Hdr) (d : SReg) (n : StReg) (w : BitVec 3) (s : State) : Host.Outcome State Fault Refusal :=
  runInstr h branchStreams (do
    drain
    modify fun s => s.setS d (s.job.stWord n.toNat w.toNat)
    pure .next) s

/-- Writes all eight words of a stream register. -/
def Job.setStWords (j : Job) (n : Nat) (ws : List Word) : Job := { j with streg := Cells.setMany 0 j.streg (8 * n) ws }

/-- STLD (R224): one ordered load of 64 bytes at job scope and priority 4. -/
def execStld (h : Hdr) (n : StReg) (a : SReg) (imm : Imm) (s : State) : Host.Outcome State Fault Refusal :=
  runInstr h branchStreams (do
    let va := (← get).ea a imm
    let t ← spot va 64 0 64 false
    drain
    let bs ← match t with
      | .chan _ => throw (addrFault va 0)
      | .dtree off => do
        let x ← dtreeXl .r 0 off 64
        tagged 0 va (homeLoad (x.engine 4) x.pa 64)
      | .scratch off => do
        scratchHold off 64 true false
        renewAll off 64
        let bs ← tagged 0 va (windowRead [] off 64)
        leavePlace
        pure bs
      | .mapped => do
        let x ← xlate .r 0 va 64
        outsideClear none x.region 64 false
        tagged 0 va (load ⟨false, x.cc, 4, true, x.scope 1, false⟩ x.pa 64)
    modify fun s => s.modJob fun j => j.setStWords n.toNat (wordsOf 8 bs)
    pure .next) s

/-- The new BASE and SBASE of STADV, or none where it faults (R225). -/
def stadvWords (st : List Word) (dim : Nat) (c : Int) : Option (Word × Word) :=
  let move := fun (w : Word) (i : Int) => BitVec.ofInt 64 ((w.toNat : Int) + i)
  let four := fmtFour (stFmt st) && dim == 0
  if four && c % 2 != 0 then none
  else
    let base := move (stW st 0) (if four then c / 2 else c * stS st dim)
    if stBlen st != 32 then some (base, stW st 5)
    else if dim == stBdim st then
      if c % 32 != 0 then none else some (base, move (stW st 5) (c / 32 * stSS st dim))
    else some (base, move (stW st 5) (c * stSS st dim))

/-- STADV (R225). -/
def execStadv (h : Hdr) (n : StReg) (dim : BitVec 2) (a : SReg) (s : State) : Host.Outcome State Fault Refusal :=
  runInstr h branchStreams (do
    drain
    let s ← get
    match stadvWords (s.job.stWords n.toNat) dim.toNat (s.getS a).toInt with
    | none => throw (.fault (stFault n.toNat))
    | some (b, sb) =>
      set (s.modJob fun j => (j.setStWord n.toNat 0 b).setStWord n.toNat 5 sb)
      pure .next) s

/-! ## CPY (R365) -/

/-- CPY (R365): the 64-bit store at a channel's aperture. -/
def execCpy (h : Hdr) (n : BitVec 2) (a : SReg) (s : State) : Host.Outcome State Fault Refusal :=
  runInstr h branchStreams (do
    startCopy n.toNat ((← get).getS a)
    pure .next) s

end Sys2Proof.Machine
end

