-- ==== Sys2Proof/Machine/Sync.lean ====
section
/-! DEFINITION. Semaphores, barriers, flags, timelines and JOIN (chapter 17). -/

namespace Sys2Proof.Machine

/-! ## Semaphores (R389 to R393) -/

def semAt (j : Job) (n : Nat) : Sem := vget ⟨0, 0xFFFF, []⟩ j.sem n
def setSem (j : Job) (n : Nat) (m : Sem) : Job := { j with sem := vset j.sem n m }

/-- What waits on semaphore n of the job in focus. -/
def onSem (n : Nat) : WaitObj → Bool
  | .sem m _ => m == n
  | _ => false

/-- Semaphore n becomes m, which serves its waiters, by an ender (R390, R441). -/
def State.serveSem (s : State) (n : Nat) (m : Sem) (e : Ender) : State :=
  (s.tellOwn (onSem n) e).modJob fun j => setSem j n m.serve

/-- SEMSET (R390). -/
def execSemset (h : Hdr) (n : BitVec 4) (a : SReg) (s : State) : Host.Outcome State Fault Refusal :=
  runInstr h allStreams (do
    drain
    let v := (← get).getS a
    let ceil := fld v 31 16
    modify fun s => s.serveSem n.toNat { semAt s.job n.toNat with ceil := ceil, count := Nat.min (fld v 15 0) ceil } s.maker
    pure .next) s

/-- The count k of a SEMACQ or SEMREL: 1 to 16 (R388). -/
def semUnits (k : BitVec 4) : Nat := k.toNat + 1

/-- SEMACQ (R391). -/
def execSemacq (h : Hdr) (n k : BitVec 4) (s : State) : Host.Outcome State Fault Refusal :=
  runInstr h allStreams (do
    drain
    let s ← get
    let m := semAt s.job n.toNat
    match m.waiters.find? fun w => w.1 == s.cur with
    | some (_, 0) =>
      set (s.modJob fun j => setSem j n.toNat { m with waiters := m.waiters.filter fun w => w.1 != s.cur })
      pure .next
    | some _ => throw (.wait (.sem n.toNat (formLen h.form)))
    | none =>
      if semUnits k ≤ m.count && m.waiters.all fun w => w.2 == 0 then
        set (s.modJob fun j => setSem j n.toNat { m with count := m.count - semUnits k })
        pure .next
      else
        set (s.modJob fun j => setSem j n.toNat { m with waiters := m.waiters ++ [(s.cur, semUnits k)] })
        throw (.wait (.sem n.toNat (formLen h.form)))) s

/-- The over-release fault of a semaphore (R392, R423). -/
def overRelease (n k : Nat) (m : Sem) : FaultInfo :=
  { FaultInfo.of 0x21 with aux := n + k * 16 + m.count * 2 ^ 16 + m.ceil * 2 ^ 32 }

/-- SEMREL (R392): an over-release faults with its restart point after the instruction. -/
def execSemrel (h : Hdr) (n k : BitVec 4) (s : State) : Host.Outcome State Fault Refusal :=
  runInstr h allStreams (do
    drain
    let j := (← get).job
    let m := semAt j n.toNat
    if m.ceil < m.count + semUnits k then throw (.after (overRelease n.toNat (semUnits k) m))
    modify fun s => s.serveSem n.toNat { m with count := m.count + semUnits k } s.maker
    pure .next) s

/-- A release by an engine (R393): it never faults at the engine; past the ceiling the excess is discarded and the fault is
raised on C with the operation it names. -/
def State.engineRelease (s : State) (n k : Nat) (f : FaultInfo) : State :=
  let m := semAt s.job n
  if m.ceil < m.count + k then
    let f := { overRelease n k m with
               strm := .C, eng := f.eng, chan := f.chan, opnum := f.opnum, tl := f.tl, pc := f.pc }
    (s.serveSem n { m with count := m.ceil } s.maker).takeFault f (.stream .C)
  else s.serveSem n { m with count := m.count + k } s.maker

/-! ## Barriers (R395 to R400, R455) -/

/-- The job's linear index over the whole launch (R140, R143). -/
def Job.linear (j : Job) : Nat :=
  (List.range 8).foldl (fun a k => a + recCoord j.lrec j.index k * recS j.lrec k) 0

/-- OFF_k (R396). -/
def barOffset (r : List Word) (k : Nat) : Nat :=
  (List.range k).foldl (fun a i => if i = 0 then a else a + 64 * (recS r (recLevels r) / recS r i)) 0

/-- Virtual address of the job's level-k object (R396). -/
def barrierVa (j : Job) (k : Nat) : Nat :=
  (recBarbase j.lrec + barOffset j.lrec k + 64 * (j.linear / recS j.lrec k)) % 2 ^ 64

/-- A stream counts as arrived at every phase: it is idle, at JOIN, or in a handler entered from JOIN (R395). -/
def Job.always (j : Job) (x : StreamId) : Bool :=
  (j.str x).st != .running || (x == .C && j.trap.inTrap && j.trap.joined)

def barAt (j : Job) (k : Nat) : BarState := if k = 0 then j.bar0 else vget .zero j.bars k
def setBar (j : Job) (k : Nat) (b : BarState) : Job :=
  if k = 0 then { j with bar0 := b } else { j with bars := vset j.bars k b }

/-- All four streams have arrived at level k, one of them by a barrier instruction. -/
def Job.allArrived (j : Job) (k : Nat) : Bool :=
  let b := barAt j k
  !b.arrived.isEmpty && allStreams.all fun x => b.arrived.contains x || j.always x

/-- Level 0 completes its phase when all four streams have arrived (R395). -/
def Job.settleBar0 (j : Job) : Job :=
  if j.allArrived 0 then { j with bar0 := { j.bar0 with arrived := [], phase := (j.bar0.phase + 1) % 2 ^ 32 } } else j

/-- What waits on the job's own barrier. -/
def onBar0 : WaitObj → Bool
  | .barrier 0 _ => true
  | _ => false

/-- The same in the state: the streams that wait for the phase learn who completed it (R441). -/
def State.settleBar0 (s : State) : State :=
  (if s.job.allArrived 0 then s.tellOwn onBar0 s.maker else s).modJob Job.settleBar0

/-- The faults of a barrier instruction before any arrival (R400). -/
def barrierChecks (k : Nat) : M Unit := do
  let j := (← get).job
  faultIf (k != 0 && !recGang j.lrec) { FaultInfo.of 0x20 with aux := k }
  faultIf (decide (recLevels j.lrec ≤ k)) { FaultInfo.of 0x22 with aux := k }

/-- The scope of level k, which matches its domain (R139, R141): job at level 0. -/
def Job.barScope (j : Job) (k : Nat) : Nat := if k = 0 then 1 else Nat.min (recDom j.lrec k) 6

/-- Accesses to a barrier object: prompt, at the scope of its level (R397). -/
def barHow (j : Job) (k : Nat) (x : Xl) : How := { How.engine x.cc 4 with scp := x.scope (j.barScope k) }

/-- The job's object of level k, translated; objects are words of the mapped range (R14). -/
def barrierXl (k : Nat) (need : Need) (acck : Nat) : M Xl := do
  let va := barrierVa (← get).job k
  match vrange va with
  | .mapped =>
    let x ← xlate need acck va 64
    outsideClear none x.region 64 (need != .r)
    pure x
  | _ => throw (addrFault va acck)

/-- PHASE of level k now: the job's own at level 0, else by a prompt load (R397); with the object's physical address. -/
def phaseNow (k : Nat) : M (Nat × Nat) := do
  if k = 0 then pure ((← get).job.bar0.phase, 0)
  else
    let x ← barrierXl k .r 0
    let bs ← tagged 0 (barrierVa (← get).job k) (homeLoad (barHow (← get).job k x) x.pa 8)
    pure (leNum (bs.drop 4), x.pa)

/-- The job's arrival at level k ≥ 1: one atomic at the object's home; the phase it arrived in (R397, R400). -/
def jobArrival (k : Nat) : M Nat := do
  let x ← barrierXl k .rw 2
  let bs ← tagged 2 (barrierVa (← get).job k) (homeLoad (barHow (← get).job k x) x.pa 64)
  let count := leNum (bs.take 4)
  let phase := leNum ((bs.drop 4).take 4)
  let expect := leNum ((bs.drop 8).take 8)
  let j := (← get).job
  faultIf (expect == 0 || decide (recS j.lrec k < expect) || decide (expect ≤ count) || (bs.drop 16).any (· != 0))
    { FaultInfo.of 0x22 with aux := k }
  let next := if count + 1 = expect then (phase + 1) % 2 ^ 32 * 2 ^ 32 else phase * 2 ^ 32 + count + 1
  let _ ← atomic (barHow j k x) x.pa 8 fun _ => some next
  modify fun s => s.hit x.pa 0 1 true
  if count + 1 = expect then modify fun s => s.hit x.pa 1 1 true
  modify fun s => s.modJob fun j => setBar j k { barAt j k with arrived := [], last := some phase }
  pure phase

/-- The stream in turn arrives at level k; the phase it arrived in (R395, R397, R398). A stream whose own arrival is still
pending waits until that phase completes. -/
def arrive (k : Nat) : M Nat := do
  let (p, pa) ← phaseNow k
  let s ← get
  let b := barAt s.job k
  if s.job.always s.cur then pure p
  else
    unlessWait (!b.arrived.contains s.cur && (k == 0 || b.last != some p)) (.barrier k pa)
    set (s.modJob fun j => setBar j k { b with arrived := b.arrived ++ [s.cur] })
    if k = 0 then do
      modify State.settleBar0
      pure p
    else if (← get).job.allArrived k then
      -- the last of the job's streams makes the job's arrival; a fault leaves its own arrival unrecorded (R400)
      fun t =>
        match jobArrival k t with
        | .ok q u => .ok q u
        | .error e u => .error e (u.modJob fun j => setBar j k b)
    else pure p

/-- Waits until the phase of level k differs from p, then fences (R398). A level-0 phase is complete when all four streams
count as arrived, as for a handler that was entered from JOIN (R395). -/
def waitPhase (k p : Nat) : M Unit := do
  let (q, pa) ← phaseNow k
  unlessWait (q != p || (k == 0 && allStreams.all (← get).job.always)) (.barrier k pa)
  fenceAt ((← get).job.barScope k)

/-- BARA (R398). -/
def execBara (h : Hdr) (d : SReg) (k : BitVec 3) (s : State) : Host.Outcome State Fault Refusal :=
  runInstr h allStreams (do
    barrierChecks k.toNat
    fenceAt ((← get).job.barScope k.toNat)
    let p ← arrive k.toNat
    modify fun s => s.setS d (BitVec.ofNat 64 p)
    pure .next) s

/-- BARW (R398). -/
def execBarw (h : Hdr) (k : BitVec 3) (a : SReg) (s : State) : Host.Outcome State Fault Refusal :=
  runInstr h allStreams (do
    barrierChecks k.toNat
    waitPhase k.toNat (fld ((← get).getS a) 31 0)
    pure .next) s

/-- BAR (R398): the arrival is made once and its phase kept until it completes. -/
def execBar (h : Hdr) (k : BitVec 3) (s : State) : Host.Outcome State Fault Refusal :=
  runInstr h allStreams (do
    barrierChecks k.toNat
    let p ← match (← get).str.bar with
      | some b => pure b.phase
      | none => do
        fenceAt ((← get).job.barScope k.toNat)
        let p ← arrive k.toNat
        modify fun s => s.modStr fun t => { t with bar := some ⟨k.toNat, p⟩ }
        pure p
    waitPhase k.toNat p
    modify fun s => s.modStr fun t => { t with bar := none }
    pure .next) s

/-- BARRIER_RECHECK and WAITF_RECHECK (R397, R402): the waiting instruction reloads its object and waits on, or ends its
wait. -/
def recheck (num : Nat) (x : StreamId) (p : WaitObj → Bool) (run : Instr → State → Host.Outcome State Fault Refusal)
    (s : State) : Host.Outcome State Fault Refusal :=
  match s.focus num with
  | none => .next s
  | some t =>
    let t := { t with cur := x }
    if t.mayIssue && (t.str.wait.map fun w => p w.obj) == some true then
      match t.fetch with
      | .instr i => run i t
      | _ => .next s
    else .next s

/-- BARRIER_RECHECK (R397). -/
def execBarrierRecheck (num : Nat) (x : StreamId) (s : State) : Host.Outcome State Fault Refusal :=
  recheck num x (fun | .barrier .. => true | _ => false) (fun i t =>
    match i with
    | .bar h k => execBar h k t
    | .bara h d k => execBara h d k t
    | .barw h k a => execBarw h k a t
    | _ => .next t) s

/-- The departure of a job from its level-k group (R455): one atomic over the object's first 16 bytes. -/
def departLevel (k : Nat) : M Unit := do
  let x ← barrierXl k .rw 2
  let last := (barAt (← get).job k).last
  let step := fun (o : Nat) =>
    let count := o % 2 ^ 32
    let phase := o / 2 ^ 32 % 2 ^ 32
    let c := if last = some phase then count + 2 ^ 32 - 1 else count
    let e := (o / 2 ^ 64 + 2 ^ 64 - 1) % 2 ^ 64
    let c := c % 2 ^ 32
    if 0 < e && c == e then e * 2 ^ 64 + (phase + 1) % 2 ^ 32 * 2 ^ 32 else e * 2 ^ 64 + phase * 2 ^ 32 + c
  let _ ← tagged 2 (barrierVa (← get).job k) (atomic (barHow (← get).job k x) x.pa 16 fun o => some (step o))

/-! ## JOIN (R406) -/

/-- Triggers the Basin members of the job that satisfy p, by demand (R342). -/
def Job.demand (j : Job) (p : Op → Bool) : Job :=
  { j with entries := j.entries.map fun e =>
      match e.kind with
      | .op o => if o.basin.isSome && p o then { e with kind := .op { o with basin := o.basin.map fun b => (b.1, true) } } else e
      | _ => e }

/-- The job's arrival at level k, when the stream in turn completes it by reaching JOIN (R395, R397, R406), and it is not made
already in the phase in progress: after a FENCE at the scope of the level. -/
def joinArrival (k : Nat) : M Unit := do
  let s ← get
  let b := barAt s.job k
  if k != 0 && allStreams.all fun y => y == s.cur || b.arrived.contains y || s.job.always y then
    let (p, _) ← phaseNow k
    if b.last != some p then
      fenceAt (s.job.barScope k)
      let _ ← jobArrival k

/-- Arrivals of the job that the stream in turn completes by reaching JOIN (R406). -/
def joinArrivals : M Unit := do
  let j := (← get).job
  if recGang j.lrec then (List.range (recLevels j.lrec)).forM joinArrival

/-- JOIN's effect (R406). The program counter stays at the JOIN. -/
def join : M Flow := do
  fenceAt 1
  joinArrivals
  modify fun s =>
    let s := s.modStr fun t => { t with st := .joined }
    let s := s.settleBar0
    if s.cur == .M then
      (s.modJob fun j => { j with lineages := j.lineages.map fun l => { l with closed := true, ndecl := l.niss } }).modJob
        fun j => j.demand fun _ => true
    else s
  pure .stay

/-- JOIN (R406). -/
def execJoin (h : Hdr) (s : State) : Host.Outcome State Fault Refusal := runInstr h allStreams join s

/-- JOIN, short form (R162). -/
def execJoinShort (s : State) : Host.Outcome State Fault Refusal := runInstr shortHdr allStreams join s

/-! ## Flags (R401, R402) -/

/-- Checks and translates a flag word: of the mapped range, at a multiple of 8 (R402); self is the Weir entry that makes the
access, if any. -/
def flagXl (self : Option Nat) (va acck : Nat) (need : Need) : M Xl := do
  match vrange va with
  | .mapped =>
    faultIf (va % 8 != 0) (alignFault va acck)
    let x ← xlate need acck va 8
    outsideClear self x.region 8 (need != .r)
    pure x
  | _ => throw (addrFault va acck)

/-- SETF (R401): a fence, then a prompt store. -/
def execSetf (h : Hdr) (a b : SReg) (scp ev : BitVec 3) (imm : Imm) (s : State) : Host.Outcome State Fault Refusal :=
  runInstr h allStreams (do
    let s ← get
    let x ← flagXl none (s.ea a imm) 1 .w
    fenceAt scp.toNat
    tagged 1 (s.ea a imm) (store ⟨true, x.cc, ev.toNat, true, x.scope scp.toNat, false⟩ x.pa (leList 8 (s.getS b).toNat))
    modify fun s => s.hit x.pa 0 0 true
    pure .next) s

/-- SETF.ADD (R401): a fence, then an atomic add. -/
def execSetfAdd (h : Hdr) (a b : SReg) (scp ev : BitVec 3) (imm : Imm) (s : State) : Host.Outcome State Fault Refusal :=
  runInstr h allStreams (do
    let s ← get
    let x ← flagXl none (s.ea a imm) 2 .rw
    fenceAt scp.toNat
    let _ ← tagged 2 (s.ea a imm)
      (atomic ⟨true, x.cc, ev.toNat, true, x.scope scp.toNat, false⟩ x.pa 8 fun o => some ((o + (s.getS b).toNat) % 2 ^ 64))
    modify fun s => s.hit x.pa 0 0 true
    pure .next) s

/-- WAITF (R402): prompt loads until the condition holds; then sD and a fence. -/
def execWaitf (h : Hdr) (cc : FlagCond) (d a b : SReg) (scp ev : BitVec 3) (imm : Imm) (s : State) :
    Host.Outcome State Fault Refusal :=
  runInstr h allStreams (do
    let s ← get
    let x ← flagXl none (s.ea a imm) 0 .r
    drain
    let v := BitVec.ofNat 64 (leNum (← tagged 0 (s.ea a imm) (homeLoad ⟨true, x.cc, ev.toNat, true, x.scope scp.toNat, false⟩ x.pa 8)))
    unlessWait (flagHolds cc v (s.getS b)) (.flag x.pa)
    fenceAt scp.toNat
    modify fun s => s.setS d v
    pure .next) s

/-- WAITF_RECHECK (R402). -/
def execWaitfRecheck (num : Nat) (x : StreamId) (s : State) : Host.Outcome State Fault Refusal :=
  recheck num x (fun | .flag _ => true | _ => false) (fun i t =>
    match i with
    | .waitf h cc d a b scp ev imm => execWaitf h cc d a b scp ev imm t
    | _ => .next t) s

/-! ## Timelines (R404, R405, R363) -/

def timeline (j : Job) (t : Nat) : Timeline := vget ⟨0, 0, []⟩ j.tl t

/-- Status table of a timeline: channels 0 to 3, and 4 for inbound commands (R363, R383). -/
def statusTable (t : Nat) : Option Nat := if t < 4 then some t else if t = 7 then some 4 else none

/-- The first copy numbered n or below on timeline t whose status fault is to be raised: its number and byte (R363). -/
def statusFault (j : Job) (t n : Nat) : Option (Nat × Nat) :=
  match statusTable t with
  | none => none
  | some c =>
    (vget [] j.status5 c).find? fun (num, v) => num ≤ n && bitN v 8 && !bitN v 9 && (v % 256 &&& 0xE) != 0

/-- TLWAIT (R404): waits for the count, then raises a copy status fault once for each copy that asks for it. -/
def execTlwait (h : Hdr) (t : BitVec 3) (a : SReg) (imm : BitVec 45) (s : State) : Host.Outcome State Fault Refusal :=
  runInstr h allStreams (do
    drain
    let s ← get
    let n := (s.getS a + imm.zeroExtend 64).toNat
    let tl := t.toNat
    if n = 0 then pure .next
    else do
      faultIf (decide (tl < 4) && decide (recChan s.job.lrec ≤ tl)) { FaultInfo.of 0x23 with aux := tl, tl := tl }
      if tl = 4 then modify fun s => s.modJob fun j => j.demand fun o => decide (o.num ≤ n)
      unlessWait (decide (n ≤ (timeline (← get).job tl).completed)) (.timeline tl)
      match statusFault (← get).job tl n with
      | none => pure .next
      | some (num, v) =>
        let c := if tl < 4 then tl else 4
        modify fun s => s.modJob fun j =>
          { j with status5 := vset j.status5 c (Cells.set 0 (vget [] j.status5 c) num (v + 512)) }
        throw (.fault { FaultInfo.of 0x1D with
          eng := if tl < 4 then 4 else 5, chan := if tl < 4 then tl else 0, opnum := num, tl := tl, aux := v % 256 })) s

/-- TLGET (R405): the completed count. -/
def execTlget (h : Hdr) (d : SReg) (t : BitVec 3) (s : State) : Host.Outcome State Fault Refusal :=
  runInstr h allStreams (do
    modify fun s => s.setS d (BitVec.ofNat 64 (timeline s.job t.toNat).completed)
    pure .next) s

/-- TLGET.I (R405): the issued count. -/
def execTlgetI (h : Hdr) (d : SReg) (t : BitVec 3) (s : State) : Host.Outcome State Fault Refusal :=
  runInstr h allStreams (do
    modify fun s => s.setS d (BitVec.ofNat 64 (timeline s.job t.toNat).issued)
    pure .next) s

end Sys2Proof.Machine
end

