-- ==== Sys2Proof/Machine/Engine.lean ====
section
/-! DEFINITION. What every engine operation uses: its progress in its Weir entry, issue (R106, R107, R111), its accesses
by element (R221, R33), provisional places and base values (R323 to R326, R330), and its ports (R289 to R317). -/

namespace Sys2Proof.Machine

/-! ## The operation in its entry -/

/-- The operation of a Weir entry. -/
def Job.opAt (j : Job) (id : Nat) : Op :=
  match j.entries.find? fun e => e.id == id with
  | some ⟨_, _, _, .op o, _, _, _⟩ => o
  | _ => default

/-- The stream that issued the entry's operation, for which the engine makes its accesses (R84). -/
def Job.strmOf (j : Job) (id : Nat) : StreamId := ((j.entries.find? fun e => e.id == id).map fun e => e.strm).getD .C

/-- Changes the operation of a Weir entry. -/
def Job.modOp (j : Job) (id : Nat) (f : Op → Op) : Job :=
  { j with entries := j.entries.map fun e =>
      match e.kind with
      | .op o => if e.id == id then { e with kind := .op (f o) } else e
      | _ => e }

def modOp (id : Nat) (f : Op → Op) : M Unit := modify fun s => s.modJob fun j => j.modOp id f

/-- Waits of an operation that are waits of R153: a tide, a settle, its Basin hold (R123, R330). -/
def opLogs : WaitObj → Bool
  | .tide _ | .lineage _ | .basin _ => true
  | _ => false

/-- A wait of an entry's operation ends, or is abandoned, and is logged for its stream (R441). -/
def State.logStall (s : State) (e : Entry) (w : Wait) (why : Nat) : State :=
  if opLogs w.obj then s.logWait e.strm w why else s

/-- Operation id waits on o from now on, or on nothing; a wait on the same object goes on, and one that ends is logged. -/
def State.setStall (s : State) (id : Nat) (o : Option WaitObj) (why : Nat) : State :=
  match s.job.entries.find? fun e => e.id == id with
  | none => s
  | some e =>
    let was := (s.job.opAt id).stall
    if (was.map fun w => w.obj) == o then s
    else
      let s := match was with | some w => s.logStall e w why | none => s
      s.modJob fun j => j.modOp id fun p => { p with stall := o.map fun w => ⟨w, s.cycle⟩ }

/-- Operation id has made its accesses, or stops: it waits on nothing, and no access of it from outside is to come. -/
def State.goesOn (s : State) (id : Nat) : State := (s.dropOutside (· == .part s.job.num (.op id))).setStall id none 0

/-- A Basin member of the job in focus leaves the Basin; its hold, from its entry on, is logged (R153, R441). -/
def State.leaveBasin (s : State) (id why : Nat) : State :=
  match s.job.entries.find? fun e => e.id == id with
  | none => s
  | some e =>
    let o := s.job.opAt id
    if o.basin.isNone then s
    else (s.logStall e ⟨.basin ((e.keys.aw.head?).getD 0), o.since⟩ why).modJob fun j => j.modOp id fun o => { o with basin := none }

/-- Element i of a list becomes a; the list grows with a default. -/
def setAt {α : Type} (d : α) (l : List α) (i : Nat) (a : α) : List α :=
  (List.range (Nat.max l.length (i + 1))).map fun k => if k = i then a else l.getD k d

def Op.setRun (o : Op) (i : Nat) (r : PortRun) : Op := { o with runs := setAt .start o.runs i r }

/-- Numbers an engine operation and enters it into the Weir (R106, R111, R115). -/
def issueOp (i : Instr) (tl : Nat) (keys : Keys) (f : Op → Op) : M Unit := do
  drain
  unlessWait (← get).mayEnter .weir
  let s ← get
  let (job, num) := s.job.issueOn tl
  set { s with job := job }
  let _ ← enter (.op (f (Op.of i tl num s.cycle))) keys false
  modify fun s => s.modStr fun t => { t with last := some (tl, num) }

/-! ## Provisional places (R131, R323 to R326, R330) -/

def Job.lineage (j : Job) (tag : Nat) : Option Lineage := j.lineages.find? fun l => l.tag == tag

/-- The place is the source or a target of the lineage. -/
def Lineage.holds (l : Lineage) (p : ProvPlace) : Bool := p == .acc l.src || l.targets.any fun t => t.places.contains p

/-- The lineage whose provisional place p is, for entry id: one that was published after the entry does not count (R330). -/
def Job.provFor (j : Job) (id : Nat) (p : ProvPlace) : Option Lineage := j.lineages.find? fun l => l.holds p && l.born ≤ id

/-- The place was made provisional by the entry itself. -/
def Lineage.ownBy (l : Lineage) (id : Nat) (p : ProvPlace) : Bool :=
  l.targets.any fun t => t.id == id && t.places.contains p

/-- A read of a place by entry id that is not linear waits for the settle (R330). -/
def readGate (id : Nat) (p : ProvPlace) : M Unit := do
  let j := (← get).job
  match j.provFor id p with
  | some l => if (j.opAt id).role == .consumer l.tag then pure () else throw (.wait (.lineage l.src))
  | none => pure ()

/-- A write of a place by entry id waits for the settle, unless it is the operation that made the place (R326). -/
def writeGate (id : Nat) (p : ProvPlace) : M Unit := do
  let j := (← get).job
  match j.lineages.find? fun l => l.holds p with
  | some l =>
    if l.ownBy id p || (p == .acc l.src && l.deltas.any fun d => d.id == id) then pure () else throw (.wait (.lineage l.src))
  | none => pure ()

/-- The target of a lineage at a place. -/
def Lineage.targetAt (l : Lineage) (p : ProvPlace) : Option Target := l.targets.find? fun t => t.places.contains p

/-- The lineage whose base values an operation reads: it is a linear consumer (R324). -/
def Job.baseOf (j : Job) (id : Nat) : Option Lineage :=
  match (j.opAt id).role with
  | .consumer t => j.lineage t
  | _ => none

/-- Element (i, n) of accumulator a as entry id reads it: the base value for a linear consumer. -/
def Job.accVal (j : Job) (id a i n : Nat) : Lane :=
  match j.baseOf id with
  | some l =>
    if l.src = a then Cells.get 0 l.base (64 * i + n)
    else match l.targetAt (.acc a) with
      | some t => Cells.get 0 t.base (64 * i + n)
      | none => j.accAt a i n
  | none => j.accAt a i n

/-- Lane l of window register i as entry id reads it. -/
def Job.laneVal (j : Job) (id i l : Nat) : Lane :=
  match j.baseOf id with
  | some ln => match ln.targetAt (.vreg i) with
    | some t => if t.id = id then j.lane i l else Cells.get 0 t.base (64 * i + l)
    | none => j.lane i l
  | none => j.lane i l

/-- A byte of the window as entry id reads it, its present value given; scratch bases hold each byte plus 1. -/
def Job.byteVal (j : Job) (id off : Nat) (now : Byte) : Byte :=
  match j.baseOf id with
  | some l =>
    match (l.targets.filter fun t => t.places.contains (.line (off / 256)) && t.id != id).find? fun t => Cells.get 0 t.base off != 0 with
    | some t => BitVec.ofNat 8 ((Cells.get 0 t.base off).toNat - 1)
    | none => now
  | none => now

/-- Records what a linear consumer wrote at a key of its own target's base (R324). -/
def noteBase (id key : Nat) (v : Lane) : M Unit := do
  match (← get).job.baseOf id with
  | none => pure ()
  | some l =>
    let upd := fun (t : Target) => if t.id = id then { t with base := Cells.set 0 t.base key v } else t
    modify fun s => s.modJob fun j => { j with lineages := j.lineages.map fun m =>
      if m.tag = l.tag then { m with targets := m.targets.map upd } else m }

/-- Records a run of lanes that a linear consumer wrote from a key of its own target's base on (R324). -/
def noteRun (id key : Nat) (vs : List Lane) : M Unit := do
  match (← get).job.baseOf id with
  | none => pure ()
  | some l =>
    let upd := fun (t : Target) => if t.id = id then { t with base := Cells.setMany 0 t.base key vs } else t
    modify fun s => s.modJob fun j => { j with lineages := j.lineages.map fun m =>
      if m.tag = l.tag then { m with targets := m.targets.map upd } else m }

/-- Writes all lanes of a register for entry id. -/
def putReg (id i : Nat) (vs : List Lane) : M Unit := do
  writeGate id (.vreg i)
  modify fun s => s.modJob fun j => j.setLanes i vs
  noteRun id (64 * i) vs

/-- Writes a lane for entry id. -/
def putLane (id i l : Nat) (v : Lane) : M Unit := do
  writeGate id (.vreg i)
  modify fun s => s.modJob fun j => j.setLane i l v
  noteBase id (64 * i + l) v

/-! ## Accesses of operations -/

/-- An operation reads, or writes, by virtual address. -/
def rdEng (id : Nat) : Eng := ⟨4, 4, [], some id⟩
def wrEng (id : Nat) : Eng := ⟨1, 4, [], some id⟩

/-- The parts of n bytes at va that lie in one 256-byte line each: address and length. -/
def lineParts : Nat → Nat → Nat → List (Nat × Nat)
  | 0, _, _ => []
  | f + 1, va, n =>
    let k := 256 - va % 256
    if n ≤ k then [(va, n)] else (va, k) :: lineParts f (va + k) (n - k)

/-- Window offset of an address in the scratch aperture. -/
def scratchOff (va : Nat) : Option Nat :=
  match vrange va with
  | .scratch off => some off
  | _ => none

/-- Reads n bytes at va for entry id; a linear consumer reads base values, any other waits for the settle. -/
def engRead (id va n : Nat) : M (List Byte) := do
  let ps ← (lineParts 3 va n).mapM fun (a, k) => do
    let bs ← vread (rdEng id) a k
    match scratchOff a with
    | none => pure bs
    | some off =>
      match (← get).job.markFor id off (off + k) with
      | some t =>
        if (← get).job.baseOf id |>.isSome then pure ()
        else throw (.wait (.lineage ((← get).job.srcOf t)))
      | none => pure ()
      let j := (← get).job
      pure (bs.zipIdx.map fun (b, i) => j.byteVal id (off + i) b)
  pure ps.flatten

/-- Checks that n bytes at va may be written by entry id, and waits for what must come first. -/
def engCheck (id va n : Nat) : M Unit :=
  (lineParts 3 va n).forM fun (a, k) => do
    vcheck (wrEng id) .w a k
    match scratchOff a with
    | none => pure ()
    | some off =>
      let j := (← get).job
      match j.markFor id off (off + k) with
      | some t =>
        if j.lineages.any fun l => l.ownBy id (.line (off / 256)) then pure () else throw (.wait (.lineage (j.srcOf t)))
      | none => pure ()

/-- Writes bytes at va, checked before. -/
def engWrite (id va : Nat) (bs : List Byte) : M Unit :=
  (lineParts 3 va bs.length).forM fun (a, k) => do
    let part := (bs.drop (a - va)).take k
    vwrite (wrEng id) .w a part
    match scratchOff a with
    | none => pure ()
    | some off => part.zipIdx.forM fun (b, i) => noteBase id (off + i) (b.zeroExtend 32 + 1)

/-! ## Elements of a tensor (R221) -/

/-- The code of an element. -/
def elemCode (id : Nat) (st : List Word) (ix : List Nat) : M Nat := do
  let (a, nib) := elemAddr st ix
  if fmtFour (stFmt st) then
    let b := leNum (← engRead id a 1)
    pure (if nib = 0 then b % 16 else b / 16)
  else do
    let bs ← engRead id a (fmtSize (stFmt st))
    pure (leNum bs)

/-- The scale byte of an element; 0 for a format without blocks. -/
def elemScale (id : Nat) (st : List Word) (ix : List Nat) : M Nat := do
  if fmtBlock (stFmt st) then pure (leNum (← engRead id (scaleAddr st ix) 1)) else pure 0

/-- An element on its way to a port as FP32 (R237, R246, R314): a block product beyond FP32 under OVF = 1 is marked. -/
def elemIn (st : List Word) (code scale : Nat) : Lane × Option Nat :=
  let c := decode32 (stFmt st) scale code
  (BitVec.ofNat 32 c.code, if c.bad && stOvf st && fmtBlock (stFmt st) then some (code + 256 * scale) else none)

/-- Reads the elements of a row, n of them, whose indices are given. -/
def readRow (id : Nat) (st : List Word) (n : Nat) (ix : Nat → List Nat) (f : Nat → Nat → Lane × Option Nat) :
    M (List (Lane × Option Nat)) :=
  (List.range n).mapM fun e => do
    let code ← elemCode id st (ix e)
    let sc ← elemScale id st (ix e)
    pure (f code sc)

/-- Addresses and sizes of an element's bytes for writing. -/
def elemSpan (st : List Word) (ix : List Nat) : Nat × Nat := ((elemAddr st ix).1, Nat.max 1 (fmtSize (stFmt st)))

/-- Writes an element's code. -/
def elemPut (id : Nat) (st : List Word) (ix : List Nat) (code : Nat) : M Unit := do
  let (a, n) := elemSpan st ix
  engWrite id a (leList n code)

/-- The line that a row of 64 elements of four bytes covers whole (R55). -/
def rowLine (st : List Word) (row : Nat) : Option Nat :=
  let a := (elemAddr st [0, row]).1
  if !fmtBlock (stFmt st) && stE st 0 == 64 && a % 256 == 0 &&
      (List.range 64).all fun e => elemSpan st [e, row] == (a + 4 * e, 4) then some a else none

/-- The window holds a stash line at off, and the line is invalid. -/
def Job.coldLine (j : Job) (off : Nat) : Bool :=
  match j.stashAt off with
  | some (w, d) => (j.lineAt w ((off - d.off * 65536) / 256)).isNone
  | none => false

/-- Runs the pass of a destination row not begun. A row that covers an invalid stash line whole takes ownership of it without
fetching the old bytes (R55); so that no byte of such a line is ever seen unwritten, a row that faults on its way is passed
again as one that does not cover the line. -/
def wholeRow {α : Type} (id : Nat) (st : List Word) (row : Nat) (pass : M α) : M α := do
  match rowLine st row with
  | none => pass
  | some a =>
    match scratchOff a with
    | none => pass
    | some off =>
      if (← get).job.coldLine off && (((← get).job.opAt id).run 0).outs.isEmpty then
        match ← attempt (engCheck id a 256) with
        | .error _ => pass
        | .ok _ => fun s =>
          match (do touchAll off 256 .write; pass) s with
          | .ok x t => .ok x t
          | .error (.fault _) _ => pass s
          | .error e _ => .error e s
      else pass

/-- Writes the codes and scale byte of a block of 32 elements together (R280, R267, R221). -/
def blockPut (id : Nat) (st : List Word) (ixs : List (List Nat)) (vs : List Lane) : M Unit := do
  let (sc, codes) := blockQuant (stFmt st) .rne (vs.map fun v => (dec32 v, 0))
  if fmtFour (stFmt st) then
    -- along dimension 0 two codes share a byte; along dimension 1 the caller pairs two blocks
    engWrite id (elemAddr st (ixs.headD [])).1 (packCodes (stFmt st) codes)
  else (ixs.zip codes).forM fun (ix, c) => elemPut id st ix c
  engWrite id (scaleAddr st (ixs.headD [])) (leList 1 sc)

/-- Window keys of a tensor's elements and scale bytes (R111). -/
def streamKeys (window : Nat) (st : List Word) (ext : List Nat) : List Range :=
  boxKey window (elemBox st ext) ++ (if fmtBlock (stFmt st) then boxKey window (scaleBox st ext) else [])

/-! ## Ports (R289, R293, R313) -/

/-- A port of an operation: its entry, its place among the operation's ports, its code (R316), its slot, its ARGV register
plus 1, and its own conversion as format, OVF, and whether the lane is an integer (R280). -/
structure Bind where
  id   : Nat
  i    : Nat
  port : Nat
  slot : Nat
  argv : Nat
  conv : Option (Nat × Bool × Bool)
  deriving DecidableEq, Repr, Inhabited


/-- What R313 asks of one binding: the port has a partner, and its rows hold so many elements. -/
structure PortUse where
  slot    : Nat
  partner : Bool
  rowLen  : Nat
  deriving DecidableEq, Repr, Inhabited

/-- A binding breaks R313. -/
def Job.bindBad (j : Job) (u : PortUse) : Bool :=
  u.slot != 0 &&
  (decide (recPslots j.lrec < u.slot) || (j.slotAt u.slot).image.isEmpty ||
   (let p := slotProg (j.slotAt u.slot)
    (h0Argk p.h0 == 1 && !u.partner) ||
    ((h0Argk p.h0 == 2 || h0Argk p.h0 == 3) && j.argvOf u.slot == 0) ||
    (p.keepsWindow && decide (64 < u.rowLen))))

/-- The slot of the first binding that breaks R313, one slot bound twice among them. -/
def Job.bindBreach (j : Job) (us : List PortUse) : Option Nat :=
  let bound := (us.map fun u => u.slot).filter (· != 0)
  match us.find? j.bindBad with
  | some u => some u.slot
  | none => bound.find? fun n => 1 < (bound.filter (· == n)).length

/-- The port binding fault (R313, R423). -/
def bindFault (slot : Nat) : FaultInfo := { FaultInfo.of 0x1C with aux := slot }

/-- Checks the bindings of an instruction at issue. -/
def checkBinds (us : List PortUse) : M Unit := do
  match (← get).job.bindBreach us with
  | some n => throw (.fault (bindFault n))
  | none => pure ()

/-- A slot passes elements unchanged or through a linear program (R323). -/
def Job.linearSlot (j : Job) (n : Nat) : Bool := n = 0 || (j.slotAt n).linear

/-! ## One element at a port (R296, R301, R314 to R317) -/

/-- Carried words and window of a lane of a slot. -/
def PortSlot.carryOf (p : PortSlot) (lane : Nat) : List Lane := (List.range 8).map fun w => Cells.get 0 p.carry (64 * w + lane)
def PortSlot.winOf (p : PortSlot) (lane : Nat) : List Lane := (List.range 8).map fun d => Cells.get 0 p.win (64 * d + lane)

/-- The port detail of a record and the fault (R316). -/
def portFault (b : Bind) (slot : PortSlot) (row col block dfi kind : Nat) (elem value qb : Lane) : FaultInfo :=
  let lanes := fun (vs : List Lane) => (vs.map fun v => leList 4 v.toNat).flatten
  { FaultInfo.of 0x1B with
    port := leList 4 row ++ leList 2 col ++ leList 1 b.port ++ leList 1 b.slot ++ leList 1 block ++ leList 1 dfi ++
      leList 1 kind ++ leList 5 0 ++ leList 4 elem.toNat ++ leList 4 value.toNat ++ lanes (slot.carryOf (col % 64)) ++
      lanes (slot.winOf (col % 64)) ++ leList 4 slot.satn.toNat ++ leList 4 slot.flun.toNat
    qb := qb.toNat }

/-- A counter that stops at its greatest value (R353). -/
def bump (c : Lane) (n : Nat) : Lane := BitVec.ofNat 32 (Nat.min (c.toNat + n) 0xFFFF_FFFF)

/-- A block commits: its carried writes and counter updates take effect together (R301). -/
def PortSlot.commit (p : PortSlot) (lane : Nat) (r : BlockRun) : PortSlot :=
  { p with
    carry := r.writes.foldl (fun c w => Cells.set 0 c (64 * w.1 + lane) w.2) p.carry
    satn := bump p.satn r.satn
    flun := bump p.flun r.flun }

/-- A lane rounded to a format without blocks: as FP32, or as an integer of the format's signedness (R280, R267); to FP32
itself there is no conversion, and a NaN keeps its bits (R235). -/
def laneConv (f : Nat) (int : Bool) (v : Lane) : Conv :=
  if f = 0x10 then ⟨v.toNat, false⟩ else convertFmt f .rne 0 (if int then Fp.ofInt (if fmtSigned f then v.toInt else (v.toNat : Int)) else dec32 v)

/-- The port's own conversion of a value would fault (R245, R314). -/
def convBad (c : Option (Nat × Bool × Bool)) (v : Lane) : Bool :=
  match c with
  | some (f, ovf, int) => ovf && (laneConv f int v).bad
  | none => false

/-- An element as a port sees it: the row, its coordinates, its partner. -/
structure Elem where
  rowi    : Nat
  col     : Nat
  elem    : Lane
  partner : Lane
  fill    : Bool
  row     : List Lane
  deriving DecidableEq, Repr, Inhabited

/-- The value ARG gives (R293). -/
def argValue (j : Job) (b : Bind) (p : Prog) (e : Elem) : Lane :=
  match h0Argk p.h0 with
  | 1 => e.partner
  | 2 => j.laneVal b.id (b.argv - 1) (e.rowi % 64)
  | 3 => j.laneVal b.id (b.argv - 1) (e.col % 64)
  | 4 => (j.slotAt b.slot).args
  | _ => 0

/-- Records the ARG value that a linear consumer uses (R324). -/
def noteArg (b : Bind) (e : Elem) (v : Lane) : M Unit := do
  match (← get).job.baseOf b.id with
  | none => pure ()
  | some l =>
    let key := 2 ^ 30 * b.i + 64 * e.rowi + e.col
    let upd := fun (t : Target) => if t.id = b.id then { t with args := Cells.set 0 t.args key v } else t
    modify fun s => s.modJob fun j => { j with lineages := j.lineages.map fun m =>
      if m.tag = l.tag then { m with targets := m.targets.map upd } else m }

/-- Runs the blocks of a program on an element from block k on (R296): the output. -/
def runBlocks (b : Bind) (p : Prog) (e : Elem) (sat own : Bool) : Nat → Nat → M Lane
  | 0, _ => pure 0
  | f + 1, k => do
    let j := (← get).job
    let slot := j.slotAt b.slot
    let lane := e.col % 64
    let arg := argValue j b p e
    noteArg b e arg
    let v : PEnv := ⟨e.elem, e.row, e.fill, e.col, e.rowi, arg, slot.carryOf lane, slot.winOf lane, slot.wdepth, sat⟩
    let blk := p.blocks.getD k []
    let stay := modOp b.id fun o => o.setRun b.i { o.run b.i with blk := k }
    match evalBlock p v blk with
    | .error x => do
      stay
      throw (.fault (portFault b slot e.rowi e.col k x.w x.kind e.elem x.value x.qb))
    | .ok r =>
      let commit := modify fun s => s.modJob fun j => { j with slots := vset j.slots b.slot ((j.slotAt b.slot).commit lane r) }
      match exitOf blk r with
      | .inl out => do
        if !sat && !own && convBad b.conv out then
          stay
          throw (.fault (portFault b slot e.rowi e.col 0xFF 0xFF 3 e.elem out 0))
        commit
        pure out
      | .inr next => do
        commit
        modOp b.id fun o => o.setRun b.i { o.run b.i with blk := next }
        runBlocks b p e sat own f next

/-- Passes the next element of the port's row through it; the value the port gives. The resumption that a handler chose
acts on the first element after it (R317). An element of a row that only enters the window is decoded and runs no program
(R300). -/
def portElem (b : Bind) (rowi : Nat) (enters fill : Bool) (partner : Lane) : M Lane := do
  let j := (← get).job
  let o := j.opAt b.id
  let r := o.run b.i
  let col := r.outs.length
  let mode := (o.resume.map fun x => x.mode).getD 0
  let kind := (o.resume.map fun x => x.kind).getD 0
  let repl := (o.resume.map fun x => x.repl).getD 0
  let sat := o.sat.contains b.i || mode == 1
  let given := mode == 2 && kind == 4
  let ins := if given then setAt (0, none) r.ins col (repl, none) else r.ins
  modOp b.id fun o => { (o.setRun b.i { r with ins := ins }) with
    resume := none, sat := if mode = 1 then b.i :: o.sat else o.sat }
  if mode = 2 && kind ≤ 3 then pure repl
  else
    let (x, bad) := ins.getD col (0, none)
    let slot := if b.slot = 0 then .empty else j.slotAt b.slot
    match bad with
    | some c =>
      if !sat then throw (.fault (portFault b slot rowi col 0xFF 0xFF 4 0 (BitVec.ofNat 32 c) 0))
    | none => pure ()
    if enters then pure 0
    else if b.slot = 0 then
      if !sat && !given && convBad b.conv x then throw (.fault (portFault b slot rowi col 0xFF 0xFF 3 x x 0))
      pure x
    else
      runBlocks b (slotProg slot) ⟨rowi, col, x, partner, fill, ins.map fun y => y.1⟩ sat given 8 r.blk

/-! ## Rows at a port (R290, R299, R300) -/

/-- A row enters the window of a slot (R299). -/
def PortSlot.enter (s : PortSlot) (xs : List Lane) : PortSlot :=
  let p := slotProg s
  let wf := h0Wfill p.h0
  let old := (s.win.filter fun e => e.1 < 448).map fun e => (e.1 + 64, e.2)
  let missing := fun (l : Nat) => if wf = 1 then (if s.wdepth = 0 then 0 else Cells.get 0 s.win l) else fillValue wf
  let new := (List.range 64).map fun l => if l < xs.length then xs.getD l 0 else missing l
  { s with win := Cells.setMany 0 old 0 new, wdepth := Nat.min (s.wdepth + 1) 8 }

/-- The fill row of R300. -/
def PortSlot.fillRow (s : PortSlot) (len : Nat) : List (Lane × Option Nat) :=
  let wf := h0Wfill (slotProg s).h0
  (List.range len).map fun l => (if wf = 1 then Cells.get 0 s.win l else fillValue wf, none)

/-- Takes the port's next input row, unless it is taken: read gives row q; rows from total on are fill (R300). -/
def takeRow (b : Bind) (len total : Nat) (read : Nat → M (List (Lane × Option Nat))) : M Unit := do
  let r := ((← get).job.opAt b.id).run b.i
  if !r.taken then
    let ins ← if r.q < total then read r.q else pure (((← get).job.slotAt b.slot).fillRow len)
    modOp b.id fun o => o.setRun b.i { o.run b.i with taken := true, ins := ins, outs := [], blk := 0 }

/-- The port's row is done: it enters the window, and the next row comes up. -/
def endRow (b : Bind) : M Unit := do
  let j := (← get).job
  let r := (j.opAt b.id).run b.i
  if b.slot != 0 && (slotProg (j.slotAt b.slot)).keepsWindow then
    let xs := r.ins.map fun y => y.1
    modify fun s => s.modJob fun j => { j with slots := vset j.slots b.slot ((j.slotAt b.slot).enter xs) }
  modOp b.id fun o => o.setRun b.i ⟨r.q + 1, false, [], [], 0⟩

/-- Adds an output to the port's row. -/
def pushOut (b : Bind) (v : Lane) : M Unit :=
  modOp b.id fun o => let r := o.run b.i; o.setRun b.i { r with outs := r.outs ++ [v], blk := 0 }

/-- Passes the port's next input row through it, element by element: `before` holds for an output element before the
element passes, `emit` delivers it. The row number and outputs, or none for a row that only enters the window. -/
def portRow (b : Bind) (row0 len total : Nat) (read : Nat → M (List (Lane × Option Nat)))
    (before : Nat → Nat → M Unit) (emit : Nat → Nat → Lane → M Unit) : M (Option (Nat × List Lane)) := do
  takeRow b len total read
  let j := (← get).job
  let r := (j.opAt b.id).run b.i
  let lag := j.lagOf b.slot
  if r.q < lag then
    (List.range len).forM fun col => do
      if r.outs.length ≤ col then
        let v ← portElem b (row0 + r.q) true false 0
        pushOut b v
    endRow b
    pure none
  else
    let row := r.q - lag
    (List.range len).forM fun col => do
      if r.outs.length ≤ col then
        before row col
        let v ← portElem b (row0 + row) false (total ≤ r.q) 0
        emit row col v
        pushOut b v
    let outs := (((← get).job.opAt b.id).run b.i).outs
    endRow b
    pure (some (row, outs))

/-- The port has given every output row (R300). -/
def portDone (b : Bind) (total : Nat) : M Bool := do
  let j := (← get).job
  pure (decide (total + j.lagOf b.slot ≤ ((j.opAt b.id).run b.i).q))

def noCheck : Nat → Nat → M Unit := fun _ _ => pure ()
def noEmit : Nat → Nat → Lane → M Unit := fun _ _ _ => pure ()

end Sys2Proof.Machine
end

