-- ==== Sys2Proof/Machine/Vector.lean ====
section
/-! DEFINITION. Vector registers and the reduction slot (chapter 11), and VROW (R268): what the instructions check and
capture at issue, and the units in which their operations run. -/

namespace Sys2Proof.Machine

/-! ## Checks at issue (R279, R288) -/

/-- The vector operand fault. -/
def vfault : FaultInfo := FaultInfo.of 0x1A

/-- The window indices of a run of names. -/
def regs (name n : Nat) : M (List Nat) := do
  match (← get).job.resolveRun true name n with
  | some is => pure is
  | none => throw (.fault vfault)

/-- The words of a stream register, checked (R222, R226). -/
def streamOfReg (n : Nat) : M (List Word) := do
  let st := (← get).job.stWords n
  faultIf (stBad st) (stFault n)
  pure st

/-- A format that a port may be bound to (R279, R280). -/
def portFmt (f : Nat) : Bool := fmtFloat f || fmtBlock f

/-- A stream that VLD, VST or VRED refuses, or a port bound where they forbid it (R279, R280, R288). -/
def vgeomBad (st : List Word) (slot : Nat) : Bool :=
  decide (2 < stDims st) || decide (64 < stE st 0) || stFmt st == 7 || stFmt st == 8 || stFmt st == 0x1A ||
  (fmtBlock (stFmt st) && (stBdim st != 0 || stE st 0 % 32 != 0)) || (slot != 0 && !portFmt (stFmt st))

/-- The stream with its row offset c taken in (R279). -/
def rowOffset (st : List Word) (c : Word) : List Word :=
  let move := fun (i : Nat) (d : Int) => setAt 0 st i (BitVec.ofInt 64 ((stW st i).toNat + c.toNat * d))
  if fmtBlock (stFmt st) then
    setAt 0 (move 0 (stS st 1)) 5 (BitVec.ofInt 64 ((stW st 5).toNat + c.toNat * stSS st 1))
  else move 0 (stS st 1)

/-- The identity header of an operation's ports: its slots and codes. -/
def Op.bind (o : Op) (id i port slot : Nat) (conv : Option (Nat × Bool × Bool)) : Bind :=
  ⟨id, i, port, slot, o.argv.getD i 0, conv⟩

/-! ## VLD and VST (R279 to R281) -/

/-- VLD (R279): checks, and the operation enters the Weir. DESIGN CHOICE (log entry 74): of several faults at issue, the manual
orders R279 and R280 before R313 alone; here the stream register's 0x18 comes first (R222), then 0x1A of the stream, of the
registers, then 0x1C; VST, VMOV and VRED take their faults in the same order. -/
def execVld (h : Hdr) (d : VReg) (st : StReg) (ss : SReg) (px : Slot) (s : State) : Host.Outcome State Fault Refusal :=
  runInstr h [.V] (do
    let w ← streamOfReg st.toNat
    faultIf (vgeomBad w px.toNat) vfault
    let rs ← regs d.toNat (stE w 1)
    checkBinds [⟨px.toNat, false, stE w 0⟩]
    let s ← get
    let w := rowOffset w (s.getS ss)
    let keys := s.job.portKeys [px.toNat] { Keys.none with sr := streamKeys s.job.window w (stExt w), vw := rs }
    issueOp (.vld h d st ss px) 5 keys fun o => { o with sts := [w], vd := rs, argv := [s.job.argvOf px.toNat] }
    pure .next) s

/-- VST (R280). -/
def execVst (h : Hdr) (st : StReg) (v : VReg) (ss : SReg) (pz : Slot) (s : State) : Host.Outcome State Fault Refusal :=
  runInstr h [.V] (do
    let w ← streamOfReg st.toNat
    faultIf (vgeomBad w pz.toNat) vfault
    let rs ← regs v.toNat (stE w 1)
    checkBinds [⟨pz.toNat, false, stE w 0⟩]
    let s ← get
    let w := rowOffset w (s.getS ss)
    let keys := s.job.portKeys [pz.toNat] { Keys.none with sw := streamKeys s.job.window w (stExt w), vr := rs }
    issueOp (.vst h st v ss pz) 5 keys fun o => { o with sts := [w], vs := rs, argv := [s.job.argvOf pz.toNat] }
    pure .next) s

/-- An element as VLD gives it to a lane (R279). -/
def vldLane (st : List Word) (code scale : Nat) : Lane × Option Nat :=
  let f := stFmt st
  if fmtInt f then (if fmtSigned f then (sextN (8 * fmtSize f) code).truncate 32 else BitVec.ofNat 32 code, none)
  else elemIn st code scale

/-- A unit of VLD: the next row. -/
def vldUnit (id slot : Nat) : M Bool := do
  let o := (← get).job.opAt id
  let st := o.sts.headD []
  let b := o.bind id 0 6 slot none
  let _ ← portRow b 0 (stE st 0) (stE st 1) (fun q => readRow id st (stE st 0) (fun e => [e, q]) (vldLane st))
    (fun row _ => writeGate id (.vreg (o.vd.getD row 0)))
    (fun row col v => putLane id (o.vd.getD row 0) col v)
  portDone b (stE st 1)

/-- Checks that a row's elements and scale bytes may be written. -/
def rowCheck (id : Nat) (st : List Word) (row : Nat) : M Unit :=
  (List.range (stE st 0)).forM fun e => do
    let (a, n) := elemSpan st [e, row]
    engCheck id a n
    if fmtBlock (stFmt st) then engCheck id (scaleAddr st [e, row]) 1

/-- The lanes of a register as an operation reads them. -/
def readReg (id i : Nat) : M (List Lane) := do
  readGate id (.vreg i)
  let j := (← get).job
  pure ((List.range 64).map fun l => j.laneVal id i l)

/-- Lanes as elements of a port. -/
def asElems (vs : List Lane) : List (Lane × Option Nat) := vs.map fun v => (v, none)

/-- A unit of VST: the next row. -/
def vstUnit (id slot : Nat) : M Bool := do
  let o := (← get).job.opAt id
  let st := o.sts.headD []
  let f := stFmt st
  let blk := fmtBlock f
  let b := o.bind id 0 7 slot (if blk then none else some (f, stOvf st, fmtInt f))
  let n := stE st 0
  let lag := (← get).job.lagOf slot
  let q := (o.run 0).q
  let next := portRow b 0 n (stE st 1)
    (fun q => do pure (asElems ((← readReg id (o.vs.getD q 0)).take n))) noCheck
    (fun row col v => do
      if !blk then elemPut id st [col, row] (laneConv f (fmtInt f) v).code
      else if col % 32 = 31 then
        let outs := (((← get).job.opAt id).run 0).outs
        blockPut id st ((List.range 32).map fun k => [col - 31 + k, row]) (outs.drop (col - 31) ++ [v]))
  let _ ← if lag ≤ q then wholeRow id st (q - lag) (do rowCheck id st (q - lag); next) else next
  portDone b (stE st 1)

/-! ## VMOV (R282) -/

/-- VMOV (R282). -/
def execVmov (h : Hdr) (t2 : Bool) (d v t : VReg) (n : BitVec 6) (px py pz : Slot) (s : State) :
    Host.Outcome State Fault Refusal :=
  runInstr h [.V] (do
    let k := n.toNat + 1
    let vs ← regs v.toNat k
    let vt ← if t2 then regs t.toNat k else pure []
    let vd ← regs d.toNat k
    checkBinds [⟨px.toNat, t2, 64⟩, ⟨py.toNat, t2, 64⟩, ⟨pz.toNat, t2, 64⟩]
    let s ← get
    let slots := [px.toNat, py.toNat, pz.toNat]
    let keys := s.job.portKeys slots { Keys.none with vr := vs ++ vt, vw := vd }
    issueOp (.vmov h t2 d v t n px py pz) 5 keys fun o =>
      { o with vd := vd, vs := vs, vt := vt, argv := slots.map s.job.argvOf }
    pure .next) s

/-- The three ports of a VMOV. -/
def vmovBinds (o : Op) (id : Nat) (px py pz : Slot) : Bind × Bind × Bind :=
  (o.bind id 0 3 px.toNat none, o.bind id 1 4 py.toNat none, o.bind id 2 5 pz.toNat none)

/-- A register of a VMOV without programs: its bit patterns are copied (R282). -/
def vmovCopy (x y z : Bind) (o : Op) (t2 : Bool) : M Bool := do
  let q := (o.run 0).q
  let vs ← readReg x.id (o.vs.getD q 0)
  if t2 then let _ ← readReg y.id (o.vt.getD q 0)
  putReg z.id (o.vd.getD q 0) vs
  endRow x
  if t2 then endRow y
  endRow z
  pure (decide (o.vd.length ≤ q + 1))

/-- The rows that port i of an operation has given, and the outputs so far of the row in hand, by row number (R300). -/
def Job.rowOut (j : Job) (b : Bind) (row : Nat) : List Lane :=
  let o := j.opAt b.id
  let rows := o.queue.getD b.i []
  let r := o.run b.i
  if row < rows.length then rows.getD row []
  else if row = rows.length && decide (j.lagOf b.slot ≤ r.q) then r.outs
  else []

/-- Passes the next element of X or Y through it: an element of register q of its own run, whose partner is the other run's
register of the row that it gives (R293, R300). -/
def vmovFeed (b : Bind) (n : Nat) (own other : List Nat) : M Unit := do
  takeRow b 64 n fun q => do pure (asElems (← readReg b.id (own.getD q 0)))
  let j := (← get).job
  let r := (j.opAt b.id).run b.i
  let lag := j.lagOf b.slot
  if r.q < lag then pushOut b (← portElem b r.q true false 0)
  else
    let row := r.q - lag
    let partner ← if row < other.length then (do pure ((← readReg b.id (other.getD row 0)).getD r.outs.length 0)) else pure 0
    pushOut b (← portElem b row false (n ≤ r.q) partner)
  let r := ((← get).job.opAt b.id).run b.i
  if 64 ≤ r.outs.length then
    if lag ≤ r.q then
      modOp b.id fun o => { o with queue := setAt [] o.queue b.i (o.queue.getD b.i [] ++ [r.outs]) }
    endRow b

/-- Z's next element can pass: the lanes that it and its neighbours take are X's outputs, and its partner is Y's (R282, R293, R298). -/
def Job.vmovReady (j : Job) (x y z : Bind) (n : Nat) (t2 : Bool) : Bool :=
  let r := (j.opAt z.id).run z.i
  let lag := j.lagOf z.slot
  let col := r.outs.length
  let cols := col :: (if z.slot = 0 then [] else (slotProg (j.slotAt z.slot)).xlCols 64 col)
  (decide (n ≤ r.q) || cols.all fun c => decide (c < (j.rowOut x r.q).length)) &&
    (!t2 || decide (r.q < lag) || decide (col < (j.rowOut y (r.q - lag)).length))

/-- Passes Z's next element through it into the destination; whether that was the last of a row. -/
def vmovEmit (x y z : Bind) (o : Op) (n : Nat) : M Bool := do
  let j := (← get).job
  let r := (j.opAt z.id).run z.i
  let lag := j.lagOf z.slot
  let col := r.outs.length
  if r.q < n then
    let xs := j.rowOut x r.q
    modOp z.id fun o => o.setRun z.i { o.run z.i with taken := true, ins := asElems (xs ++ List.replicate (64 - xs.length) 0) }
  else takeRow z 64 n fun _ => pure []
  if r.q < lag then pushOut z (← portElem z r.q true false 0)
  else
    let row := r.q - lag
    let dst := o.vd.getD row 0
    writeGate z.id (.vreg dst)
    let v ← portElem z row false (n ≤ r.q) ((j.rowOut y row).getD col 0)
    putLane z.id dst col v
    pushOut z v
  if col = 63 then endRow z
  pure (col == 63)

/-- How far a port of a VMOV has come, in elements that it gives, a lag's rows before them. -/
def Job.vmovPos (j : Job) (b : Bind) : Nat :=
  let r := (j.opAt b.id).run b.i
  (8 + r.q - j.lagOf b.slot) * 64 + r.outs.length

/-- A VMOV with programs goes on, element by element, until Z has taken a row: Z when it can, else whichever of X and Y is
behind, so that nothing runs before an element that R290 puts before it (R314, R315). -/
def vmovGo (x y z : Bind) (o : Op) (n : Nat) (t2 : Bool) : Nat → M Unit
  | 0 => pure ()
  | f + 1 => do
    let j := (← get).job
    if j.vmovReady x y z n t2 then
      if !(← vmovEmit x y z o n) then vmovGo x y z o n t2 f
    else
      if t2 && decide (j.vmovPos y < j.vmovPos x) then vmovFeed y n o.vt o.vs else vmovFeed x n o.vs o.vt
      vmovGo x y z o n t2 f

/-- A unit of VMOV: a row of Z. -/
def vmovUnit (id : Nat) (t2 : Bool) (px py pz : Slot) : M Bool := do
  let j := (← get).job
  let o := j.opAt id
  let (x, y, z) := vmovBinds o id px py pz
  if px == 0 && py == 0 && pz == 0 then vmovCopy x y z o t2
  else
    vmovGo x y z o o.vd.length t2 4096
    portDone z o.vd.length

/-! ## Lane instructions (R283 to R285) -/

/-- Holds the V stream until every earlier entry has made its accesses to the registers, and none is provisional (R285,
R326, R330). -/
def laneHold (rd wr : List Nat) : M Unit := do
  waitClear { Keys.none with vr := rd, vw := wr }
  let id := (← get).job.nextId
  rd.forM fun i => readGate id (.vreg i)
  wr.forM fun i => writeGate id (.vreg i)

/-- The window index of one register. -/
def reg (name : Nat) : M Nat := do pure ((← regs name 1).headD 0)

/-- VSPLAT (R283). -/
def execVsplat (h : Hdr) (d : VReg) (ss : SReg) (s : State) : Host.Outcome State Fault Refusal :=
  runInstr h [.V] (do
    let i ← reg d.toNat
    laneHold [] [i]
    modify fun s => s.modJob fun j => j.setLanes i (List.replicate 64 ((s.getS ss).truncate 32))
    pure .next) s

/-- VPERM's result (R283). -/
def permuted (vs vt : List Lane) : List Lane := vt.map fun t => if t.toNat < 64 then vs.getD t.toNat 0 else 0

/-- VPERM (R283): both sources are read whole first. -/
def execVperm (h : Hdr) (d v t : VReg) (s : State) : Host.Outcome State Fault Refusal :=
  runInstr h [.V] (do
    let i ← reg d.toNat
    let a ← reg v.toNat
    let b ← reg t.toNat
    laneHold [a, b] [i]
    modify fun s => s.modJob fun j => j.setLanes i (permuted (j.lanes a) (j.lanes b))
    pure .next) s

/-- VIDX's lanes (R283). -/
def indexLanes (base : Word) (step : BitVec 21) : List Lane :=
  (List.range 64).map fun l => (base + BitVec.ofNat 64 l * step.signExtend 64).truncate 32

/-- VIDX (R283). -/
def execVidx (h : Hdr) (d : VReg) (ss : SReg) (step : BitVec 21) (s : State) : Host.Outcome State Fault Refusal :=
  runInstr h [.V] (do
    let i ← reg d.toNat
    laneHold [] [i]
    modify fun s => s.modJob fun j => j.setLanes i (indexLanes (s.getS ss) step)
    pure .next) s

/-- VGET (R283). -/
def execVget (h : Hdr) (signed : Bool) (ss : SReg) (v : VReg) (lane : BitVec 6) (s : State) : Host.Outcome State Fault Refusal :=
  runInstr h [.V] (do
    let i ← reg v.toNat
    laneHold [i] []
    modify fun s =>
      let x := s.job.lane i lane.toNat
      s.setS ss (if signed then x.signExtend 64 else x.zeroExtend 64)
    pure .next) s

/-- VPUT (R283). -/
def execVput (h : Hdr) (d : VReg) (lane : BitVec 6) (ss : SReg) (s : State) : Host.Outcome State Fault Refusal :=
  runInstr h [.V] (do
    let i ← reg d.toNat
    laneHold [] [i]
    modify fun s => s.modJob fun j => j.setLane i lane.toNat ((s.getS ss).truncate 32)
    pure .next) s

/-- VTEST (R284). -/
def execVtest (h : Hdr) (cc : VCond) (n : PReg) (v : VReg) (s : State) : Host.Outcome State Fault Refusal :=
  runInstr h [.V] (do
    let i ← reg v.toNat
    laneHold [i] []
    modify fun s => s.setP n (vcondHolds cc (s.job.lanes i))
    pure .next) s

/-- VRBASE (R276, R283): a region that passes the window faults and changes nothing. -/
def execVrbase (h : Hdr) (base : BitVec 9) (size : BitVec 10) (s : State) : Host.Outcome State Fault Refusal :=
  runInstr h [.V] (do
    faultIf (decide (recVregs (← get).job.lrec < base.toNat + size.toNat)) vfault
    modify fun s => s.modJob fun j => { j with rb := base.toNat, rs := size.toNat, rot := 0 }
    pure .next) s

/-! ## The reduction slot (R286, R287) -/

/-- Identity of a reduction. -/
def redIdentity : RedOp → Lane
  | .add => 0
  | .max => 0xFF80_0000
  | .min => 0x7F80_0000

/-- c(a, b) of a reduction. -/
def redCombine : RedOp → Lane → Lane → Lane
  | .add => add32
  | .max => max32
  | .min => min32

/-- VRED from registers (R286). -/
def execVred (h : Hdr) (op : RedOp) (x : Bool) (q : BitVec 2) (v : VReg) (n : BitVec 6) (s : State) :
    Host.Outcome State Fault Refusal :=
  runInstr h [.V] (do
    let vs ← regs v.toNat (n.toNat + 1)
    issueOp (.vred h op x q v n) 5 { Keys.none with vr := vs } fun o => { o with vs := vs }
    pure .next) s

/-- VRED from a stream (R286). -/
def execVredStream (h : Hdr) (op : RedOp) (x : Bool) (q : BitVec 2) (st : StReg) (px : Slot) (s : State) :
    Host.Outcome State Fault Refusal :=
  runInstr h [.V] (do
    let w ← streamOfReg st.toNat
    faultIf (vgeomBad w px.toNat) vfault
    checkBinds [⟨px.toNat, false, stE w 0⟩]
    let j := (← get).job
    let keys := j.portKeys [px.toNat] { Keys.none with sr := streamKeys j.window w (stExt w) }
    issueOp (.vredStream h op x q st px) 5 keys fun o => { o with sts := [w], argv := [j.argvOf px.toNat] }
    pure .next) s

/-- VDRAIN (R286). -/
def execVdrain (h : Hdr) (clr : DrainClear) (d : VReg) (q : BitVec 2) (s : State) : Host.Outcome State Fault Refusal :=
  runInstr h [.V] (do
    let i ← reg d.toNat
    issueOp (.vdrain h clr d q) 5 { Keys.none with vw := [i] } fun o => { o with vd := [i] }
    pure .next) s

/-- A push as it stands in the slot: its lanes, or their fold in tree order for lane k mod 64 (R286). -/
def pushOf (num cycle q k : Nat) (op : RedOp) (x : Bool) (vs : List Lane) : Push :=
  ⟨num, cycle + 12, q, op, if x then [(k % 64, treeFold (redCombine op) 7 vs)] else vs.zipIdx.map fun (v, l) => (l, v)⟩

/-- Makes the k-th push of an operation. -/
def makePush (id q k : Nat) (op : RedOp) (x : Bool) (vs : List Lane) : M Unit := do
  writeGate id (.latch q)
  modify fun s => s.modJob fun j =>
    { j with pushes := j.pushes ++ [pushOf (j.opAt id).num s.cycle q k op x vs] }

/-- Applies a push to its latch (R286). -/
def Job.applyPush (j : Job) (p : Push) : Job :=
  p.cells.foldl (fun j c => j.setLatch p.q c.1 (redCombine p.op (j.latchAt p.q c.1) c.2)) j

/-- Applies the pushes due by a cycle, in the order made. -/
def applyDue (cycle : Nat) : List Push → Job → Job
  | [], j => { j with pushes := [] }
  | p :: r, j => if p.due ≤ cycle then applyDue cycle r (j.applyPush p) else { j with pushes := p :: r }

/-- A unit of VRED from registers: the next push. -/
def vredUnit (id : Nat) (op : RedOp) (x : Bool) (q : BitVec 2) : M Bool := do
  let o := (← get).job.opAt id
  let vs ← readReg id (o.vs.getD o.unit 0)
  makePush id q.toNat o.unit op x vs
  modOp id fun o => { o with unit := o.unit + 1 }
  pure (decide (o.vs.length ≤ o.unit + 1))

/-- A unit of VRED from a stream: the next row; missing lanes are the identity. -/
def vredStreamUnit (id : Nat) (op : RedOp) (x : Bool) (q : BitVec 2) (slot : Nat) : M Bool := do
  let o := (← get).job.opAt id
  let st := o.sts.headD []
  let b := o.bind id 0 6 slot none
  writeGate id (.latch q.toNat)
  match ← portRow b 0 (stE st 0) (stE st 1) (fun q => readRow id st (stE st 0) (fun e => [e, q]) (vldLane st)) noCheck
      noEmit with
  | some (row, outs) => makePush id q.toNat row op x (outs ++ List.replicate (64 - outs.length) (redIdentity op))
  | none => pure ()
  portDone b (stE st 1)

/-- What a clear code leaves in a latch lane (R286). -/
def clearLane : DrainClear → Lane → Lane
  | .keep, v => v
  | .cp, _ => 0
  | .cn, _ => 0xFF80_0000
  | .ci, _ => 0x7F80_0000

/-- VDRAIN's one unit: every push made 12 cycles ago or earlier has been applied (R286). -/
def vdrainUnit (id : Nat) (clr : DrainClear) (q : BitVec 2) : M Bool := do
  readGate id (.latch q.toNat)
  modify fun s => s.modJob (applyDue s.cycle s.job.pushes)
  let j := (← get).job
  let i := (j.opAt id).vd.headD 0
  writeGate id (.vreg i)
  let vs := Cells.getMany 0 j.latch (64 * q.toNat) 64
  modify fun s => s.modJob fun j =>
    { (j.setLanes i vs) with latch := Cells.setMany 0 j.latch (64 * q.toNat) (vs.map (clearLane clr)) }
  pure true

/-! ## VROW (R268, R272) -/

/-- VROW's faults are matrix operand faults (R272, R288). -/
def execVrow (h : Hdr) (abs : Bool) (d : VReg) (a : AccReg) (nc : BitVec 7) (s : State) : Host.Outcome State Fault Refusal :=
  runInstr h [.V] (do
    let j := (← get).job
    faultIf (decide (recAccs j.lrec ≤ a.toNat)) (FaultInfo.of 0x19)
    match j.resolveRun true d.toNat 3 with
    | none => throw (.fault (FaultInfo.of 0x19))
    | some rs =>
      issueOp (.vrow h abs d a nc) 5 { Keys.none with ar := [a.toNat], vw := rs } fun o => { o with vd := rs }
      pure .next) s

/-- The three statistics of a row (R268); a NaN among them is the output NaN (R235). -/
def rowStats (xs : List Lane) : Lane × Lane × Lane :=
  let sum := treeSum xs
  (xs.tail.foldl max32 (max32 (xs.headD 0) (xs.headD 0)), orNan sum sum, treeSum (xs.map fun v => mul32 v v))

/-- VROW's one unit. -/
def vrowUnit (id : Nat) (abs : Bool) (a nc : Nat) : M Bool := do
  readGate id (.acc a)
  let j := (← get).job
  let rs := (j.opAt id).vd
  rs.forM fun i => writeGate id (.vreg i)
  let row := fun (m : Nat) =>
    rowStats ((List.range nc).map fun c => let v := j.accVal id a m c; if abs then orNan v (v &&& 0x7FFF_FFFF) else v)
  (List.range 64).forM fun m => do
    let (x, y, z) := row m
    modify fun s => s.modJob fun j =>
      ((j.setLane (rs.getD 0 0) m x).setLane (rs.getD 1 0) m y).setLane (rs.getD 2 0) m z
  pure true

end Sys2Proof.Machine
end

