-- ==== Sys2Proof/Machine/Spill.lean ====
section
/-! DEFINITION. Spillway (chapter 13): publishing, contributions, linear consumers, corrections, settling. -/

namespace Sys2Proof.Machine

/-- The matrix operand fault (R272). -/
def mfault : FaultInfo := FaultInfo.of 0x19

/-! ## Limits (R321, R325) -/

/-- Tiles of the correction store that a lineage holds. -/
def Lineage.tiles (l : Lineage) : Nat := 1 + l.room + l.targets.length
def Job.tiles (j : Job) : Nat := (j.lineages.map Lineage.tiles).foldl (· + ·) 0
/-- Free tiles of the correction store of the focus job's core. -/
def State.freeTiles (s : State) : Nat := 48 - ((s.onCore s.job.coreIx).map Job.tiles).foldl (· + ·) 0
/-- Recorded images a job holds. -/
def Job.recorded (j : Job) : Nat := ((j.lineages.map fun l => (l.targets.filter fun t => t.img.isSome).length)).foldl (· + ·) 0

def Job.modLineage (j : Job) (tag : Nat) (f : Lineage → Lineage) : Job :=
  { j with lineages := j.lineages.map fun l => if l.tag = tag then f l else l }

/-- Closing makes the declared count equal to the issued count (R332). -/
def Lineage.close (l : Lineage) : Lineage := { l with closed := true, ndecl := l.niss }

/-! ## MPUB, SETTLE, LQRY (R320, R333, R334) -/

/-- MPUB (R320): waits for earlier writers of the tile, then publishes it; without room it has no effect. -/
def execMpub (h : Hdr) (d : AccReg) (n : BitVec 4) (s : State) : Host.Outcome State Fault Refusal :=
  runInstr h [.M] (do
    let a := d.toNat
    faultIf (decide (recAccs (← get).job.lrec ≤ a)) mfault
    if (← get).job.entries.any fun e => e.keys.aw.contains a then
      modify fun s => s.modJob fun j =>
        { j with entries := j.entries.map fun e =>
            match e.kind with
            | .op o => if o.basin.isSome && e.keys.aw.contains a then
                { e with kind := .op { o with basin := o.basin.map fun b => (b.1, true) } } else e
            | _ => e }
      throw (.wait (.order 1 a))
    let s ← get
    let j := s.job
    match (List.range 16).find? fun t => (j.lineage t).isNone with
    | none => pure ()
    | some tag =>
      if !(j.lineages.any fun l => l.holds (.acc a)) && 1 + n.toNat ≤ s.freeTiles then
        let base := (j.acc.filter fun e => e.1 / 4096 == a).map fun e => (e.1 % 4096, e.2)
        set (s.modJob fun j =>
          { j with lineages := j.lineages ++ [⟨tag, a, j.nextId, n.toNat, n.toNat, 0, 0, false, base, [], []⟩] })
    pure .next) s

/-- A lineage has the accumulator as source or target. -/
def Lineage.names (l : Lineage) (accs : Nat → Bool) : Bool :=
  (List.range 8).any fun a => accs a && l.holds (.acc a)

/-- Closes the lineages that satisfy p and waits until none is left (R333). -/
def settleAllOf (p : Lineage → Bool) : M Unit := do
  let ls := (← get).job.lineages.filter p
  match ls with
  | [] => pure ()
  | l :: _ =>
    let close := fun (m : Lineage) => if p m then m.close else m
    let asked := fun (o : Op) => match o.role with | .contrib t _ => ls.any fun l => l.tag == t | _ => false
    modify fun s => s.modJob fun j => ({ j with lineages := j.lineages.map close } : Job).demand asked
    throw (.wait (.settle l.src))

/-- SETTLE (R333). -/
def execSettle (h : Hdr) (mask : BitVec 8) (s : State) : Host.Outcome State Fault Refusal :=
  runInstr h [.M] (do
    let accs := recAccs (← get).job.lrec
    faultIf ((List.range 8).any fun a => bitN mask.toNat a && decide (accs ≤ a)) mfault
    settleAllOf fun l => l.names fun a => bitN mask.toNat a
    pure .next) s

/-- SETTLE.ALL (R333). -/
def execSettleAll (h : Hdr) (s : State) : Host.Outcome State Fault Refusal :=
  runInstr h [.M] (do
    settleAllOf fun _ => true
    pure .next) s

/-- Bits 51:32 of LQRY (R334). -/
def lineageBits (l : Lineage) : Nat :=
  l.tag * 2 ^ 48 + l.ndecl * 2 ^ 44 + l.niss * 2 ^ 40 + l.nadd * 2 ^ 36 + l.targets.length * 2 ^ 33 +
    (if l.closed then 2 ^ 32 else 0)

/-- LQRY of an accumulator (R334). -/
def lqryAcc (j : Job) (a : Nat) : Nat :=
  match j.lineages.find? fun l => l.holds (.acc a) with
  | none => 0
  | some l =>
    2 ^ 63 + (if l.src = a then 2 ^ 62 else ((l.targetAt (.acc a)).map fun t => t.depth * 2 ^ 60).getD 0) + lineageBits l

/-- KIND of a target byte. -/
def Target.kind (t : Target) : Nat :=
  match t.places.headD (.acc 0) with
  | .acc _ => 0
  | .vreg _ => 1
  | .latch _ => 2
  | .line _ => 3

/-- LQRY of a tag (R334). -/
def lqryTag (j : Job) (t : Nat) : Nat :=
  match j.lineage t with
  | none => 0
  | some l =>
    2 ^ 63 + l.src * 2 ^ 57 + lineageBits l +
      (l.targets.zipIdx.map fun (t, i) => (128 + t.depth * 32 + t.kind * 8) * 2 ^ (8 * i)).foldl (· + ·) 0

/-- LQRY (R334). -/
def execLqry (h : Hdr) (ss : SReg) (a : AccReg) (s : State) : Host.Outcome State Fault Refusal :=
  runInstr h [.M] (do
    faultIf (decide (recAccs (← get).job.lrec ≤ a.toNat)) mfault
    modify fun s => s.setS ss (BitVec.ofNat 64 (lqryAcc s.job a.toNat))
    pure .next) s

/-- LQRY.T (R334). -/
def execLqryT (h : Hdr) (ss : SReg) (t : BitVec 4) (s : State) : Host.Outcome State Fault Refusal :=
  runInstr h [.M] (do
    modify fun s => s.setS ss (BitVec.ofNat 64 (lqryTag s.job t.toNat))
    pure .next) s

/-- LQRY.R (R334). -/
def execLqryR (h : Hdr) (ss : SReg) (s : State) : Host.Outcome State Fault Refusal :=
  runInstr h [.M] (do
    modify fun s =>
      s.setS ss (BitVec.ofNat 64 (s.freeTiles * 2 ^ 16 + (16 - s.job.lineages.length) * 2 ^ 8 + (4 - s.job.recorded)))
    pure .next) s

/-! ## Contributions (R322, R326) -/

/-- The role of a matrix operation that accumulates into accD at its issue: the next contribution of an open lineage. -/
def Job.contribRole (j : Job) (d : Nat) : SpillRole :=
  match j.lineages.find? fun l => l.src == d && !l.closed && decide (l.niss < l.ndecl) with
  | some l => .contrib l.tag (l.niss + 1)
  | none => .plain

/-- A contribution is issued as Weir entry id. -/
def Job.addContrib (j : Job) (id : Nat) : SpillRole → Job
  | .contrib tag _ => j.modLineage tag fun l => { l with niss := l.niss + 1, deltas := l.deltas ++ [⟨id, [], false, 0, false⟩] }
  | _ => j

/-- An operation that writes the tile anew closes a lineage with contributions still to come (R326). -/
def Job.closeFor (j : Job) (d : Nat) : Job :=
  { j with lineages := j.lineages.map fun l => if l.src = d && l.niss < l.ndecl then l.close else l }

/-- Adds cells to a contribution's delta. -/
def Job.addDelta (j : Job) (tag id : Nat) (cells : List (Nat × Lane)) : Job :=
  j.modLineage tag fun l =>
    { l with deltas := l.deltas.map fun d => if d.id = id then { d with cells := d.cells ++ cells } else d }

/-- Adds the next row of a delta to its source; the delta then (R322). -/
def Job.addRow (j : Job) (src : Nat) (d : Delta) : Job × Delta :=
  let left := d.cells.filter fun c => decide (d.row ≤ c.1 / 64)
  let r := (left.map fun c => c.1 / 64).foldl Nat.min 64
  let here := left.filter fun c => c.1 / 64 == r
  (here.foldl (fun j c => j.setAcc src (c.1 / 64) (c.1 % 64) (add32 (j.accAt src (c.1 / 64) (c.1 % 64)) c.2)) j,
   { d with row := r + 1, added := decide (left.length ≤ here.length) })

/-- CONTRIBUTION_ADD (R322, R336): the next row of the next contribution's delta is added to the source. -/
def execContributionAdd (num t : Nat) (s : State) : Host.Outcome State Fault Refusal :=
  runEvent (do
    focusOn num
    match (← get).job.lineage t with
    | none => throw .halt
    | some l =>
      match l.deltas[l.nadd]? with
      | none => throw .halt
      | some d =>
        need (d.ready && !d.added && (← get).coreRuns (← get).job.coreIx)
        modify fun s => s.modJob fun j =>
          let (j, d') := j.addRow l.src d
          j.modLineage t fun l =>
            { l with nadd := l.nadd + (if d'.added then 1 else 0), deltas := l.deltas.map fun e => if e.id = d.id then d' else e }) s

/-! ## Linear consumers (R323 to R325) -/

/-- Indices of a stream's elements in walk order: dimension 0 up to n, dimension 1 whole. -/
def streamIdx (st : List Word) : List (List Nat) :=
  ((List.range (stE st 1)).map fun j => (List.range (stE st 0)).map fun e => [e, j]).flatten

/-- Window offsets of a stream's elements; none outside the window. -/
def streamOffs (window : Nat) (st : List Word) : List (Option Nat) :=
  (streamIdx st).map fun ix =>
    let (a, n) := elemSpan st ix
    match scratchOff a with
    | some off => if off + n ≤ window then some off else none
    | none => none

/-- 256-byte lines of a stream's elements in the window. -/
def streamLines (window : Nat) (st : List Word) : List ProvPlace :=
  let n := Nat.max 1 (fmtSize (stFmt st))
  (((streamOffs window st).filterMap id).map fun off => [off / 256, (off + n - 1) / 256]).flatten.eraseDups.map .line

/-- A scale byte's lines count as read as well. -/
def streamScaleLines (window : Nat) (st : List Word) : List ProvPlace :=
  if fmtBlock (stFmt st) then
    ((streamIdx st).filterMap fun ix =>
      match scratchOff (scaleAddr st ix) with
      | some off => if off < window then some (off / 256) else none
      | none => none).eraseDups.map .line
  else []

/-- What an operation reads, what it writes, and whether it has the form of a linear consumer (R323). -/
structure SpillForm where
  reads  : List ProvPlace
  writes : List ProvPlace
  linear : Bool
  deriving DecidableEq, Repr, Inhabited

/-- The form of the operations that may be linear consumers; their ARG registers must not be provisional. -/
def Job.spillForm (j : Job) (o : Op) : SpillForm :=
  let st := o.sts.headD []
  let fp32 := stFmt st == 0x10
  let inWin := (streamOffs j.window st).all Option.isSome
  match o.instr with
  | .mmulAm _ _ d _ a _ => ⟨[.acc a.toNat], [.acc d.toNat], true⟩
  | .mst _ _ a _ pc => ⟨[.acc a.toNat], streamLines j.window st, fp32 && inWin && j.linearSlot pc.toNat⟩
  | .vld _ _ _ _ px => ⟨streamLines j.window st ++ streamScaleLines j.window st, o.vd.map .vreg, fp32 && j.linearSlot px.toNat⟩
  | .vst _ _ _ _ pz => ⟨o.vs.map .vreg, streamLines j.window st, fp32 && inWin && j.linearSlot pz.toNat⟩
  | .vmov _ _ _ _ _ _ px py pz =>
    ⟨(o.vs ++ o.vt).map .vreg, o.vd.map .vreg, j.linearSlot px.toNat && j.linearSlot py.toNat && j.linearSlot pz.toNat⟩
  | .vred _ op _ q _ _ => ⟨o.vs.map .vreg, [.latch q.toNat], op == .add⟩
  | .vredStream _ op _ q _ px =>
    ⟨streamLines j.window st ++ streamScaleLines j.window st, [.latch q.toNat], op == .add && fp32 && j.linearSlot px.toNat⟩
  | _ => ⟨[], [], false⟩

/-- Depth of a place in a lineage. -/
def Lineage.depthOf (l : Lineage) (p : ProvPlace) : Nat :=
  if p = .acc l.src then 0 else ((l.targetAt p).map fun t => t.depth).getD 0

/-- Index of the target at a place; none for the source. -/
def Lineage.parentOf (l : Lineage) (p : ProvPlace) : Option Nat :=
  if p = .acc l.src then none else l.targets.findIdx? fun t => t.places.contains p

/-- Port slots of an operation. -/
def Op.slots (o : Op) : List Nat :=
  match o.instr with
  | .vld _ _ _ _ p | .vst _ _ _ _ p | .vredStream _ _ _ _ _ p => [p.toNat]
  | .vmov _ _ _ _ _ _ px py pz => [px.toNat, py.toNat, pz.toNat]
  | .mst _ _ _ _ p | .mmul _ _ _ _ _ p | .mdist _ _ _ _ _ p => [p.toNat]
  | .mlds _ _ p | .mldsK _ _ p => [p.toNat]
  | .mmulg _ _ _ _ _ _ _ pa pb => [pa.toNat, pb.toNat]
  | _ =>
    match o.copy with
    | some c => [fld (c.tmpl.getD 0 0) 28 24, fld (c.tmpl.getD 0 0) 23 19]
    | none => []

/-- The base tile of a target before its operation writes it: what the accumulators and registers among its places hold. -/
def Job.baseStart (j : Job) (ps : List ProvPlace) : Cells Lane :=
  match ps.headD (.line 0) with
  | .acc a => (j.acc.filter fun e => e.1 / 4096 == a).map fun e => (e.1 % 4096, e.2)
  | .vreg _ => j.vreg.filter fun e => ps.contains (.vreg (e.1 / 64))
  | _ => []

/-- At its first unit an operation that reads provisional places becomes a linear consumer, or is an ordinary reader from
then on, which waits for every lineage that it reads to settle (R323 to R325, R330); so is one whose ARG register is
provisional. DESIGN CHOICE (log entry 72): of places of several depths that it reads, the greatest counts, for the limit of R325
and for the depth of its target. -/
def linearStart (id : Nat) : M Unit := do
  let s ← get
  let j := s.job
  let o := j.opAt id
  let f := j.spillForm o
  let prov := f.reads.filter fun p => (j.provFor id p).isSome
  let tags := (prov.filterMap fun p => (j.provFor id p).map fun l => l.tag).eraseDups
  let args := (o.argv.filter (· != 0)).map fun a => ProvPlace.vreg (a - 1)
  match args.findSome? fun p => j.provFor id p with
  | some l =>
    modOp id fun o => { o with role := if o.role == .plain then .reader else o.role }
    throw (.wait (.lineage l.src))
  | none => pure ()
  match tags with
  | [] => pure ()
  | t :: more =>
    match j.lineage t with
    | none => pure ()
    | some l =>
      let depth := (prov.map l.depthOf).foldl Nat.max 0
      let am := match o.instr with | .mmulAm .. => true | _ => false
      let free := f.writes.all fun p => !(j.lineages.any fun m => m.holds p)
      if o.role == .plain && f.linear && more.isEmpty && l.targets.length < 4 && depth < 3 && 1 ≤ s.freeTiles && (!am || j.recorded < 4) && free then
        let slots := (o.slots.filter (· != 0)).map fun n => (n, j.slotAt n)
        let img := if am then (j.images.find? fun m => m.num == o.img).map fun m => m.img else none
        let t' : Target := ⟨id, depth + 1, prov.map fun p => (p, l.parentOf p), o, f.writes, j.baseStart f.writes, slots, [], img, [], 0, false⟩
        let marks := f.writes.filterMap fun p => match p with | .line n => some (n, t) | _ => none
        set (s.modJob fun j =>
          { ((j.modLineage t fun l => { l with targets := l.targets ++ [t'] }).modOp id fun o => { o with role := .consumer t })
            with marks := j.marks ++ marks })
      else
        modOp id fun o => { o with role := if o.role == .plain then .reader else o.role }
        throw (.wait (.lineage l.src))

/-! ## Corrections (R327, R328) -/

/-- A linear program on one correction, with the ARG recorded (R327). -/
def runLinear (slot : Option PortSlot) (x arg : Lane) (rowi col : Nat) : Lane :=
  match slot with
  | none => x
  | some s =>
    let p := slotProg s
    let v : PEnv := ⟨x, [], false, col, rowi, arg, [], [], 0, true⟩
    match evalBlock p v (p.blocks.headD []) with
    | .ok r => (match exitOf (p.blocks.headD []) r with | .inl y => y | .inr _ => 0)
    | .error _ => 0

/-- Correction k of the place that a target read, at a key of the place's own. -/
def Lineage.parentCell (l : Lineage) (t : Target) (k : Nat) (p : ProvPlace) (key : Nat) : Option Lane :=
  match t.parents.find? fun x => x.1 == p with
  | none => none
  | some (_, none) => (l.deltas[k]?.bind fun d => d.cells.find? fun c => c.1 == key).map fun c => c.2
  | some (_, some i) =>
    (l.targets[i]?.bind fun u => u.corrs[k]?.bind fun cs => cs.find? fun c => c.1 == key).map fun c => c.2

/-- The slot recorded for a port of a target; none when no program is bound. -/
def Target.slotOf (t : Target) (n : Nat) : Option PortSlot := (t.slots.find? fun s => s.1 == n).map fun s => s.2
def Target.argOf (t : Target) (i rowi col : Nat) : Lane := Cells.get 0 t.args (2 ^ 30 * i + 64 * rowi + col)

/-- Elements of a target that came from a stream: (element, row), and its window offset if any. -/
def Target.elems (t : Target) (window : Nat) : List ((Nat × Nat) × Option Nat) :=
  let st := t.op.sts.headD []
  ((List.range (stE st 1)).map fun j => (List.range (stE st 0)).map fun e => (e, j)).flatten.zip (streamOffs window st)

/-- The correction of a register's lane that a vector operation reads. -/
def Lineage.laneCell (l : Lineage) (t : Target) (k i lane : Nat) : Option Lane := l.parentCell t k (.vreg i) (64 * i + lane)

/-- One push's correction: lane by lane, or folded across (R327); a push that read no corrected lane has none. -/
def pushCells (x : Bool) (k : Nat) (lanes : List (Option Lane)) : List (Nat × Lane) :=
  if lanes.all Option.isNone then []
  else if x then [(k % 64, treeFold add32 7 (lanes.map fun v => v.getD 0))]
  else lanes.zipIdx.filterMap fun (v, i) => v.map fun y => (i, y)

/-- Correction k of target t, k from 0: the cells of its rows, registers or pushes, in the order in which they are added
(R327). -/
def Lineage.correction (l : Lineage) (window k : Nat) (t : Target) : List (List (Nat × Lane)) :=
  let o := t.op
  let rows := stE (o.sts.headD []) 1
  let byRow := fun (f : (Nat × Nat) × Option Nat → Option (Nat × Lane)) =>
    (List.range rows).map fun r => ((t.elems window).filter fun x => x.1.2 == r).filterMap f
  match o.instr with
  | .mmulAm _ _ _ r0 a m =>
    let row := fun (i : Nat) => (List.range 64).map fun n => l.parentCell t k (.acc a.toNat) (64 * i + n)
    match t.img with
    | none => []
    | some g =>
      (List.range m.toNat).map fun i =>
        let xs := row i
        if xs.all Option.isNone then []
        else (mulRow false g ((xs.take g.k).map fun v => dec32 (v.getD 0)) fun _ => 0).zipIdx.map fun (v, n) =>
          (64 * (r0.toNat + i) + n, v)
  | .mst _ _ a r0 pc =>
    byRow fun ((e, j), off) =>
      match l.parentCell t k (.acc a.toNat) (64 * (r0.toNat + j) + e), off with
      | some c, some off => some (off, runLinear (t.slotOf pc.toNat) c (t.argOf 0 (r0.toNat + j) e) (r0.toNat + j) e)
      | _, _ => none
  | .vst _ _ _ _ pz =>
    byRow fun ((e, j), off) =>
      match l.laneCell t k (o.vs.getD j 0) e, off with
      | some c, some off => some (off, runLinear (t.slotOf pz.toNat) c (t.argOf 0 j e) j e)
      | _, _ => none
  | .vld _ _ _ _ px =>
    byRow fun ((e, j), off) =>
      match off.bind fun f => l.parentCell t k (.line (f / 256)) f with
      | some c => some (64 * o.vd.getD j 0 + e, runLinear (t.slotOf px.toNat) c (t.argOf 0 j e) j e)
      | none => none
  | .vmov _ t2 _ _ _ _ px py pz =>
    (List.range o.vd.length).map fun j => (List.range 64).filterMap fun e =>
      let x := l.laneCell t k (o.vs.getD j 0) e
      let y := if t2 then l.laneCell t k (o.vt.getD j 0) e else none
      if x.isNone && y.isNone then none
      else
        let arg := fun (i n : Nat) (partner : Lane) =>
          match t.slotOf n with
          | some s => if h0Argk (slotProg s).h0 = 1 then partner else t.argOf i j e
          | none => 0
        let x := x.getD 0
        let y := y.getD 0
        let x' := runLinear (t.slotOf px.toNat) x (arg 0 px.toNat y) j e
        let y' := if t2 then runLinear (t.slotOf py.toNat) y (arg 1 py.toNat x) j e else 0
        some (64 * o.vd.getD j 0 + e, runLinear (t.slotOf pz.toNat) x' (arg 2 pz.toNat y') j e)
  | .vred _ _ x _ _ _ =>
    o.vs.zipIdx.map fun (i, p) => pushCells x p ((List.range 64).map fun e => l.laneCell t k i e)
  | .vredStream _ _ x _ _ px =>
    let st := o.sts.headD []
    let cell := fun (e j : Nat) =>
      ((t.elems window)[j * stE st 0 + e]?.bind fun y => y.2).bind fun f =>
        (l.parentCell t k (.line (f / 256)) f).map fun c => runLinear (t.slotOf px.toNat) c (t.argOf 0 j e) j e
    (List.range (stE st 1)).map fun j =>
      pushCells x j ((List.range 64).map fun e => if e < stE st 0 then cell e j else none)
  | _ => []

/-- Adds one correction cell to a target's tile, register or window bytes with one rounding (R327). A failed unit of the window
goes out of service, and the job takes the fault for the data lost, which the correction itself does not raise (R327, R425). -/
def State.addCell (s : State) (t : Target) (key : Nat) (v : Lane) : State :=
  match t.places.headD (.acc 0) with
  | .acc a => s.modJob fun j => j.setAcc a (key / 64) (key % 64) (add32 (j.accAt a (key / 64) (key % 64)) v)
  | .vreg _ => s.modJob fun j => j.setLane (key / 64) (key % 64) (add32 (j.lane (key / 64) (key % 64)) v)
  | .latch _ => s
  | .line _ =>
    let pa := s.job.windowPa key
    let s := s.windowLoss s.job.num pa 4
    let old : Lane := BitVec.ofNat 32 (leNum (s.mem.readMany pa 4))
    (({ s with mem := s.mem.writeMany pa (leList 4 (add32 old v).toNat) } : State).stamp s.job.coreIx pa 4).watchWrite
      s.mem pa 4 true

/-- Correction k of every place that a target read is made (R327). -/
def Lineage.parentsDone (l : Lineage) (k : Nat) (t : Target) : Bool :=
  t.parents.all fun p => match p.2 with
    | none => true
    | some i => l.targets[i]?.all fun u => decide (k < u.corrs.length)

/-- The next correction that is due: the earliest contribution, then the earliest target, each after its parents'. -/
def Lineage.nextDue (l : Lineage) : Option (Nat × Target) :=
  (List.range l.nadd).findSome? fun k =>
    (l.targets.find? fun t => t.based && t.corrs.length == k && l.parentsDone k t).map fun t => (k, t)

/-- One row, register or push of a correction reaches its target; a latch gets it as a push, applied 12 cycles later (R327). -/
def State.addUnit (s : State) (t : Target) (cells : List (Nat × Lane)) : State :=
  match t.places.headD (.acc 0) with
  | .latch q => if cells.isEmpty then s else s.modJob fun j => { j with pushes := j.pushes ++ [⟨0, s.cycle + 12, q, .add, cells⟩] }
  | _ => cells.foldl (fun s c => s.addCell t c.1 c.2) s

/-- The target after unit i of its correction, of n: the next unit comes up, or the correction is whole. -/
def Target.unitDone (t : Target) (units : List (List (Nat × Lane))) : Target :=
  if t.unit + 1 < units.length then { t with unit := t.unit + 1 } else { t with unit := 0, corrs := t.corrs ++ [units.flatten] }

/-- Makes the next unit of correction k of a target of lineage l (R327, R336). -/
def State.correctUnit (s : State) (l : Lineage) (k : Nat) (tg : Target) : State :=
  let units := l.correction s.job.window k tg
  let next := tg.unitDone units
  (s.addUnit tg (units.getD tg.unit [])).modJob fun j => j.modLineage l.tag fun m =>
    { m with targets := m.targets.map fun u => if u.id = tg.id then next else u }

/-! ## Settling (R331) -/

/-- The entry is to read a place of lineage l as a linear consumer, and has not started. -/
def Job.toConsume (j : Job) (l : Lineage) (e : Entry) : Bool :=
  match e.kind with
  | .op o =>
    let f := j.spillForm o
    !o.started && o.role == .plain && f.linear && decide (l.born ≤ e.id) && f.reads.any l.holds &&
      !(o.argv.any fun a => a != 0 && (j.provFor e.id (.vreg (a - 1))).isSome)
  | _ => false

/-- A linear consumer that was issued before the last contribution has still to read the lineage's base values (R329), and does
not stand behind what waits for the settle. -/
def Job.consumerDue (j : Job) (l : Lineage) : Bool :=
  let last := (l.deltas.map fun d => d.id).foldl Nat.max 0
  let behind := j.queueBehind fun e => j.standsFor l e ||
    (match e.kind with
     | .op o => !o.started && o.copy.isNone && decide (l.born ≤ e.id) && !j.toConsume l e && e.keys.ar.contains l.src && !e.keys.aw.contains l.src
     | _ => false)
  j.entries.any fun e => decide (e.id < last) && j.toConsume l e && !behind.any fun x => x.id == e.id

/-- A lineage may settle (R331); what R329 gives a linear consumer is read first. -/
def Job.maySettle (j : Job) (l : Lineage) : Bool :=
  (l.closed || l.niss == l.ndecl) && l.nadd == l.niss &&
    (l.targets.all fun t => t.based && t.corrs.length == l.niss && !j.corrPending t) && !j.consumerDue l

/-- Basin members of a core. -/
def State.basinOps (s : State) (core : Nat) : List Op :=
  (s.onCore core).flatMap fun j => j.entries.filterMap fun e =>
    match e.kind with | .op o => if o.basin.isSome then some o else none | _ => none

/-- Entries of one key that together hold 64 rows are triggered (R342). -/
def State.rowsTrigger (s : State) (key : Option BasinKey) : State :=
  let core := s.job.coreIx
  let ops := (s.basinOps core).filter fun o => o.key == key
  if key.isNone || (ops.map fun o => stE (o.sts.headD []) 1).foldl (· + ·) 0 < 64 then s
  else s.mapJobs fun j => if j.onCore && j.coreIx == core then j.demand fun o => o.key == key else j

/-- A keyed MMUL whose moving operand has settled enters the Basin, or takes the ordinary path (R335, R341). It is triggered at
once when its M stream has reached JOIN, and with its rows there may be 64 of its key (R342). -/
def State.enterLate (s : State) (e : Entry) (o : Op) : State :=
  match o.late with
  | none => s
  | some h =>
    if s.job.movingProv e then s
    else
      let core := s.job.coreIx
      let s := s.setStall e.id none 0
      let room := decide ((s.basinOps core).length < 8) && !s.job.asked && (s.coreAt core).keys.any fun p => some p.key == o.key
      let trig := h == 0 || s.job.m.st != .running
      (s.modJob fun j => j.modOp e.id fun o =>
        { o with late := none, since := s.cycle, basin := if room then some (s.cycle + h, trig) else none }).rowsTrigger o.key

/-- LINEAGE_SETTLE (R331). -/
def execLineageSettle (num t : Nat) (s : State) : Host.Outcome State Fault Refusal :=
  runEvent (do
    focusOn num
    match (← get).job.lineage t with
    | none => throw .halt
    | some l =>
      need ((← get).job.maySettle l && (← get).coreRuns (← get).job.coreIx)
      modify fun s => s.modJob fun j =>
        { j with lineages := j.lineages.filter fun m => m.tag != t, marks := j.marks.filter fun m => m.2 != t }
      modify fun s => s.job.entries.foldl (fun s e =>
        match e.kind with
        | .op o => s.enterLate e o
        | _ => s) s
      modify State.endDrains) s

end Sys2Proof.Machine
end

