-- ==== Sys2Proof/Machine/Matrix.lean ====
section
/-! DEFINITION. The matrix engine (chapter 10) and keyed loads (chapter 14): what the instructions check and capture at
issue, and the units in which their operations run. -/

namespace Sys2Proof.Machine

/-! ## Checks at issue (R258 to R267, R272) -/

/-- Accumulator a exists (R137, R272). -/
def Job.accOk (j : Job) (a : Nat) : Bool := decide (a < recAccs j.lrec)

/-- A moving or stationary stream of more dimensions than n, or with blocks along another dimension than K (R258). -/
def operandBad (st : List Word) (dims slot : Nat) : Bool :=
  decide (dims < stDims st) || (fmtBlock (stFmt st) && stBdim st != 0) || (slot != 0 && !abPortFmt (stFmt st))

/-- The limits of a stationary tile (R259, R261). -/
def tileBad (st : List Word) (dims slot : Nat) : Bool :=
  operandBad st dims slot ||
  (match fmtClass (stFmt st) with
   | none => true
   | some c => decide (classKmax c < stE st 0) || decide (64 < stE st 1))

/-- The image that the next operation of the M stream binds (R269); with none, the matrix operand fault (R272). -/
def boundImage : M LastMlds := do
  match (← get).job.last with
  | some l => pure l
  | none => throw (.fault mfault)

/-- The limits of MMUL and MDIST on their moving stream (R259, R262, R264). -/
def movingBad (l : LastMlds) (st : List Word) (r0 slot : Nat) (dist : Bool) : Bool :=
  operandBad st 2 slot || !pairOk l.fmt (stFmt st) || (dist && stFmt st == 0x10) || decide (64 < r0 + stE st 1) ||
  stE st 0 != l.k

/-- The limits of MST and MLDA on their stream (R258, R259, R267). -/
def rowsBad (st : List Word) (r0 : Nat) (whole : Bool) : Bool :=
  decide (2 < stDims st) || stFmt st == 0x1A || decide (64 < r0 + stE st 1) || decide (64 < stE st 0) ||
  (fmtBlock (stFmt st) && (decide (1 < stBdim st) || (whole && stE st (stBdim st) % 32 != 0)))

/-- The conversion at a port A or B (R260). -/
def abConv (st : List Word) : Option (Nat × Bool × Bool) := if stFmt st = 0x10 then none else some (stFmt st, stOvf st, false)

/-! ## Keyed loads (R338 to R340) -/

/-- A job refers to a key: its bound image, or an operation in the Weir (R340). -/
def Job.refersKey (j : Job) (k : BasinKey) : Bool :=
  (match j.last with | some l => l.key == some k | none => false) ||
  j.entries.any fun e => match e.kind with | .op o => o.key == some k | _ => false

/-- Frees the places of a core's key table to which nothing refers (R340). -/
def State.sweepKeys (s : State) (core : Nat) : State :=
  let live := fun (p : KeyPlace) => (s.onCore core).any fun j => j.refersKey p.key
  s.modCore core fun c => { c with keys := c.keys.filter live }

/-- The page of all bytes from lo to hi - 1: its physical base of lo, when it is one page with R and RO (R338). -/
def onePage (lo hi : Nat) : M (Option Nat) := do
  match vrange lo with
  | .mapped =>
    match ← attempt (xlate .r 4 lo 1) with
    | .ok x =>
      let p := pageSize x.level
      pure (if pteR x.leaf && pteRO x.leaf && lo / p == (hi - 1) / p then some (leafPa x.level x.leaf lo) else none)
    | .error _ => pure none
  | _ => pure none

/-- Program words of port B as they stand in the key (R339); none when the program forbids keying (R338). -/
def keyProg (j : Job) (slot : Nat) : Option (List Lane) :=
  if slot = 0 then some []
  else
    let s := j.slotAt slot
    let p := slotProg s
    let k := h0Argk p.h0
    if p.hasState || (k != 0 && k != 4) then none else some (s.image ++ if k = 4 then [s.args] else [])

/-- The key of the keyed load that is or will be entry id, whose conditions hold now, under the merge domain of its issue; its
place in the table is kept. None when the load falls back (R338, R339). -/
def keyOf (st : List Word) (slot dom id : Nat) : M (Option BasinKey) := do
  let j := (← get).job
  if dom = 0xFFFF then pure none
  else match keyProg j slot with
    | none => pure none
    | some prog =>
      let eb := elemBox st (stExt st)
      let sb := scaleBox st (stExt st)
      match ← onePage eb.1 eb.2 with
      | none => pure none
      | some ebase =>
        let sc ← if fmtBlock (stFmt st) then onePage sb.1 sb.2 else pure (some sb.1)
        match sc with
        | none => pure none
        | some sbase =>
          let sorg := if fmtBlock (stFmt st) then sbase + stSbase st - sb.1 else 0
          let key : BasinKey := ⟨j.ctx.sec, dom, ebase + stBase st - eb.1, sorg, [1, 2, 3, 4, 6].map (stW st), prog⟩
          modify fun s => s.sweepKeys j.coreIx
          let c := (← get).coreAt j.coreIx
          if c.keys.any fun p => p.key == key then pure (some key)
          else if c.keys.length < 8 then
            modify fun s => s.modCore j.coreIx fun c => { c with keys := c.keys ++ [⟨key, (j.num, id), none⟩] }
            pure (some key)
          else pure none

/-! ## MLDS (R261, R338) -/

/-- MLDS and MLDS.K from their checks to the Weir. -/
def issueMlds (i : Instr) (b pb : Nat) (keyed : Bool) : M Flow := do
  let w ← streamOfReg b
  faultIf (tileBad w 2 pb) mfault
  checkBinds [⟨pb, false, stE w 1⟩]
  drain
  unlessWait (← get).mayEnter .weir
  let j := (← get).job
  let key ← if keyed then keyOf w pb j.bdom j.nextId else pure none
  let j := (← get).job
  let keys := j.portKeys [pb] { Keys.none with sr := streamKeys j.window w (stExt w) }
  issueOp i 4 keys fun o => { o with sts := [w], key := key, argv := [j.argvOf pb], scal := BitVec.ofNat 64 j.bdom }
  modify fun s => s.modJob fun j =>
    { j with last := some ⟨(timeline j 4).issued, stE w 0, stE w 1, stFmt w, key⟩ }
  pure .next

/-- MLDS (R261). -/
def execMlds (h : Hdr) (b : StReg) (pb : Slot) (s : State) : Host.Outcome State Fault Refusal :=
  runInstr h [.M] (issueMlds (.mlds h b pb) b.toNat pb.toNat false) s

/-- MLDS.K (R338). -/
def execMldsK (h : Hdr) (b : StReg) (pb : Slot) (s : State) : Host.Outcome State Fault Refusal :=
  runInstr h [.M] (issueMlds (.mldsK h b pb) b.toNat pb.toNat true) s

/-- An image from the codes and scale bytes at (k, n). -/
def imageOf (k n fmt : Nat) (code sc : Nat → Nat → Nat) : Image :=
  let cells := fun (rows : Nat) (f : Nat → Nat → Nat) =>
    ((List.range n).map fun c => (List.range rows).map fun r => (256 * c + r, f r c)).flatten.filter fun e => e.2 != 0
  ⟨k, n, fmt, cells k code, if fmtBlock fmt then cells ((k + 31) / 32) sc else []⟩

/-- Empties the rows and the run that a tile's load keeps. -/
def Op.dropTile (o : Op) (i : Nat) : Op := { (o.setRun i .start) with queue := [] }

/-- A unit of a tile's load, port B at place i among the ports: every element is read before one passes port B, so a load
that stops at a read restarts from its first element (R261, R273); the image once it is complete. -/
def tileUnit (id i slot : Nat) (st : List Word) (tile : Nat) : M (Option Image) := do
  let kk := stE st 0
  let nn := stE st 1
  if ((← get).job.opAt id).queue.isEmpty then
    -- dimension 0 runs fastest (R221); a block's scale byte is read with its first element
    let cols ← (List.range nn).mapM fun n => (List.range kk).mapM fun k => do
      let code ← elemCode id st [k, n, tile]
      let sc ← if k % 32 = 0 then elemScale id st [k, n, tile] else pure 0
      pure (code, sc)
    let at_ := fun (n k : Nat) => (cols.getD n []).getD k (0, 0)
    let codes := (List.range kk).map fun k => (List.range nn).map fun n => BitVec.ofNat 32 (at_ n k).1
    let scs := (List.range ((kk + 31) / 32)).map fun k => (List.range nn).map fun n => BitVec.ofNat 32 (at_ n (32 * k)).2
    modOp id fun o => { o with queue := [[], codes, scs] }
  let o := (← get).job.opAt id
  let at_ := fun (rows : List (List Lane)) (k n : Nat) => ((rows.getD k []).getD n 0).toNat
  let codes := o.queue.getD 1 []
  let done := fun (code : Nat → Nat → Nat) => do
    modOp id fun o => o.dropTile i
    pure (some (imageOf kk nn (stFmt st) code (at_ (o.queue.getD 2 []))))
  if slot = 0 then done (at_ codes)
  else
    let b := o.bind id i 1 slot (abConv st)
    match ← portRow b 0 nn kk (fun q => pure ((codes.getD q []).map fun c => elemIn st c.toNat 0)) noCheck noEmit with
    | some (_, outs) => modOp id fun o => { o with queue := setAt [] o.queue 0 (o.queue.getD 0 [] ++ [outs]) }
    | none => pure ()
    if ← portDone b kk then
      let rows := ((← get).job.opAt id).queue.getD 0 []
      done fun k n => ((ffmtOf (stFmt st)).conv .rne 0 (dec32 ((rows.getD k []).getD n 0))).code
    else pure none

/-- Images that no bound operation needs go; the job's last stays (R255, R269). -/
def Job.sweepImages (j : Job) : Job :=
  let need := fun (m : Made) =>
    (match j.last with | some l => l.num == m.num | none => false) ||
    j.entries.any fun e => match e.kind with | .op o => o.img == m.num | _ => false
  { j with images := j.images.filter need }

/-- MLDS number `num` is keyed, or not, from now on; operations bound to its image follow (R338). -/
def Job.rekey (j : Job) (num : Nat) (key : Option BasinKey) : Job :=
  let last := j.last.map fun l => if l.num = num then { l with key := key } else l
  let ent := fun (e : Entry) =>
    match e.kind with
    | .op o => if o.img == num && num != 0 then { e with kind := .op { o with key := key, basin := if key.isSome then o.basin else none } } else e
    | _ => e
  { j with last := last, entries := j.entries.map ent }

/-- A keyed load restarted after a fault tests its conditions again (R338). -/
def mldsRekey (id slot : Nat) : M Unit := do
  let o := (← get).job.opAt id
  if o.unit != 0 then
    let key ← keyOf (o.sts.headD []) slot o.scal.toNat id
    modOp id fun o => { o with unit := 0, key := key }
    modify fun s => s.modJob fun j => j.rekey o.num key

/-- A unit of MLDS: a held key's image is taken without a read; else the tile is loaded (R261, R340). -/
def mldsUnit (id slot : Nat) (keyed : Bool) : M Bool := do
  if keyed then mldsRekey id slot
  let s ← get
  let o := s.job.opAt id
  let core := s.job.coreIx
  let held := o.key.bind fun k => ((s.coreAt core).keys.find? fun p => p.key == k).bind fun p => p.img
  let img ← match held with
    | some g => pure (some g)
    | none => tileUnit id 0 slot (o.sts.headD []) 0
  match img with
  | none => pure false
  | some g =>
    let put := fun (p : KeyPlace) => if some p.key = o.key then { p with img := some g } else p
    modify fun s => (s.modCore core fun c => { c with keys := c.keys.map put }).modJob fun j =>
      { j with images := ⟨o.num, g, o.key⟩ :: j.images }.sweepImages
    pure true

/-! ## MMUL and MDIST (R262, R264, R341) -/

/-- The image bound to an operation, once it is written (R269). -/
def Job.imageFor (j : Job) (o : Op) : Option Image := (j.images.find? fun m => m.num == o.img).map fun m => m.img

/-- The image that an operation runs with: a member of a stack runs with that of its key, whichever load built it (R343). -/
def State.imageNow (s : State) (o : Op) : Option Image :=
  (s.job.imageFor o).or
    (((s.coreAt s.job.coreIx).keys.find? fun p => o.key.isSome && some p.key == o.key).bind fun p => p.img)

/-- The hold of a Basin entry made now (R342). -/
def Job.basinHold (j : Job) : Nat := if j.cls = 3 then Nat.min j.bhold 64 else j.bhold

/-- Whether an MMUL bound to an image of the key may enter the Basin: its cycle of expiry, and whether it is triggered (R341,
R342, R347). -/
def State.basinEntry (s : State) (key : Option BasinKey) : Option (Nat × Bool) :=
  match key with
  | none => none
  | some k =>
    let c := s.coreAt s.job.coreIx
    if (c.keys.any fun p => p.key == k) && (s.basinOps s.job.coreIx).length < 8 && !s.job.asked then
      some (s.cycle + s.job.basinHold, s.job.basinHold == 0)
    else none

/-- A matrix operation that accumulates into accD enters: its role is taken, and a contribution is counted (R322, R326). -/
def issueAcc (i : Instr) (z : Bool) (d : Nat) (keys : Keys) (f : Op → Op) : M Unit := do
  drain
  unlessWait (← get).mayEnter .weir
  if z then modify fun s => s.modJob fun j => j.closeFor d
  let j := (← get).job
  let role := if z then SpillRole.plain else j.contribRole d
  let id := j.nextId
  issueOp i 4 keys fun o => { (f o) with role := role }
  modify fun s => s.modJob fun j => j.addContrib id role

/-- MMUL and MDIST with a moving stream. -/
def issueMul (i : Instr) (z dist : Bool) (d r0 a pa : Nat) : M Flow := do
  let w ← streamOfReg a
  faultIf (!(← get).job.accOk d) mfault
  let l ← boundImage
  faultIf (movingBad l w r0 pa dist) mfault
  checkBinds [⟨pa, false, stE w 0⟩]
  let s ← get
  let keys := s.job.portKeys [pa] { Keys.none with sr := streamKeys s.job.window w (stExt w), ar := [d], aw := [d] }
  -- with a provisional moving operand it waits for the settle before it may enter the Basin (R341)
  let prov := keys.sr.findSome? fun r => s.job.markAt r.1 r.2
  let basin := if dist || prov.isSome then none else s.basinEntry l.key
  let late := if !dist && prov.isSome && l.key.isSome then some s.job.basinHold else none
  let stall := if late.isSome then prov.map fun t => ⟨.lineage (s.job.srcOf t), s.cycle⟩ else none
  issueAcc i z d keys fun o =>
    { o with sts := [w], argv := [s.job.argvOf pa], img := l.num, key := l.key, basin := basin, late := late, stall := stall }
  modify fun s => s.rowsTrigger l.key
  pure .next

/-- MMUL (R262). -/
def execMmul (h : Hdr) (z : Bool) (d : AccReg) (r0 : BitVec 6) (a : StReg) (pa : Slot) (s : State) :
    Host.Outcome State Fault Refusal :=
  runInstr h [.M] (issueMul (.mmul h z d r0 a pa) z false d.toNat r0.toNat a.toNat pa.toNat) s

/-- MDIST (R264). -/
def execMdist (h : Hdr) (z : Bool) (d : AccReg) (r0 : BitVec 6) (a : StReg) (pa : Slot) (s : State) :
    Host.Outcome State Fault Refusal :=
  runInstr h [.M] (issueMul (.mdist h z d r0 a pa) z true d.toNat r0.toNat a.toNat pa.toNat) s

/-- MMUL.AM (R262): a 16-bit stationary with K = 64, and accS other than accD. -/
def execMmulAm (h : Hdr) (z : Bool) (d : AccReg) (r0 : BitVec 6) (a : AccReg) (m : BitVec 7) (s : State) :
    Host.Outcome State Fault Refusal :=
  runInstr h [.M] (do
    let j := (← get).job
    faultIf (!j.accOk d.toNat || !j.accOk a.toNat) mfault
    let l ← boundImage
    faultIf (fmtClass l.fmt != some 0 || l.k != 64 || a == d || decide (64 < r0.toNat + m.toNat)) mfault
    issueAcc (.mmulAm h z d r0 a m) z d.toNat { Keys.none with ar := [d.toNat, a.toNat], aw := [d.toNat] } fun o =>
      { o with img := l.num, key := l.key }
    pure .next) s

/-- The value to which row elements are added (R262, R322). -/
def Job.startVal (j : Job) (id a row : Nat) (z : Bool) (n : Nat) : Lane :=
  match (j.opAt id).role with
  | .contrib .. => 0
  | _ => if z then 0 else j.accAt a row n

/-- Writes columns 0 to N - 1 of an accumulator's row for entry id: into the tile, or into its delta (R322, R326). -/
def putRow (id a row : Nat) (vs : List Lane) : M Unit := do
  writeGate id (.acc a)
  match ((← get).job.opAt id).role with
  | .contrib tag _ => modify fun s => s.modJob fun j => j.addDelta tag id (vs.zipIdx.map fun (v, n) => (64 * row + n, v))
  | _ =>
    modify fun s => s.modJob fun j => { j with acc := Cells.setMany 0 j.acc (4096 * a + 64 * row) vs }
    vs.zipIdx.forM fun (v, n) => noteBase id (64 * row + n) v

/-- The contribution's arithmetic is done (R322). -/
def Job.deltaReady (j : Job) (id : Nat) : Job :=
  match (j.opAt id).role with
  | .contrib tag _ =>
    j.modLineage tag fun l => { l with deltas := l.deltas.map fun d => if d.id = id then { d with ready := true } else d }
  | _ => j

/-- The exact values of row i of a moving stream (R252). -/
def movingRow (id : Nat) (st : List Word) (i : Nat) : M (List Fp) :=
  (List.range (stE st 0)).mapM fun k => do
    let code ← elemCode id st [k, i]
    let sc ← elemScale id st [k, i]
    pure (operandVal (stFmt st) sc code)

/-- The next moving row through port A: its number and values; none for a row that only enters the window. -/
def nextRow (id slot : Nat) (st : List Word) (total : Nat) : M (Option (Nat × List Fp)) := do
  let o := (← get).job.opAt id
  if slot = 0 then
    let r := (o.run 0).q
    let a ← movingRow id st r
    modOp id fun o => o.setRun 0 { o.run 0 with q := r + 1 }
    pure (some (r, a))
  else
    let b := o.bind id 0 0 slot (abConv st)
    match ← portRow b 0 (stE st 0) total (fun q => readRow id st (stE st 0) (fun k => [k, q]) (elemIn st)) noCheck
        noEmit with
    | some (row, outs) => pure (some (row, outs.map (portedVal (stFmt st))))
    | none => pure none

/-- Rows that a port has still to take or give after `total` inputs. -/
def rowsDone (id slot total : Nat) : M Bool := do
  let j := (← get).job
  pure (decide (total + j.lagOf slot ≤ ((j.opAt id).run 0).q))

/-- A unit of MMUL or MDIST: the next row (R262, R273). -/
def mulUnit (id : Nat) (z dist : Bool) (d r0 slot : Nat) : M Bool := do
  let s ← get
  let o := s.job.opAt id
  let st := o.sts.headD []
  match s.imageNow o with
  | none => throw (.wait (.timeline 4))
  | some g =>
    writeGate id (.acc d)
    match ← nextRow id slot st (stE st 1) with
    | none => pure ()
    | some (i, a) =>
      putRow id d (r0 + i) (mulRow dist g a ((← get).job.startVal id d (r0 + i) z))
      modOp id fun o => { o with unit := i + 1 }
    let fin ← rowsDone id slot (stE st 1)
    if fin then modify fun s => s.modJob fun j => j.deltaReady id
    pure fin

/-- A unit of MMUL.AM: the next row of accS (R262). -/
def mmulAmUnit (id : Nat) (z : Bool) (d r0 a m : Nat) : M Bool := do
  let j := (← get).job
  let o := j.opAt id
  match j.imageFor o with
  | none => throw (.wait (.timeline 4))
  | some g =>
    readGate id (.acc a)
    writeGate id (.acc d)
    let i := o.unit
    let row := (List.range g.k).map fun k => dec32 (j.accVal id a i k)
    putRow id d (r0 + i) (mulRow false g row (j.startVal id d (r0 + i) z))
    modOp id fun o => { o with unit := i + 1 }
    let fin := decide (m ≤ i + 1)
    if fin then modify fun s => s.modJob fun j => j.deltaReady id
    pure fin

/-! ## MMULG (R263) -/

/-- MMULG. DESIGN CHOICE (log entry 66): T is not known at issue, and the accumulators of the entry's keys are those that E1
rows of stA would take, from accD on, as far as the job has them. DESIGN CHOICE (log entry 75): of several faults at issue, for
which the manual gives no order, that of a stream register comes first, then the operand fault, then the table's alignment. -/
def execMmulg (h : Hdr) (z : Bool) (d : AccReg) (a b : StReg) (ss : SReg) (g : BitVec 9) (pa pb : Slot) (s : State) :
    Host.Outcome State Fault Refusal :=
  runInstr h [.M] (do
    let wa ← streamOfReg a.toNat
    let wb ← streamOfReg b.toNat
    let j := (← get).job
    faultIf (!j.accOk d.toNat || operandBad wa 2 pa.toNat || tileBad wb 3 pb.toNat || !pairOk (stFmt wb) (stFmt wa) ||
      stE wa 0 != stE wb 0) mfault
    -- every MMULG before the job's first MLDS faults, its own groups or not (R272)
    let _ ← boundImage
    let table := (← get).getS ss
    faultIf (table.toNat % 8 != 0) (alignFault table.toNat 4)
    checkBinds [⟨pa.toNat, false, stE wa 0⟩, ⟨pb.toNat, false, stE wb 1⟩]
    let accs := (List.range (Nat.min (recAccs j.lrec - d.toNat) ((stE wa 1 + 63) / 64))).map (d.toNat + ·)
    let sr := streamKeys j.window wa (stExt wa) ++ streamKeys j.window wb (stExt wb) ++ scratchKey table.toNat (8 * g.toNat)
    let keys := j.portKeys [pa.toNat, pb.toNat] { Keys.none with sr := sr, ar := accs, aw := accs }
    issueOp (.mmulg h z d a b ss g pa pb) 4 keys fun o =>
      { o with sts := [wa, wb], scal := table, argv := [j.argvOf pa.toNat, j.argvOf pb.toNat] }
    pure .next) s

/-- ROWS and TILE of a table entry. -/
def entRows (w : Word) : Nat := fld w 15 0
def entTile (w : Word) : Nat := fld w 63 32
def tableRows (t : List Word) : Nat := (t.map entRows).foldl (· + ·) 0

/-- A table breaks R263. DESIGN CHOICE (log entry 66): the manual names no fault for rows that sum to more than E1 of stA; the
operand fault 0x19 is raised for them, as for a reserved field, when the table is read. -/
def tableBad' (t : List Word) (tiles rows d accs : Nat) : Bool :=
  let n := tableRows t
  (t.any fun w => fld w 31 16 != 0 || decide (tiles ≤ entTile w) || decide (512 < entRows w)) ||
  n == 0 || decide (rows < n) || decide (accs < d + (n + 63) / 64)

/-- The entry of the group that holds row j, and whether j is its first row. -/
def groupAt : List Word → Nat → Option (Word × Bool)
  | [], _ => none
  | w :: r, j => if j < entRows w then some (w, j == 0) else groupAt r (j - entRows w)

/-- Reads and checks the table (R263, R272). -/
def mmulgTable (id d groups : Nat) : M Unit := do
  let o := (← get).job.opAt id
  let t ← (List.range groups).mapM fun i => do
    let bs ← engRead id (o.scal.toNat + 8 * i) 8
    pure (BitVec.ofNat 64 (leNum bs))
  faultIf (tableBad' t (stE (o.sts.getD 1 []) 2) (stE (o.sts.headD []) 1) d (recAccs (← get).job.lrec)) mfault
  modOp id fun o => { o with table := t }
  (List.range ((tableRows t + 63) / 64)).forM fun i => modify fun s => s.modJob fun j => j.closeFor (d + i)

/-- A unit of MMULG: the table, a group's stationary, or the next row (R263, R273). -/
def mmulgUnit (id : Nat) (z : Bool) (d groups pa pb : Nat) : M Bool := do
  if ((← get).job.opAt id).table.isEmpty then mmulgTable id d groups
  let o := (← get).job.opAt id
  let total := tableRows o.table
  let wa := o.sts.headD []
  match groupAt o.table o.unit with
  | none => rowsDone id pa total
  | some (w, _) =>
    match o.gimg with
    | none =>
      match ← tileUnit id 1 pb (o.sts.getD 1 []) (entTile w) with
      | none => pure ()
      | some g => modOp id fun o => { o with gimg := some g }
      pure false
    | some g =>
      let acc := d + o.unit / 64
      writeGate id (.acc acc)
      match ← nextRow id pa wa total with
      | none => pure ()
      | some (i, a) =>
        putRow id (d + i / 64) (i % 64) (mulRow false g a ((← get).job.startVal id (d + i / 64) (i % 64) z))
        let fresh := match groupAt o.table (i + 1) with | some (_, first) => first | none => true
        modOp id fun o => { o with unit := i + 1, gimg := if fresh then none else o.gimg }
      rowsDone id pa total

/-! ## MTOPK, MZERO (R265, R266) -/

/-- MTOPK (R265): register names are not rotated on the M stream (R276). -/
def execMtopk (h : Hdr) (l : Bool) (d : VReg) (a : AccReg) (ss : SReg) (k : BitVec 5) (nc : BitVec 7) (s : State) :
    Host.Outcome State Fault Refusal :=
  runInstr h [.M] (do
    let s ← get
    faultIf (!s.job.accOk a.toNat) mfault
    match s.job.resolveRun false d.toNat (2 * k.toNat) with
    | none => throw (.fault mfault)
    | some rs =>
      issueOp (.mtopk h l d a ss k nc) 4 { Keys.none with ar := [a.toNat], vw := rs } fun o =>
        { o with vd := rs, scal := s.getS ss }
      pure .next) s

/-- MTOPK's one unit. -/
def mtopkUnit (id : Nat) (l : Bool) (a k nc : Nat) : M Bool := do
  readGate id (.acc a)
  let j := (← get).job
  let o := j.opAt id
  o.vd.forM fun i => writeGate id (.vreg i)
  (List.range 64).forM fun m => do
    let (vs, xs) := topkRow l ((List.range nc).map fun c => j.accVal id a m c) (o.scal.truncate 32) k
    (List.range k).forM fun p => do
      putLane id (o.vd.getD p 0) m (vs.getD p 0)
      putLane id (o.vd.getD (k + p) 0) m (xs.getD p 0)
  pure true

/-- MZERO (R266). -/
def execMzero (h : Hdr) (d : AccReg) (s : State) : Host.Outcome State Fault Refusal :=
  runInstr h [.M] (do
    faultIf (!(← get).job.accOk d.toNat) mfault
    drain
    unlessWait (← get).mayEnter .weir
    modify fun s => s.modJob fun j => j.closeFor d.toNat
    issueOp (.mzero h d) 4 { Keys.none with aw := [d.toNat] } id
    pure .next) s

/-- MZERO's one unit. -/
def mzeroUnit (id d : Nat) : M Bool := do
  writeGate id (.acc d)
  modify fun s => s.modJob fun j => { j with acc := Cells.clear (4096 * d) (4096 * d + 4096) j.acc }
  pure true

/-! ## MST and MLDA (R267) -/

/-- MST. -/
def execMst (h : Hdr) (c : StReg) (a : AccReg) (r0 : BitVec 6) (pc : Slot) (s : State) : Host.Outcome State Fault Refusal :=
  runInstr h [.M] (do
    let w ← streamOfReg c.toNat
    faultIf (!(← get).job.accOk a.toNat || rowsBad w r0.toNat true) mfault
    checkBinds [⟨pc.toNat, false, stE w 0⟩]
    let j := (← get).job
    let keys := j.portKeys [pc.toNat] { Keys.none with ar := [a.toNat], sw := streamKeys j.window w (stExt w) }
    issueOp (.mst h c a r0 pc) 4 keys fun o => { o with sts := [w], argv := [j.argvOf pc.toNat] }
    pure .next) s

/-- Elements whose codes are written when the element at (row, col) has passed: itself without blocks; else the blocks that
it completes, two at a time where their codes share bytes (R221, R267, R315). -/
def mstBlocks (st : List Word) (row col : Nat) : List (List (List Nat)) :=
  let down := fun (c : Nat) => (List.range 32).map fun k => [c, row - 31 + k]
  if !fmtBlock (stFmt st) then []
  else if stBdim st = 0 then (if col % 32 = 31 then [(List.range 32).map fun k => [col - 31 + k, row]] else [])
  else if row % 32 != 31 then []
  else if !fmtFour (stFmt st) then [down col]
  else if col % 2 = 1 then [down (col - 1), down col]
  else []

/-- What an element's passing will write can be written (R267). -/
def mstCheck (id : Nat) (st : List Word) (row col : Nat) : M Unit := do
  let one := fun (ix : List Nat) => do
    let (a, n) := elemSpan st ix
    engCheck id a n
  let scale := fun (ix : List Nat) => if fmtBlock (stFmt st) then engCheck id (scaleAddr st ix) 1 else pure ()
  one [col, row]
  scale [col, row]
  (mstBlocks st row col).forM fun ixs => do
    ixs.forM one
    scale (ixs.headD [])

/-- Writes two blocks down neighbouring columns whose four-bit codes share bytes. -/
def pairPut (id : Nat) (st : List Word) (xs ys : List (List Nat)) (vx vy : List Lane) : M Unit := do
  let (sx, cx) := blockQuant (stFmt st) .rne (vx.map fun v => (dec32 v, 0))
  let (sy, cy) := blockQuant (stFmt st) .rne (vy.map fun v => (dec32 v, 0))
  (xs.zip (cx.zip cy)).forM fun (ix, c, d) => engWrite id (elemAddr st ix).1 (packCodes (stFmt st) [c, d])
  engWrite id (scaleAddr st (xs.headD [])) (leList 1 sx)
  engWrite id (scaleAddr st (ys.headD [])) (leList 1 sy)

/-- Delivers the element at (row, col) of MST: its value, and the outputs of this row and of the rows kept. -/
def mstEmit (id : Nat) (st : List Word) (row col : Nat) (v : Lane) : M Unit := do
  let f := stFmt st
  if !fmtBlock f then elemPut id st [col, row] (laneConv f false v).code
  else
    let o := (← get).job.opAt id
    let outs := (o.run 0).outs ++ [v]
    let kept := o.queue.getD 0 []
    let val := fun (ix : List Nat) =>
      if ix.getD 1 0 = row then outs.getD (ix.getD 0 0) 0
      else (kept.getD (kept.length - (row - ix.getD 1 0)) []).getD (ix.getD 0 0) 0
    match mstBlocks st row col with
    | [xs] => blockPut id st xs (xs.map val)
    | [xs, ys] => pairPut id st xs ys (xs.map val) (ys.map val)
    | _ => pure ()

/-- A unit of MST: the next row. -/
def mstUnit (id a r0 slot : Nat) : M Bool := do
  readGate id (.acc a)
  let o := (← get).job.opAt id
  let st := o.sts.headD []
  let f := stFmt st
  let b := o.bind id 0 2 slot (if fmtBlock f then none else some (f, stOvf st, false))
  let row := fun (q : Nat) => do
    let j := (← get).job
    pure (asElems ((List.range (stE st 0)).map fun n => j.accVal id a (r0 + q) n))
  let next := portRow b r0 (stE st 0) (stE st 1) row (mstCheck id st) (mstEmit id st)
  let (q, lag) := ((o.run 0).q, (← get).job.lagOf slot)
  match ← if lag ≤ q then wholeRow id st (q - lag) next else next with
  | some (r, outs) =>
    if fmtBlock f && stBdim st = 1 then
      modOp id fun o => { o with queue := if r % 32 = 31 then [] else [o.queue.getD 0 [] ++ [outs]] }
  | none => pure ()
  portDone b (stE st 1)

/-- MLDA. -/
def execMlda (h : Hdr) (d : AccReg) (r0 : BitVec 6) (a : StReg) (s : State) : Host.Outcome State Fault Refusal :=
  runInstr h [.M] (do
    let w ← streamOfReg a.toNat
    faultIf (!(← get).job.accOk d.toNat || rowsBad w r0.toNat false) mfault
    drain
    unlessWait (← get).mayEnter .weir
    modify fun s => s.modJob fun j => j.closeFor d.toNat
    let j := (← get).job
    issueOp (.mlda h d r0 a) 4 { Keys.none with aw := [d.toNat], sr := streamKeys j.window w (stExt w) } fun o =>
      { o with sts := [w] }
    pure .next) s

/-- Element n of row i of MLDA: its value goes to accumulator d, at row r0 + i (R267). DESIGN CHOICE (log entry 66): the port
record of a block decode fault has as ROW the accumulator row, r0 + i, as that of port C of MST has; MLDA has no port, and R289
gives it no ROWI. -/
def mldaElem (id d r0 : Nat) (b : Bind) (st : List Word) (i n : Nat) : M Unit := do
  let r := ((← get).job.opAt id).run 0
  if r.outs.length ≤ n then
    let code ← elemCode id st [n, i]
    let sc ← elemScale id st [n, i]
    modOp id fun o => o.setRun 0 { r with ins := setAt (0, none) r.ins n (elemIn st code sc) }
    let v ← portElem b (r0 + i) false false 0
    modify fun s => s.modJob fun j => j.setAcc d (r0 + i) n v
    pushOut b v

/-- A unit of MLDA: the next row, element by element (R267, R273). -/
def mldaUnit (id d r0 : Nat) : M Bool := do
  writeGate id (.acc d)
  let o := (← get).job.opAt id
  let st := o.sts.headD []
  let b := o.bind id 0 8 0 none
  let i := (o.run 0).q
  (List.range (stE st 0)).forM (mldaElem id d r0 b st i)
  endRow b
  pure (decide (stE st 1 ≤ i + 1))

end Sys2Proof.Machine
end

