-- ==== Sys2Proof/Machine/PortInstr.lean ====
section
/-! DEFINITION. The port instructions PLOAD, PSGET, PSSET, PRESET and PINFO (R308 to R312). -/

namespace Sys2Proof.Machine

/-- A port instruction that names a slot above PSLOTS (R313). -/
def namesSlot (n : Nat) : M Unit := do
  faultIf (decide (recPslots (← get).job.lrec < n)) (bindFault n)

/-- Holds until the slot's earlier users are done (R308, R113). -/
def holdSlot (n : Nat) (sr : List Range) : M Unit := do
  let keys := { Keys.none with pr := [n], sr := sr }
  let id ← takePlace keys
  waitOrder id keys
  let s ← get
  faultIf (s.job.spoilt keys 0) (parityFault s.cycle)

/-- The 264 bytes of an image: one ordered load (R309). -/
def readImage (n va : Nat) : M (List Byte) := do
  match spotOf (← get).job va 264 false with
  | none | some (.chan _) => throw (addrFault va 0)
  | some t =>
    faultIf (va % 8 != 0) (alignFault va 0)
    drain
    -- bytes at and beyond the scratch aperture's start are decoded as the aperture's (R10)
    let over_ := va + 264 - scratchVa
    match t with
    | .scratch off => do
      holdSlot n [blocks off (off + 264)]
      waitTide [] off 264
      settledBytes off (off + 264)
      renewAll off 264
      tagged 0 va (windowRead [] off 264)
    | .dtree off => do
      holdSlot n []
      let x ← dtreeXl .r 0 off 264
      tagged 0 va (homeLoad (x.engine 4) x.pa 264)
    | _ => do
      holdSlot n (if over_ = 0 then [] else [blocks 0 over_])
      let ps ← (lineParts 3 va 264).mapM fun (a, k) => do
        match spotOf (← get).job a k false with
        | some .mapped => do
          let x ← xlate .r 0 a k
          outsideClear none x.region k false
          tagged 0 a (load ⟨false, x.cc, 4, true, x.scope 1, false⟩ x.pa k)
        | some (.scratch off) => do
          settledBytes off (off + k)
          renewAll off k
          tagged 0 a (windowRead [] off k)
        | _ => throw (addrFault a 0)
      pure ps.flatten

/-- The 32-bit words of bytes. -/
def words32 : Nat → List Byte → List Nat
  | 0, _ => []
  | n + 1, bs => leNum (bs.take 4) :: words32 n (bs.drop 4)

/-- The status of an image, and the slot with it installed when it is accepted (R309). -/
def install (s : PortSlot) (ws : List Nat) : Nat × PortSlot :=
  let h0 := ws.getD 0 0
  let h1 := ws.getD 1 0
  match imageBreach h0 h1 (ws.drop 2) with
  | some (code, w) => (code + 256 * w, s)
  | none =>
    let p := progOf h0 h1 (ws.drop 2)
    (if p.isLinear then 0 else 1,
     { s with image := (ws.take (2 + p.nw)).map (BitVec.ofNat 32), linear := p.isLinear })

/-- PLOAD (R309). -/
def execPload (h : Hdr) (d : SReg) (n : Slot) (a : SReg) (imm : Imm) (s : State) : Host.Outcome State Fault Refusal :=
  runInstr h [.C] (do
    namesSlot n.toNat
    let bs ← readImage n.toNat ((← get).ea a imm)
    let (st, slot) := install ((← get).job.slotAt n.toNat) (words32 66 bs)
    modify fun s => (s.modJob fun j => { j with slots := vset j.slots n.toNat slot }).setS d (BitVec.ofNat 64 st)
    leavePlace
    pure .next) s

/-- An item of a slot's state (R310). -/
def slotItem (s : PortSlot) (i : Nat) : Nat :=
  if i < 0x200 then (Cells.get 0 s.carry i).toNat
  else if i < 0x400 then (Cells.get 0 s.win (i - 0x200)).toNat
  else if i = 0x400 then s.args.toNat
  else if i = 0x401 then s.satn.toNat
  else if i = 0x402 then s.flun.toNat
  else s.wdepth

/-- Writes an item of a slot's state (R310). -/
def setSlotItem (s : PortSlot) (i : Nat) (v : Lane) : PortSlot :=
  if i < 0x200 then { s with carry := Cells.set 0 s.carry i v }
  else if i < 0x400 then { s with win := Cells.set 0 s.win (i - 0x200) v }
  else if i = 0x400 then { s with args := v }
  else if i = 0x401 then { s with satn := v }
  else if i = 0x402 then { s with flun := v }
  else { s with wdepth := Nat.min (v.toNat % 16) 8 }

/-- PSGET (R310). -/
def execPsget (h : Hdr) (d : SReg) (n : Slot) (i : BitVec 12) (s : State) : Host.Outcome State Fault Refusal :=
  runInstr h [.C] (do
    namesSlot n.toNat
    drain
    holdSlot n.toNat []
    modify fun s => s.setS d (BitVec.ofNat 64 (slotItem (s.job.slotAt n.toNat) i.toNat))
    leavePlace
    pure .next) s

/-- PSSET (R310). -/
def execPsset (h : Hdr) (n : Slot) (i : BitVec 12) (a : SReg) (s : State) : Host.Outcome State Fault Refusal :=
  runInstr h [.C] (do
    namesSlot n.toNat
    drain
    holdSlot n.toNat []
    modify fun s =>
      let v : Lane := (s.getS a).truncate 32
      s.modJob fun j => { j with slots := vset j.slots n.toNat (setSlotItem (j.slotAt n.toNat) i.toNat v) }
    leavePlace
    pure .next) s

/-- PRESET's effect on a slot (R311). -/
def PortSlot.cleared (s : PortSlot) : PortSlot := { s with carry := [], win := [], wdepth := 0, satn := 0, flun := 0 }

/-- PRESET (R311). -/
def execPreset (h : Hdr) (n : Slot) (s : State) : Host.Outcome State Fault Refusal :=
  runInstr h [.C] (do
    namesSlot n.toNat
    drain
    holdSlot n.toNat []
    modify fun s => s.modJob fun j => { j with slots := vset j.slots n.toNat (j.slotAt n.toNat).cleared }
    leavePlace
    pure .next) s

/-- PINFO's value (R312). -/
def slotInfo (s : PortSlot) : Nat :=
  if s.image.isEmpty then 0
  else
    let p := slotProg s
    p.nw * 2 ^ 23 + h0Argk p.h0 * 2 ^ 20 + h0Lag p.h0 * 2 ^ 16 + p.cost * 2 ^ 6 + (h0Blocks p.h0 - 1) * 8 +
      (if p.hasState then 4 else 0) + (if s.linear then 2 else 0) + 1

/-- PINFO (R312): outside the Weir. -/
def execPinfo (h : Hdr) (d : SReg) (n : Slot) (s : State) : Host.Outcome State Fault Refusal :=
  runInstr h [.C] (do
    namesSlot n.toNat
    drain
    modify fun s => s.setS d (BitVec.ofNat 64 (slotInfo (s.job.slotAt n.toNat)))
    pure .next) s

end Sys2Proof.Machine
end

