-- ==== Sys2Proof/Machine/Poke.lean ====
section
/-! DEFINITION. The debugger's writes of a job's items (R440), and when a stream stands halted (R337, R438). -/

namespace Sys2Proof.Machine

/-- DSTAT.RES of a die. -/
def State.dstat (s : State) (die res : Nat) : State := s.modDie die fun d => { d with dres := res }

/-- The stream stands halted; one that still drains does not (R438). -/
def Job.isHalted (j : Job) (x : StreamId) : Bool := (j.str x).halted && (j.str x).stepping == .none

/-- A write of an item of the job (R440): the keys under which it enters the Weir, and its effect; none when the write
breaks its column. -/
def Job.poke (j : Job) (dsel v : Word) : Option (Keys × (Job → Job)) :=
  let i := fld dsel 31 0
  let x := streamOf (fld dsel 59 58)
  let lo : Lane := v.truncate 32
  let hi : Lane := (v >>> 32).truncate 32
  let all := allStreams.all j.isHalted
  match fld dsel 63 60 with
  | 0 =>
    let str := fun (f : Stream → Stream) => some (Keys.none, fun (j : Job) => j.setStr x (f (j.str x)))
    if !j.isHalted x then none
    else if i = 0 then str fun t => t.goTo v
    else if i < 64 then str fun t => t.setS (BitVec.ofNat 6 i) v
    else if i = 64 then str fun t => (List.range 16).foldl (fun t n => t.setP (BitVec.ofNat 4 n) (bit v n)) t
    else if i < 69 then str fun t => t.setLc (BitVec.ofNat 2 (i - 65)) v
    else none
  | 1 =>
    let r := i / 32
    let e := i % 32 * 2
    if all && decide (r < recVregs j.lrec) then
      some ({ Keys.none with vw := [r] }, fun j => (j.setLane r e lo).setLane r (e + 1) hi)
    else none
  | 2 =>
    let a := i / 2048
    let e := i % 2048 * 2
    if all && decide (a < recAccs j.lrec) && !(j.lineages.any fun l => l.holds (.acc a)) then
      some ({ Keys.none with aw := [a] }, fun j => (j.setAcc a (e / 64) (e % 64) lo).setAcc a (e / 64) (e % 64 + 1) hi)
    else none
  | 3 =>
    let n := i / 0x1000
    if all && n != 0 && decide (n ≤ recPslots j.lrec) && decide (i % 0x1000 ≤ 0x403) then
      some ({ Keys.none with pr := [n] }, fun j => { j with slots := vset j.slots n (setSlotItem (j.slotAt n) (i % 0x1000) lo) })
    else none
  | 4 =>
    if all && decide (16 ≤ i) && decide (i < 32) then
      let ceil := fld v 31 16
      some (Keys.none, fun j =>
        setSem j (i - 16) ({ semAt j (i - 16) with ceil := ceil, count := Nat.min (fld v 15 0) ceil } : Sem).serve)
    else none
  | _ => none

/-- The debugger's write of value v to the item that a DSEL value names, at a die: it is made after every earlier entry of the job
that overlaps it, and waits in its own place; one that breaks its column sets RES to 3, and is not made (R440). -/
def pokeTurn (die : Nat) (dsel v : Word) : M Unit := do
  let s ← get
  let who := Outsider.debugger die dsel v
  match s.findJob (fld dsel 47 32) with
  | none => set (s.dstat die 1)
  | some j =>
    match j.poke dsel v with
    | none => set ((s.dropOutside (· == who)).dstat die 3)
    | some (keys, f) =>
      let own := j.outsideEntry who keys
      let before := match own with | some e => j.entries.takeWhile fun (x : Entry) => x.id != e.id | none => j.entries
      match before.find? fun e => keys.overlap (j.keysLeft e) with
      | some e => outsideStay j.num who keys (keys.why e.keys)
      | none =>
        let told := if fld dsel 63 60 = 4 then
            s.tell (fun k _ o => k.num == j.num && onSem (fld dsel 31 0 - 16) o) ⟨0xE, 0, 0⟩ else s
        set (((told.dropOutside (· == who)).modJobNum j.num f).dstat die 0)

end Sys2Proof.Machine
end

