-- ==== Sys2Proof/Machine/Grant.lean ====
section
/-! DEFINITION. The engines at work: grants by class and rotation (R154, R269, R270, R306), Basin stacks (R342, R343), an
operation's units in its Weir entry (R113, R270, R273), tide stalls, completion (R107), reduction pushes (R286). -/

namespace Sys2Proof.Machine

/-! ## Engines -/

/-- The shared engine an operation runs on; none for copies. -/
def Op.engine (o : Op) : Option Engine :=
  match o.instr with
  | .mlds .. | .mldsK .. => some .load
  | .mmul .. | .mmulAm .. | .mmulg .. | .mdist .. | .mtopk .. | .mzero .. | .mst .. | .mlda .. => some .matrix
  | .vld .. | .vst .. | .vmov .. => some .vector
  | .vred .. | .vredStream .. | .vdrain .. => some .reduce
  | .vrow .. => some .rowstat
  | _ => none

def Core.grant (c : Core) : Engine → Grant
  | .matrix => c.matrix
  | .load => c.load
  | .vector => c.vector
  | .reduce => c.reduce
  | .rowstat => c.rowstat

def Core.setGrant (c : Core) (g : Grant) : Engine → Core
  | .matrix => { c with matrix := g }
  | .load => { c with load := g }
  | .vector => { c with vector := g }
  | .reduce => { c with reduce := g }
  | .rowstat => { c with rowstat := g }

/-- ENG of the fault record for an engine (R422). -/
def engNum : Engine → Nat
  | .matrix | .load => 1
  | .vector | .reduce => 2
  | .rowstat => 3

/-- Bound ports of an operation. -/
def Op.ports (o : Op) : Nat := (o.slots.filter (· != 0)).length

/-- Port engines in use on a core (R306). -/
def Core.portsUsed (c : Core) : Nat := (c.ports.map fun p => p.2.2).foldl (· + ·) 0
/-- The operation has its port engines, or needs none. -/
def Core.portsHeld (c : Core) (num id : Nat) : Bool := c.ports.any fun p => p.1 == num && p.2.1 == id
def Core.freePorts (c : Core) (num id : Nat) : Core := { c with ports := c.ports.filter fun p => !(p.1 == num && p.2.1 == id) }
def Core.takePorts (c : Core) (num id n slot : Nat) : Core :=
  if n = 0 || c.portsHeld num id then c else { c with ports := c.ports ++ [(num, id, n)], portLast := slot }

/-! ## Which operations may start -/

/-- The job with entry id as the linear consumer that it would be, for the order of R117. -/
def Job.trial (j : Job) (id : Nat) : Job :=
  let o := j.opAt id
  if o.started || o.role != .plain then j
  else match (j.spillForm o).reads.findSome? fun p => j.provFor id p with
    | some l => j.modOp id fun o => { o with role := .consumer l.tag }
    | none => j

/-- The operation waits for a lineage that has not settled (R330). -/
def Job.standsAside (j : Job) (e : Entry) (o : Op) : Bool :=
  match o.stall with
  | some ⟨.lineage src, _⟩ => j.lineages.any fun l => l.src == src && decide (l.born ≤ e.id)
  | _ => false

/-- A Basin entry is triggered: by rows, its hold's end, a demand, or a later entry that overlaps it (R342). -/
def Job.triggered (j : Job) (cycle : Nat) (e : Entry) (o : Op) : Bool :=
  match o.basin with
  | none => true
  | some (til, trig) =>
    let later := (j.entries.dropWhile fun x => x.id != e.id).tail
    (trig || decide (til ≤ cycle) || later.any fun x => e.keys.overlap (j.keysLeft x)) && !j.movingProv e

/-- The image the operation needs is written (R269). -/
def Job.imageReady (j : Job) (o : Op) : Bool :=
  match o.instr with
  | .mmul .. | .mmulAm .. | .mdist .. => (j.imageFor o).isSome
  | _ => true

/-- The entry's operation when it awaits engine u: in the Weir, not stopped at a fault, not done, not standing aside, not held
in the Basin, nor waiting to enter it. -/
def Job.awaits (j : Job) (cycle : Nat) (u : Engine) (e : Entry) : Option Op :=
  match e.kind with
  | .op o =>
    if o.engine == some u && o.hold.isNone && !o.finished && !e.away && o.late.isNone && !j.standsAside e o &&
        j.triggered cycle e o then some o else none
  | _ => none

/-- The operation may start, or go on, now: its image, and the order of R113 for all its keys (L13). -/
def Job.mayStart (j : Job) (e : Entry) (o : Op) : Bool :=
  j.imageReady o && (o.started || ((j.trial e.id).heldOn e.id e.keys).isNone)

/-- Entries that wait for a settle, and the later ones that wait behind them (R330, L52). -/
def Job.asides (j : Job) : List Entry :=
  j.entries.foldl (fun l e =>
    match e.kind with
    | .op o => if j.standsAside e o || o.late.isSome || l.any fun x => j.holds x e e.keys then l ++ [e] else l
    | _ => l) []

/-- The operations of a job that may be granted engine u: on the matrix engine, of those not started the first in issue
order alone that does not stand aside, Basin entries apart (R269, R330, R346). -/
def Job.candidates (j : Job) (cycle : Nat) (u : Engine) : List (Entry × Op) :=
  let all := j.entries.filterMap fun e => (j.awaits cycle u e).map fun o => (e, o)
  let aside := j.asides.map fun e => e.id
  let first := (all.find? fun x => !x.2.started && x.2.basin.isNone && !aside.contains x.1.id).map fun x => x.1.id
  let turn := fun (x : Entry × Op) => u != .matrix || x.2.started || x.2.basin.isSome || first == some x.1.id
  all.filter fun x => turn x && j.mayStart x.1 x.2

/-- The class at which a candidate competes: for a Basin entry, the highest among the entries of its key (R342). -/
def State.bidClass (s : State) (core : Nat) (j : Job) (o : Op) : Nat :=
  if o.basin.isNone then j.cls
  else ((s.onCore core).filter fun k => k.entries.any fun e =>
      match e.kind with | .op p => p.basin.isSome && p.key == o.key | _ => false).foldl (fun c k => Nat.max c k.cls) j.cls

/-- A candidate for a grant. -/
structure Bid where
  job   : Job
  entry : Entry
  op    : Op
  aged  : Bool
  cls   : Nat
  /-- Distance of the slot from the slot last granted. -/
  turn  : Nat
  /-- It does not have to wait, in the reduction slot, where it does not keep its engine. -/
  ready : Bool
  deriving DecidableEq, Repr

/-- a goes before b (R154); a tie goes by the operation's number in its job (DESIGN CHOICE, log entry 60). -/
def Bid.before (a b : Bid) : Bool :=
  if a.aged != b.aged then a.aged
  else if a.aged then decide (a.op.since < b.op.since)
  else if a.cls != b.cls then decide (b.cls < a.cls)
  else if a.turn != b.turn then decide (a.turn < b.turn)
  else decide (a.entry.id < b.entry.id)

/-- The next unit of an operation; whether it was the last. -/
def unitOf (id : Nat) : Instr → M Bool
  | .mlds _ _ pb => mldsUnit id pb.toNat false
  | .mldsK _ _ pb => mldsUnit id pb.toNat true
  | .mmul _ z d r0 _ pa => mulUnit id z false d.toNat r0.toNat pa.toNat
  | .mdist _ z d r0 _ pa => mulUnit id z true d.toNat r0.toNat pa.toNat
  | .mmulAm _ z d r0 a m => mmulAmUnit id z d.toNat r0.toNat a.toNat m.toNat
  | .mmulg _ z d _ _ _ g pa pb => mmulgUnit id z d.toNat g.toNat pa.toNat pb.toNat
  | .mtopk _ l _ a _ k nc => mtopkUnit id l a.toNat k.toNat nc.toNat
  | .mzero _ d => mzeroUnit id d.toNat
  | .mst _ _ a r0 pc => mstUnit id a.toNat r0.toNat pc.toNat
  | .mlda _ d r0 _ => mldaUnit id d.toNat r0.toNat
  | .vld _ _ _ _ px => vldUnit id px.toNat
  | .vst _ _ _ _ pz => vstUnit id pz.toNat
  | .vmov _ t2 _ _ _ _ px py pz => vmovUnit id t2 px py pz
  | .vred _ op x q _ _ => vredUnit id op x q
  | .vredStream _ op x q _ px => vredStreamUnit id op x q px.toNat
  | .vdrain _ clr _ q => vdrainUnit id clr q
  | .vrow _ abs _ a nc => vrowUnit id abs a.toNat nc.toNat
  | _ => throw .halt

/-- The next unit of an operation with what comes before it: a parity error of its structures (R425), and at its first unit its
role on provisional places (R323). -/
def unitBody (id : Nat) : M Bool := do
  opParity id
  let o := (← get).job.opAt id
  let classed := match o.role with | .consumer _ => true | _ => false
  if !o.started && !classed then linearStart id
  unitOf id o.instr

/-- The operation of a job that is at work on its core, as the maker of the accesses that follow. -/
def State.asOp (s : State) (id : Nat) : State := { s with via := some (.op id), cur := s.job.strmOf id }

/-- The next push of the reduction slot of operation id of a job would have to wait. -/
def State.stillWaits (s : State) (num id : Nat) : Bool :=
  match s.focus num with
  | none => false
  | some t =>
    match unitBody id (t.asOp id) with
    | .error (.wait _) _ => true
    | _ => false

/-- The load that is to build the image of a place is at work on it (R340). -/
def State.making (s : State) (core : Nat) (p : KeyPlace) : Bool :=
  (s.onCore core).any fun k => k.num == p.maker.1 && k.entries.any fun e => e.id == p.maker.2 &&
    match e.kind with
    | .op o => o.key == some p.key && !o.finished && o.hold.isNone
    | _ => false

/-- A keyed load waits while another load builds the image of its key (R340). -/
def State.keyBusy (s : State) (core : Nat) (j : Job) (e : Entry) (o : Op) : Bool :=
  match o.instr with
  | .mldsK .. => (s.coreAt core).keys.any fun p =>
      some p.key == o.key && p.img.isNone && p.maker != (j.num, e.id) && s.making core p
  | _ => false

/-- An operation as a candidate, the slot last granted given. DESIGN CHOICE (log entry 71): its wait for the engine counts from its
issue or its entry, the time among it in which Weir order, an unwritten image or a settle held it back. -/
def State.bidOf (s : State) (core last : Nat) (j : Job) (e : Entry) (o : Op) : Bid :=
  ⟨j, e, o, o.aged || decide (o.since + 4096 ≤ s.cycle), s.bidClass core j o, (j.slot + 7 - last) % 8,
   o.stall.isNone || o.engine != some .reduce || !s.stillWaits j.num e.id⟩

/-- Every candidate for engine u of a core. -/
def State.bids (s : State) (core : Nat) (u : Engine) : List Bid :=
  let last := ((s.coreAt core).grant u).last
  ((s.onCore core).map fun j => ((j.candidates s.cycle u).filter fun x => !s.keyBusy core j x.1 x.2).map fun (e, o) =>
    s.bidOf core last j e o).flatten

/-- The copy at the head of channel c, or the inbound command being carried out for c = 4 (R380, R124). -/
def Job.copyHead (j : Job) (c : Nat) : Option Nat :=
  if c < 4 then
    match vget [] j.chans c with
    | .copy id :: _ => some id
    | _ => none
  else (j.entries.find? fun e => match e.kind with | .op o => (o.copy.map fun k => k.chan) == some 4 | _ => false).map fun e => e.id

/-- The copies of a core that run, or may start: those at the head of their channels, in the Weir, not stopped at a fault and
not done; the slot last chosen given. -/
def State.copyBids (s : State) (core last : Nat) : List Bid :=
  (s.onCore core).flatMap fun j => (List.range 5).filterMap fun c =>
    (j.copyHead c).bind fun id =>
      (j.entries.find? fun e => e.id == id && !e.away).bind fun e =>
        match e.kind with
        | .op o => if o.hold.isNone && !o.finished then some (s.bidOf core last j e o) else none
        | _ => none

def allEngines : List Engine := [.matrix, .load, .vector, .reduce, .rowstat]

/-- The operations of a core that wait for port engines, of the engines given and among copies (R306). -/
def State.portBids (s : State) (core : Nat) (us : List Engine) : List Bid :=
  let c := s.coreAt core
  (us.flatMap (s.bids core) ++ s.copyBids core c.portLast).filterMap fun b =>
    if b.op.ports != 0 && !c.portsHeld b.job.num b.entry.id then some { b with turn := (b.job.slot + 7 - c.portLast) % 8 } else none

/-- The operation, of whatever engine or a copy, that has aged waiting for its port engines: the free ones, and those that free,
are kept for it until it has them (R306). -/
def State.keptBid (s : State) (core : Nat) : Option Bid :=
  match (s.portBids core allEngines).filter Bid.aged with
  | [] => none
  | b :: r => some (r.foldl (fun (a b : Bid) => if b.op.since < a.op.since then b else a) b)

/-- Its job and entry. -/
def State.portsKept (s : State) (core : Nat) : Option (Nat × Nat) := (s.keptBid core).map fun b => (b.job.num, b.entry.id)

/-- The candidate has its port engines, or needs none; or so many are free, none of them is kept for another, and each
operation that could take them now, with its engine, leaves it its own or comes after it (R154, R306). -/
def State.portsFree (s : State) (core : Nat) (b : Bid) : Bool :=
  let c := s.coreAt core
  let me := (b.job.num, b.entry.id)
  let n := c.portsUsed
  let b' := { b with turn := (b.job.slot + 7 - c.portLast) % 8 }
  b.op.ports == 0 || c.portsHeld b.job.num b.entry.id ||
  (decide (n + b.op.ports ≤ 4) &&
    (match s.portsKept core with
     | some k => k == me
     | none => (s.portBids core (allEngines.filter fun u => (c.grant u).holder.isNone)).all fun x =>
        (x.job.num, x.entry.id) == me || decide (n + b.op.ports + x.op.ports ≤ 4) || decide (4 < n + x.op.ports) ||
        !x.before b'))

/-- A candidate goes before a correction that is due in job j: one of another job that has aged, or by class and rotation (R154). -/
def Bid.aheadOf (b : Bid) (j : Job) (last : Nat) : Bool :=
  b.job.num != j.num && (b.aged || decide (j.cls < b.cls) || (b.cls == j.cls && decide (b.turn < (j.slot + 7 - last) % 8)))

/-- The port engines of the linear programs of a target's operation are free (R306, R327). -/
def State.corrPorts (s : State) (core : Nat) (o : Op) : Bool :=
  o.ports == 0 || (decide ((s.coreAt core).portsUsed + o.ports ≤ 4) && (s.portsKept core).isNone)

/-- A correction that is due runs on engine u before the candidate: before every operation of its own job that has not started,
and before those of other jobs after which it does not come (R327). -/
def State.corrBefore (s : State) (core : Nat) (u : Engine) (b : Bid) : Bool :=
  let last := ((s.coreAt core).grant u).last
  (s.onCore core).any fun j => j.lineages.any fun l =>
    match l.nextDue with
    | some (_, t) =>
      t.op.engine == some u && s.corrPorts core t.op && (if j.num == b.job.num then !b.op.started else !b.aheadOf j last)
    | none => false

/-- The candidate that a grant of engine u goes to; of two that nothing in R154 tells apart, the one whose job stands first
(DESIGN CHOICE, log entry 60). One that would have to wait for something else is none while there are others. -/
def State.winner (s : State) (core : Nat) (u : Engine) : Option Bid :=
  let all := (s.bids core u).filter fun b => s.portsFree core b && !s.corrBefore core u b
  let able := all.filter Bid.ready
  match if able.isEmpty then all else able with
  | [] => none
  | b :: r => some (r.foldl (fun (a b : Bid) => if b.before a then b else a) b)

/-! ## Basin stacks (R343) -/

/-- Basin entries of a core with a key, in entry order: cycle of entry, then slot, then number. DESIGN CHOICE (log entry 73): an MMUL
that enters the Basin after a settle stands by the cycle of that entry, not of its issue. -/
def State.equalKeyed (s : State) (core : Nat) (key : Option BasinKey) : List (Job × Entry × Op) :=
  let all := ((s.onCore core).map fun j => j.entries.filterMap fun e =>
    match e.kind with | .op o => if o.basin.isSome && o.key == key then some (j, e, o) else none | _ => none).flatten
  let before := fun (a b : Job × Entry × Op) =>
    decide (a.2.2.since < b.2.2.since) || (a.2.2.since == b.2.2.since && decide (a.1.slot < b.1.slot))
  let ins := fun (x : Job × Entry × Op) (l : List (Job × Entry × Op)) => l.takeWhile (fun y => !before x y) ++ [x] ++ l.dropWhile (fun y => !before x y)
  all.foldl (fun l x => ins x l) []

/-- Rows of an MMUL. -/
def Op.rows (o : Op) : Nat := stE (o.sts.headD []) 1

/-- Members added to a stack after its first, in order: each within 64 rows and 4 members that bind port A, overlapping no
member of its own job (R343), in the order of R113, and with no provisional moving operand (R335). -/
def stackGo : List (Job × Entry × Op) → List (Job × Entry × Op) → List (Job × Entry × Op)
  | [], st => st
  | x :: r, st =>
    let rows := (st.map fun y => y.2.2.rows).foldl (· + ·) x.2.2.rows
    let meet := st.any fun y => y.1.num == x.1.num && x.2.1.keys.overlap y.2.1.keys
    let ports := ((st ++ [x]).filter fun y => y.2.2.ports != 0).length
    stackGo r (if 64 < rows || meet || 4 < ports || x.1.movingProv x.2.1 ||
        (x.1.heldOn x.2.1.id x.2.1.keys).isSome then st else st ++ [x])

/-- The stack that a grant to a Basin entry forms. -/
def State.stackOf (s : State) (core : Nat) (b : Bid) : List (Job × Entry × Op) :=
  if b.op.basin.isNone then [(b.job, b.entry, b.op)]
  else stackGo ((s.equalKeyed core b.op.key).filter fun x => !(x.1.num == b.job.num && x.2.1.id == b.entry.id)) [(b.job, b.entry, b.op)]

/-- Changes an operation of any job. -/
def State.modOpOf (s : State) (num id : Nat) (f : Op → Op) : State := s.modJobNum num fun j => j.modOp id f

/-- ENGINE_GRANT (R154, R254, R306, R343): the free engine goes to the first candidate with its port engines; a Basin entry
takes the entries of its key with it, which take their port engines as they come up. -/
def execEngineGrant (core : Nat) (u : Engine) (s : State) : Host.Outcome State Fault Refusal :=
  runEvent (do
    let s ← get
    need (s.coreRuns core && ((s.coreAt core).grant u).holder.isNone)
    match s.winner core u with
    | none => throw .halt
    | some b =>
      let st := s.stackOf core b
      let ids := st.map fun x => (x.1.num, x.2.1.id)
      let g : Grant := ⟨some (b.job.num, b.entry.id), b.job.slot, ids.tail, if 1 < ids.length then ids else []⟩
      let s := s.modCore core fun c => (c.takePorts b.job.num b.entry.id b.op.ports b.job.slot).setGrant g u
      let begin_ := fun (id : Nat) (s : State) =>
        (s.leaveBasin id 0).modJob fun j => j.modOp id fun o => { o with aged := false, since := s.cycle }
      set (ids.foldl (fun s x => s.atJob x.1 (begin_ x.2)) s)) s

/-- ENGINE_AGING (R154): an operation that has waited 4,096 cycles for its engine has aged. -/
def execEngineAging (num id : Nat) (s : State) : Host.Outcome State Fault Refusal :=
  runEvent (do
    focusOn num
    let s ← get
    let o := s.job.opAt id
    let c := s.coreAt s.job.coreIx
    match o.engine with
    | none => throw .halt
    | some u =>
      need (decide (o.since + 4096 ≤ s.cycle) && (c.grant u).holder != some (num, id) && !o.finished && o.hold.isNone)
      set (s.modOpOf num id fun o => { o with aged := true })) s

/-- BASIN_HOLD_EXPIRY (R342): Basin entry i of the core is triggered at the end of its hold. -/
def execBasinHoldExpiry (core i : Nat) (s : State) : Host.Outcome State Fault Refusal :=
  runEvent (do
    let s ← get
    let all := ((s.onCore core).map fun j => j.entries.filterMap fun e =>
      match e.kind with | .op o => (o.basin.map fun b => (j.num, e.id, b)) | _ => none).flatten
    match all[i]? with
    | none => throw .halt
    | some (num, id, til, _) =>
      need (decide (til ≤ s.cycle))
      set (s.modOpOf num id fun o => { o with basin := some (til, true) })) s

/-! ## Giving up an engine -/

/-- The operation no longer holds engine u: the next member of its stack follows it; after the last the stack is over. -/
def Core.giveUp (c : Core) (u : Engine) (num id : Nat) : Core :=
  let g := c.grant u
  if g.holder == some (num, id) then
    c.setGrant { g with holder := g.stack.head?, stack := g.stack.tail, members := if g.stack.isEmpty then [] else g.members } u
  else c.setGrant { g with stack := g.stack.filter (· != (num, id)) } u

/-- An operation leaves the stack in progress (R345). -/
def Core.leaveStack (c : Core) (num id : Nat) : Core :=
  c.setGrant { c.matrix with members := c.matrix.members.filter (· != (num, id)) } .matrix

/-- Engine and port engines are given up by an operation or copy of the job in focus (R306). -/
def State.releaseEngine (s : State) (id : Nat) (ports : Bool) : State :=
  s.modCore s.job.coreIx fun c =>
    let c := match (s.job.opAt id).engine with
      | none => c
      | some u => c.giveUp u s.job.num id
    if ports then c.freePorts s.job.num id else c

/-! ## Units -/

/-- UNIT of the fault record: element for MST, MLDA and MLDS, else the row, register or push (R273, R422, L21). -/
def Op.unitNum (o : Op) : Nat :=
  let e := stE (o.sts.headD []) 0
  match o.instr with
  | .mst .. | .mlda .. => (o.run 0).q * e + (o.run 0).outs.length
  | .mlds .. | .mldsK .. => (o.run 0).q * stE (o.sts.headD []) 1 + (o.run 0).outs.length
  | .vld .. | .vst .. | .vredStream .. => (o.run 0).q
  | .vmov .. => (o.run 2).q
  | _ => o.unit

/-- What every record of an operation's fault carries (R422). -/
def Entry.opFaultInfo (e : Entry) (o : Op) (f : FaultInfo) : FaultInfo :=
  { f with strm := e.strm, pc := e.pc.toNat, opnum := o.num, tl := o.tl, unit := o.unitNum,
           eng := (o.engine.map engNum).getD 4 }

/-- The operation stops at a fault (R270, R273, R315, R345): it gives up its engine and port engines, keeps its place, and
its fault is taken. A load that stopped at a read restarts from its first element. -/
def State.opFault (s : State) (id : Nat) (f : FaultInfo) : State :=
  match s.job.entries.find? fun e => e.id == id with
  | some e =>
    let o := s.job.opAt id
    let s := ((s.goesOn id).releaseEngine id true).modCore s.job.coreIx fun c => c.leaveStack s.job.num id
    let s := s.modJob fun j => j.modOp id fun o =>
      { o with basin := none,
               unit := (match o.instr with | .mldsK .. => if f.cause = 0x1B then o.unit else 1 | _ => o.unit) }
    s.takeFault (e.opFaultInfo o f) (.op id)
  | none => s

/-- After a unit: the operation is done, or goes on; a push of the reduction slot is one grant, and its next push waits anew
(R287, R154). -/
def State.afterUnit (s : State) (id : Nat) (fin : Bool) : State :=
  let s := (s.goesOn id).modJob fun j => j.modOp id fun o => { o with started := true, finished := fin }
  let push := (s.job.opAt id).engine == some .reduce
  let s := s.tellEntry id
  if fin then s.releaseEngine id true
  else if push then (s.releaseEngine id false).modJob fun j => j.modOp id fun o => { o with since := s.cycle }
  else s

/-- The operation meets something it waits on: for a settle it stands aside and gives up its engine (R330); the reduction slot
is given up on any wait, since it grants one push or drain at a time (R287). -/
def State.opStall (s : State) (id : Nat) (w : WaitObj) : State :=
  let s := s.setStall id (some w) 0
  match w with
  | .lineage _ => s.releaseEngine id true
  | _ => if (s.job.opAt id).engine == some .reduce then s.releaseEngine id false else s

/-- One unit of operation id of the job in focus, which holds its engine. -/
def State.runUnit (s : State) (id : Nat) : State :=
  let s := s.asOp id
  match unitBody id s with
  | .ok fin t => t.afterUnit id fin
  | .error (.wait w) t => t.opStall id w
  | .error (.fault f) t => t.opFault id f
  | .error (.after f) t => t.opFault id f
  | .error .halt _ => s

/-- The operation holds its engine. -/
def State.holdsEngine (s : State) (num id : Nat) (o : Op) : Bool :=
  match o.engine with
  | none => false
  | some u => ((s.coreAt s.job.coreIx).grant u).holder == some (num, id)

/-- Runs the instruction in which a stream holds a Weir place (R115). -/
def runHeld (i : Instr) (t : State) : Host.Outcome State Fault Refusal :=
  match i with
  | .ld h size signed d a ose imm => execLd h size signed d a ose imm t
  | .st h size a b ose imm => execSt h size a b ose imm t
  | .amo h op size d a b ose => execAmo h op size d a b ose t
  | .cas h size d a b ose => execCas h size d a b ose t
  | .stld h n a imm => execStld h n a imm t
  | .sflush h mask => execSflush h mask t
  | .sunmap h n => execSunmap h n t
  | .pload h d n a imm => execPload h d n a imm t
  | .psget h d n i => execPsget h d n i t
  | .psset h n i a => execPsset h n i a t
  | .preset h n => execPreset h n t
  | _ => .next t

/-- An operation of a resumed job enters the Weir again, the first of those that have not, when a place is free; a copy or an
inbound command may take its kept place (R116). -/
def State.reenter (s : State) (e : Entry) (o : Op) : State :=
  let j := s.job
  let first := (j.entries.find? fun x => x.away && !j.spent x).any fun x => x.id == e.id
  if first && (s.weirFree || o.copy.any fun c => !j.keptTaken c.chan) then
    let back : Entry := { e with away := false, kept := !s.weirFree, kind := .op { o with since := s.cycle } }
    s.modJob fun j => { j with entries := (j.entries.filter fun x => x.id != e.id) ++ [back] }
  else s

/-- A member of a stack that has come up takes its port engines (R306, R343), unless they are kept for an operation that does not
wait for the matrix engine itself. -/
def State.memberPorts (s : State) (id : Nat) (o : Op) : Option State :=
  let c := s.coreAt s.job.coreIx
  let kept := (s.keptBid s.job.coreIx).any fun b => b.op.engine != some .matrix
  if o.ports = 0 || c.portsHeld s.job.num id then some s
  else if c.portsUsed + o.ports ≤ 4 && !kept then some (s.modCore s.job.coreIx fun c => c.takePorts s.job.num id o.ports s.job.slot)
  else none

/-- The entry of a line that is dirty no longer leaves. -/
def State.backDone (s : State) (num w line : Nat) : State :=
  if (s.findJob num).any fun j => (j.lineAt w line).any fun l => l.dirty then s else s.dropOutside (· == .back num w line)

/-- An access from outside that the hardware itself carries on: a write-back, or the debugger's write of an item. -/
def outsideTurn (w : Outsider) (s : State) : Host.Outcome State Fault Refusal :=
  match w with
  | .back num w line => runEvent (recallOf num w line) (s.backDone num w line)
  | .debugger die dsel v => runEvent (pokeTurn die dsel v) s
  | _ => .next s

/-- Runs the next unit of entry id, or its held instruction, when p holds of what it waits on; an operation that a
pre-emption removed enters again. -/
def proceed (num id : Nat) (p : Option WaitObj → Bool) (s : State) : Host.Outcome State Fault Refusal :=
  match s.focus num with
  | none => .next s
  | some t =>
    match t.job.entries.find? fun e => e.id == id with
    | none => .next s
    | some e =>
      match e.kind with
      | .op o =>
        if e.away then .next (if t.job.onCore && t.coreRuns t.job.coreIx then t.reenter e o else s)
        else if t.coreRuns t.job.coreIx && t.holdsEngine num id o && o.hold.isNone && !o.finished && p (o.stall.map fun w => w.obj) then
          .next (((t.memberPorts id o).map fun t => t.runUnit id).getD s)
        else .next s
      | .held x => recheck num x (fun w => p (some w)) runHeld s
      | .outside w => outsideTurn w s

/-- What the entry waits on is a tide. -/
def isTide : Option WaitObj → Bool
  | some (.tide _) => true
  | _ => false

/-- WEIR_ENTRY_PROCEED (R113): the entry makes the accesses of its next unit. -/
def execWeirEntryProceed (num id : Nat) (s : State) : Host.Outcome State Fault Refusal := proceed num id (fun w => !isTide w) s

/-- TIDE_STALL_RELEASE (R121): an entry stalled on a tide goes on once the tide has passed its byte. -/
def execTideStallRelease (num id : Nat) (s : State) : Host.Outcome State Fault Refusal := proceed num id isTide s

/-! ## Completion (R107, R286, R322) -/

/-- Every access of a finished operation is made: its pushes applied, its delta added. -/
def Job.opComplete (j : Job) (id : Nat) (o : Op) : Bool :=
  o.finished &&
  (match o.instr with
   | .vred .. | .vredStream .. => !(j.pushes.any fun p => p.num == o.num)
   | _ => true) &&
  (match o.role with
   | .contrib tag _ => (j.lineage tag).all fun l => l.deltas.all fun d => d.id != id || d.added
   | _ => true)

/-- Marks a linear consumer's base as whole; that of a latch is what its pushes have made of it (R324). -/
def Job.baseDone (j : Job) (id : Nat) : Job :=
  let whole := fun (t : Target) =>
    match t.places.headD (.acc 0) with
    | .latch q => { t with based := true, base := Cells.setMany 0 [] 0 (Cells.getMany 0 j.latch (64 * q) 64) }
    | _ => { t with based := true }
  match (j.opAt id).role with
  | .consumer tag => j.modLineage tag fun l => { l with targets := l.targets.map fun t => if t.id = id then whole t else t }
  | _ => j

/-- ENGINE_OPERATION_COMPLETE (R107, R115): its number is complete, and its entry leaves. -/
def execEngineOperationComplete (num id : Nat) (s : State) : Host.Outcome State Fault Refusal :=
  runEvent (do
    focusOn num
    let j := (← get).job
    let o := j.opAt id
    need (o.copy.isNone && j.opComplete id o && (← get).coreRuns j.coreIx)
    modify fun s => ((s.tellEntry id).tellLine o.tl ⟨o.eng, num, 0⟩).modJob fun j =>
      (((j.baseDone id).completeOn o.tl o.num).leave id).sweepImages
    modify State.endDrains) s

/-- REDUCTION_APPLY (R286): the oldest push is applied 12 cycles after it was made. -/
def execReductionApply (num : Nat) (s : State) : Host.Outcome State Fault Refusal :=
  runEvent (do
    focusOn num
    let s ← get
    need (s.coreRuns s.job.coreIx)
    match s.job.pushes with
    | [] => throw .halt
    | p :: r =>
      need (decide (p.due ≤ s.cycle))
      set (s.modJob fun j => { j.applyPush p with pushes := r }).endDrains) s

/-! ## Corrections at work (R327) -/

/-- The correction of a target runs next on its engine, which is free: no candidate of another job goes before it, and the
port engines of its linear programs are free (R154, R306, R327). -/
def State.corrTurn (s : State) (o : Op) : Bool :=
  let j := s.job
  match o.engine with
  | none => false
  | some u =>
    let g := (s.coreAt j.coreIx).grant u
    g.holder.isNone && s.corrPorts j.coreIx o && !(s.bids j.coreIx u).any fun b => b.aheadOf j g.last

/-- CORRECTION_APPLY (R327, R336): the next row, register or push of the next correction due is made on the engine of the
operation that made its target. -/
def execCorrectionApply (num t : Nat) (s : State) : Host.Outcome State Fault Refusal :=
  runEvent (do
    focusOn num
    let s ← get
    match s.job.lineage t with
    | none => throw .halt
    | some l =>
      match l.nextDue with
      | none => throw .halt
      | some (k, tg) =>
        need (s.coreRuns s.job.coreIx && s.corrTurn tg.op)
        let u := (tg.op.engine).getD .matrix
        let turn := fun (c : Core) => c.setGrant { c.grant u with last := s.job.slot } u
        set ((s.correctUnit l k tg).modCore s.job.coreIx turn).endDrains) s

end Sys2Proof.Machine
end

