-- ==== Sys2Proof/Machine/Launch.lean ====
section
/-! DEFINITION. Launch records: their checks (R135 to R146), the launch queues (R408, R409), LAUNCH (R203) and the launch
port (R414, R415). -/

namespace Sys2Proof.Machine

/-! ## The checks of a record (R144) -/

/-- Largest group size of a domain (R141); none: no limit. -/
def domMax : Nat → Option Nat
  | 1 => some 1
  | 2 => some 8
  | 3 => some 64
  | 4 => some 256
  | 5 => some 2048
  | _ => none

/-- Reason 0x02: a reserved field or word is not zero (R136 to R139). -/
def recReserved (r : List Word) : Bool :=
  fld (recCtrl r) 18 16 != 0 || fld (recWord r 1) 63 36 != 0 ||
  ((List.range 5).any fun i => recWord r (11 + i) != 0) || ((List.range 8).any fun i => recWord r (24 + i) != 0) ||
  ((List.range 8).any fun k =>
    if k < recLevels r then fld (recLevel r k) 60 53 != 0 || fld (recLevel r k) 31 21 != 0 else recLevel r k != 0)

/-- Reason 0x04: a count out of range, or no code entry (R135, R137). -/
def recCountsBad (r : List Word) : Bool :=
  decide (4 < recChan r) || decide (8 < recAccs r) || decide (512 < recVregs r) ||
  allStreams.all fun x => recEntry r x == 0

/-- Reason 0x05: a token FIFO with producer equal to consumer (R138). -/
def recTokensBad (r : List Word) : Bool :=
  (List.range 8).any fun i => recTk r i != 0 && recTk r i / 4 == recTk r i % 4

/-- Reason 0x06 does not apply: domains, their order and the group sizes keep R141. -/
def recDomainsOk (r : List Word) : Bool :=
  (List.range (recLevels r)).all fun k =>
    let d := recDom r k
    (d == 1) == (k == 0) && d != 0 && (k == 0 || decide (recDom r (k - 1) ≤ d)) &&
      (match domMax d with | some n => decide (recS r k ≤ n) | none => true)

/-- A level of domain pod or system is given. -/
def recIsWide (r : List Word) : Bool := decide (recWide r < recLevels r)

/-- Reason 0x07: a wide level at LAUNCH, or FIXC against R143. -/
def recFixcBad (r : List Word) (port : Bool) : Bool :=
  if recIsWide r then
    !port || (List.range (recLevels r)).any fun k => decide (recWide r ≤ k + 1) && decide (recN r k ≤ recFixc r k)
  else (List.range (recLevels r)).any fun k => recFixc r k != 0

/-- Reason 0x08: an address against R136. DESIGN CHOICE (log entry 78): a BARBASE that is not 0 with GANG = 0, against R136, has no
reason in the table of R144, and the record is accepted. -/
def recAddrsBad (r : List Word) : Bool :=
  (recGang r && (recBarbase r == 0 || recBarbase r % 256 != 0)) || recDonea r % 8 != 0 || fld (recCtbase r) 17 0 != 0

/-! ## Places on an empty package (R145, R146) -/

/-- Jobs of the package's share of a launch (R143). -/
def recShare (r : List Word) : Nat := if recIsWide r then recS r (recWide r - 1) else recS r (recLevels r)

/-- Jobs of the record that one empty core holds (R145). -/
def coreHolds (r : List Word) : Nat :=
  let per := fun (have_ take : Nat) => if take = 0 then 8 else have_ / take
  [8, per 1024 (recVregs r), per 32 (recAccs r), per 128 (recWindow r / 65536), per 128 (recPslots r), per 16 (recChan r)].foldl
    Nat.min 8

/-- Size of the largest group bound to a domain not wider than `dom`. -/
def boundGroup (r : List Word) (dom : Nat) : Nat :=
  (List.range (Nat.min (recLevels r) (recWide r))).foldl (fun g k => if recDom r k ≤ dom then recS r k else g) 1

/-- Jobs that one instance of each domain holds, package last, with groups kept whole: groups of one launch are of one size
at each level, so whole groups fill an instance exactly as far as they fit (R146). -/
def packageHolds (r : List Word) : Nat :=
  let whole := fun (g n : Nat) => n / g * g
  let core := whole (boundGroup r 2) (coreHolds r)
  let cluster := whole (boundGroup r 3) (8 * core)
  let die := whole (boundGroup r 4) (4 * cluster)
  8 * die

/-- The first reason of R144 that applies; 0 when the record is accepted. -/
def recReason (r : List Word) (sec port : Bool) : Nat :=
  if fld (recCtrl r) 63 56 != 1 then 1
  else if recReserved r then 2
  else if recWorld r != sec then 3
  else if recCountsBad r then 4
  else if recTokensBad r then 5
  else if !recDomainsOk r then 6
  else if recFixcBad r port then 7
  else if recAddrsBad r then 8
  else if recGang r && decide (packageHolds r < recShare r) then 9
  else 0

/-! ## Launch queues (R408, R409) -/

def Die.lq (d : Die) (q w : Nat) : Word := Cells.get 0 d.lqd (8 * q + w)
/-- Records in the ring of a queue, the head first. -/
def Die.ring (d : Die) (q : Nat) : List QRec := ((d.queues.find? fun e => e.1 == q).map fun e => e.2).getD []
def Die.setRing (d : Die) (q : Nat) (rs : List QRec) : Die :=
  let rest := d.queues.filter fun e => e.1 != q
  if rs.isEmpty then { d with queues := rest }
  else { d with queues := rest.takeWhile (fun e => decide (e.1 < q)) ++ [(q, rs)] ++ rest.dropWhile fun e => decide (e.1 < q) }
/-- HEAD and TAIL (w6). -/
def Die.lqHead (d : Die) (q : Nat) : Nat := fld (d.lq q 6) 63 32
def Die.lqTail (d : Die) (q : Nat) : Nat := fld (d.lq q 6) 31 0
def Die.setCounts (d : Die) (q head tail : Nat) : Die :=
  { d with lqd := Cells.set 0 d.lqd (8 * q + 6) (BitVec.ofNat 64 (head % 2 ^ 32 * 2 ^ 32 + tail % 2 ^ 32)) }
def Die.lqFull (d : Die) (q : Nat) : Bool := (d.lqTail q + 2 ^ 32 - d.lqHead q) % 2 ^ 32 == 2 ^ fld (d.lq q 0) 55 52

/-- Bytes that the hub or a dispatcher stores at a physical address, all in one line; where no memory answers, nothing. -/
def State.physStore (s : State) (pa : Nat) (bs : List Byte) : State :=
  let r := regionOf s.hub.pos.toNat pa
  if s.backed r then s.hardStore ⟨none, placeAddr r, bs, 2⟩ else s

/-- Bytes that no job's access reads lie in failed units: these go out of service, and the die notifies the service cores. DESIGN
CHOICE (log entry 22): with no job there is no record to write, and what the units hold since is what is read (R425, R432). -/
def State.hubLoss (s : State) (pa n : Nat) : State :=
  let bad := s.bad.filter fun b => decide (b.pa < pa + n) && decide (pa < b.pa + 64)
  bad.foldl (fun s b => (s.outOfService b).notifyAt (b.pa / 2 ^ 48)) s

/-- The lines of n bytes that they are to load there are recalled first; the event waits for provisional data (R57, R61). -/
def physRecall (pa n : Nat) : M Unit := do
  let r := regionOf (← get).hub.pos.toNat pa
  (List.range ((placeAddr r % 256 + n + 255) / 256)).forM fun i => recallLine (placeAddr r + 256 * i)

/-- The bytes can then be read. -/
def physReady (pa n : Nat) : M Unit := do
  physRecall pa n
  modify fun s => s.hubLoss (placeAddr (regionOf s.hub.pos.toNat pa)) n

/-- Bytes that they load there. -/
def State.physLoad (s : State) (pa n : Nat) : List Byte :=
  let r := regionOf s.hub.pos.toNat pa
  s.mem.readMany (placeAddr r) n

/-- The translation context that a queue gives, as its descriptor stands (R21, R408). -/
def Die.context (d : Die) (q : Nat) : Ctx where
  asid := fld (d.lq q 0) 47 32
  sec := bit (d.lq q 0) 62
  root := fld (d.lq q 1) 51 17 * 2 ^ 17
  dtree := fld (d.lq q 2) 51 16 * 65536
  fqva := fld (d.lq q 4) 56 16
  cls := fld (d.lq q 0) 61 60

/-- Copies a record into the ring and increments TAIL, in one event (R136, R409). -/
def State.enqueue (s : State) (die q : Nat) (words : List Word) (reply : Option (Nat × Word)) : State :=
  let d := s.dieAt die
  let tail := d.lqTail q
  let pa := fld (d.lq q 3) 51 8 * 256 + 256 * (tail % 2 ^ fld (d.lq q 0) 55 52)
  let s := s.physStore pa (words.flatMap fun w => leList 8 w.toNat)
  let r : QRec := ⟨words, d.context q, s.hub.nextLaunch, s.cycle, [], none, 0, reply, s.hub.arrival⟩
  (s.modDie die fun d => (d.setRing q (d.ring q ++ [r])).setCounts q (d.lqHead q) (tail + 1)).modHub
    fun h => { h with nextLaunch := h.nextLaunch + 1 }

/-- The reason for which queue q of a die takes no record now: not open to the process, or full (R203). -/
def State.queueReason (s : State) (die q : Nat) (mine : Bool) : Nat :=
  let d := s.dieAt die
  if !(s.hub.boot.started && bit (d.lq q 0) 63 && mine) then 0x10 else if d.lqFull q then 0x11 else 0

/-- LAUNCH's selector, queue and record checks, with the enqueue in the same event (R203). -/
def launchRecord (sel : Word) (words : List Word) : M Nat := do
  if fld sel 63 10 != 0 then pure 0x12
  else
    let s ← get
    let die := if bit sel 9 then s.job.die else fld sel 8 6
    let q := fld sel 5 0
    let c := (s.dieAt die).context q
    let reason := s.queueReason die q (c.asid == s.job.ctx.asid && c.sec == s.job.ctx.sec)
    let reason := if reason = 0 then recReason words c.sec false else reason
    if reason = 0 then set (s.enqueue die q words none)
    pure reason

/-- LAUNCH (R203): the fence, the record's read, then the checks and the enqueue. R136 puts the record in the mapped range;
DESIGN CHOICE (log entry 58): an address in the scratch aperture or the device-tree page takes the address fault too. -/
def execLaunch (h : Hdr) (d a b : SReg) (s : State) : Host.Outcome State Fault Refusal :=
  runInstr h [.C] (do
    fenceAt 5
    let s ← get
    let va := (s.getS a).toNat
    if va % 256 != 0 then throw (addrFault va 0)
    match vrange va with
    | .mapped => do
      let x ← xlate .r 0 va 256
      outsideClear none x.region 256 false
      let bs ← tagged 0 va (homeLoad (x.engine 4) x.pa 256)
      let code ← launchRecord (s.getS b) (wordsOf 32 bs)
      modify fun s => s.setS d (BitVec.ofNat 64 code)
      pure .next
    | _ => throw (addrFault va 0)) s

/-- LQD_WRITE (R408): the RW fields of a descriptor word; while OPEN is 1, only OPEN, CLASS and WGT. -/
def lqdWord (w : Nat) (v : Word) : Word :=
  if w = 0 then
    let v := v &&& 0xFFF0_FFFF_0000_0000
    if 8 < fld v 55 52 then v &&& 0xFF0F_FFFF_FFFF_FFFF ||| 0x0080_0000_0000_0000 else v
  else if w = 1 then v &&& 0x000F_FFFF_FFFE_0000
  else if w = 2 then v &&& 0x000F_FFFF_FFFF_0000
  else if w = 3 then v &&& 0x000F_FFFF_FFFF_FF00
  else v &&& 0x01FF_FFFF_FFFF_0000

/-- LQD_WRITE (R408), made by a service core. -/
def execLqdWrite (die q w : Nat) (v : Word) (s : State) : Host.Outcome State Fault Refusal :=
  runEvent (do
    need (decide (die < 8) && decide (q < 64) && decide (w < 5))
    let s ← get
    let d := s.dieAt die
    let new :=
      if !bit (d.lq q 0) 63 then lqdWord w v
      else if w = 0 then d.lq q 0 &&& 0x40FF_FFFF_FFFF_FFFF ||| v &&& 0xBF00_0000_0000_0000
      else d.lq q w
    set (s.modDie die fun d => { d with lqd := Cells.set 0 d.lqd (8 * q + w) new })) s

/-! ## The launch port (R414, R415) -/

/-- A report: its tag, reason, state and job count, and its entries (R414). -/
def reportBytes (tag : Word) (reason state njob : Nat) (entries : List Nat) : List Byte :=
  leList 8 tag.toNat ++ leList 8 (reason * 2 ^ 56 + state * 2 ^ 48 + njob) ++ entries.flatMap (leList 8)

/-- The world of a port that brings launch packets: a UALink station, or an Ethernet port from 8 on (R414, R429). -/
def Hub.portSec (h : Hub) (port : Nat) : Bool :=
  if port < 8 then vget false h.linkSec port else vget false h.ethSec (port - 8)

/-- A report is stored line by line, where the port that brought the packet may write (R414, R429). -/
def State.report (s : State) (port pa : Nat) : Nat → List Byte → State
  | 0, _ => s
  | n + 1, bs =>
    if bs.isEmpty then s
    else
      let k := 256 - pa % 256
      let r := regionOf s.hub.pos.toNat pa
      let s := if s.worldOk (s.hub.portSec port) (placeAddr r) (Nat.min k bs.length) then s.physStore pa (bs.take k) else s
      State.report s port (pa + k) n (bs.drop k)

/-- A record that the port may read, and can (R415 step 3, R425). -/
def State.portReads (s : State) (pa : Nat) : Bool :=
  let r := regionOf s.hub.pos.toNat pa
  s.backed r && s.worldOk (s.hub.portSec s.hub.arrival) (placeAddr r) 256 && (s.failing (placeAddr r) 256).isNone && (match r with | .scratch .. => false | _ => true)

/-- The reason with which the port answers a packet, and the record when it is to be enqueued (R415). -/
def State.packetReason (s : State) (sel die recpa rsvd : Nat) : Nat × List Word :=
  if rsvd != 0 || decide (64 ≤ sel) || decide (7 < die) || decide (2 ^ 52 ≤ recpa) || recpa % 256 != 0 then (0x13, [])
  else if !s.hub.boot.started then (0x15, [])
  else if !s.portReads recpa then (0x14, [])
  else
    let words := wordsOf 32 (s.physLoad recpa 256)
    let reason := s.queueReason die sel true
    if reason != 0 then (reason, [])
    else
      let reason := recReason words ((s.dieAt die).context sel).sec true
      (reason, if reason = 0 then words else [])

/-- LAUNCH_PACKET (R414, R415), through the port named for it. -/
def execLaunchPacket (p : List Byte) (s : State) : Host.Outcome State Fault Refusal :=
  runEvent (do
    need (decide (p.length = 32))
    let s ← get
    let part := fun (lo n : Nat) => leNum ((p.drop lo).take n)
    let tag : Word := BitVec.ofNat 64 (part 0 8)
    let reply := part 24 8
    if 2 ^ 52 ≤ reply || reply % 64 != 0 then set (s.modHub fun h => { h with errlog := h.errlog + 1 })
    else
      let pa := part 8 8 % 2 ^ 52
      let read := fun (s : State) => s.packetReason (part 16 1) (part 17 1) (part 8 8) (part 18 6)
      if (read s).1 != 0x13 && (read s).1 != 0x15 then physRecall pa 256
      let s ← get
      let (reason, words) := read s
      let s := if reason = 0x14 then s.hubLoss (placeAddr (regionOf s.hub.pos.toNat pa)) 256 else s
      let s := if reason = 0 then s.enqueue (part 17 1) (part 16 1) words (some (reply, tag)) else s
      set (s.report s.hub.arrival reply 2 (reportBytes tag reason (if reason = 0 then 1 else 3) 0 []))) s

end Sys2Proof.Machine
end

