-- ==== Sys2Proof/Machine/Map.lean ====
section
/-! DEFINITION. Page-table walks (R30 to R32, R42) and the mapping command port (R36 to R41). -/

namespace Sys2Proof.Machine

/-! ## Walks (R32) -/

/-- The walk of the hardware walkers: each entry is read by a prompt load, through the die's walk cache; with the outcome,
the table entries it passed (R30, R31). -/
def walkGo (cache : List WalkEnt) (asid : Nat) (sec : Bool) (va : Nat) : Nat → Nat → M (Walk × List WalkEnt)
  | l, table => do
    let pa := table + tableIndex va l * 8
    let s ← get
    let r := regionOf s.hub.pos.toNat pa
    let reads := decide (pa < 2 ^ 51) && (cache.find? fun w => w.hits asid sec va l).isNone && s.worldOk sec (placeAddr r) 8 && s.backed r
    let got ← attempt (if reads then do recallLine (placeAddr r); probe (placeAddr r) 8 else pure ())
    match got, readEntry (← get) cache asid sec va l pa with
    | .error f, _ => pure (.fault ⟨f.cause, va, 0, 0, f.aux⟩, [])
    | .ok _, .leaf e => pure (.leaf l e pa, [])
    | .ok _, .fault f => pure (.fault f, [])
    | .ok _, .table t =>
      match l with
      | 0 => pure (.fault ⟨0x11, va, 0, 0, pa⟩, [])
      | l' + 1 => do
        let entry := match cache.find? fun w => w.hits asid sec va l with
          | some w => w
          | none => ⟨asid, sec, l, va / pageSize l, t, pa⟩
        let (w, es) ← walkGo cache asid sec va l' t
        pure (w, entry :: es)

/-- A queued walk may start: a walker is free, and each core that asked has fewer than 8 in service (R32). -/
def Die.canStart (d : Die) (w : WalkReq) : Bool :=
  decide (d.walking.length < 64) && w.who.all fun x => decide (d.serving x.core < 8)

/-- a is started before b: aged requests first, and within each part by class and then by age (R32). -/
def WalkReq.before (cycle : Nat) (a b : WalkReq) : Bool :=
  let old := fun (w : WalkReq) => w.aged || decide (w.since + 4096 ≤ cycle)
  if old a != old b then old a
  else if a.cls != b.cls then decide (b.cls < a.cls)
  else decide (a.since < b.since)

/-- A queued walk starts: in a walk for the same granule that is in service by now, or with a walker of its own. -/
def Die.startWalk (d : Die) (w : WalkReq) : Die :=
  let mine := fun (v : WalkReq) => v.same w.asid w.sec w.va
  if d.walking.any mine then
    { d with walking := d.walking.map fun v => if mine v then v.merge w.who w.cls else v }
  else { d with walking := d.walking ++ [w] }

/-- WALK_START (R32): request i of the die's queue, when no other that may start goes before it. -/
def execWalkStart (die i : Nat) (s : State) : Host.Outcome State Fault Refusal :=
  runEvent (do
    let s ← get
    let d := s.dieAt die
    match d.walkQ[i]? with
    | none => throw .halt
    | some w =>
      need (d.canStart w && d.walkQ.all fun x => !(d.canStart x && x.before s.cycle w))
      set (s.modDie die fun d => ({ d with walkQ := d.walkQ.take i ++ d.walkQ.drop (i + 1) } : Die).startWalk w)) s

/-- WALK_REQUEST_AGED (R32): a request that has waited 4,096 cycles is to be started ahead of those that have not. -/
def execWalkRequestAged (die i : Nat) (s : State) : Host.Outcome State Fault Refusal :=
  runEvent (do
    let s ← get
    match (s.dieAt die).walkQ[i]? with
    | none => throw .halt
    | some w =>
      need (!w.aged && decide (w.since + 4096 ≤ s.cycle))
      set (s.modDie die fun d => { d with walkQ := d.walkQ.set i { w with aged := true } })) s

/-- A walk's result reaches its requesters: the leaf enters their cores' translation caches; each requester of a failed walk
has its own record to raise (R30, R42, R43). -/
def State.deliver (s : State) (w : WalkReq) : Walk → State
  | .leaf l e pa =>
    let t : Tlb := ⟨w.asid, w.sec, l, w.va / pageSize l * pageSize l, e, pa⟩
    w.who.foldl (fun s r =>
      let kind := ((s.findJob r.num).map fun j => j.tlbKind r.by_).getD 0
      s.modCore r.core fun c => c.fillTlb t kind) s
  | .fault f =>
    w.who.foldl (fun s r => s.modJobNum r.num fun j => { j with walkFaults := j.walkFaults ++ [(r.by_, f)] }) s

/-- WALK_COMPLETE (R32): walk i in service reads its entries and ends. -/
def execWalkComplete (die i : Nat) (s : State) : Host.Outcome State Fault Refusal :=
  runEvent (do
    let d := (← get).dieAt die
    match d.walking[i]? with
    | none => throw .halt
    | some w =>
      let (r, es) ← walkGo d.walkCache w.asid w.sec w.va 3 w.root
      let fresh := es.filter fun e => !d.walkCache.contains e
      let keep := match r with | .leaf .. => fresh | .fault _ => []
      modify fun s => (s.modDie die fun d =>
        { d with walking := d.walking.take i ++ d.walking.drop (i + 1), walkCache := (keep ++ d.walkCache).take 4096 }).deliver w r) s

/-! ## Mapping commands (R36 to R41) -/

/-- Word i of the command in progress. -/
def MapCmd.word (c : MapCmd) (i : Nat) : Word := c.words.getD i 0
def MapCmd.asid (c : MapCmd) : Nat := fld (c.word 0) 63 48
def MapCmd.sec (c : MapCmd) : Bool := bit (c.word 0) 47
def MapCmd.level (c : MapCmd) : Nat := fld (c.word 0) 43 42
/-- First byte and size of the range that the entry covers (R22). -/
def MapCmd.base (c : MapCmd) : Nat := (c.word 1).toNat / pageSize c.level * pageSize c.level
def MapCmd.size (c : MapCmd) : Nat := pageSize c.level

/-- The old value is a leaf; a global one matches every address space of its world (R38). -/
def MapCmd.oldLeaf (c : MapCmd) : Bool := pteV c.old && pteKind c.old == 1
def MapCmd.global (c : MapCmd) : Bool := c.oldLeaf && pteG c.old
/-- A context matches the command. -/
def MapCmd.matches (c : MapCmd) (asid : Nat) (sec : Bool) : Bool := sec == c.sec && (asid == c.asid || c.global)

/-- The command at the head of MAPQ, read by the hub; none when its word is malformed or cannot be read. DESIGN CHOICE (log
entry 77): R36 names no world for the port, and its reads and its stores of entries meet no world check. -/
def State.mapHead (s : State) : Option (List Word) :=
  match s.hub.mapq with
  | [] => none
  | v :: _ =>
    let pa := fld v 51 5 * 32
    let r := regionOf s.hub.pos.toNat pa
    if fld v 63 52 != 0 || fld v 4 0 != 0 || !s.backed r || (s.failing (placeAddr r) 32).isSome then none
    else some (wordsOf 4 (s.physLoad pa 32))

/-- Its words can be read: their line is recalled first (R57). -/
def State.mapReady (s : State) : M Unit :=
  match s.hub.mapq with
  | [] => pure ()
  | v :: _ => physRecall (fld v 51 5 * 32) 32

/-- The units that hold the command have failed: it is rejected, and they go out of service (R425). -/
def State.mapLoss (s : State) : State :=
  match s.hub.mapq with
  | [] => s
  | v :: _ => s.hubLoss (placeAddr (regionOf s.hub.pos.toNat (fld v 51 5 * 32))) 32

/-- The command ends: MAPDONE counts it; a rejected one sets REJ (R38, R40). -/
def State.mapEnd (s : State) (rejected : Bool) : State :=
  s.modHub fun h =>
    { h with mapq := h.mapq.tail, mapdone := (h.mapdone + 1) % 2 ^ 64, mapRej := h.mapRej || rejected, mapCmd := none }

/-- A marker enters every copy-channel queue and the inbound queue of a job (R38). -/
def Job.mark (j : Job) : Job :=
  { j with chans := j.chans.map (· ++ [.marker]), inq := j.inq ++ [.marker] }

/-- MAP_WRITE_ENTRY (R37, R38 step 1): markers are placed for every matching job; a malformed command is rejected. -/
def execMapWriteEntry (s : State) : Host.Outcome State Fault Refusal :=
  runEvent (do
    let s ← get
    need (!s.hub.mapq.isEmpty && s.hub.mapCmd.isNone)
    s.mapReady
    let s ← get
    match s.mapHead with
    | none => set (s.mapLoss.mapEnd true)
    | some ws =>
      let c : MapCmd := ⟨ws, 0, 0, []⟩
      let pa := (c.word 2).toNat
      need (fld (c.word 0) 46 44 != 1)
      if fld (c.word 0) 46 44 != 0 || fld (c.word 0) 41 0 != 0 || pa % 8 != 0 ||
          !s.backed (regionOf s.hub.pos.toNat pa) then set (s.mapEnd true)
      else
        physReady pa 8
        let s ← get
        let c := { c with old := leNum (s.physLoad pa 8) }
        let js := (s.jobs.filter fun j => j.present && c.matches j.ctx.asid j.ctx.sec).map fun j => j.num
        let s := s.mapJobs fun j => if j.present && js.contains j.num then j.mark else j
        set (s.modHub fun h => { h with mapCmd := some { c with jobs := js } })) s

/-- A command stands stopped at a fault (R38, R39). -/
def Job.copyStopped (j : Job) (id : Nat) : Bool :=
  (j.entries.find? fun e => e.id == id).any fun e => match e.kind with | .op o => o.hold.isSome | _ => false

/-- An inbound command of the job is under way and not stopped at a fault. -/
def Job.inboundBusy (j : Job) : Bool :=
  j.entries.any fun e => match e.kind with
    | .op o => (o.copy.any fun c => c.chan == 4) && o.hold.isNone
    | _ => false

/-- The first marker of every queue of the job has reached the head (R38 step 2). -/
def Job.markersReady (j : Job) : Bool :=
  (j.chans.toList.all fun q => (q.takeWhile (· != .marker)).all fun e =>
    match e with | .copy id => j.copyStopped id | .marker => true) &&
  (j.inq.takeWhile (· != .marker)).isEmpty && !j.inboundBusy

/-- Translation-cache entries that the old value could have produced (R38 step 4). -/
def MapCmd.stale (c : MapCmd) (t : Tlb) : Bool :=
  t.sec == c.sec && (t.asid == c.asid || pteG t.leaf || c.global) &&
  decide (t.va < c.base + c.size) && decide (c.base < t.va + pageSize t.level)
def MapCmd.staleWalk (c : MapCmd) (w : WalkEnt) : Bool :=
  w.sec == c.sec && (w.asid == c.asid || c.global) && decide (w.level ≤ c.level) &&
  decide (c.base ≤ w.prefix_ * pageSize w.level) && decide (w.prefix_ * pageSize w.level < c.base + c.size)

/-- Stash lines of a job recorded under a translation that is removed (R58). -/
def MapCmd.staleLine (c : MapCmd) (j : Job) (l : StashLine) : Bool :=
  let va := (vget ⟨false, 0, 0, 0, 0⟩ j.stash l.win).gva * 65536 + l.line * 256
  c.matches j.ctx.asid j.ctx.sec && decide (c.base ≤ va) && decide (va < c.base + c.size)

/-- Every translation cache and walk cache of the package drops the entries that p and q name. -/
def State.forget (s : State) (p : Tlb → Bool) (q : WalkEnt → Bool) : State :=
  let live := fun (l : List Tlb) => l.filter fun t => !p t
  let core := fun (k : Core) => { k with tlb := live k.tlb, tlb1 := k.tlb1.map live }
  let die := fun (d : Die) => { d with walkCache := d.walkCache.filter fun w => !q w }
  { s with cores := s.cores.map core, dies := s.dies.map die }

/-- Caches and stash lines let go of the old translation (R38 step 4, R58). -/
def State.purge (s : State) (c : MapCmd) : State :=
  let s := s.forget c.stale c.staleWalk
  let dirty := s.jobs.flatMap fun (j : Job) =>
    if j.present then (j.lines.filter fun l => l.dirty && c.staleLine j l).map fun l => (j.num, l, j.windowPa (j.stashOff l)) else []
  let s := dirty.foldl (fun s (n, l, pa) => (s.writeBack n l).windowLoss n pa 256) s
  s.mapJobs fun j => if j.present then { j with lines := j.lines.filter fun l => !c.staleLine j l } else j

/-- MAP_MARKERS_AT_HEAD (R38 steps 2 to 4): the entry is stored and old translations are removed. -/
def execMapMarkersAtHead (s : State) : Host.Outcome State Fault Refusal :=
  runEvent (do
    let s ← get
    match s.hub.mapCmd with
    | none => throw .halt
    | some c =>
      let js := s.jobs.filter fun j => j.present && c.jobs.contains j.num
      need (c.stage == 0 && js.all Job.markersReady &&
        s.jobs.all fun j => !j.present || j.lines.all fun l => !(l.dirty && c.staleLine j l && j.stashProv l))
      js.forM fun j => backsReady j.num (c.staleLine)
      let s := (← get).physStore (c.word 2).toNat (leList 8 (c.word 3).toNat)
      set ((s.purge c).modHub fun h => { h with mapCmd := some { c with stage := 1 } })) s

/-- Removes the first marker of a queue. -/
def unmark {α : Type} [BEq α] (m : α) (q : List α) : List α := q.erase m

/-- Stores of a job that were translated and are still to be performed are performed (R38 step 5). -/
def settleStores (num : Nat) : M Unit := do
  match (← get).focus num with
  | none => pure ()
  | some t =>
    set t
    allStreams.forM fun x => do
      modify fun s => { s with cur := x }
      drain

/-- MAP_COMMAND_DONE (R38 steps 5 and 6): no unit uses the old translation any more; markers are released. -/
def execMapCommandDone (s : State) : Host.Outcome State Fault Refusal :=
  runEvent (do
    match (← get).hub.mapCmd with
    | none => throw .halt
    | some c =>
      need (c.stage == 1)
      let s ← get
      ((s.jobs.filter fun j => j.present && c.matches j.ctx.asid j.ctx.sec).map fun j => j.num).forM settleStores
      modify fun s =>
        let s := s.mapJobs fun j =>
          if j.present && c.jobs.contains j.num then
            { j with chans := j.chans.map (unmark .marker), inq := unmark .marker j.inq } else j
        s.mapEnd false) s

/-- MAP_FLUSH_ASID (R40): rejected while a job of the address space is there or queued; else its cached entries go. -/
def execMapFlushAsid (s : State) : Host.Outcome State Fault Refusal :=
  runEvent (do
    let s ← get
    need s.hub.mapCmd.isNone
    s.mapReady
    let s ← get
    match s.mapHead with
    | none => throw .halt
    | some ws =>
      let c : MapCmd := ⟨ws, 0, 0, []⟩
      need (fld (c.word 0) 46 44 == 1)
      let mine := fun (x : Ctx) => x.asid == c.asid && x.sec == c.sec
      let used := (s.jobs.any fun j => j.present && mine j.ctx) ||
        s.dies.toList.any fun d => d.queues.any fun q => q.2.any fun r => mine r.ctx
      if used || fld (c.word 0) 41 0 != 0 then set (s.mapEnd true)
      else
        let s := s.forget (fun t => t.asid == c.asid && t.sec == c.sec)
          fun w => w.asid == c.asid && w.sec == c.sec
        set (s.mapEnd false)) s

/-- MAPSTAT.HELD (R36, R41): the oldest command waits on a queue of a job that is not resident. -/
def State.mapHeld (s : State) : Bool :=
  match s.hub.mapCmd with
  | none => false
  | some c => c.stage == 0 && s.jobs.any fun j => j.status == .saved && c.jobs.contains j.num && !j.markersReady

end Sys2Proof.Machine
end

