-- ==== Sys2Proof/Machine/Boot.lean ====
section
/-! DEFINITION. Reset and boot (R426), measurements and attestation (R427, R428), the region registers and the presence map
(R429, R454), power (R431). -/

namespace Sys2Proof.Machine

/-- The 32 bytes of a digest, the first byte highest. -/
def digestBytes (d : BitVec 256) : List Byte := (leList 32 d.toNat).reverse

/-- PACKAGE_RESET (R426): everything returns to its reset value, memory contents, failed units and module flash apart; then stage 0 brings
up the hub and derives the identity key of this reset. -/
def execPackageReset (s : State) : Host.Outcome State Fault Refusal :=
  let h := { Hub.reset with
    code := s.hub.code, caps := s.hub.caps, rate := s.hub.rate
    boot := ⟨1, false, false, 0, s.hub.boot.resets + 1, 0⟩ }
  .next { State.reset with mem := s.mem, hub := h, agenda := s.agenda, rota := s.rota, bad := s.bad.filter fun b => !b.l2 }

/-- MRn after an extend (R427). -/
def Hub.extend (h : Hub) (n : Nat) (x : BitVec 256) : Hub :=
  { h with mr := vset h.mr n (Config.sm3 (digestBytes (vget 0 h.mr n) ++ digestBytes x)) }

/-- The memory configuration that boot firmware accepts (R2): all 128 channels of equal, supported capacity, at a supported
rate. -/
def Hub.memoryOk (h : Hub) : Bool :=
  h.caps.length == 128 && (h.caps.all fun c => c == h.caps.headD 0) && [2, 4, 8].contains (h.caps.headD 0) &&
  [10667, 12800, 14400].contains h.rate

/-- The world bits that firmware assigns (R429), from the assignment as written: a bit for each core, each copy engine, and
the hub functions, in this order. -/
def worldBit (w : List Byte) (i : Nat) : Bool := bitN (w.getD (i / 8) 0).toNat (i % 8)

/-- A boot failure: no image code runs; a status frame is sent, and stage 2 starts again later (R426). -/
def State.bootFails (s : State) : State :=
  s.modHub fun h => { h with boot := { h.boot with failed := true, failAt := s.cycle }, bootFrames := h.bootFrames + 1 }

/-- Boot firmware tests every memory unit and keeps what failed out of service (R425, R426). -/
def State.keepOut (s : State) : State := s.bad.foldl (fun t b => t.outOfService b) s

/-- Stage 5 (R426): units that failed stay out of service; worlds, position, presence map; the compute dies start when the memory
configuration is in order, and else it is reported through the management port (R2). -/
def State.firmware (s : State) (b : BootImage) : State :=
  let s := s.keepOut
  let cores := Vector.ofFn fun (i : Fin 256) =>
    { (s.cores[i.val]'i.isLt) with sec := worldBit b.worlds i.val, copySec := worldBit b.worlds (256 + i.val) }
  { s with cores := cores }.modHub fun h =>
    { h with
      boot := { h.boot with stage := 5, started := h.memoryOk }
      configErrs := if h.memoryOk then h.configErrs else h.configErrs + 1
      pod := b.pod, pos := b.pos, podmap := Vector.ofFn fun (i : Fin 16) => b.map.getD i.val 0
      pcieSec := worldBit b.worlds 512, linkSec := Vector.ofFn fun (i : Fin 8) => worldBit b.worlds (513 + i.val)
      ethSec := Vector.ofFn fun (i : Fin 4) => worldBit b.worlds (521 + i.val) }

/-- BOOT_IMAGE_FETCHED (R426 stages 1 to 5): stage 2 obtained an address and an image, or fails; the certificate, the image's signature and its security version are checked,
each measurement is extended before what it measures takes effect (R427), and secure firmware starts. -/
def execBootImageFetched (b : BootImage) (s : State) : Host.Outcome State Fault Refusal :=
  runEvent (do
    let s ← get
    need (s.hub.boot.stage == 1 && !s.hub.boot.failed)
    let cert := Config.sm3 b.cert
    let image := Config.sm3 b.image
    if !(b.fetched && Config.sm2RootOk cert b.certSig && Config.sm2OwnerOk b.cert image b.sig && decide (Config.fusedVersion ≤ b.version)) then
      set s.bootFails
    else
      let s := s.modHub fun h =>
        (((h.extend 0 cert).extend 1 image).extend 2 (Config.sm3 b.worlds)).extend 3 (Config.sm3 b.dtree)
      set (s.firmware b)) s

/-- BOOT_RETRY (R426): 10 seconds of the 3.0 GHz clock after a failure, stage 2 starts again. -/
def execBootRetry (s : State) : Host.Outcome State Fault Refusal :=
  runEvent (do
    let s ← get
    need (s.hub.boot.failed && decide (s.hub.boot.failAt + 30_000_000_000 ≤ s.cycle))
    set (s.modHub fun h => { h with boot := { h.boot with failed := false } })) s

/-- MEASUREMENT_EXTEND (R427). -/
def execMeasurementExtend (n : Nat) (x : Digest) (s : State) : Host.Outcome State Fault Refusal :=
  runEvent (do
    let s ← get
    need (decide (n < 16) && s.hub.boot.stage == 5)
    set (s.modHub fun h => h.extend n x)) s

/-- Bytes 0x000 to 0x277 of a report (R428). -/
def reportBody (s : State) (nonce : Digest) : List Byte :=
  leList 4 1 ++ leList 4 0 ++ digestBytes nonce ++ s.hub.mr.toList.flatMap digestBytes ++
  (leList 64 (Config.identityKey s.hub.boot.resets).toNat).reverse ++
  leList 8 (s.hub.pod.toNat * 2 ^ 10 + s.hub.pos.toNat) ++ leList 8 Config.fusedVersion

/-- ATTESTATION_REPORT (R428): the signed report is the answer. -/
def execAttestationReport (nonce : Digest) (s : State) : Host.Outcome State Fault Refusal :=
  runEvent (do
    let s ← get
    need (decide (1 ≤ s.hub.boot.stage))
    let body := reportBody s nonce
    let sig := (leList 64 (Config.sm2Sign s.hub.boot.resets s.hub.boot.reports body).toNat).reverse
    let s := s.modHub fun h => { h with boot := { h.boot with reports := h.boot.reports + 1 } }
    set { s with reply := ⟨true, 0, 0, body ++ sig⟩ }) s

/-- Accesses in flight, which are stores translated and not yet performed, are performed before a write of a region register
or of the presence map completes (R429, R454). -/
def settleFlight : M Unit := do
  ((← get).jobs.filterMap fun j => if j.onCore then some j.num else none).forM settleStores

/-- REGION_WRITE (R429): secure service cores alone reach the registers. -/
def execRegionWrite (n : Nat) (last : Bool) (v : Word) (sec : Bool) (s : State) : Host.Outcome State Fault Refusal :=
  runEvent (do
    need (sec && decide (n < 64))
    settleFlight
    modify fun s => s.modHub fun h =>
      { h with rgn := Cells.set 0 h.rgn (2 * n + (if last then 1 else 0)) (v &&& 0x800F_FFFF_FFFF_0000) }) s

/-- PODMAP_WRITE (R454): secure service cores alone write; the own position's bit reads 1 whatever is written. -/
def execPodmapWrite (i : Nat) (v : Word) (sec : Bool) (s : State) : Host.Outcome State Fault Refusal :=
  runEvent (do
    need (sec && decide (i < 16))
    settleFlight
    modify fun s => s.modHub fun h => { h with podmap := vset h.podmap i v }) s

/-! ## Power (R431) -/

/-- The die of a block: cores, clusters, slices and channels are numbered through the package. -/
def blockDie : Block → Nat
  | .core k => k / 32
  | .cluster k => k / 4
  | .slice k | .channel k => k / 16
  | .link k => k

/-- Secure firmware assigns a block to a world (R429): a core or its copy engine while no job is resident on the core, or a hub
function. The accesses that a core and its copy engine make for a job are made in the world of its context (R21, R27, R385),
whatever their own assignment: it shows in what is not a job's (DEDUCED, log entry 82). -/
def State.assignWorld (s : State) (n : Nat) (sec : Bool) : State :=
  if s.hub.boot.stage != 5 then s
  else if n < 512 then
    if !(s.onCore (n % 256)).isEmpty then s
    else s.modCore (n % 256) fun c => if n < 256 then { c with sec := sec } else { c with copySec := sec }
  else s.modHub fun h =>
    if n = 512 then { h with pcieSec := sec }
    else if n < 521 then { h with linkSec := vset h.linkSec (n - 513) sec }
    else if n < 525 then { h with ethSec := vset h.ethSec (n - 521) sec }
    else h

/-- A peer completes accesses, or does not (R454). -/
def State.peerAnswers (s : State) (pos : Nat) (answers : Bool) : State :=
  s.modHub fun h => { h with deaf := h.deaf.filter (· != pos) ++ if answers then [] else [pos] }

/-- What a stream of a core that sleeps may wait for: what only others end. -/
def WaitObj.far : WaitObj → Bool
  | .flag _ | .barrier .. | .sem .. | .queue _ | .token _ | .timeline _ => true
  | _ => false

/-- A stream has nothing to do until another agent acts: it is held by a fault, or waits, and nothing has ended its wait. -/
def Stream.sleeps (t : Stream) : Bool :=
  t.stores.isEmpty && !t.halted &&
  (t.st != .running || t.hold.isSome || (t.ender.isNone && t.wait.any fun w => w.obj.far))

/-- A job has nothing to do until another agent acts: its operations are held by faults, and nothing of it is in flight. -/
def Job.sleeps (j : Job) : Bool :=
  j.status == .resident && !j.asked && j.inq.isEmpty && j.pushes.isEmpty && j.lineages.isEmpty && j.hits.isEmpty &&
  (j.faults.all fun r => r.toOs) && (j.chans.all fun q => q.isEmpty) &&
  (j.entries.all fun e => match e.kind with | .op o => o.hold.isSome | _ => false) &&
  (allStreams.any fun x => (j.str x).st == .running) && allStreams.all fun x => (j.str x).sleeps

/-- A core is idle: no engine is granted, and the jobs on it sleep, with no walk of theirs in service. -/
def State.coreIdle (s : State) (i : Nat) : Bool :=
  let c := s.coreAt i
  ([Engine.matrix, .load, .vector, .reduce, .rowstat].all fun u => (c.grant u).holder.isNone) &&
  ((s.onCore i).all Job.sleeps) &&
  let d := s.dieAt (i / 32)
  (d.walkQ ++ d.walking).all fun w => w.who.all fun r => r.core != i

/-- A block is idle. The model makes an access at its home in one step, so that between steps a home has none in hand, but for
walks in service and stores that wait (log entry 83). -/
def State.blockIdle (s : State) (b : Block) : Bool :=
  match b with
  | .core i => s.coreIdle i
  | .cluster c => (List.range 8).all fun k => s.coreIdle (8 * c + k)
  | .slice _ | .channel _ => (s.dieAt (blockDie b)).walking.isEmpty && s.posted.isEmpty
  | .link _ => s.posted.isEmpty

/-- POWER_GATE (R431): an idle block gates its clocks and power. -/
def execPowerGate (b : Block) (s : State) : Host.Outcome State Fault Refusal :=
  runEvent (do
    let s ← get
    let d := blockDie b
    need (decide (d < 8) && !(s.dieAt d).gates.contains b && s.blockIdle b)
    let s := s.modDie d fun x => { x with gates := x.gates ++ [b] }
    set (match b with
      | .core i => s.modCore i fun c => { c with gated := true }
      | _ => s)) s

/-- POWER_WAKE (R431): a request, an admission or a signal wakes the block. -/
def execPowerWake (b : Block) (s : State) : Host.Outcome State Fault Refusal :=
  runEvent (do
    let s ← get
    let d := blockDie b
    need ((s.dieAt d).gates.contains b)
    let s := s.modDie d fun x => { x with gates := x.gates.filter (· != b) }
    set (match b with
      | .core i => s.modCore i fun c => { c with gated := false }
      | _ => s)) s

/-- POWER_THROTTLE (R431): an empty issue cycle. Nothing but time changes. -/
def execPowerThrottle (s : State) : Host.Outcome State Fault Refusal := .next { s with cycle := s.cycle + 1 }

end Sys2Proof.Machine
end

