-- ==== Sys2Proof/Machine/Copy.lean ====
section
/-! DEFINITION. The copy engine (chapters 15 and 16): copies start, are carried out one template element at a time, and
complete with their actions; status bytes; stochastic draws; the inbound command queue and remote enqueue. -/

namespace Sys2Proof.Machine

/-! ## Stochastic draws (R356 to R359) -/

/-- One step of a lane register (R356). -/
def lfsrStep (s : Lane) : Lane :=
  let n := (bitN s.toNat 31 != bitN s.toNat 30) != (bitN s.toNat 29 != bitN s.toNat 9)
  (s <<< 1) ||| (if n then 1 else 0)

/-- A linear map of lanes, as its values at the powers of two. -/
def lfsrApply (m : List Lane) (s : Lane) : Lane :=
  m.zipIdx.foldl (fun a x => if bitN s.toNat x.2 then a ^^^ x.1 else a) 0

/-- k steps, by repeated squaring. -/
def lfsrPow : Nat → Nat → List Lane → Lane → Lane
  | 0, _, _, s => s
  | f + 1, k, m, s => lfsrPow f (k / 2) (m.map (lfsrApply m)) (if k % 2 = 1 then lfsrApply m s else s)

def lfsrAdvance (s : Lane) (k : Nat) : Lane :=
  lfsrPow (k.log2 + 1) k ((List.range 32).map fun i => lfsrStep (1 <<< i)) s

/-- The draw that follows k more draws of a lane of a set; set 4 is the inbound set (R357). -/
def Job.draw (j : Job) (set lane k : Nat) : Nat :=
  let seed := if set < 4 then vget 1 j.seed set else 1
  (lfsrAdvance seed (lane * 2 ^ 25 + 32 * (Cells.get 0 j.draws (64 * set + lane) + k + 1))).toNat

/-- The n elements from e on have drawn (R358). -/
def Job.drew (j : Job) (set e n : Nat) : Job :=
  { j with draws := (List.range n).foldl (fun d i =>
      let k := 64 * set + (e + i) % 64
      Cells.set 0 d k (Cells.get 0 d k + 1)) j.draws }

/-! ## A running copy -/

/-- The copy of an operation. -/
def Op.cp (o : Op) : CopyOp := o.copy.getD (CopyOp.of 0 0 0 [] none)

def modCopy (id : Nat) (f : CopyOp → CopyOp) : M Unit := modOp id fun o => { o with copy := o.copy.map f }

/-- Channels whose tide the copy's writes move, and whose tide does not stall it (R120, R121, R373). -/
def Job.fillsOf (j : Job) (id : Nat) : List Nat := ((j.entries.find? fun e => e.id == id).map Entry.fills).getD []

/-- Records status bits of a copy; bit 8 stands for the policy TLFAULT (R363, R383). -/
def noteStatus (id bits : Nat) : M Unit := do
  modCopy id fun c => { c with status := c.status ||| BitVec.ofNat 8 bits }
  modify fun s => s.modJob fun j =>
    let o := j.opAt id
    let c := o.cp
    let v := c.status.toNat + if tPol c.tmpl then 256 else 0
    { j with status5 := vset j.status5 c.chan (Cells.set 0 (vget [] j.status5 c.chan) o.num v) }

/-- What every record of a copy's fault carries (R422). -/
def State.copyFault (s : State) (id : Nat) (f : FaultInfo) : State :=
  match s.job.entries.find? fun e => e.id == id with
  | none => s
  | some e =>
    let o := s.job.opAt id
    let c := o.cp
    let f := { f with strm := e.strm, pc := e.pc.toNat, opnum := o.num, tl := o.tl, unit := c.elem,
                      eng := if c.chan < 4 then 4 else 5, chan := if c.chan < 4 then c.chan else 0 }
    ((s.goesOn id).releaseEngine id true).takeFault f (.op id)

/-- A step of the copy at the head of channel c of a job, in the Weir: it waits, or its fault is taken. -/
def copyEvent (num c : Nat) (p : Op → CopyOp → Bool) (body : Nat → M Unit) (s : State) : Host.Outcome State Fault Refusal :=
  match s.focus num with
  | none => .next s
  | some t =>
    match t.job.copyHead c with
    | none => .next s
    | some id =>
      let o := t.job.opAt id
      let away := t.job.entries.any fun e => e.id == id && e.away
      if !(t.job.onCore && t.coreRuns t.job.coreIx && o.hold.isNone && !away && p o o.cp) then .next s
      else .next <| match body id { t with via := some (.op id), cur := t.job.strmOf id } with
        | .ok _ u => u.goesOn id
        | .error (.wait w) u => u.setStall id (some w) 0
        | .error (.fault f) u | .error (.after f) u => u.copyFault id f
        | .error .halt _ => s

/-- The template fault (R381). -/
def templateFault (cmd : Word) (off : Nat) : FaultInfo :=
  { FaultInfo.of 0x1E with aux := fld cmd 11 0 + off % 2 ^ 16 * 2 ^ 16 }

/-- A binding fault of a copy (R313, R381): the slot, and above it the template index and the byte offset of its field. -/
def copyBindFault (t : List Word) (cmd : Word) (slot : Nat) : FaultInfo :=
  { bindFault slot with aux := slot + 2 ^ 32 * (templateFault cmd (if slot = tPsin t then 3 else 2)).aux }

/-- The copy has its port engines, or takes them now (R306, R377). -/
def copyPorts (id : Nat) : M Unit := do
  let s ← get
  let core := s.job.coreIx
  match s.job.entries.find? fun e => e.id == id with
  | none => pure ()
  | some e =>
    let o := s.job.opAt id
    need (s.portsFree core (s.bidOf core (s.coreAt core).portLast s.job e o))
    set (s.modCore core fun c => c.takePorts s.job.num id o.ports s.job.slot)

/-- A copy starts: its template is read unless it was read at its store, and is checked (R366, R381). -/
def copyStart (id : Nat) : M Unit := do
  let c := ((← get).job.opAt id).cp
  match c.bad with
  | some f =>
    modCopy id fun c => { c with bad := none }
    throw (.fault f)
  | none => pure ()
  if c.tmpl.isEmpty then
    let t ← readTemplate c.base c.cmd
    modOp id fun o => { o with copy := o.copy.map fun c => { c with tmpl := t } }
  let j := (← get).job
  let t := (j.opAt id).cp.tmpl
  let again := modCopy id fun c => { c with tmpl := [] }
  match templateBreach t c.cmd c.chan (recChan j.lrec) with
  | some off => do
    again
    throw (.fault (templateFault c.cmd off))
  | none => pure ()
  match j.bindBreach [⟨tPsin t, false, tE t 0⟩, ⟨tPsout t, false, tE t 0⟩] with
  | some n => do
    again
    throw (.fault (copyBindFault t c.cmd n))
  | none => pure ()
  copyPorts id
  modOp id fun o => { o with started := true, argv := if o.argv == [0, 0] then [j.argvOf (tPsin t), j.argvOf (tPsout t)] else o.argv }
  modCopy id fun c => { c with started := true }

/-- COPY_START (R380, R381). -/
def execCopyStart (num c : Nat) (s : State) : Host.Outcome State Fault Refusal :=
  copyEvent num c (fun o _ => !o.started) copyStart s

/-! ## Accesses of a template element (R376) -/

/-- Source reads and destination writes of a copy. -/
def srcEng (id : Nat) (t : List Word) (fills : List Nat) : Eng := ⟨5, tSev t, fills, some id⟩
def dstEng (id : Nat) (t : List Word) (fills : List Nat) : Eng := ⟨6, tDev t, fills, some id⟩

/-- Provisional bytes of the window wait for their settle (R132, R330). -/
def copySettled (g : Eng) (a k : Nat) : M Unit :=
  match scratchOff a with
  | some off => settledFor (g.self.getD 0) off (off + k)
  | none => pure ()

def copyParts (va n : Nat) : List (Nat × Nat) := lineParts (n / 256 + 2) va n

def copyRead (g : Eng) (va n : Nat) : M (List Byte) := do
  let ps ← (copyParts va n).mapM fun (a, k) => do
    copySettled g a k
    vread g a k
  pure ps.flatten

def copyCheck (g : Eng) (need : Need) (va n : Nat) : M Unit :=
  (copyParts va n).forM fun (a, k) => do
    copySettled g a k
    vcheck g need a k

/-- Writes bytes, checked before; those in a filled range count for the tides of `chans` (R120). -/
def copyWrite (g : Eng) (need : Need) (chans : List Nat) (va : Nat) (bs : List Byte) : M Unit :=
  (copyParts va bs.length).forM fun (a, k) => do
    vwrite g need a ((bs.drop (a - va)).take k)
    match scratchOff a with
    | some off => modify fun s => s.modJob fun j => chans.foldl (fun j n => j.countWrite n off (off + k)) j
    | none => pure ()

/-- Waits for the order of one template element's bytes, slots and registers (R113, R122). -/
def copyOrder (id : Nat) (rd wr : List (Nat × Nat)) : M Unit := do
  let ks := (← get).job.keysOf id
  let key := fun (l : List (Nat × Nat)) => (l.map fun (a, n) => if n = 0 then [] else scratchKey a n).flatten
  waitOrder id { ks with sr := key rd, sw := key wr }

/-! ## Data elements of the kinds of R371 and R372 -/

/-- Source and destination addresses of data element e, the row's index x given for gathers and scatters. -/
def copyPlace (t : List Word) (src dst e x : Nat) : Nat × Nat :=
  let i0 : Int := (e % tE t 0 : Nat)
  let r := e / tE t 0
  let i1 : Int := (r % tE t 1 : Nat)
  let i2 : Int := (r / tE t 1 % tE t 2 : Nat)
  let i3 : Int := (r / (tE t 1 * tE t 2) : Nat)
  let ss := sideSize (tSfmt t)
  let ds := sideSize (tDfmt t)
  match tKind t with
  | 0 => (wrap64 (src + e * ss), wrap64 (dst + e * ds))
  | 1 => (wrap64 (src + i0 * ss + i1 * tS t 1), wrap64 (dst + i0 * ds + i1 * tD t 1))
  | 2 => (wrap64 (src + i0 * ss + i1 * tS t 1 + i2 * tS t 2 + i3 * tS t 3),
          wrap64 (dst + i0 * ds + i1 * tD t 1 + i2 * tD t 2 + i3 * tD t 3))
  | 3 => (wrap64 (src + x * tS t 1 + i0 * ss), wrap64 (dst + r * tD t 1 + i0 * ds))
  | _ => (wrap64 (src + r * tS t 1 + i0 * ss), wrap64 (dst + x * tD t 1 + i0 * ds))

def copyBlk (t : List Word) : Bool := fmtBlock (tSfmt t) || fmtBlock (tDfmt t)
/-- The copy moves bits unchanged (R354, R377). -/
def copyBits (t : List Word) : Bool := tSfmt t == tDfmt t && tPsin t == 0 && tPsout t == 0
/-- Gather or scatter. -/
def copyIndexed (t : List Word) : Bool := tKind t == 3 || tKind t == 4

/-- Data elements in the template element that begins at data element e (R376). -/
def runLen (t : List Word) (e s d : Nat) : Nat :=
  if copyBlk t then 32
  else Nat.max 1 (Nat.min (tE t 0 - e % tE t 0)
    (Nat.min ((256 - s % 256) / sideSize (tSfmt t)) ((256 - d % 256) / sideSize (tDfmt t))))

/-- Address and nibble of code e of a block side; its bytes for 32 codes. -/
def blkAddr (f base e : Nat) : Nat × Nat := if fmtFour f then (wrap64 (base + e / 2 : Nat), e % 2) else (wrap64 (base + e * sideSize f : Nat), 0)
def blkBytes (f : Nat) : Nat := if fmtFour f then 16 else 32 * sideSize f

/-- Source byte ranges of n elements from e on. -/
def srcSpans (t : List Word) (src e n s : Nat) : List (Nat × Nat) :=
  if copyBlk t then
    (if fmtFour (tSfmt t) then ((blkAddr (tSfmt t) src e).1, (n + 1) / 2) else ((blkAddr (tSfmt t) src e).1, n * sideSize (tSfmt t))) ::
    (if fmtBlock (tSfmt t) then [((tW t 4).toNat + e / 32, (n + 31) / 32)] else [])
  else [(s, n * sideSize (tSfmt t))]

/-- Destination byte ranges of a template element. -/
def dstSpans (t : List Word) (dst e n d : Nat) : List (Nat × Nat) :=
  if copyBlk t then
    ((blkAddr (tDfmt t) dst e).1, blkBytes (tDfmt t)) :: (if fmtBlock (tDfmt t) then [((tW t 5).toNat + e / 32, 1)] else [])
  else [(d, n * sideSize (tDfmt t))]

/-- The numbers whose little-endian bytes follow one another, `size` bytes each. -/
def splitNums (size : Nat) : Nat → List Byte → List Nat
  | 0, _ => []
  | n + 1, bs => leNum (bs.take size) :: splitNums size n (bs.drop size)

/-- Codes and scale bytes of n source elements from e on. -/
def readCodes (g : Eng) (t : List Word) (src e n s : Nat) : M (List (Nat × Nat)) := do
  let f := tSfmt t
  if copyBlk t then
    (List.range n).mapM fun i => do
      let (a, nib) := blkAddr f src (e + i)
      let b := leNum (← copyRead g a (if fmtFour f then 1 else sideSize f))
      let code := if fmtFour f then (if nib = 0 then b % 16 else b / 16) else b
      let sc ← if fmtBlock f then do pure (leNum (← copyRead g ((tW t 4).toNat + (e + i) / 32) 1)) else pure 0
      pure (code, sc)
  else do
    let bs ← copyRead g s (n * sideSize f)
    pure ((splitNums (sideSize f) n bs).map fun c => (c, 0))

/-- The exact value of a source element (R354). -/
def copyVal (f : Nat) (c : Nat × Nat) : Fp := if fmtBlock f then blockExact f c.2 c.1 else decodeFmt f c.1

/-- Draws of a template element of n data elements from e on; 0 without SR (R358, R359). -/
def copyDraws (j : Job) (c : CopyOp) (e n : Nat) : List Nat :=
  (List.range n).map fun i => if rndOf (tRnd c.tmpl) = .sr then j.draw c.chan ((e + i) % 64) (i / 64) else 0

/-- Converted codes; whether one was saturated (R354, R355). -/
def copyConv (t : List Word) (vs : List (Fp × Nat)) : List Nat × Bool :=
  let cs := vs.map fun v => convertFmt (tDfmt t) (rndOf (tRnd t)) v.2 v.1
  (cs.map fun c => c.code, cs.any fun c => c.bad)

/-- Reduce-on-write of one element (R378). -/
def redValue (t : List Word) (old v : Nat) : Nat :=
  let f := tDfmt t
  let n := fmtSize f
  let a : Lane := BitVec.ofNat 32 old
  let b : Lane := BitVec.ofNat 32 v
  if f = 0x10 then
    (match tRed t with
     | 1 => amoValue .fadd 4 old v
     | 2 => (max32 a b).toNat
     | _ => (min32 a b).toNat)
  else match tRed t with
    | 1 => (old + v) % 2 ^ (8 * n)
    | 2 => amoValue (if fmtSigned f then .max else .maxu) n old v
    | _ => amoValue (if fmtSigned f then .min else .minu) n old v

/-- Writes codes of destination elements without blocks, one after another from address d on, or reduces them in. -/
def writeCodes (g : Eng) (chans : List Nat) (t : List Word) (d : Nat) (codes : List Nat) : M Unit := do
  let ds := sideSize (tDfmt t)
  if tRed t = 0 then copyWrite g .w chans d ((codes.map fun c => leList ds c).flatten)
  else codes.zipIdx.forM fun (c, i) => do
    let a := d + i * ds
    if a % 256 + ds ≤ 256 then
      let _ ← vatomic g a ds fun old => some (redValue t old c)
      match scratchOff a with
      | some off => modify fun s => s.modJob fun j => chans.foldl (fun j n => j.countWrite n off (off + ds)) j
      | none => pure ()
    else
      let old := leNum (← copyRead g a ds)
      copyWrite g .rw chans a (leList ds (redValue t old c))

/-- Checks the destination of a template element. -/
def checkDst (g : Eng) (t : List Word) (spans : List (Nat × Nat)) : M Unit :=
  spans.forM fun (a, n) => copyCheck g (if tRed t = 0 then .w else .rw) a n

/-- Writes the 32 codes of a template element with a block side, and their scale byte; or reduces them into a destination
without blocks (R378). -/
def writeBlock (g : Eng) (chans : List Nat) (t : List Word) (dst e : Nat) (codes : List Nat) (sc : Nat) : M Unit := do
  let f := tDfmt t
  if fmtFour f then copyWrite g .w chans (blkAddr f dst e).1 (packCodes f codes)
  else writeCodes g chans t (blkAddr f dst e).1 codes
  if fmtBlock f then copyWrite g .w chans ((tW t 5).toNat + e / 32) (leList 1 sc)

/-- Converts and writes the values of a whole template element without ports. -/
def putValues (id : Nat) (g : Eng) (chans : List Nat) (t : List Word) (dst e d : Nat) (vs : List Fp) : M Unit := do
  let j := (← get).job
  let dr := vs.zip (copyDraws j (j.opAt id).cp e vs.length)
  if fmtBlock (tDfmt t) then
    let (sc, codes) := blockQuant (tDfmt t) (rndOf (tRnd t)) dr
    writeBlock g chans t dst e codes sc
  else
    let (codes, sat) := copyConv t dr
    if copyBlk t then writeBlock g chans t dst e codes 0 else writeCodes g chans t d codes
    if sat && tOvf t then noteStatus id 8

/-- Writes the values that the ports of a copy give for a whole template element; to FP32 they are not converted (R235,
R354). -/
def putLanes (id : Nat) (g : Eng) (chans : List Nat) (t : List Word) (dst e d : Nat) (vs : List Lane) : M Unit :=
  if tDfmt t = 0x10 then
    if copyBlk t then writeBlock g chans t dst e (vs.map BitVec.toNat) 0 else writeCodes g chans t d (vs.map BitVec.toNat)
  else putValues id g chans t dst e d (vs.map dec32)

/-- The indices held of rows from r on. -/
def heldFrom (r : Nat) : List Nat → List Nat
  | q :: x :: l => if r ≤ q then q :: x :: heldFrom r l else heldFrom r l
  | _ => []

/-- The index held of row r. -/
def heldIndex (r : Nat) : List Nat → Option Nat
  | q :: x :: l => if q = r then some x else heldIndex r l
  | _ => none

/-- The template element is done: the walk goes on by n data elements; draws, and the rows' indices, move on. -/
def elementDone (id n : Nat) (conv : Bool) : M Unit := do
  let c := ((← get).job.opAt id).cp
  if conv && rndOf (tRnd c.tmpl) = .sr then modify fun s => s.modJob fun j => j.drew c.chan c.pos n
  let pos := c.pos + n
  modCopy id fun c =>
    { c with elem := c.elem + 1, pos := pos, held := if copyIndexed c.tmpl then heldFrom (pos / tE c.tmpl 0) c.held else c.held }
  if tCount c.tmpl ≤ pos then modOp id fun o => { o with finished := true }

/-- The index of row r, read once by the row's first element (R372, R382). -/
def rowIndex (id r : Nat) : M Nat := do
  let j := (← get).job
  let c := (j.opAt id).cp
  if !copyIndexed c.tmpl then pure 0
  else match heldIndex r c.held with
    | some x => pure x
    | none =>
      let a := wrap64 ((tW c.tmpl 5).toNat + r * tIw c.tmpl : Nat)
      copyOrder id [(a, tIw c.tmpl)] []
      let x := leNum (← copyRead (srcEng id c.tmpl (j.fillsOf id)) a (tIw c.tmpl))
      modCopy id fun c => { c with held := c.held ++ [r, x] }
      pure x

/-- A template element without ports: every source byte is read before one destination byte is written. -/
def plainElement (id : Nat) : M Unit := do
  let j := (← get).job
  let c := (j.opAt id).cp
  let t := c.tmpl
  let fills := j.fillsOf id
  let (src, dst) := tBases t c.cmd
  let x ← rowIndex id (c.pos / tE t 0)
  let (s, d) := copyPlace t src dst c.pos x
  let n := runLen t c.pos s d
  let wr := dstSpans t dst c.pos n d
  copyOrder id (srcSpans t src c.pos n s ++ if tRed t = 0 then [] else wr) wr
  let codes ← readCodes (srcEng id t fills) t src c.pos n s
  let g := dstEng id t fills
  checkDst g t wr
  if copyBits t then
    if copyBlk t then writeBlock g fills t dst c.pos (codes.map fun c => c.1) ((codes.map fun c => c.2).headD 0)
    else writeCodes g fills t d (codes.map fun c => c.1)
  else putValues id g fills t dst c.pos d (codes.map (copyVal (tSfmt t)))
  elementDone id n (!copyBits t)

/-! ## Copies with ports (R377) -/

/-- A source element as an FP32 lane, and whether it was saturated; an integer is rounded with the template's mode, whose draw
is the element's (R246). -/
def copyLane (t : List Word) (code : Nat × Nat) (draw : Nat) : Lane × Bool :=
  if fmtInt (tSfmt t) then (BitVec.ofNat 32 (fp32F.conv (rndOf (tRnd t)) draw (copyVal (tSfmt t) code)).code, false)
  else
    let c := decode32 (tSfmt t) code.2 code.1
    (BitVec.ofNat 32 c.code, c.bad)

/-- The IN and OUT ports of a copy. -/
def copyBinds (o : Op) (id : Nat) (t : List Word) : Bind × Bind :=
  (o.bind id 0 6 (tPsin t) none, o.bind id 1 7 (tPsout t) none)

/-- Columns of a row of n that the port bound to a slot takes beside column c. -/
def Job.besides (j : Job) (slot n c : Nat) : List Nat := if slot = 0 then [] else (slotProg (j.slotAt slot)).xlCols n c

/-- Row i of an operation's kept lanes. -/
def Op.kept (o : Op) (i : Nat) : List Lane := (o.queue.getD i []).headD []
def keep (id i : Nat) (vs : List Lane) : M Unit := modOp id fun o => { o with queue := setAt [] o.queue i [vs] }

/-- The shape of a copy as its ports see it: row length and rows. -/
def copyRows (t : List Word) : Nat × Nat := (tE t 0, tCount t / tE t 0)

/-- The last column of OUT's present row to which IN must have given values for OUT to pass columns up to c. -/
def Job.reachOf (j : Job) (slot n c : Nat) : Nat :=
  (((List.range (c + 1)).flatMap (j.besides slot n)).foldl Nat.max c)

/-- The elements that IN passes for n data elements from pos on, as the number of the first and one past the last; a number
counts rows of input, the rows after the last among them (R300). -/
def Job.inSpan (j : Job) (o : Op) (t : List Word) (pos n : Nat) : Nat × Nat :=
  let (e0, rows) := copyRows t
  let lagIn := j.lagOf (tPsin t)
  let q := pos / e0 + j.lagOf (tPsout t)
  let from_ := (o.run 0).q * e0 + (o.run 0).outs.length
  let upto := if rows ≤ q then (rows + lagIn) * e0
    else (q + lagIn) * e0 + j.reachOf (tPsout t) e0 (pos % e0 + n - 1) + 1
  (from_, Nat.max from_ upto)

/-- Reads one source element of a copy with ports. -/
def readSource (id : Nat) (t : List Word) (e : Nat) : M Lane := do
  let j := (← get).job
  let c := (j.opAt id).cp
  let fills := j.fillsOf id
  let (src, dst) := tBases t c.cmd
  let x ← if tKind t = 3 then rowIndex id (e / tE t 0) else pure 0
  let (s, _) := copyPlace t src dst e x
  copyOrder id (srcSpans t src e 1 s) []
  let codes ← readCodes (srcEng id t fills) t src e 1 s
  let (v, sat) := copyLane t (codes.headD (0, 0)) (if rndOf (tRnd t) = .sr then j.draw c.chan (e % 64) ((e - c.pos) / 64) else 0)
  if sat && tOvf t then noteStatus id 8
  pure v

/-- Reads every source element that IN passes in a template element of n data elements, with those that its program takes
beside them (R376). -/
def readSources (id n : Nat) : M Unit := do
  let j := (← get).job
  let o := j.opAt id
  let t := o.cp.tmpl
  let (e0, rows) := copyRows t
  let (lo, hi) := j.inSpan o t o.cp.pos n
  let own := ((List.range (hi - lo)).map (lo + ·)).filter (· < rows * e0)
  let all := (own.flatMap fun e => (j.besides (tPsin t) e0 (e % e0)).map fun c => e / e0 * e0 + c).foldl
    (fun l e => if l.contains e then l else l ++ [e]) own
  let vs ← (all.mergeSort).mapM fun e => do pure (e, ← readSource id t e)
  modOp id fun o => { o with srcs := vs }

/-- IN passes its next element; a row that it has given goes to OUT (R290, R300). -/
def stepIn (id : Nat) : M Unit := do
  let j := (← get).job
  let o := j.opAt id
  let t := o.cp.tmpl
  let (e0, rows) := copyRows t
  let (b, _) := copyBinds o id t
  let r := o.run 0
  let lag := j.lagOf b.slot
  let ins := if r.q < rows then (List.range e0).map fun c => match o.srcs.find? fun x => x.1 == r.q * e0 + c with
      | some x => (x.2, none)
      | none => r.ins.getD c (0, none)
    else if r.taken then r.ins else (j.slotAt b.slot).fillRow e0
  modOp id fun o => o.setRun 0 { o.run 0 with taken := true, ins := ins }
  pushOut b (← portElem b (r.q - lag) (decide (r.q < lag)) (decide (rows ≤ r.q)) 0)
  if r.outs.length + 1 = e0 then
    let outs := (((← get).job.opAt id).run 0).outs
    endRow b
    if lag ≤ r.q then modOp id fun o => { o with queue := setAt [] o.queue 0 (o.queue.getD 0 [] ++ [outs]) }

/-- What IN has given so far of the row that OUT is at. -/
def Op.given (o : Op) : List Lane :=
  match o.queue.getD 0 [] with
  | row :: _ => row
  | [] => (o.run 0).outs

/-- OUT can pass its next element: IN has given it, and those beside it. -/
def Job.outReady (j : Job) (o : Op) (t : List Word) : Bool :=
  let (e0, rows) := copyRows t
  let r := o.run 1
  let col := r.outs.length
  let lagIn := j.lagOf (tPsin t)
  let there := if (o.queue.getD 0 []).isEmpty && (o.run 0).q < lagIn then 0 else o.given.length
  decide (rows ≤ r.q) || (j.besides (tPsout t) e0 col).all (· < there) && decide (col < there)

/-- Delivers data element e, the i-th of its template element: converted and written, or kept for its block (R377, R315). -/
def deliverOne (id : Nat) (g : Eng) (fills : List Nat) (t : List Word) (d e i : Nat) (w : Lane) : M Unit := do
  let j := (← get).job
  let c := (j.opAt id).cp
  if !fmtBlock (tDfmt t) then
    let dr := if rndOf (tRnd t) = .sr then j.draw c.chan (e % 64) (i / 64) else 0
    let (codes, sat) := if tDfmt t = 0x10 then ([w.toNat], false) else copyConv t [(dec32 w, dr)]
    if copyBlk t then writeCodes g fills t (blkAddr (tDfmt t) (tBases t c.cmd).2 e).1 codes
    else writeCodes g fills t (d + i * sideSize (tDfmt t)) codes
    if sat && tOvf t then noteStatus id 8
  keep id 2 (((← get).job.opAt id).kept 2 ++ [w])

/-- OUT passes its next element, and delivers it unless it only enters the window (R290, R300). -/
def stepOut (id : Nat) (g : Eng) (d : Nat) : M Unit := do
  let j := (← get).job
  let o := j.opAt id
  let t := o.cp.tmpl
  let (e0, rows) := copyRows t
  let (_, b) := copyBinds o id t
  let r := o.run 1
  let lag := j.lagOf b.slot
  let col := r.outs.length
  let ins := if r.q < rows then asElems o.given else if r.taken then r.ins else (j.slotAt b.slot).fillRow e0
  modOp id fun o => o.setRun 1 { o.run 1 with taken := true, ins := ins }
  let v ← portElem b (r.q - lag) (decide (r.q < lag)) (decide (rows ≤ r.q)) 0
  if lag ≤ r.q then deliverOne id g (j.fillsOf id) t d ((r.q - lag) * e0 + col) ((o.kept 2).length) v
  pushOut b v
  if col + 1 = e0 then
    endRow b
    if r.q < rows then modOp id fun o => { o with queue := setAt [] o.queue 0 (o.queue.getD 0 []).tail }

/-- Passes elements through IN and OUT until n of the template element are delivered. -/
def runPorts (id : Nat) (g : Eng) (d n : Nat) : Nat → M Unit
  | 0 => pure ()
  | f + 1 => do
    let j := (← get).job
    let o := j.opAt id
    if n ≤ (o.kept 2).length then pure ()
    else do
      if j.outReady o o.cp.tmpl then stepOut id g d else stepIn id
      runPorts id g d n f

/-- A template element whose data elements pass the ports: every source byte that it needs is read first, then its elements
pass and are written one after the other (R315, R376, R377). -/
def portedElement (id : Nat) : M Unit := do
  let j := (← get).job
  let c := (j.opAt id).cp
  let t := c.tmpl
  let fills := j.fillsOf id
  let (src, dst) := tBases t c.cmd
  let x ← rowIndex id (c.pos / tE t 0)
  let (s, d) := copyPlace t src dst c.pos x
  let n := runLen t c.pos s d
  let wr := dstSpans t dst c.pos n d
  copyOrder id (if tRed t = 0 then [] else wr) wr
  if ((← get).job.opAt id).srcs.isEmpty then readSources id n
  let g := dstEng id t fills
  checkDst g t wr
  let (e0, _) := copyRows t
  runPorts id g d n ((j.lagOf (tPsin t) + j.lagOf (tPsout t) + 2) * (e0 + 1) * 2 + 4 * n)
  if fmtBlock (tDfmt t) then putLanes id g fills t dst c.pos d (((← get).job.opAt id).kept 2)
  modOp id fun o => { o with srcs := [], queue := [o.queue.getD 0 []] }
  elementDone id n (tSfmt t != 0x10 || tDfmt t != 0x10)

/-! ## Mask packing (R64, R360, R361) -/

/-- A packed block, and whether elements were dropped. -/
def packBlock (w m p : Nat) (bs : List Byte) : List Byte × Bool :=
  let els := splitNums w (bs.length / w) bs
  let used := els.zipIdx.filter fun x => x.1 != 0
  let keep := used.take ((p - m) / w)
  let mask := (List.range m).map fun i => BitVec.ofNat 8 ((List.range 8).foldl (fun a b => if keep.any fun x => x.2 == 8 * i + b then a + 2 ^ b else a) 0)
  let body := mask ++ (keep.map fun x => leList w x.1).flatten
  (body ++ List.replicate (p - body.length) 0, keep.length < used.length)

/-- An unpacked block of B bytes, and whether it was malformed. -/
def unpackBlock (w m b : Nat) (bs : List Byte) : List Byte × Bool :=
  let named := (List.range (b / w)).filter fun i => bitN ((bs.getD (i / 8) 0).toNat) (i % 8)
  let cap := (bs.length - m) / w
  let vals := splitNums w (Nat.min named.length cap) (bs.drop m)
  let pairs := (named.take cap).zip vals
  (((List.range (b / w)).map fun i => leList w (((pairs.find? fun x => x.1 == i).map fun x => x.2).getD 0)).flatten,
   cap < named.length)

/-- Decoding has ended with fewer bytes than declared, or at malformed data: the rest is filled with zeros (R362). -/
def endDecode (id bits : Nat) (zero : List Range) : M Unit := do
  if bits != 0 then noteStatus id bits
  modCopy id fun c => { c with zero := zero }
  if zero.all fun r => r.2 ≤ r.1 then modOp id fun o => { o with finished := true }

/-- One block of a packing or unpacking copy. After a malformed block the blocks that are left are still read, so that as many
bytes move whatever the data (R65); nothing of them is decoded or written. -/
def packElement (id : Nat) : M Unit := do
  let j := (← get).job
  let c := (j.opAt id).cp
  let t := c.tmpl
  let fills := j.fillsOf id
  let (src, dst) := tBases t c.cmd
  let k := c.pos
  let pack := tPack t == 1
  let sn := if pack then tPb t else tPp t
  let s := src + k * sn
  let len := fld (tW t 4) 31 0
  let dn := if pack then tPp t else Nat.min (tPb t) (len - k * tPb t)
  let d := dst + k * (if pack then tPp t else tPb t)
  let last := decide (tE t 0 ≤ k + 1)
  if let some cut := c.held.head? then
    copyOrder id [(s, sn)] []
    let _ ← copyRead (srcEng id t fills) s sn
    modCopy id fun c => { c with elem := c.elem + 1, pos := k + 1 }
    if last then endDecode id 2 [(cut, dst + len)]
    return
  copyOrder id [(s, sn)] [(d, dn)]
  let bs ← copyRead (srcEng id t fills) s sn
  let g := dstEng id t fills
  -- of a block beyond the declared length nothing is written, but it is read and decoded (R65, R362)
  if dn != 0 then copyCheck g .w d dn
  let (out, bad) := if pack then packBlock (tPw t) (tMask t) (tPp t) bs else unpackBlock (tPw t) (tMask t) (tPb t) bs
  if dn != 0 then copyWrite g .w fills d (out.take dn)
  modCopy id fun c => { c with elem := c.elem + 1, pos := k + 1 }
  if pack then
    if bad then noteStatus id 4
    if last then modOp id fun o => { o with finished := true }
  else if bad && !last then modCopy id fun c => { c with held := [d + dn] }
  else if bad then endDecode id 2 [(d + dn, dst + len)]
  else if last then
    endDecode id (if tE t 0 * tPb t < len then 1 else if len < tE t 0 * tPb t then 2 else 0) [(d + dn, dst + len)]

/-! ## Compressed-row walks (R373, R362) -/

/-- What is left of the two buffers of a walk after n entries. -/
def walkRest (t : List Word) (dst n : Nat) : List Range :=
  let ds := sideSize (tDfmt t)
  let vb := (tW t 6).toNat
  [(dst + 4 * n, dst + 4 * tNnz t), (vb + ds * n, vb + ds * tNnz t)]

/-- The next row of a walk, or its end. -/
def walkNext (id : Nat) (dst : Nat) : M Unit := do
  let c := ((← get).job.opAt id).cp
  modCopy id fun c => { c with row := c.row + 1, sub := 0, held := [] }
  if tRows c.tmpl ≤ c.row + 1 then
    endDecode id (if c.count < tNnz c.tmpl then 1 else 0) (walkRest c.tmpl dst c.count)

/-- Up to 64 entries of one row, with the row's pointers. DESIGN CHOICE (log entry 79): R362 discards what a row holds beyond
the declared length, and says no more of it; those entries are neither read nor converted. -/
def walkElement (id : Nat) : M Unit := do
  let j := (← get).job
  let t := (j.opAt id).cp.tmpl
  let fills := j.fillsOf id
  let gs := srcEng id t fills
  let (src, dst) := tBases t (j.opAt id).cp.cmd
  if (j.opAt id).cp.held.isEmpty then
    let a := src + 4 * (tFirst t + (j.opAt id).cp.row)
    copyOrder id [(a, 8)] []
    let ps := splitNums 4 2 (← copyRead gs a 8)
    modCopy id fun c => { c with held := ps }
  let c := ((← get).job.opAt id).cp
  let a := c.held.getD 0 0
  let b := c.held.getD 1 0
  if b < a then
    modCopy id fun c => { c with elem := c.elem + 1 }
    endDecode id 2 (walkRest t dst c.count)
  else
    let left := b - a - c.sub
    let n := Nat.min 64 (Nat.min left (tNnz t - c.count))
    let ss := sideSize (tSfmt t)
    let ds := sideSize (tDfmt t)
    let q := a + c.sub
    let ia := (tW t 4).toNat + 4 * q
    let va := (tW t 5).toNat + ss * q
    let id' := dst + 4 * c.count
    let vd := (tW t 6).toNat + ds * c.count
    if n = 0 then
      if left != 0 then noteStatus id 2
      modCopy id fun c => { c with elem := c.elem + 1 }
      walkNext id dst
    else
      copyOrder id [(ia, 4 * n), (va, ss * n)] [(id', 4 * n), (vd, ds * n)]
      let ix ← copyRead gs ia (4 * n)
      let vs := splitNums ss n (← copyRead gs va (ss * n))
      let g := dstEng id t fills
      copyCheck g .w id' (4 * n)
      copyCheck g .w vd (ds * n)
      let own := if c.chan < 4 then [c.chan] else []
      let val := if c.chan < 4 then [tVch t] else []
      copyWrite g .w own id' ix
      let j := (← get).job
      let dr := copyDraws j c c.count n
      let (codes, sat) := if tSfmt t = tDfmt t then (vs, false) else copyConv t ((vs.map (decodeFmt (tSfmt t))).zip dr)
      copyWrite g .w val vd ((codes.map fun v => leList ds v).flatten)
      if sat && tOvf t then noteStatus id 8
      if tSfmt t != tDfmt t && rndOf (tRnd t) = .sr then modify fun s => s.modJob fun j => j.drew c.chan c.count n
      modCopy id fun c => { c with elem := c.elem + 1, count := c.count + n, sub := c.sub + n }
      -- what a row holds beyond the declared length is discarded (R362)
      let cut := n < left && tNnz t ≤ c.count + n
      if cut then noteStatus id 2
      if n = left || cut then walkNext id dst

/-- One destination line of a zero fill (R362). -/
def zeroElement (id : Nat) : M Unit := do
  let j := (← get).job
  let c := (j.opAt id).cp
  let t := c.tmpl
  match c.zero.zipIdx.find? fun r => r.1.1 < r.1.2 with
  | none => modOp id fun o => { o with finished := true }
  | some ((lo, hi), i) =>
    let top := Nat.min hi ((lo / 256 + 1) * 256)
    let g := dstEng id t (j.fillsOf id)
    copyOrder id [] [(lo, top - lo)]
    copyCheck g .w lo (top - lo)
    let chans := if 4 ≤ c.chan then [] else if i = 1 then [tVch t] else [c.chan]
    copyWrite g .w chans lo (List.replicate (top - lo) 0)
    let zero := c.zero.zipIdx.map fun (r, k) => if k = i then (top, hi) else r
    modCopy id fun c => { c with elem := c.elem + 1, zero := zero }
    if zero.all fun r => r.2 ≤ r.1 then modOp id fun o => { o with finished := true }

/-! ## Relocation (R374) -/

/-- A record breaks R374: `prev` is the end of the word before it. -/
def recordBad (r len prev : Nat) : Bool :=
  let size := if fldN r 35 32 = 0 then 8 else 4
  let off := fldN r 31 0
  fldN r 63 36 != 0 || decide (1 < fldN r 35 32) || off % size != 0 || decide (len < off + size) || decide (off < prev)

/-- Patches the word of a record in bytes that stand at segment offset o. -/
def patchWord (bs : List Byte) (o r a : Nat) : List Byte :=
  let size := if fldN r 35 32 = 0 then 8 else 4
  let i := fldN r 31 0 - o
  let w := leNum ((bs.drop i).take size)
  patch bs i (leList size ((w + a) % 2 ^ (8 * size)))

/-- Takes the records whose words lie below segment offset `top`: the bytes patched, the next record, the last word's end. -/
def takeRecords (id : Nat) (g : Eng) (t : List Word) (cmd : Word) (o top a : Nat) : Nat → Nat → Nat → List Byte → M (List Byte × Nat × Nat)
  | 0, i, prev, bs => pure (bs, i, prev)
  | f + 1, i, prev, bs =>
    if tNrec t ≤ i then pure (bs, i, prev)
    else do
      let ra := (tW t 4).toNat + 8 * i
      copyOrder id [(ra, 8)] []
      let r := leNum (← copyRead g ra 8)
      if top ≤ fldN r 31 0 && top < tLen t then pure (bs, i, prev)
      else if recordBad r (tLen t) prev then throw (.fault (templateFault cmd (8 * i)))
      else takeRecords id g t cmd o top a f (i + 1) (fldN r 31 0 + if fldN r 35 32 = 0 then 8 else 4) (patchWord bs o r a)

/-- The segment bytes of one destination line: W for them, R and W where a record patches one, X for code (R25, R374). -/
def relocElement (id : Nat) : M Unit := do
  let j := (← get).job
  let c := (j.opAt id).cp
  let t := c.tmpl
  let fills := j.fillsOf id
  let (src, dst) := tBases t c.cmd
  let o := c.pos
  let top := Nat.min (tLen t) (o + (256 - (dst + o) % 256))
  let n := top - o
  let gs := srcEng id t fills
  copyOrder id [(src + o, n)] [(dst + o, n)]
  let bs ← copyRead gs (src + o) n
  let a := wrap64 ((dst : Int) - (tW t 5).toNat)
  let (out, i, prev) ← takeRecords id gs t c.cmd o top a (n / 4 + 2) c.sub (c.held.headD 0) bs
  let g := dstEng id t fills
  let nd : Need := if tCode t then .x else if c.sub < i then .rw else .w
  copyCheck g nd (dst + o) n
  copyWrite g nd fills (dst + o) out
  modCopy id fun c => { c with elem := c.elem + 1, pos := top, sub := i, held := [prev] }
  if tLen t ≤ top then modOp id fun o => { o with finished := true }

/-! ## One template element, and completion (R376, R379) -/

/-- The next template element of a copy. -/
def copyElement (id : Nat) : M Unit := do
  copyPorts id
  let j := (← get).job
  let c := (j.opAt id).cp
  let t := c.tmpl
  if !c.zero.isEmpty then zeroElement id
  else if tPack t != 0 then packElement id
  else match tKind t with
    | 5 => walkElement id
    | 6 => relocElement id
    | _ =>
      if tPsin t = 0 && tPsout t = 0 then plainElement id else portedElement id

/-! ## The engine's bytes (R380) -/

/-- Copy a goes before b when the bytes of a cycle are given out (R154); within a job the channels and the inbound queue take
turns after the one last chosen. -/
def Bid.copyBefore (a b : Bid) : Bool :=
  let turn := fun (x : Bid) => (x.op.cp.chan + 4 - x.job.copyTurn) % 5
  if a.job.num == b.job.num then
    if a.aged != b.aged then a.aged
    else if a.aged && a.op.since != b.op.since then decide (a.op.since < b.op.since)
    else decide (turn a < turn b)
  else a.before b

/-- The running copies and commands of a core that can use bytes now. -/
def State.copiesMoving (s : State) (core : Nat) : List Bid :=
  (s.copyBids core (s.coreAt core).copyLast).filter fun b => b.op.started && b.op.stall.isNone && s.portsFree core b

/-- The running copy id of the job in focus, and those that go before it. -/
def State.copiesBefore (s : State) (id : Nat) : List Bid :=
  let core := s.job.coreIx
  match (s.copyBids core (s.coreAt core).copyLast).find? fun b => b.job.num == s.job.num && b.entry.id == id with
  | none => []
  | some me => (s.copiesMoving core).filter fun b => !(b.job.num == s.job.num && b.entry.id == id) && b.copyBefore me

/-- A copy moves an element when each that goes before it has moved one since the first of them last did; the bytes that those
leave pass on to it (R380, DESIGN CHOICE, log entry 64). -/
def State.mayMove (s : State) (id : Nat) : Bool :=
  let moved := (s.coreAt s.job.coreIx).copyMoved
  let before := s.copiesBefore id
  if moved.contains (s.job.num, id) then before.isEmpty else before.all fun b => moved.contains (b.job.num, b.entry.id)

/-- A copy has moved an element: it is the chosen one, with which the rotation goes on, or takes the bytes that those before it
left. -/
def State.copyMoves (s : State) (id : Nat) (first : Bool) : State :=
  let me := (s.job.num, id)
  let chan := (s.job.opAt id).cp.chan
  let slot := s.job.slot
  let s := s.modCore s.job.coreIx fun c =>
    if first then { c with copyMoved := [me], copyLast := slot } else { c with copyMoved := me :: c.copyMoved }
  s.modJob fun j =>
    ({ j with copyTurn := if first then chan else j.copyTurn } : Job).modOp id fun o => { o with since := s.cycle, aged := false }

/-- COPY_TEMPLATE_ELEMENT (R376), in the order of R380. -/
def execCopyTemplateElement (num c : Nat) (s : State) : Host.Outcome State Fault Refusal :=
  copyEvent num c (fun o _ => o.started && !o.finished) (fun id => do
    let s ← get
    need (s.mayMove id)
    opParity id
    copyElement id
    modify fun t => t.copyMoves id (s.copiesBefore id).isEmpty) s

/-- The flag access of a copy's completion (R370, R379). -/
def copyFlag (id : Nat) (t : List Word) : M Unit := do
  let va := tFaddr t
  let x ← flagXl (some id) va 8 (if tFop t then .rw else .w)
  if tFop t then
    let _ ← tagged 8 va (atomic (x.engine 4) x.pa 8 fun o => some ((o + 1) % 2 ^ 64))
  else tagged 8 va (store (x.engine 4) x.pa (leList 8 1))

/-- A copy ends: its semaphore is released, its flag set, its number complete (R379, R110, R107). DESIGN CHOICE (log entry 80): its
place in the channel's queue of 32 is free then, and not when it starts (R365). -/
def copyEnd (id : Nat) : M Unit := do
  let j := (← get).job
  let o := j.opAt id
  let c := o.cp
  let t := c.tmpl
  if tSemen t && c.acts = 0 then
    let pc := ((j.entries.find? fun e => e.id == id).map fun e => e.pc.toNat).getD 0
    let f := { FaultInfo.of 0x21 with
      strm := .C, pc := pc, opnum := o.num, tl := o.tl, unit := c.elem, acck := 8,
      eng := if c.chan < 4 then 4 else 5, chan := if c.chan < 4 then c.chan else 0 }
    modify fun s => s.engineRelease (tSemn t) (tScnt t) f
    modCopy id fun c => { c with acts := 1 }
  if tFen t then copyFlag id t
  modify fun s => ((((s.tellEntry id).tellLine o.tl ⟨o.eng, s.job.num, 0⟩).releaseEngine id true).modJob fun j =>
    let j := (j.completeOn o.tl o.num).leave id
    if c.chan < 4 then { j with chans := vset j.chans c.chan (vget [] j.chans c.chan).tail } else j).endDrains

/-- COPY_COMPLETE (R379). -/
def execCopyComplete (num c : Nat) (s : State) : Host.Outcome State Fault Refusal :=
  copyEvent num c (fun o _ => o.finished) copyEnd s

/-! ## CSTAT (R383) -/

/-- The state of operation n of a channel, or of the inbound queue. -/
def cstatWord (j : Job) (c n : Nat) : Nat :=
  let tl := timeline j (if c < 4 then c else 7)
  if c < 4 && recChan j.lrec ≤ c || 4 < c || n = 0 || tl.issued < n || n + 64 ≤ tl.issued then 0
  else 2 ^ 63 + (if n ≤ tl.completed || tl.ahead.contains n then 2 ^ 62 else 0) + Cells.get 0 (vget [] j.status5 c) n % 256

/-- CSTAT (R383). -/
def execCstat (h : Hdr) (d : SReg) (c : BitVec 3) (a : SReg) (s : State) : Host.Outcome State Fault Refusal :=
  runInstr h branchStreams (do
    modify fun s => s.setS d (BitVec.ofNat 64 (cstatWord s.job c.toNat (s.getS a).toNat))
    pure .next) s

/-! ## The inbound queue and RENQ (R384 to R387) -/

/-- Blocks that stand in an inbound queue. -/
def inBlocks (q : List InEntry) : Nat := (q.filter fun e => e != .marker).length

/-- INBOUND_COMMAND_TAKE (R387): the next command is numbered on tl7, reads its template and enters the Weir. -/
def execInboundCommandTake (num : Nat) (s : State) : Host.Outcome State Fault Refusal :=
  runEvent (do
    focusOn num
    let s ← get
    let j := s.job
    need (j.onCore && s.coreRuns j.coreIx && (j.copyHead 4).isNone)
    match j.inq with
    | .block (cmd :: rest) :: q =>
      need (!j.returning && (s.weirFree || !j.keptTaken 4))
      modify fun s => { s with via := some .inbound, cur := .C }
      let base := j.ctbase.toNat
      let (tmpl, bad) := match ← attempt (readTemplate base cmd) with
        | .ok t => (t, none)
        | .error f => ([], some f)
      let kept := !(← get).weirFree
      modify fun s => s.modJob fun j =>
        let (j, n) := j.issueOn 7
        let o := copyEntryOp j 4 7 n s.cycle cmd base tmpl bad
        let e : Entry := ⟨j.nextId, .C, 0, .op o, copyEntryKeys j 4 cmd tmpl, kept, false⟩
        { j with entries := j.entries ++ [e], nextId := j.nextId + 1,
                 inq := if rest.isEmpty then q else .block rest :: q }
    | _ => throw .halt) s

/-- The refusal of a push to job `num` (R386); none when it may be made. -/
def renqRefusal (s : State) (num : Nat) : Option Nat :=
  match s.findJob num with
  | none => some 1
  | some t =>
    if t.ctx.asid != s.job.ctx.asid || t.ctx.sec != s.job.ctx.sec then some 2
    else if t.inClosed then some 3 else none

/-- RENQ ends with a status (R384). -/
def renqEnd (d : SReg) (code : Nat) : M Flow := do
  leavePlace
  modify fun s => (s.setS d (BitVec.ofNat 64 code)).modStr fun t => { t with renq := none }
  pure .next

/-- The header read of RENQ with its checks (R385, R386), made as an LD is (R384): its stash line is renewed at the home
(R83; DEDUCED, log entry 57);
the place it takes holds later writes of the block back (R126). -/
def renqHeader (va : Nat) : M Nat := do
  fenceAt 5
  match vrange va with
  | .scratch off =>
    let j := (← get).job
    if j.window < off + 8 then throw (addrFault va 0)
    faultIf (va % 8 != 0) (alignFault va 0)
    let keys := { Keys.none with sr := [blocks off (Nat.min j.window (off + 128))] }
    let id ← takePlace keys
    waitTide [] off 8
    waitOrder id keys
    settledBytes off (off + 8)
    renewAll off 8
    let h := leNum (← tagged 0 va (windowRead [] off 8))
    faultIf (15 ≤ h) (FaultInfo.of 0x1F)
    if j.window < off + 8 * (h + 2) then throw (addrFault va 0)
    pure h
  | _ => throw (addrFault va 0)

/-- The push itself: a place is taken, the push is numbered on tl6, and the block is copied (R106, R126). -/
def renqPush (num va h : Nat) : M Unit := do
  let off := va - scratchVa + 8
  waitTide [] off (8 * (h + 1))
  settledBytes off (off + 8 * (h + 1))
  let bs ← (copyParts off (8 * (h + 1))).mapM fun (a, k) => tagged 0 (scratchVa + a) (do renewAll a k; windowRead [] a k)
  let (job, n) := (← get).job.issueOn 6
  modify fun s => ({ s with job := job.completeOn 6 n } : State).tellLine 6 s.maker
  modify fun s => s.modStr fun t => { t with last := some (6, n) }
  let cmds := wordsOf (h + 1) bs.flatten
  modify fun s =>
    let s := s.modJobNum num fun j => { j with inq := j.inq ++ [.block cmds] }
    match s.findJob num with
    | some j => if j.onCore then s.rouse j.coreIx else s
    | none => s

/-- RENQ (R384). -/
def execRenq (h : Hdr) (d a b : SReg) (s : State) : Host.Outcome State Fault Refusal :=
  runInstr h branchStreams (do
    let s ← get
    let va := (s.getS b).toNat
    let num := fld (s.getS a) 31 0
    let hdr ← match s.str.renq with
      | some n => pure n
      | none => renqHeader va
    let s ← get
    match renqRefusal s num with
    | some c => renqEnd d (if s.str.renq.isSome then 3 else c)
    | none =>
      modify fun s => s.modStr fun t => { t with renq := some hdr }
      match s.findJob num with
      | none => renqEnd d 3
      | some t =>
        unlessWait (decide (inBlocks t.inq < recIqd t.lrec)) (.channel num 4)
        renqPush num va hdr
        renqEnd d 0) s

/-- RENQ_PUSH_ACCEPT (R126): a push that waits for a place looks again. -/
def execRenqPushAccept (num : Nat) (x : StreamId) (s : State) : Host.Outcome State Fault Refusal :=
  recheck num x (fun | .channel _ 4 => true | _ => false) (fun i t =>
    match i with
    | .renq h d a b => execRenq h d a b t
    | _ => .next t) s

end Sys2Proof.Machine
end

