-- ==== Sys2Proof/Machine/Admit.lean ====
section
/-! DEFINITION. The dispatcher: what fits where (R141, R145), the order of admission (R411, R412), admitting a job or a gang
(R134, R146, R147), and giving a saved job its core again (R420). -/

namespace Sys2Proof.Machine

/-! ## Save areas and saved windows (R417, R418) -/

/-- Place of a save area's address in the die's ring. -/
def Die.ringPlace (d : Die) (i : Nat) : Nat := fld d.sfring 51 24 * 2 ^ 24 + 8 * (i % 4096)

/-- Takes an area out of a die's ring. -/
def State.takeArea (s : State) (die : Nat) : State × Nat :=
  let d := s.dieAt die
  let pa := leNum (s.physLoad (d.ringPlace d.sfhead) 8)
  (s.modDie die fun d => { d with sfhead := (d.sfhead + 1) % 4096, sfcnt := d.sfcnt - 1 }, pa)

/-- Returns a job's area to the ring it came from (R418). -/
def State.returnArea (s : State) (area : Option (Nat × Nat)) : State :=
  match area with
  | none => s
  | some (pa, die) =>
    let d := s.dieAt die
    (s.physStore (d.ringPlace (d.sfhead + d.sfcnt)) (leList 8 pa)).modDie die fun d => { d with sfcnt := d.sfcnt + 1 }

/-- Lengths of the sections of a job's context, in the order of R418; 0 for a section that it does not use. DESIGN CHOICE (log
entry 63): the manual gives the largest size of each, and no layout beyond the directory. -/
def Job.sections (j : Job) (win : Bool) : List Nat :=
  [4096, 4096, 4096,
   256 * recVregs j.lrec + (if j.latch.isEmpty && j.pushes.isEmpty then 0 else 1024),
   (if recAccs j.lrec = 0 && j.images.isEmpty then 0 else 16384 * recAccs j.lrec + 9216),
   4480 * recPslots j.lrec,
   (if j.lineages.isEmpty then 0 else 828 * 1024),
   (if j.entries.isEmpty && j.inq.isEmpty && j.tl.toList.all (fun t => t.issued == 0) then 0 else 65536),
   (if win then j.window else 0)]

/-- The offsets of the sections, each 4 KiB aligned, after the 4 KiB directory (R418). -/
def sectionStarts (lens : List Nat) : List Nat :=
  (lens.foldl (fun (o, l) n => ((o + n + 4095) / 4096 * 4096, l ++ [o])) (4096, [])).2

/-- The bytes of a saved window, by offset. -/
def Job.windowBytes (j : Job) : Memory := j.windowSave.foldl (fun m e => m.write e.1 e.2) []

/-- The bytes of a save area before its window section: the directory, with offset and length of each section in 8 bytes each,
and sections whose layout is not architected (R418). -/
def Job.areaBytes (j : Job) (cycle : Nat) : Cells Byte :=
  let lens := j.sections false
  let starts := sectionStarts lens
  let dir := (starts.zip lens).flatMap fun (o, n) => leList 8 o ++ leList 8 n
  let fill := fun (o n : Nat) => (List.range n).map fun i => Config.savedByte cycle (o + i)
  ((starts.zip lens).take 8).foldl (fun c (o, n) => Cells.graft c o (o + n) (Cells.of Memory.blank 0 (fill o n)))
    (Cells.of Memory.blank 0 dir)

/-- The lines of n bytes at a local address that a job owns dirty. -/
def State.dirtyIn (s : State) (pa n : Nat) : List Nat :=
  s.jobs.flatMap fun j => (j.lines.filter fun l => l.dirty && decide (lineOf pa ≤ lineOf l.pa) && decide (lineOf l.pa * 256 < pa + n)).map
    fun l => lineOf l.pa

/-- A long store by the hardware: what is owned dirty is recalled first; a line that holds provisional data gets its bytes when
it is written back (R57, R61). -/
def State.putRun (s : State) (core pa n : Nat) (mid : Cells Byte) : State :=
  let ls := s.dirtyIn pa n
  let s := ls.foldl (fun s l => (recallLine (l * 256)).state s) s
  let s := (({ s with mem := Cells.graft s.mem pa (pa + n) mid } : State).stampRun core pa n).watchWrite s.mem pa n false
  let late := ls.filter fun l => (s.dirtyOwner (l * 256)).isSome
  { s with posted := s.posted ++ late.map fun l => ⟨some core, l * 256, s.mem.readMany (l * 256) 256, 2⟩ }

/-- Writes bytes lo to hi - 1 of an area at a physical address, 64 KiB frame by frame, each of which lies in one piece (R17). -/
def State.putArea (s : State) (core pa lo hi : Nat) (c : Cells Byte) : State :=
  (List.range ((hi + 65535) / 65536 - lo / 65536)).foldl (fun s i =>
    let a := Nat.max lo (65536 * (lo / 65536 + i))
    let b := Nat.min hi (65536 * (lo / 65536 + i + 1))
    let r := regionOf s.hub.pos.toNat (pa + a)
    let mid := (c.filter fun e => decide (a ≤ e.1) && decide (e.1 < b)).map fun e => (e.1 - a, e.2)
    if s.backed r then s.putRun core (placeAddr r) (b - a) mid else s) s

/-- The window that a saved job's area is to hold (R418): its section, and its length in the directory. -/
def State.putWindow (s : State) (j : Job) : State :=
  match j.area with
  | none => s
  | some (pa, _) =>
    let last := (sectionStarts (j.sections true)).getD 8 0
    let c := Cells.graft (Cells.of Memory.blank 128 (leList 8 last ++ leList 8 j.window)) last (last + j.window) j.windowBytes
    (s.putArea j.coreIx pa 128 144 c).putArea j.coreIx pa last (last + j.window) c

/-- Bytes of memory from lo to hi - 1, as offsets from lo. -/
def Memory.cut (m : Memory) (lo hi : Nat) : Memory :=
  (m.filter fun e => decide (lo ≤ e.1) && decide (e.1 < hi)).map fun e => (e.1 - lo, e.2)

/-- Saves a job's window in its save area: its dirty stash lines are written back, and every line is then invalid (R58, R417 step
6, R418). A dirty line with provisional data is never written back unsettled (R61): it stays dirty, and its bytes go with the
window (DESIGN CHOICE, log entry 62). -/
def State.saveWindow (s : State) (num : Nat) : State :=
  match s.findJob num with
  | none => s
  | some j =>
    if j.winSaved then s
    else
      let s := (j.lines.filter fun l => l.dirty && !j.stashProv l).foldl (fun s l => s.writeBack num l) s
      let bytes := s.mem.cut (j.windowPa 0) (j.windowPa 0 + j.window)
      let s := (s.windowLoss num (j.windowPa 0) j.window).modJobNum num fun j =>
        { j with winSaved := true, windowSave := bytes, lines := j.lines.filter fun l => l.dirty && j.stashProv l }
      match s.findJob num with
      | some j => s.putWindow j
      | none => s

/-- The windows that the space of a place, of so many bytes, is taken from, and that of the job that returns there, can be saved
now: their dirty lines can be written back (R51). -/
def spaceReady (num : Option Nat) (p : Place) (size : Nat) : M Unit := do
  let s ← get
  let meets := fun (j : Job) => j.status == .saved && !j.winSaved &&
    (some j.num == num || (j.coreIx == p.die * 32 + p.core && decide (j.base < p.base * 65536 + size) &&
      decide (p.base * 65536 < j.base + j.window)))
  (s.jobs.filter meets).forM fun j => backsReady j.num fun j l => !j.stashProv l

/-- A saved job whose window still stands in place on core i, and meets bytes lo to hi - 1 of the scratchpad. -/
def Job.leftOn (j : Job) (i lo hi : Nat) : Bool :=
  j.status == .saved && !j.winSaved && j.coreIx == i && decide (j.base < hi) && decide (lo < j.base + j.window)

/-- The space of a window is given to another job: windows left there are saved, and it is zeroed (R50, R417 step 6). -/
def State.clearSpace (s : State) (i lo hi : Nat) : State :=
  let s := (s.jobs.filter fun j => j.leftOn i lo hi).foldl (fun s j => s.saveWindow j.num) s
  let pa := placeAddr (.scratch (i / 32) (i % 32) lo)
  { s with mem := Cells.clear pa (pa + (hi - lo)) s.mem }

/-! ## What fits where (R141, R145) -/

/-- One job to be placed: its record, launch and index, and the correction tiles its saved lineages hold. -/
structure Ask where
  lrec   : List Word
  launch : Nat
  index  : Nat
  tiles  : Nat
  /-- The saved job; none for a new one. -/
  saved  : Option Nat
  deriving DecidableEq, Repr

/-- The instance of a domain in which a core lies (R141). -/
def domKey (dom die core : Nat) : Nat :=
  match dom with
  | 2 => die * 32 + core
  | 3 => die * 4 + core / 8
  | 4 => die
  | _ => 0

/-- The job admitted last. -/
def latest (js : List Job) : Option Job :=
  js.foldl (fun m j => match m with | some k => if k.admitted ≤ j.admitted then some j else m | none => some j) none

/-- The jobs of a group that bind its place: those on cores; with none there, a new job goes where the last of the group stood
that has left (R147). A saved job is placed anew and binds none, nor does a job that has left bind one that returns (R420). -/
def binding (group : List Job) (returns : Bool) : List Job :=
  let here := group.filter Job.onCore
  if !here.isEmpty || returns then here
  else (latest (group.filter fun j => j.status == .retired || j.status == .ended)).toList

/-- Every group of the job lies within one instance of its domain (R141). -/
def State.groupsOk (s : State) (a : Ask) (die core : Nat) : Bool :=
  let kin := s.jobs.filter fun j => j.launch == a.launch
  (List.range (Nat.min (recLevels a.lrec) (recWide a.lrec))).all fun k =>
    let dom := recDom a.lrec k
    (binding (kin.filter fun j => j.index / recS a.lrec k == a.index / recS a.lrec k) a.saved.isSome).all fun j =>
      domKey dom j.die j.core == domKey dom die core

/-- Amounts in use on a core, with what a job would add (R145). -/
def usedWith (js : List Job) (r : List Word) (f : List Word → Nat) : Nat := (js.map fun j => f j.lrec).foldl (· + ·) (f r)

/-- A window at a base is inside the scratchpad, clear of other windows and of blocks out of service (R46, R49, R145). -/
def State.windowFree (s : State) (i lo size : Nat) : Bool :=
  decide (lo + size ≤ 0x80_0000) &&
  ((s.onCore i).all fun j => decide (j.base + j.window ≤ lo) || decide (lo + size ≤ j.base)) &&
  (s.coreAt i).oos.all fun b => decide (b * 65536 + 65536 ≤ lo) || decide (lo + size ≤ b * 65536)

/-- The job fits at a place (R141, R145). -/
def State.fitsAt (s : State) (a : Ask) (p : Place) : Bool :=
  let i := p.die * 32 + p.core
  let js := s.onCore i
  decide (p.die < 8) && decide (p.core < 32) && decide (p.slot < 8) && (js.all fun j => j.slot != p.slot) &&
  decide (usedWith js a.lrec recVregs ≤ 1024) && decide (usedWith js a.lrec recAccs ≤ 32) &&
  decide (usedWith js a.lrec recPslots ≤ 128) && decide (usedWith js a.lrec recChan ≤ 16) &&
  decide ((js.map Job.tiles).foldl (· + ·) a.tiles ≤ 48) &&
  s.windowFree i (p.base * 65536) (recWindow a.lrec) && s.groupsOk a p.die p.core &&
  (match a.saved with
   | some n => n == p.num
   | none => decide (p.num < 65536) && (s.findJob p.num).isNone)

/-! ## Heads (R411) -/

/-- A head of a die: a launch queue, or a saved job, which for a gang stands for its share. -/
inductive HeadId where
  | queue (q : Nat) | saved (num : Nat)
  deriving DecidableEq, Repr, Inhabited

/-- What a head asks for. -/
structure Head where
  id     : HeadId
  cls    : Nat
  since  : Nat
  urgent : Bool
  asks   : List Ask
  cores  : List Nat
  resAt  : Option Nat
  deriving DecidableEq, Repr

/-- The jobs of a gang's share that are in a state given. -/
def State.shareOf (s : State) (j : Job) (p : Job → Bool) : List Job :=
  if recGang j.lrec then s.jobs.filter fun k => k.present && k.launch == j.launch && p k else if p j then [j] else []

/-- The queue head of queue q of a die. -/
def State.queueHead (s : State) (die q : Nat) : Option Head :=
  match (s.dieAt die).ring q with
  | [] => none
  | r :: _ =>
    let idx := if recGang r.words then List.range (recShare r.words) else [r.next]
    some ⟨.queue q, fld ((s.dieAt die).lq q 0) 61 60, r.since, false,
      idx.map fun i => ⟨r.words, r.launch, i, 0, none⟩, r.cores, r.resAt⟩

/-- A saved job as a head; the lowest number of a gang's share stands for all of it, which waits until all are saved. -/
def State.savedHead (s : State) (j : Job) : Option Head :=
  let share := s.shareOf j fun k => k.status == .saved
  if j.status != .saved || (share.any fun k => decide (k.num < j.num)) ||
      !(s.shareOf j fun k => k.onCore && k.asked).isEmpty then none
  else
    some ⟨.saved j.num, j.cls, j.savedAt, share.any fun k => k.urgent,
      share.map (fun k => ⟨k.lrec, k.launch, k.index, k.tiles, some k.num⟩), j.cores, j.resAt⟩

/-- It has waited 2^22 cycles (R411 step 3). -/
def Head.aged (h : Head) (cycle : Nat) : Bool := decide (h.since + 2 ^ 22 ≤ cycle)
def Head.class (h : Head) (cycle : Nat) : Nat := if h.aged cycle then 3 else h.cls

/-- Heads of a die. -/
def State.queueHeads (s : State) (die : Nat) : List Head := (List.range 64).filterMap (s.queueHead die)
def State.savedHeads (s : State) (die : Nat) : List Head := (s.jobs.filter fun j => j.die == die).filterMap s.savedHead

/-- Sorts heads, the oldest first. -/
def oldest (hs : List Head) : List Head :=
  hs.foldl (fun l h => l.takeWhile (fun x => decide (x.since ≤ h.since)) ++ [h] ++ l.dropWhile fun x => decide (x.since ≤ h.since)) []

/-- Queue heads of a class in the order of the weighted rotation (R411 step 2). -/
def rotated (d : Die) (cls : Nat) (hs : List Head) : List Head :=
  let (cur, n) := vget (0, 0) d.visits cls
  let num := fun (h : Head) => match h.id with | .queue q => q | .saved _ => 64
  let more := decide (n < Nat.max 1 (fld (d.lq cur 0) 59 56))
  let here := hs.filter fun h => num h == cur
  let rest := (hs.filter fun h => decide (cur < num h)) ++ hs.filter fun h => decide (num h < cur)
  if more then here ++ rest else rest ++ here

/-- The heads of a die in the order in which they are considered (R411, R419): those asked for by JCMD OP 3; then class by
class, aged heads by age, saved jobs by age, and the queues in rotation. -/
def State.headOrder (s : State) (die : Nat) : List Head :=
  let saved := s.savedHeads die
  let queues := s.queueHeads die
  let cls := fun (c : Nat) =>
    let mine := fun (aged : Bool) (h : Head) => !h.urgent && h.class s.cycle == c && h.aged s.cycle == aged
    oldest ((saved ++ queues).filter (mine true)) ++ oldest (saved.filter (mine false)) ++
      rotated (s.dieAt die) c (queues.filter (mine false))
  oldest (saved.filter fun h => h.urgent) ++ cls 3 ++ cls 2 ++ cls 1 ++ cls 0

/-- A core is reserved for another head (R411 step 3). -/
def State.reserved (s : State) (die : Nat) (id : HeadId) (i : Nat) : Bool :=
  (List.range 8).any fun d =>
    (s.queueHeads d ++ s.savedHeads d).any fun h => h.cores.contains i && !(d == die && h.id == id)

/-! ## Putting a job on a core -/

/-- The state of a job that becomes resident for the first time (R134). -/
def newJob (r : QRec) (index cycle : Nat) (p : Place) : Job :=
  let str := fun (x : StreamId) =>
    { Stream.idle with
      pc := recEntry r.words x, s := (Vector.replicate 64 0).set 1 (recArgp r.words),
      st := if recEntry r.words x == 0 then .idle else .running }
  { Job.empty with
    num := p.num, status := .admitting, ctx := r.ctx, lrec := r.words, index := index, launch := r.launch,
    die := p.die, core := p.core, slot := p.slot, base := p.base * 65536, admitted := cycle,
    c := str .C, a := str .A, m := str .M, v := str .V,
    ctbase := recCtbase r.words &&& 0x01FF_FFFF_FFFC_0000, bdom := recMdom r.words }

/-- A new job takes its place, its window zero-filled (R50, R134). -/
def State.putNew (s : State) (r : QRec) (index : Nat) (p : Place) : State :=
  let s := (s.wakeCore (p.die * 32 + p.core)).clearSpace (p.die * 32 + p.core) (p.base * 65536) (p.base * 65536 + recWindow r.words)
  { s with rest := s.rest ++ [newJob r index s.cycle p] }

/-- The entries of a job that returns: its operations stand away from the Weir until they enter again, in order (R116); an
operation with no access left has none to enter for. -/
def Job.backAway (j : Job) (cycle : Nat) : List Entry :=
  j.entries.map fun e =>
    match e.kind with
    | .op o =>
      let retest := match o.instr with | .mldsK .. => !o.finished | _ => false
      { e with kept := false, away := !j.spent e
               kind := .op { o with since := cycle, aged := false, unit := if retest then 1 else o.unit } }
    | _ => e

/-- A saved job takes a place: its window is restored, its area returned, its operations enter the Weir again in order, and
instruction memory starts invalid (R116, R420). A window that stayed in place, for a job that returns elsewhere, is saved at
this point (DESIGN CHOICE, log entry 62). Keyed images that stand on the core bind only under keys that are in use (R340,
R347): the image last bound keeps its key only while the table here holds it, and keyed loads test their conditions again. -/
def State.putSaved (s : State) (num : Nat) (p : Place) : State :=
  match s.findJob num with
  | none => s
  | some j =>
    let s := s.sweepKeys (p.die * 32 + p.core)
    let stay := !j.winSaved && j.coreIx == p.die * 32 + p.core && j.base == p.base * 65536
    let s := if stay then s
      else
        let s := s.saveWindow num
        let s := s.clearSpace (p.die * 32 + p.core) (p.base * 65536) (p.base * 65536 + j.window)
        let pa := placeAddr (.scratch p.die p.core (p.base * 65536))
        let bytes := ((s.findJob num).map fun j => j.windowSave).getD []
        ({ s with mem := bytes.foldl (fun m e => m.write (pa + e.1) e.2) s.mem } : State).stampRun (p.die * 32 + p.core) pa j.window
    -- what the job's streams have read and written stays before what they do next (R87, R89, R394)
    let s := s.raiseClock (p.die * 32 + p.core) (s.clock j.coreIx)
    let s := (s.returnArea j.area).wakeCore (p.die * 32 + p.core)
    let again := fun (t : Stream) => { t with imem := [], wait := t.hold.map fun q => ⟨.fault q, s.cycle⟩ }
    let here := fun (k : BasinKey) => (s.coreAt (p.die * 32 + p.core)).keys.any fun q => q.key == k
    s.modJobNum num fun j =>
      { j with
        last := j.last.map fun l => if l.key.any here then l else { l with key := none }
        status := .admitting, die := p.die, core := p.core, slot := p.slot, base := p.base * 65536,
        admitted := s.cycle, winSaved := false, windowSave := [], area := none, urgent := false, asked := false,
        cores := [], resAt := none, walkFaults := [],
        c := again j.c, a := again j.a, m := again j.m, v := again j.v,
        entries := j.backAway s.cycle }

/-- One job of a head takes its place. -/
def State.put (s : State) (die : Nat) (id : HeadId) (a : Ask) (p : Place) : State :=
  match a.saved, id with
  | some num, _ => s.putSaved num p
  | none, .queue q =>
    match (s.dieAt die).ring q with
    | r :: _ => s.putNew r a.index p
    | [] => s
  | none, .saved _ => s

/-! ## Looking for places (R412) -/

/-- The dies in the order of R412: the own, the one across in its row pair, its row neighbours, the others ascending. -/
def dieOrder (d : Nat) : List Nat :=
  let row := d / 4
  let col := d % 4
  let near := [d, (1 - row) * 4 + col] ++ (if 0 < col then [d - 1] else []) ++ (if col < 3 then [d + 1] else [])
  near ++ (List.range 8).filter fun x => !near.contains x

/-- The lowest JOBID.NUM that no job of the package has (R413). -/
def State.freeNum (s : State) : Option Nat :=
  (List.range (Nat.min 65536 (s.jobs.length + 1))).find? fun n => (s.findJob n).isNone

/-- A window base that is free on a core, in 64 KiB units: 0, or the end of something that stands there. -/
def State.freeBase (s : State) (i size : Nat) : Option Nat :=
  ((0 :: (s.onCore i).map (fun (j : Job) => (j.base + j.window) / 65536)) ++ (s.coreAt i).oos.map (· + 1)).find? fun b =>
    s.windowFree i (b * 65536) size

/-- The first place for a job on the cores given. -/
def State.findPlace (s : State) (a : Ask) (cores : List Nat) : Option Place :=
  match (match a.saved with | some n => some n | none => s.freeNum) with
  | none => none
  | some num =>
    cores.findSome? fun i =>
      match s.freeBase i (recWindow a.lrec), (List.range 8).find? fun x => (s.onCore i).all fun j => j.slot != x with
      | some base, some slot =>
        let p : Place := ⟨i / 32, i % 32, slot, base, num⟩
        if s.fitsAt a p then some p else none
      | _, _ => none

/-- Places for jobs, one after the other, each on the cores that f gives it; with the state then. -/
def State.placeOn (s : State) (die : Nat) (id : HeadId) (f : Ask → List Nat) : List Ask → Option (State × List Place)
  | [] => some (s, [])
  | a :: r =>
    match s.findPlace a (f a) with
    | none => none
    | some p => ((s.put die id a p).placeOn die id f r).map fun (t, ps) => (t, p :: ps)

/-- Parts of a list that agree in a key, in the order of their first elements. -/
def partsBy {α : Type} (key : α → Nat) (l : List α) : List (List α) :=
  (l.map key).eraseDups.map fun k => l.filter fun a => key a == k

/-- Places for jobs of one launch within one instance of a domain: 0 a core, 1 a cluster, 2 a die, 3 the package, of which
the cores are given. The groups that must lie in one instance of the next narrower domain go, whole, into the first
instance with room for them. The jobs of a launch ask for the same resources (R146), so this finds a placement when there is
one. -/
def State.placeIn (s : State) (die : Nat) (id : HeadId) : Nat → List Nat → List Ask → Option (State × List Place)
  | 0, cores, asks => s.placeOn die id (fun _ => cores) asks
  | n + 1, cores, asks =>
    let size := (asks.map fun a => boundGroup a.lrec (n + 2)).headD 1
    (partsBy (fun (a : Ask) => a.index / size) asks).foldlM (fun (s, ps) part =>
      ((partsBy (fun i => if n = 0 then i else if n = 1 then i / 8 else i / 32) cores).findSome? fun part' =>
        State.placeIn s die id n part' part).map fun (t, qs) => (t, ps ++ qs)) (s, [])

/-- The core that a saved job stood on. -/
def State.homeOf (s : State) (a : Ask) : List Nat :=
  ((a.saved.bind s.findJob).map fun j => j.coreIx).toList

/-- Places for every job asked for, on the cores given; a share of saved jobs, which may hold unequal numbers of correction
tiles, finds its former cores free when nothing else does. -/
def State.placeAll (s : State) (die : Nat) (id : HeadId) (cores : List Nat) (asks : List Ask) : Option (State × List Place) :=
  match s.placeIn die id 3 cores asks with
  | some r => some r
  | none => s.placeOn die id (fun a => (s.homeOf a).filter cores.contains) asks

/-- Cores a head of a die may use, in the order of R412: not those reserved for others; other dies than its own for a group
of package domain or wider (R412), for a job that returns (R420), and for a gang that an empty die could not hold: R412 names no
group of it that may spill, yet R146 has it admitted where an empty package holds it (DEDUCED, log entry 81). -/
def State.coresFor (s : State) (die : Nat) (h : Head) : List Nat :=
  let away := h.asks.any fun a => a.saved.isSome || (List.range (recLevels a.lrec)).any (fun k => decide (5 ≤ recDom a.lrec k)) ||
    recGang a.lrec && decide (packageHolds a.lrec / 8 < recShare a.lrec)
  ((if away then dieOrder die else [die]).flatMap fun d => (List.range 32).map fun k => d * 32 + k).filter fun i =>
    !s.reserved die h.id i

/-- The search finds room for a head now (R146). -/
def State.headFits (s : State) (die : Nat) (h : Head) : Bool := (s.placeAll die h.id (s.coresFor die h) h.asks).isSome

/-- A head may be admitted: it is the first that fits, in the order of R411. -/
def State.mayAdmit (s : State) (die : Nat) (id : HeadId) : Option Head :=
  let order := s.headOrder die
  match order.find? fun h => h.id == id with
  | none => none
  | some h => if (order.takeWhile fun x => x.id != id).any (s.headFits die) then none else some h

/-- The place of job a of a head lies on the nearest die with room (R412): no nearer die, of those that the cores given lie
on, holds what stands to be placed, of the jobs `rest`, of the largest group of a's that must lie on one die. -/
def State.nearest (s : State) (die : Nat) (id : HeadId) (cores : List Nat) (a : Ask) (rest : List Ask) (p : Place) : Bool :=
  let size := boundGroup a.lrec 4
  ((dieOrder die).takeWhile (· != p.die)).all fun d =>
    (s.placeIn die id 2 (cores.filter fun i => i / 32 == d)
      ((a :: rest).filter fun b => b.index / size == a.index / size)).isNone

/-! ## The resident gang (R146, R396) -/

/-- The jobs of a share whose objects of level k are theirs to start with: the lowest index of each group (R396). -/
def State.objects (s : State) (launch : Nat) : List (Nat × Nat) :=
  (s.jobs.filter fun j => j.onCore && j.launch == launch).flatMap fun j =>
    ((List.range (Nat.min (recLevels j.lrec) (recWide j.lrec))).filter fun k => k != 0 && j.index % recS j.lrec k == 0).map
      fun k => (j.num, k)

/-- Writes one barrier object: PHASE 0, COUNT 0, EXPECT S_k (R396); a fault is raised on the job with ENG 8 and ACCK 1. -/
def State.writeObject (s : State) (num k : Nat) : State × Bool :=
  match s.focus num with
  | none => (s, true)
  | some s =>
    let va := barrierVa s.job k
    let got := match vrange va with
      | .mapped => xlateNow s s.job.ctx .w va 64
      | _ => .error ⟨0x14, va, 0, 0, 0⟩
    match got with
    | .ok x =>
      (s.hardStore ⟨some s.job.coreIx, x.pa, leList 8 0 ++ leList 8 (recS s.job.lrec k) ++ List.replicate 48 0, x.cc⟩, true)
    | .error f => (s.takeFault { f.info 1 with eng := 8 } .objects, false)

/-- The share's objects are written, and its jobs are then resident and issue (R146, R396). -/
def State.startGang (s : State) (launch : Nat) : State :=
  let (s, ok) := (s.objects launch).foldl (fun (s, ok) (n, k) => if ok then s.writeObject n k else (s, ok)) (s, true)
  if ok then s.mapJobs fun j => if j.launch == launch && j.status == .admitting then { j with status := .resident } else j
  else s

/-- The entry of a resident report for a job (R414). -/
def reportEntry (j : Job) : Nat :=
  j.num % 2 ^ 32 * 2 ^ 32 + (j.die * 2 ^ 13 + j.core / 8 * 2 ^ 11 + j.core % 8 * 2 ^ 8 + j.slot) * 2 ^ 16 + j.index % 2048

/-- The report of a gang from the launch port that is resident (R414). -/
def State.residentReport (s : State) (r : QRec) : State :=
  match r.reply with
  | none => s
  | some (pa, tag) =>
    let share := (List.range (recShare r.words)).filterMap fun i =>
      s.jobs.find? fun j => j.onCore && j.launch == r.launch && j.index == i
    s.report r.port (pa + 64) (share.length / 32 + 2) (reportBytes tag 0 2 share.length (share.map reportEntry))

/-! ## Admission -/

/-- The record at the head of a queue has been admitted as far as `next`; when that is all of it, HEAD rises and the next
record becomes head (R147, R408, R411). -/
def State.recordDone (s : State) (die q next : Nat) : State :=
  s.modDie die fun d =>
    match d.ring q with
    | [] => d
    | r :: rest =>
      let cls := fld (d.lq q 0) 61 60
      let (cur, n) := vget (0, 0) d.visits cls
      let spent := decide (Nat.max 1 (fld (d.lq q 0) 59 56) ≤ n)
      let n := if cur == q && !spent then n else 0
      let done := decide (recShare r.words ≤ next)
      let d := { d with visits := vset d.visits cls (q, if done then n + 1 else n) }
      if done then
        let rest := match rest with | [] => [] | x :: y => { x with since := s.cycle } :: y
        (d.setRing q rest).setCounts q (d.lqHead q + 1) (d.lqTail q)
      else d.setRing q ({ r with next := next, since := s.cycle, cores := [], resAt := none } :: rest)

/-- DISPATCHER_ADMIT (R411, R147): the next job of the head of queue q, which has no gang, becomes resident at a place. -/
def execDispatcherAdmit (die q : Nat) (p : Place) (s : State) : Host.Outcome State Fault Refusal :=
  runEvent (do
    let s ← get
    need (s.hub.boot.started && decide (die < 8))
    match s.mayAdmit die (.queue q), (s.dieAt die).ring q with
    | some h, r :: _ =>
      match h.asks with
      | a :: _ =>
        need (!recGang r.words && s.fitsAt a p && (s.coresFor die h).contains (p.die * 32 + p.core) &&
          s.nearest die (.queue q) (s.coresFor die h) a [] p)
        spaceReady none p (recWindow r.words)
        let s := (← get).put die (.queue q) a p
        let s := s.modJobNum p.num fun j => { j with status := .resident }
        set (s.recordDone die q (r.next + 1))
      | [] => throw .halt
    | _, _ => throw .halt) s

/-- The jobs of a head take the places of a list, each of which must fit, on the cores given, and lie on the nearest die with
room (R412). -/
def State.putAll (s : State) (die : Nat) (id : HeadId) (cores : List Nat) : List Ask → List Place → Option State
  | [], [] => some s
  | a :: r, p :: ps =>
    if s.fitsAt a p && cores.contains (p.die * 32 + p.core) && s.nearest die id cores a r p
    then (s.put die id a p).putAll die id cores r ps else none
  | _, _ => none

/-- GANG_ADMIT (R146): every job of the package's share becomes resident at once, at the places given in index order. -/
def execGangAdmit (die q : Nat) (ps : List Place) (s : State) : Host.Outcome State Fault Refusal :=
  runEvent (do
    let s ← get
    need (s.hub.boot.started && decide (die < 8))
    match s.mayAdmit die (.queue q), (s.dieAt die).ring q with
    | some h, r :: _ =>
      need (recGang r.words)
      ps.forM fun p => spaceReady none p (recWindow r.words)
      let s ← get
      match s.putAll die (.queue q) (s.coresFor die h) h.asks ps with
      | none => throw .halt
      | some t => set (((t.recordDone die q h.asks.length).residentReport r).startGang r.launch)
    | _, _ => throw .halt) s

/-! ## Aged heads (R411 steps 3 and 4) -/

/-- A head of a die by the number that an event gives it: queue q, or 64 plus a saved job's number. -/
def State.headAt (s : State) (die q : Nat) : Option Head :=
  if q < 64 then s.queueHead die q
  else match s.findJob (q - 64) with
    | some j => if j.die == die then s.savedHead j else none
    | none => none

/-- The machine without the resident jobs of a head's class or lower. -/
def State.bare (s : State) (h : Head) : State :=
  s.mapJobs fun j => if j.onCore && decide (j.cls ≤ h.class s.cycle) then { j with status := .retired } else j

/-- The cores, of those given, that the groups of a head allow: jobs of its groups that are on cores bind them (R141). -/
def State.groupCores (s : State) (h : Head) (cores : List Nat) : List Nat :=
  cores.filter fun i => h.asks.all fun a => s.groupsOk a (i / 32) (i % 32)

/-- Places that the search finds for a head, on the cores given, were every resident job of its class or lower removed (R411
step 3). -/
def State.wanted (s : State) (die : Nat) (h : Head) (cores : List Nat) : Option (List Place) :=
  ((s.bare h).placeAll die h.id (s.groupCores h cores) h.asks).map fun x => x.2

/-- The cores of places, of those given and in their order. -/
def coresOf (cores : List Nat) (ps : List Place) : List Nat :=
  cores.filter fun i => ps.any fun p => p.die * 32 + p.core == i

/-- Sets a head's reservation. -/
def State.reserve (s : State) (die q : Nat) (cores : List Nat) : State :=
  if q < 64 then
    s.modDie die fun d =>
      match d.ring q with
      | r :: rest => d.setRing q ({ r with cores := cores, resAt := some s.cycle } :: rest)
      | [] => d
  else s.modJobNum (q - 64) fun j => { j with cores := cores, resAt := some s.cycle }

/-- HEAD_AGED (R411 step 3): a head that has waited 2^22 cycles reserves the cores it needs, on its own die if it can, and
then in the order of R412. -/
def execHeadAged (die q : Nat) (cores : List Nat) (s : State) : Host.Outcome State Fault Refusal :=
  runEvent (do
    let s ← get
    need (decide (die < 8))
    match s.headAt die q with
    | none => throw .halt
    | some h =>
      need (h.aged s.cycle && h.resAt.isNone && cores.all fun i => (s.coresFor die h).contains i)
      match s.wanted die h cores with
      | none => throw .halt
      | some ps =>
        need (coresOf cores ps == cores && ((s.bare h).putAll die h.id (s.groupCores h (s.coresFor die h)) h.asks ps).isSome)
        set (s.reserve die q cores)) s

/-- The job in focus is to be pre-empted (R416): its held Basin entries are triggered, and leave the Basin to issue alone
(R342, R347, R417 step 2). -/
def State.toGo (s : State) : State :=
  let held := fun (e : Entry) => match e.kind with | .op o => o.basin.isSome | _ => false
  let ids := (s.job.entries.filter held).map fun e => e.id
  (s.job.entries.foldl (fun s e => s.leaveBasin e.id 0) s).modJob fun j =>
    { j with
      asked := true
      entries := j.entries.map fun e =>
        match e.kind with
        | .op o => { e with kind := .op { o with late := none, alone := o.alone || ids.contains e.id } }
        | _ => e }

/-- Asks for the pre-emption of a job, and with it of its gang's share (R416). The job in focus stays so. -/
def State.askPreempt (s : State) (j : Job) : State :=
  let share := (s.shareOf j fun k => k.status == .resident || k.status == .admitting).map fun k => k.num
  (share.foldl (fun s n => s.atJob n State.toGo) s).atJob s.job.num id

/-- RESERVATION_PREEMPT (R411 step 4): 2^24 cycles after the reservation began, the youngest admission on the cores chosen
is to be pre-empted, one after the other, until the head fits. -/
def execReservationPreempt (die q : Nat) (s : State) : Host.Outcome State Fault Refusal :=
  runEvent (do
    let s ← get
    match s.headAt die q with
    | none => throw .halt
    | some h =>
      need ((h.resAt.any fun t => decide (t + 2 ^ 24 ≤ s.cycle)) && !s.headFits die h)
      let there := s.jobs.filter fun j =>
        (j.status == .resident || j.status == .admitting) && h.cores.contains j.coreIx && decide (j.cls ≤ h.class s.cycle)
      need (!there.any fun j => j.asked)
      match there with
      | [] => throw .halt
      | j :: r =>
        set (s.askPreempt (r.foldl (fun (a b : Job) => if a.admitted ≤ b.admitted then b else a) j))) s

/-- READMIT (R420, R155): a saved job, ahead of whom no head fits, takes a place; of a gang, the search finds places for the
rest of the share, which returns as a whole. -/
def execReadmit (num : Nat) (p : Place) (s : State) : Host.Outcome State Fault Refusal :=
  runEvent (do
    let s ← get
    match s.findJob num with
    | none => throw .halt
    | some j =>
      match s.mayAdmit j.die (.saved num) with
      | none => throw .halt
      | some h =>
        match h.asks.find? fun a => a.saved == some num with
        | none => throw .halt
        | some a =>
          let others := h.asks.filter fun b => b.saved != some num
          need (s.fitsAt a p && (s.coresFor j.die h).contains (p.die * 32 + p.core))
          let all := fun (s : State) => (s.put j.die h.id a p).placeAll j.die h.id (s.coresFor j.die h) others
          p :: (((all s).map fun x => x.2).getD []) |>.forM fun q => spaceReady (some q.num) q (recWindow a.lrec)
          match all (← get) with
          | none => throw .halt
          | some (t, _) =>
            let held := t.jobs.any fun k => k.onCore && k.launch == j.launch && k.faults.any fun r => r.held == .objects
            let share := h.asks.filterMap fun b => b.saved
            set (t.mapJobs fun k => if k.status == .admitting && share.contains k.num && !held then { k with status := .resident } else k)) s

end Sys2Proof.Machine
end

