-- ==== Sys2Proof/Machine/System.lean ====
section
/-! DEFINITION. System registers (R194 to R197, R75, R118, R142, R53), traps and breakpoints (R199), ERET (R200, R317),
ISYNC (R202) and SLICEOF (R76, R217). -/

namespace Sys2Proof.Machine

/-! ## Reading system registers -/

/-- CORELOC (R75). -/
def coreloc (s : State) : Word :=
  let j := s.job
  BitVec.ofNat 64 (s.hub.pod.toNat * 2 ^ 42 + s.hub.pos.toNat * 2 ^ 32 + j.die % 8 * 2 ^ 13 + j.core / 8 % 4 * 2 ^ 11 +
    j.core % 8 * 2 ^ 8 + j.slot % 8)

/-- JOBID (R196). -/
def jobid (j : Job) : Word := BitVec.ofNat 64 (j.ctx.asid % 65536 * 2 ^ 48 + j.num % 2 ^ 32)

/-- SWVAn and SWSPn (R53). -/
def swva (w : StashWin) : Word := BitVec.ofNat 64 (if w.v then w.gva % 2 ^ 41 * 65536 + 1 else 0)
def swsp (w : StashWin) : Word :=
  BitVec.ofNat 64 (if w.v then w.sizem1 % 128 * 2 ^ 32 + w.off % 128 * 65536 + w.epri % 8 * 2 else 0)

/-- TSTAT (R196). -/
def tstat (t : TrapRegs) : Word :=
  BitVec.ofNat 64 ((if t.inTrap then 2 ^ 31 else 0) + streamNum t.strm * 2 ^ 24 + t.code % 65536 * 256 + t.cause % 256)

/-- The value of a system register (R194, R195); the fields are those of the register's own map. -/
def sysRead (s : State) (r : Nat) : Word :=
  let j := s.job
  if r = 0 then coreloc s
  else if r = 1 then jobid j
  else if r = 2 then (if recWorld j.lrec then 1 else 0)
  else if r = 3 then BitVec.ofNat 64 s.cycle
  else if 0x10 ≤ r && r < 0x18 then BitVec.ofNat 64 (recCoord j.lrec j.index (r - 0x10))
  else if 0x18 ≤ r && r < 0x20 then BitVec.ofNat 64 (if j.lrec.isEmpty then 1 else recN j.lrec (r - 0x18))
  else if r = 0x20 then j.ctbase
  else if 0x24 ≤ r && r < 0x28 then vget 0 j.crange (r - 0x24)
  else if 0x28 ≤ r && r < 0x2C then BitVec.ofNat 64 (vget 0 j.ctide (r - 0x28))
  else if 0x2C ≤ r && r < 0x30 then BitVec.ofNat 64 (vget 0 j.seed (r - 0x2C)).toNat
  else if r = 0x30 then BitVec.ofNat 64 j.bhold
  else if r = 0x31 then BitVec.ofNat 64 j.bdom
  else if 0x40 ≤ r && r < 0x48 then swva (vget ⟨false, 0, 0, 0, 0⟩ j.stash (r - 0x40))
  else if 0x48 ≤ r && r < 0x50 then swsp (vget ⟨false, 0, 0, 0, 0⟩ j.stash (r - 0x48))
  else if r = 0x60 then tstat j.trap
  else if r = 0x61 then j.trap.tret
  else if r = 0x62 then j.trap.tfrec
  else 0

/-- SRD (R194): the value in the cycle it issues. -/
def execSrd (h : Hdr) (d : SReg) (r : BitVec 12) (s : State) : Host.Outcome State Fault Refusal :=
  scalarTo h d (fun s => sysRead s r.toNat) s

/-! ## Writing system registers -/

/-- An SWR writes the RW fields alone; to a register without one it has no effect (R194, R196). -/
def sysWrite (j : Job) (r : Nat) (v : Word) : Job :=
  if r = 0x20 then { j with ctbase := v &&& 0x01FF_FFFF_FFFC_0000 }
  else if r = 0x30 then { j with bhold := fld v 9 0 }
  else if r = 0x31 then { j with bdom := fld v 15 0 }
  else if r = 0x61 then { j with trap := { j.trap with tret := v &&& 0x01FF_FFFF_FFFF_FFFE } }
  else j

/-- SWR (R194, R197), on the C stream. -/
def execSwr (h : Hdr) (r : BitVec 12) (a : SReg) (s : State) : Host.Outcome State Fault Refusal :=
  runInstr h [.C] (do
    let s ← get
    set (s.modJob fun j => sysWrite j r.toNat (s.getS a))
    pure .next) s

/-- Holds the C stream until every copy that p names, issued before the instruction, is complete (R119, R197, R373). The wait
names the first Weir entry that came later. -/
def waitCopies (n : Nat) (p : Entry → Bool) : M Unit := do
  let s ← get
  let upto := match s.str.wait with
    | some ⟨.copies m u, _⟩ => if m = n then u else s.job.nextId
    | _ => s.job.nextId
  unlessWait (s.job.entries.all fun e => decide (upto ≤ e.id) || !p e) (.copies n upto)

/-- Writes CRANGEn (R118, R119): a range that is empty or passes the window is written with EN = 0; EN = 1 sets the
tide to the range's first byte. -/
def writeCrange (j : Job) (n : Nat) (v : Word) : Job :=
  let v := v &&& 0x807F_FF00_007F_FF00
  let v := if crangeHi v ≤ crangeLo v || j.window < crangeHi v then v &&& 0x7FFF_FFFF_FFFF_FFFF else v
  let j := { j with crange := vset j.crange n v }
  if crangeEn v then { j with ctide := vset j.ctide n (crangeLo v), filled := vset j.filled n [] } else j

/-- SWR to CRANGEn (R119): a walk on another channel that fills channel n is one of its copies (R373). For a channel at or above
CHAN it writes nothing. -/
def execCrangeWrite (h : Hdr) (n : BitVec 2) (a : SReg) (s : State) : Host.Outcome State Fault Refusal :=
  runInstr h [.C] (do
    if n.toNat < recChan (← get).job.lrec then
      waitCopies n.toNat fun e => e.fills.contains n.toNat
      modify fun s => s.modJob fun j => writeCrange j n.toNat (s.getS a)
    pure .next) s

/-- Seeds the 64 lanes of channel n (R196, R357); a written 0 is stored as 1. -/
def writeSeed (j : Job) (n : Nat) (v : Word) : Job :=
  let v : Lane := if v.truncate 32 = (0 : Lane) then 1 else v.truncate 32
  { j with seed := vset j.seed n v, draws := Cells.clear (64 * n) (64 * n + 64) j.draws }

/-- SWR to LFSRn (R197, R357). -/
def execLfsrSeed (h : Hdr) (n : BitVec 2) (a : SReg) (s : State) : Host.Outcome State Fault Refusal :=
  runInstr h [.C] (do
    if n.toNat < recChan (← get).job.lrec then
      waitCopies n.toNat fun e => e.fills.head? == some n.toNat
      modify fun s => s.modJob fun j => writeSeed j n.toNat (s.getS a)
    pure .next) s

/-! ## Traps, breakpoints, return -/

/-- TRAP (R199): cause 0x0C with its code; the restart point is the instruction after. -/
def execTrap (h : Hdr) (code : BitVec 16) (s : State) : Host.Outcome State Fault Refusal :=
  runInstr h [.C] (throw (.after { FaultInfo.of 0x0C with code := code.toNat })) s

/-- BRK (R199): halts the stream when debug is enabled, else cause 0x0E; the restart point is the instruction after. -/
def execBrk (h : Hdr) (code : BitVec 16) (s : State) : Host.Outcome State Fault Refusal :=
  runInstr h allStreams (do
    if (← get).job.debug then throw .halt
    else throw (.after { FaultInfo.of 0x0E with code := code.toNat })) s

/-- Every word of the stream's instruction memory is invalid: what a fill asked for before, and its faults, go too (R174). -/
def State.afterIsync (s : State) : State :=
  let mine := fun (a : Asker) => a == .code s.cur
  ((s.dropWalkers s.job.die fun r => r.num == s.job.num && mine r.by_).modJob fun j =>
    { j with walkFaults := j.walkFaults.filter fun f => !mine f.1 }).modStr fun t => { t with imem := [] }

/-- ISYNC (R129, R202): a package fence, then every word of the stream's instruction memory is invalid. -/
def execIsync (h : Hdr) (s : State) : Host.Outcome State Fault Refusal :=
  runInstr h allStreams (do
    fenceAt 5
    modify fun s => s.afterIsync
    pure .next) s

/-- Bytes read by the hardware through the job's context, once they can be; none when the read faults. -/
def State.hwLoad (s : State) (va n : Nat) : Option (List Byte) :=
  match xlateNow s s.job.ctx .r va n with
  | .ok x => if (s.failing x.pa n).isSome then none else some (s.mem.readMany x.pa n)
  | .error _ => none

/-- The record of a fault of the job in focus can be read: its line is recalled, and waited for in a scratchpad's order or while
it holds provisional data (R51, R57, R61). -/
def recordReady (seq : Nat) : M Unit := do
  let s ← get
  match xlateNow s s.job.ctx .r (faultAddr s.job seq) 256 with
  | .ok x =>
    outsideClear none x.region 256 false
    recallLine x.pa
  | .error _ => pure ()

/-- A memory error in the record that ERET reads is its fault (R200, R317, R425). -/
def recordProbe (seq : Nat) : M Unit := do
  let s ← get
  match xlateNow s s.job.ctx .r (faultAddr s.job seq) 256 with
  | .ok x => tagged 0 (faultAddr s.job seq) (probe x.pa 256)
  | .error _ => pure ()

/-- A fault holds stream x: as its own, but not C as one that its handler takes, or as that of an operation of it that goes to the
handler (R198, R201). -/
def FaultRec.holdsStream (r : FaultRec) (x : StreamId) : Bool :=
  if x == .C then r.held == .stream .C && r.toOs
  else r.held == .stream x || (userCause r.info.cause && r.info.strm == x)

/-- Clears the hold that a fault put on streams and operations; a held operation takes the resumption given (R317). A stream
that another fault holds as well stays held. The wait on the fault is ended by who resolved it (R441). -/
def State.unhold (s : State) (seq : Nat) (r : Option Resume) (by_ : Ender) : State :=
  let free := fun (s : State) (x : StreamId) =>
    if (s.job.str x).hold == some seq then
      let next := (s.job.faults.find? fun r => r.seq != seq && r.holdsStream x).map fun r => r.seq
      ((s.modStrOf x fun t => { t with ender := some by_ }).endWait x 0).modStrOf x fun t => { t with hold := next, wait := next.map fun q => ⟨.fault q, s.cycle⟩ }
    else s
  let ent := fun (e : Entry) =>
    match e.kind with
    | .op o => if o.hold == some seq then { e with kind := .op { o with hold := none, resume := r, since := s.cycle, aged := false } } else e
    | _ => e
  (allStreams.foldl free s).modJob fun j => { j with entries := j.entries.map ent }

/-- What the record's RESUME and REPL bytes say (R316, R317). -/
def State.resumeOf (s : State) (seq kind : Nat) : Resume :=
  match s.hwLoad (faultAddr s.job seq + 0x4B) 5 with
  | some (m :: r) => ⟨if m.toNat ≤ 2 then m.toNat else 0, BitVec.ofNat 32 (leNum r), kind⟩
  | _ => ⟨0, 0, kind⟩

/-- KIND in a record's port detail (R316). -/
def FaultInfo.kind (f : FaultInfo) : Nat := (f.port.getD 10 0).toNat

/-- The restart point that the record then holds (R200, L19): the handler's, when it has changed the record's PC. -/
def State.recordPc (s : State) (r : FaultRec) (dflt : Word) : Word :=
  match s.hwLoad (faultAddr s.job r.seq + 8) 8 with
  | some bs => if leNum bs = r.info.pc then dflt else BitVec.ofNat 64 (leNum bs)
  | none => dflt

/-- Step 3 of R200: the stream of the fault in service is released at its restart point, and the operation with it. -/
def State.releaseTrap (s : State) (seq : Nat) : State :=
  match s.job.faults.find? fun r => r.seq == seq with
  | none => s
  | some r =>
    let res := if r.info.cause = 0x1B then some (s.resumeOf seq r.info.kind) else none
    let s := if r.info.strm == .C then s
      else s.modStrOf r.info.strm fun t => t.goTo (s.recordPc r t.pc)
    (s.unhold seq res ⟨0, s.job.num, streamNum .C⟩).release seq

/-- ERET (R200): with no trap in service, cause 0x0D and no other effect. -/
def execEret (h : Hdr) (s : State) : Host.Outcome State Fault Refusal :=
  runInstr h [.C] (do
    if !(← get).job.trap.inTrap then throw (.fault (FaultInfo.of 0x0D))
    fenceAt 1
    let seq := (← get).job.trap.seq
    recordReady seq
    recordProbe seq
    modify fun s => s.trapReturn.releaseTrap s.job.trap.seq
    pure .stay) s

/-! ## SLICEOF (R76, R217) -/

/-- The home of a translated address in the layout of R76. DESIGN CHOICE (log entry 65): an address of the fabric window that
names the own position has the home that it reaches, KIND 0b00 and POS 0; and ALIAS, which R76 gives for the interleaved
alias of this package, is 0 for a page of the fabric window, whose HOME is 0xE, PA[40] or not. -/
def homeWord (r : Region) (cc home : Nat) : Word :=
  let tail := (if home = 0xF then 2 ^ 19 else 0) + (if home < 8 then 2 ^ 18 else 0) + cc * 2 ^ 20
  match r with
  | .lpddr die off => BitVec.ofNat 64 (tail + die * 2 ^ 13 + homeSlice off)
  | .cluster die c _ => BitVec.ofNat 64 (tail + 1 * 2 ^ 16 + die * 2 ^ 13 + c * 2 ^ 11)
  | .scratch die k _ => BitVec.ofNat 64 (tail + 2 * 2 ^ 16 + die * 2 ^ 13 + k * 2 ^ 8)
  | .peer pos die off => BitVec.ofNat 64 (pos * 2 ^ 22 + tail + 3 * 2 ^ 16 + die * 2 ^ 13 + homeSlice off)
  | _ => 0x8000_0000_0000_0000

/-- The home of a virtual address, translated as a read without permission check; NOHOME when it has none. DESIGN CHOICE (log
entry 65): an address with a bit of 63:57 set has no home either, and takes no address fault. -/
def sliceOf (va : Nat) : M Word := do
  let s ← get
  let j := s.job
  let nohome : Word := 0x8000_0000_0000_0000
  let leafHome := fun (level e : Nat) => do
    if !j.ctx.sec && pteS e then throw (.fault (TFault.info ⟨0x13, va, 0, 0, 0⟩ 0))
    let r := regionOf s.hub.pos.toNat (leafPa level e va)
    pure (if s.backed r then homeWord r (pteCC e) (pteHome e) else nohome)
  if !vaOk va 1 then pure nohome
  else match vrange va with
    | .scratch off =>
      pure (if off < j.window then homeWord (.scratch j.die j.core 0) 2 0xE else nohome)
    | .mapped =>
      match s.tlbFind j.coreIx (j.tlbKind s.asker) j.ctx va with
      | some t => leafHome t.level t.leaf
      | none =>
        match takeOut (fun f => f.1 == s.asker && f.2.va / 65536 == va / 65536) j.walkFaults with
        | some ((_, f), rest) =>
          set (s.modJob fun j => { j with walkFaults := rest })
          if f.cause = 0x13 then throw (.fault (TFault.info { f with va := va } 0))
          pure nohome
        | none =>
          set (s.requestWalk j va)
          throw (.wait (.walk va))
    | _ => pure nohome

/-- SLICEOF (R217). -/
def execSliceof (h : Hdr) (d a : SReg) (imm : Imm) (s : State) : Host.Outcome State Fault Refusal :=
  runInstr h allStreams (do
    let v ← sliceOf ((← get).ea a imm)
    modify fun s => s.setS d v
    pure .next) s

end Sys2Proof.Machine
end

