-- ==== Sys2Proof/Machine/Retire.lean ====
section
/-! DEFINITION. The end of a job (R150, R151), pre-emption (R416, R417), the commands of JCMD (R419, R424), and the delivery
of a pending user fault (R198, R201). -/

namespace Sys2Proof.Machine

/-- A job that is gone: what later placements of its launch still need to know (R141, R147). -/
def Job.gone (j : Job) (st : JobStatus) : Job :=
  { Job.empty with
    num := j.num, status := st, lrec := j.lrec, launch := j.launch, index := j.index, die := j.die, core := j.core, slot := j.slot,
    admitted := j.admitted }

/-- Every stream has reached JOIN (R135, R150). -/
def Job.allJoined (j : Job) : Bool := allStreams.all fun x => (j.str x).st != .running

/-- The job is retiring: from the cycle its last stream reaches JOIN (R419). -/
def Job.isRetiring (j : Job) : Bool :=
  match j.status with
  | .retiring _ => true
  | .resident => j.allJoined
  | _ => false

/-- The pre-emption of a job that JCMD OP 2 asked for is over, with a result (R419). -/
def State.preempted (s : State) (num res : Nat) : State :=
  { s with dies := s.dies.map fun d => if d.jjob == some num then { d with jjob := none, jres := res } else d }

/-! ## JOB_RETIRE (R150) -/

/-- What the package still holds for a job that leaves: its walks, its accesses from outside that wait, its place in a mapping
command, whose markers go with its queues (R41, R150, R424). -/
def State.letGo (s : State) (j : Job) : State :=
  ((s.dropWalkers j.die fun r => r.num == j.num).dropOutside fun w =>
    match w with | .part m _ | .back m _ _ => m == j.num | _ => false).modHub
    fun h => { h with mapCmd := h.mapCmd.map fun c => { c with jobs := c.jobs.filter (· != j.num) } }

/-- Dirty stash lines of the job in focus are written back; a provisional one is waited for (R58, R61). -/
def stashOut : M Unit := do
  let j := (← get).job
  match j.lines.find? fun l => l.dirty && j.stashProv l with
  | some l => throw (.wait (.stash l.win l.line))
  | none =>
    (j.lines.filter fun l => l.dirty).forM fun l =>
      tagged 7 ((vget ⟨false, 0, 0, 0, 0⟩ j.stash l.win).gva * 65536 + l.line * 256) (probe (j.windowPa (j.stashOff l)) 256)
    (j.lines.filter fun l => l.dirty).forM (backClear j)
    modify fun s => (j.lines.filter fun l => l.dirty).foldl (fun s l => s.writeBack j.num l) s
    modify fun s => s.modJob fun j => { j with lines := [], stash := Vector.replicate 8 ⟨false, 0, 0, 0, 0⟩ }

/-- Every timeline's completed count has reached its issued count, and nothing of the job is in flight (R150, steps 1 to 4);
what others want of its window does not count. -/
def Job.drained (j : Job) : Bool :=
  j.inq.isEmpty && (j.entries.all fun e => e.outsideOf fun _ => true) && j.pushes.isEmpty && j.lineages.isEmpty &&
  (List.range 8).all fun t => (timeline j t).completed == (timeline j t).issued

/-- The next step of retirement, by number: 1 draining, 2 stash windows, 10 + k departure from level k, 3 DONEA, 4 the
resources (R150). -/
def retireStep (n : Nat) : M JobStatus := do
  let j := (← get).job
  match n with
  | 1 =>
    need j.drained
    pure (.retiring 2)
  | 2 =>
    stashOut
    pure (.retiring (if recGang j.lrec then 11 else 3))
  | 3 =>
    if recDonea j.lrec != 0 then
      let _ ← vatomic ⟨2, 4, [], none⟩ (recDonea j.lrec) 8 fun o => some ((o + 1) % 2 ^ 64)
    pure (.retiring 4)
  | 4 => pure .retired
  | _ =>
    let k := n - 10
    if k < recLevels j.lrec then
      departLevel k
      pure (.retiring (n + 1))
    else pure (.retiring 3)

/-- JOB_RETIRE (R150): the job begins to retire, its queue closed whatever is outstanding, or takes its next step. A fault of a step holds retirement until it is
resolved, with the step as its restart point. -/
def execJobRetire (num : Nat) (s : State) : Host.Outcome State Fault Refusal :=
  runEvent (do
    focusOn num
    let j := (← get).job
    need (j.isRetiring && j.allJoined && (j.status == .resident || j.faults.isEmpty) && (← get).coreRuns j.coreIx)
    match j.status with
    | .retiring n =>
      modify fun s => { s with via := some .retire, cur := .C }
      fun s => match retireStep n s with
        | .ok .retired t => .ok () ((t.letGo t.job).modJob fun j => j.gone .retired)
        | .ok st t => .ok () (t.modJob fun j => { j with status := st })
        | .error (.fault f) t => .ok () (t.takeFault { f with eng := 6 } .retire)
        | .error e t => .error e t
    | _ => modify fun s => (s.preempted num 5).modJob fun j =>
        ({ j with status := .retiring 1, inClosed := true, asked := false } : Job).demand fun _ => true) s

/-! ## PREEMPT (R416, R417) -/

/-- Work that runs to completion before its job is saved (R274, R288, R347): a started operation that stops at no unit, and
a member of a Basin stack. -/
def Op.uncut (o : Op) : Bool :=
  o.started && !o.finished && o.hold.isNone &&
  match o.instr with
  | .mlds .. | .mldsK .. | .mzero .. | .mtopk .. | .vrow .. | .vdrain .. => true
  | _ => false

/-- The job is a member of the stack in progress, which is never cut (R347). -/
def Core.inStack (c : Core) (num : Nat) : Bool := c.matrix.members.any fun m => m.1 == num

/-- The job can be stopped now. -/
def State.stoppable (s : State) (j : Job) : Bool :=
  !(s.coreAt j.coreIx).inStack j.num && s.coreRuns j.coreIx &&
  j.entries.all fun e => match e.kind with | .op o => !o.uncut | _ => true

/-- Held Basin entries of a job have still to issue alone before it stops (R347, R417 step 2); one that R113 holds back, or whose
image is not written, cannot. -/
def Job.aloneToGo (j : Job) : Bool :=
  j.entries.any fun e => match e.kind with
    | .op o => o.alone && !o.started && o.hold.isNone && !e.away && j.mayStart e o
    | _ => false

/-- The pre-emption of the job's share has begun: areas of the ring are held for the jobs of it that are still to be saved. -/
def State.shareBegun (s : State) (j : Job) : Bool := !(s.shareOf j fun k => k.status == .saved).isEmpty

/-- The dispatcher holds a save area for each job concerned, beside those that it holds for pre-emptions that have begun (R416). -/
def State.areasFor (s : State) (j : Job) : Bool :=
  let share := s.shareOf j fun k => k.onCore && k.asked
  let others := s.jobs.filter fun k => k.onCore && k.asked && !(share.any fun x => x.num == k.num) && s.shareBegun k
  let on := fun (l : List Job) (d : Nat) => (l.filter fun k => k.die == d).length
  (List.range 8).all fun d => decide (on share d + on others d ≤ (s.dieAt d).sfcnt)

/-- A head waits for the space of the job: cores that hold it are reserved for it (R411, R417 step 6). -/
def State.spaceWanted (s : State) (j : Job) : Bool :=
  (List.range 8).any fun d => (s.queueHeads d ++ s.savedHeads d).any fun h => h.cores.contains j.coreIx

/-- The next area of a die's ring, read for the pre-emption of the job in focus. The entry of a failed unit is lost: the job
takes the fault, and the ring goes on (R418, R425). -/
def areaReady (die : Nat) : M Bool := do
  let d := (← get).dieAt die
  let r := regionOf (← get).hub.pos.toNat (d.ringPlace d.sfhead)
  match ← attempt (do physRecall (d.ringPlace d.sfhead) 8; probe (placeAddr r) 8) with
  | .ok _ => pure true
  | .error f => do
    modify fun s => (s.takeFault { f with acck := 7, eng := 8 } .nothing).modDie die fun d =>
      { d with sfhead := (d.sfhead + 1) % 4096, sfcnt := d.sfcnt - 1 }
    pure false

/-- The streams of the job in focus stop at an instruction boundary, and each acts as FENCE.system (R417 steps 1 and 4). -/
def stopStreams : M Unit :=
  allStreams.forM fun x => do
    modify fun s => { (s.abandon x true) with cur := x }
    fenceAt 6

/-- An operation of the job in focus gives up its engine and port engines; its waits are abandoned, and logged. -/
def State.quitOp (s : State) (id : Nat) : State := ((s.leaveBasin id 1).setStall id none 1).releaseEngine id true

/-- Engines, ports, walks and places in the Weir are given up by the job in focus; operations keep their progress; accesses from
outside that wait on its window go, and meet R20 when they are made again (R41, R116, R417 steps 2, 3, 7). -/
def State.quit (s : State) : State :=
  let s := s.job.entries.foldl (fun s e => s.quitOp e.id) s
  let s := s.job.pushes.foldl (fun s p => s.modJob fun j => j.applyPush p) s
  let s := s.dropWalkers s.job.die fun r => r.num == s.job.num
  let s := s.dropOutside fun w => match w with | .part m _ | .back m _ _ => m == s.job.num | _ => false
  let still := fun (t : Stream) => { t with imem := [] }
  s.modJob fun j =>
    { j with
      pushes := [], walkFaults := []
      c := still j.c, a := still j.a, m := still j.m, v := still j.v
      entries := (j.entries.filter fun e => !e.outsideOf fun _ => true).map fun e =>
        match e.kind with
        | .op o => { e with kind := .op { o with basin := none, late := none, stall := none, aged := false } }
        | _ => e }

/-- PREEMPT (R417): a job asked for is stopped and saved, with its window when the space goes to another job that waits for it;
else the window is saved once the space is given away. -/
def execPreempt (num : Nat) (win : Bool) (s : State) : Host.Outcome State Fault Refusal :=
  runEvent (do
    focusOn num
    modify fun s => s.wakeCore s.job.coreIx
    let s ← get
    let j := s.job
    need (j.asked && (j.status == .resident || j.status == .admitting) && !j.isRetiring && s.stoppable j && !j.aloneToGo &&
      s.areasFor j && (!win || s.spaceWanted j))
    if win then backsReady num fun j l => !j.stashProv l
    if ← areaReady j.die then
      stopStreams
      modify fun s =>
        let (s, pa) := s.quit.takeArea j.die
        let c := s.job.areaBytes s.cycle
        let s := (s.putArea j.coreIx pa 0 ((c.getLast?.map fun e => e.1 + 1).getD 0) c).preempted num 0
        let s := s.modJob fun k => { k with status := .saved, asked := false, savedAt := s.cycle, area := some (pa, j.die) }
        if win then s.saveWindow num else s) s

/-! ## JCMD (R419, R424) -/

def State.jstat (s : State) (die res : Nat) : State := s.modDie die fun d => { d with jres := res }

/-- JSTAT.BUSY: the pre-emption that the last JCMD asked for is under way (R419). -/
def State.jbusy (s : State) (die : Nat) : Bool :=
  match (s.dieAt die).jjob with
  | some n => (s.findJob n).any fun j => j.asked
  | none => false

/-- The stream's units whose fill met a fault are filled again once the job is resumed (R171). -/
def Stream.refill (t : Stream) : Stream :=
  { t with imem := t.imem.map fun u => if u.fault.isSome || u.tailFault.isSome then u.out else u }

/-- Releases every fault of the job in focus that the operating system holds (R424, L20). -/
def State.releaseHeld (s : State) : State :=
  let held := s.job.faults.filter fun r => r.toOs
  let one := fun (s : State) (r : FaultRec) =>
    let res := if r.info.cause = 0x1B then some (s.resumeOf r.seq r.info.kind) else none
    (s.unhold r.seq res ⟨0xE, 0, 0⟩).release r.seq
  let s := (held.foldl one s).modJob fun j => { j with c := j.c.refill, a := j.a.refill, m := j.m.refill, v := j.v.refill }
  let s := if s.job.onCore then s.rouse s.job.coreIx else s
  if held.any fun r => r.held == .objects then s.startGang s.job.launch else s

/-- A command for a job, on whatever die it stands; its result. A write while BUSY is 1 stalls its writer (R419), and so does one
whose work has to wait. -/
def jcmd (die num : Nat) (ready : State → M Unit) (f : State → State × Nat) (s : State) : Host.Outcome State Fault Refusal :=
  runEvent (do
    need (decide (die < 8) && !(← get).jbusy die)
    match (← get).focus num with
    | none => modify fun s => s.jstat die 1
    | some t =>
      ready t
      let (t, res) := f (((← get).focus num).getD t)
      set (t.jstat die res)) s

/-- Nothing has to come first. -/
def atOnce (_ : State) : M Unit := pure ()

/-- JCMD_RESUME (R424): OP 0. -/
def execJcmdResume (die num : Nat) (s : State) : Host.Outcome State Fault Refusal :=
  jcmd die num (fun t => do
      set t
      (t.job.faults.filter fun r => r.toOs).forM fun r => do
        recordReady r.seq
        if r.info.cause = 0x1B then
          match ← attempt (recordProbe r.seq) with
          | .ok _ => pure ()
          | .error f => modify fun s => s.takeFault f .nothing)
    (fun t => if t.job.faults.any fun r => r.toOs then (t.releaseHeld, 0) else (t, 3)) s

/-- Ends the job with a number (R424): its records are freed, settled dirty stash lines written back, the rest dropped. -/
def State.endJob (s : State) (num : Nat) : State :=
  match s.focus num with
  | none => s
  | some s =>
    -- data lost with a failed unit of the window is recorded like any other, before the records are freed (R425)
    let s := (s.job.lines.filter fun l => l.dirty && !s.job.stashProv l).foldl (fun s l =>
      (s.writeBack num l).windowLoss num (s.job.windowPa (s.job.stashOff l)) 256) s
    let s := s.modJob fun j => { j with lines := [] }
    let s := s.job.faults.foldl (fun s r => s.hwState r.seq 0) s
    let s := if s.job.onCore then s.quit else s
    ((s.letGo s.job).returnArea s.job.area).modJob fun j => j.gone .ended

/-- The jobs that JCMD OP 1 ends: while a gang's objects are not written, the whole share (R396). -/
def State.ended (t : State) : List Nat :=
  let share := t.shareOf t.job fun _ => true
  if share.any fun k => k.faults.any fun r => r.held == .objects then share.map (fun k => k.num) else [t.job.num]

/-- JCMD_END (R424): OP 1. -/
def execJcmdEnd (die num : Nat) (s : State) : Host.Outcome State Fault Refusal :=
  jcmd die num (fun t => t.ended.forM fun n => backsReady n fun j l => !j.stashProv l)
    (fun t => (t.ended.foldl (fun s n => s.endJob n) t, 0)) s

/-- JCMD_PREEMPT (R419): OP 2 asks for the job, and with it its gang's share, to be pre-empted; the command is in progress until
it is. -/
def execJcmdPreempt (die num : Nat) (s : State) : Host.Outcome State Fault Refusal :=
  jcmd die num atOnce (fun t =>
    if t.job.isRetiring then (t, 5) else if t.job.status == .saved then (t, 4)
    else ((t.askPreempt t.job).modDie die fun d => { d with jjob := some num }, 0)) s

/-- JCMD_READMIT (R419): OP 3 asks for a saved job, or gang, ahead of every head. -/
def execJcmdReadmit (die num : Nat) (s : State) : Host.Outcome State Fault Refusal :=
  jcmd die num atOnce (fun t =>
    if t.job.isRetiring then (t, 5)
    else if t.job.status != .saved then (t, 4)
    else
      let share := (t.shareOf t.job fun k => k.status == .saved).map fun k => k.num
      (t.mapJobs fun k => if k.status == .saved && share.contains k.num then { k with urgent := true } else k, 0)) s

/-! ## USER_TRAP_ENTRY (R198, R201) -/

/-- USER_TRAP_ENTRY: the first pending user fault is delivered, once no trap is in service and C is not held. -/
def execUserTrapEntry (num : Nat) (s : State) : Host.Outcome State Fault Refusal :=
  runEvent (do
    focusOn num
    let s ← get
    need (s.job.deliverable && s.coreRuns s.job.coreIx)
    match s.job.faults.find? fun r => r.state == 2 && !r.toOs with
    | none => throw .halt
    | some r =>
      let s := s.hwState r.seq 1
      let s := s.modJob fun j =>
        { j with faults := j.faults.map fun q => if q.seq = r.seq then { q with state := 1 } else q }
      set (s.trapEntry r.info.strm r.info.code r.info.cause r.seq)) s

end Sys2Proof.Machine
end

