-- ==== Sys2Proof/Machine/Debug.lean ====
section
/-! DEFINITION. Debug (chapter 20): halting, stepping and resuming streams (R438), the wait log's snapshot (R441), watchpoint
halts and cycle stops (R442, R443), and the items that DDATA gives (R440). -/

namespace Sys2Proof.Machine

/-! ## Commands (R437, R438) -/

/-- DSTAT.BUSY: a stream that a command stepped has not halted again, or its step still drains (R437, R438). A job that leaves its
core takes its step with it, and the command is then over (DESIGN CHOICE, log entry 37). -/
def State.dbusy (s : State) (die : Nat) : Bool :=
  (s.dieAt die).dstep.any fun d => (s.findJob d.1).any fun j => j.onCore && d.2.any fun x => (j.str x).stepping != .none

/-- A command for a job, with its checks: a reserved bit, no such job, a secure job named by a non-secure core (R437). While
BUSY is 1 its writer stalls. -/
def debugJob (r : DbgReq) (f : State → State × Nat) (s : State) : Host.Outcome State Fault Refusal :=
  runEvent (do
    need (decide (r.die < 8) && !(← get).dbusy r.die)
    if r.rsvd != 0 then modify fun s => s.dstat r.die 2
    else
      match (← get).focus r.num.toNat with
      | none => modify fun s => s.dstat r.die 1
      | some t =>
        if t.job.ctx.sec && !r.sec then modify fun s => s.dstat r.die 2
        else
          let (t, res) := f t
          set (t.dstat r.die res)) s

/-- Streams that SMASK names. -/
def smask (r : DbgReq) : List StreamId := allStreams.filter fun x => bitN r.smask.toNat (streamNum x)

/-- Halts a stream of the job in focus: a wait in progress is abandoned, and its instruction is the restart point (R438). -/
def State.haltStream (s : State) (x : StreamId) : State :=
  if (s.job.str x).halted then s else (s.abandon x false).modStrOf x fun t => { t with halted := true, stepping := .none }

/-- DEBUG_ENABLE (R438 OP 0). -/
def execDebugEnable (r : DbgReq) (s : State) : Host.Outcome State Fault Refusal :=
  debugJob r (fun t => (t.modJob fun j => { j with debug := true }, 0)) s

/-- DEBUG_DISABLE (R438 OP 1). -/
def execDebugDisable (r : DbgReq) (s : State) : Host.Outcome State Fault Refusal :=
  debugJob r (fun t => (t.modJob fun j => { j with debug := false }, 0)) s

/-- DEBUG_HALT (R438 OP 2). -/
def execDebugHalt (r : DbgReq) (s : State) : Host.Outcome State Fault Refusal :=
  debugJob r (fun t => ((smask r).foldl (fun t x => t.haltStream x) t, 0)) s

/-- Lets the halted streams of SMASK issue one instruction; RES 3 when none is halted (R438). -/
def stepStreams (r : DbgReq) (m : StepMode) (t : State) : State × Nat :=
  let xs := (smask r).filter t.job.isHalted
  if xs.isEmpty then (t, 3)
  else
    let go := fun (u : Stream) => { u with halted := false, stepping := m, last := none }
    ((xs.foldl (fun t x => t.modStrOf x go) t).modDie r.die fun d => { d with dstep := some (t.job.num, xs) }, 0)

/-- DEBUG_STEP (R438 OP 3). -/
def execDebugStep (r : DbgReq) (s : State) : Host.Outcome State Fault Refusal := debugJob r (stepStreams r .one) s

/-- DEBUG_STEP_DRAIN (R438 OP 4): the stream counts as halted again once what it issued has drained. -/
def execDebugStepDrain (r : DbgReq) (s : State) : Host.Outcome State Fault Refusal := debugJob r (stepStreams r .drain) s

/-- DEBUG_RESUME (R438 OP 5). -/
def execDebugResume (r : DbgReq) (s : State) : Host.Outcome State Fault Refusal :=
  debugJob r (fun t =>
    ((smask r).foldl (fun t x => t.modStrOf x fun u => { u with halted := false, stepping := .none }) t, 0)) s

/-- Waits of a job in progress: of its streams, of its operations, and Basin holds (R123, R153, R330). -/
def Job.waits (j : Job) : List (StreamId × Wait) :=
  (allStreams.filterMap fun x => (j.str x).wait.map fun w => (x, w)) ++
  j.entries.flatMap fun e =>
    match e.kind with
    | .op o =>
      ((o.stall.filter fun w => opLogs w.obj).toList.map fun w => (e.strm, w)) ++
        if o.basin.isSome then [(e.strm, ⟨.basin ((e.keys.aw.head?).getD 0), o.since⟩)] else []
    | _ => []

/-- DEBUG_SNAPSHOT (R438 OP 6, R441): one wait-log entry for every wait of the job in progress. -/
def execDebugSnapshot (r : DbgReq) (s : State) : Host.Outcome State Fault Refusal :=
  debugJob r (fun t => (t.job.waits.foldl (fun t w => t.putLog w.1 w.2 2) t, 0)) s

/-- The halt of a job that hit a halting watchpoint, before its next instruction (R442). -/
def State.watchHalt (s : State) : State :=
  let log := fun (s : State) (h : Nat × Nat) =>
    s.putLog s.cur ⟨if h.1 = 1 then .barrier 0 h.2 else .flag h.2, s.cycle⟩ 0
  let s := s.job.hits.foldl log s
  let s := allStreams.foldl (fun s x => s.haltStream x) s
  s.modJob fun j => { j with hits := [] }

/-! ## Cycle stops (R442, R443) -/

/-- A command for a core of the die, with its checks (R437). -/
def debugCore (r : DbgReq) (ready : Nat → M Unit) (f : Nat → State → State) (s : State) : Host.Outcome State Fault Refusal :=
  runEvent (do
    need (decide (r.die < 8) && !(← get).dbusy r.die)
    let i := r.die * 32 + r.core.toNat
    if r.rsvd != 0 || (((← get).coreAt i).sec && !r.sec) then modify fun s => s.dstat r.die 2
    else
      ready i
      modify fun s => (f i s).dstat r.die 0) s

/-- SCHEDULE_CYCLE_STOP (R438 OP 7, R442): the core is to stop at the last edge of cycle DCYC, or at the next edge. -/
def execScheduleCycleStop (r : DbgReq) (s : State) : Host.Outcome State Fault Refusal :=
  debugCore r (fun _ => pure ()) (fun i s => s.modCore i fun c => { c with stopAt := some (Nat.max (s.dieAt r.die).dcyc.toNat s.cycle) }) s

/-- The dump entries of a frozen push (R443): unit 0, slot, latch and lane, remaining cycles, value. -/
def dumpEntries (slot : Nat) (f : Frozen) : List Byte :=
  f.push.cells.flatMap fun (lane, v) =>
    [0, BitVec.ofNat 8 slot, BitVec.ofNat 8 f.push.q, BitVec.ofNat 8 lane] ++ leList 4 f.left ++ leList 4 v.toNat ++ leList 4 0

/-- Stores a run of bytes in the dump area, 16 at a time. -/
def State.dumpAt (s : State) (pa : Nat) : Nat → List Byte → State
  | 0, _ => s
  | n + 1, bs => if bs.isEmpty then s else State.dumpAt (s.physStore pa (bs.take 16)) (pa + 16) n (bs.drop 16)

/-- Base of the dump area of a core's die. -/
def State.dumpBase (s : State) (core : Nat) : Nat := fld (s.dieAt (core / 32)).ddump 51 16 * 65536

/-- CYCLE_STOP_REACHED (R442, R443): the core freezes, and the results in flight in the reduction slot are dumped. -/
def execCycleStopReached (core : Nat) (s : State) : Host.Outcome State Fault Refusal :=
  runEvent (do
    let s ← get
    let c := s.coreAt core
    match c.stopAt with
    | none => throw .halt
    | some stop =>
      need (decide (core < 256) && decide (stop ≤ s.cycle) && c.frozen.isNone)
      let js := s.onCore core
      let s := js.foldl (fun s j => s.modJobNum j.num (applyDue stop j.pushes)) s
      let fl := (s.onCore core).flatMap fun j => j.pushes.map fun p => (j.slot, Frozen.mk j.num p (p.due - stop))
      let s := s.mapJobs fun j => if j.onCore && j.coreIx == core then { j with pushes := [] } else j
      let s := s.modCore core fun c => { c with stopAt := none, frozen := some (fl.map fun x => x.2) }
      let bytes := fl.flatMap fun (slot, f) => dumpEntries slot f
      set (s.dumpAt (s.dumpBase core) (bytes.length / 16) bytes)) s

/-- Reads the values of frozen results back from the dump area, from entry k on (R443). -/
def State.reload (s : State) (base : Nat) : Nat → List Frozen → List Frozen
  | _, [] => []
  | k, f :: r =>
    let n := f.push.cells.length
    let back := fun (c : (Nat × Lane) × Nat) => (c.1.1, BitVec.ofNat 32 (leNum (s.physLoad (base + 16 * (k + c.2) + 8) 4)))
    { f with push := { f.push with cells := f.push.cells.zipIdx.map back } } :: s.reload base (k + n) r

/-- The dump of a frozen core can be read: its lines are recalled first (R57). -/
def dumpReady (core : Nat) : M Unit := do
  let s ← get
  match (s.coreAt core).frozen with
  | none => pure ()
  | some fs => physReady (s.dumpBase core) (16 * (fs.map fun f => f.push.cells.length).sum)

/-- CORE_RESUME (R438 OP 8, R443): the core goes on, and each result lands in its remaining cycles from now. -/
def execCoreResume (r : DbgReq) (s : State) : Host.Outcome State Fault Refusal :=
  debugCore r dumpReady (fun i s =>
    match (s.coreAt i).frozen with
    | none => s.modCore i fun c => { c with stopAt := none }
    | some fs =>
      let fs := s.reload (s.dumpBase i) 0 fs
      let s := s.modCore i fun c => { c with frozen := none, stopAt := none }
      fs.foldl (fun s f => s.modJobNum f.num fun j => { j with pushes := j.pushes ++ [{ f.push with due := s.cycle + f.left }] }) s) s

/-! ## DDATA (R440) -/

/-- The predicates of a stream as bits 15:0. -/
def Stream.predBits (t : Stream) : Nat :=
  (List.range 16).foldl (fun n i => if t.getP (BitVec.ofNat 4 i) then n + 2 ^ i else n) 0

/-- Two 32-bit values as one item. -/
def pairOf (a b : Lane) : Word := BitVec.ofNat 64 (a.toNat + b.toNat * 2 ^ 32)

/-- The item that DSEL selects; none when there is no such job or item (R440). -/
def State.ddata (s : State) (dsel : Word) : Option Word :=
  let i := fld dsel 31 0
  (s.findJob (fld dsel 47 32)).bind fun j =>
    match fld dsel 63 60 with
    | 0 =>
      let t := j.str (streamOf (fld dsel 59 58))
      if i = 0 then some t.pc
      else if i < 64 then some (t.getS (BitVec.ofNat 6 i))
      else if i = 64 then some (BitVec.ofNat 64 t.predBits)
      else if i < 69 then some (t.getLc (BitVec.ofNat 2 (i - 65)))
      else none
    | 1 => if i / 32 < recVregs j.lrec then some (pairOf (j.lane (i / 32) (i % 32 * 2)) (j.lane (i / 32) (i % 32 * 2 + 1))) else none
    | 2 =>
      let at_ := fun (x : Nat) => Cells.get 0 j.acc (4096 * (i / 2048) + x)
      if i / 2048 < recAccs j.lrec then some (pairOf (at_ (i % 2048 * 2)) (at_ (i % 2048 * 2 + 1))) else none
    | 3 =>
      if i % 0x1000 ≤ 0x403 && i / 0x1000 ≤ recPslots j.lrec && i / 0x1000 != 0 then
        some (BitVec.ofNat 64 (slotItem (j.slotAt (i / 0x1000)) (i % 0x1000))) else none
    | 4 =>
      if i < 8 then some (BitVec.ofNat 64 (timeline j i).completed)
      else if i < 16 then some (BitVec.ofNat 64 (timeline j (i - 8)).issued)
      else if i < 32 then
        let m := semAt j (i - 16)
        some (BitVec.ofNat 64 (m.ceil * 2 ^ 16 + m.count))
      else none
    | 5 =>
      (j.lineage (i / 2048)).map fun l =>
        pairOf (Cells.get 0 l.base (i % 2048 * 2)) (Cells.get 0 l.base (i % 2048 * 2 + 1))
    | 6 =>
      if i / 32 < 4 then some ((vget [] j.aq (i / 32)).getD (i % 32) 0)
      else if i / 32 = 4 then some (if j.bq.getD (i % 32) false then 1 else 0)
      else none
    | _ => none

/-- DDATA_WRITE (R440): it enters the Weir in the cycle it is made, and is made after every earlier entry of the job that
overlaps it; a write that breaks its column sets RES to 3. -/
def execDdataWrite (die : Nat) (v : Word) (s : State) : Host.Outcome State Fault Refusal :=
  runEvent (do
    need (decide (die < 8))
    pokeTurn die ((← get).dieAt die).dsel v) s

end Sys2Proof.Machine
end

