-- ==== Sys2Proof/Machine/Outside.lean ====
section
/-! DEFINITION. Agents outside the jobs (R104): service cores, a host, peer packages; their memory accesses, and their reads
and writes of the registers of the hub and the dies (R7, R36, R408, R418, R419, R437). -/

namespace Sys2Proof.Machine

/-! ## Memory accesses -/

/-- Answers the agent with the fault that it met. -/
def refuseOut (cause : Nat) : M Unit := modify fun s => { s with reply := ⟨false, cause, 0, []⟩ }
/-- Answers the agent with a value; and with the n bytes of a longer one. -/
def replyOut (v : Nat) : M Unit := modify fun s => { s with reply := ⟨true, 0, BitVec.ofNat 64 v, []⟩ }
def replyBytes (n v : Nat) : M Unit :=
  if n ≤ 8 then replyOut v else modify fun s => { s with reply := ⟨true, 0, BitVec.ofNat 64 v, leList n v⟩ }

/-- Bytes of an access. -/
def outLen (r : OutReq) : Nat :=
  match r.op with
  | .loadN n => n
  | .storeN bs => bs.length
  | _ => sizeBytes r.size
/-- The access writes; it reads. -/
def outWrites : OutOp → Bool
  | .load | .loadN _ => false
  | _ => true
def outReads : OutOp → Bool
  | .store _ | .storeN _ => false
  | _ => true

/-- What an access does to the old value on n bytes: the new value, if it writes. -/
def outValue (op : OutOp) (n old : Nat) : Option Nat :=
  match op with
  | .load | .loadN _ => none
  | .store v => some (v.toNat % 2 ^ (8 * n))
  | .storeN bs => some (leNum bs)
  | .amo o v => some (amoValue o n old (v.toNat % 2 ^ (8 * n)))
  | .cas e v => if old = e.toNat % 2 ^ (8 * n) then some (v.toNat % 2 ^ (8 * n)) else none

/-- An atomic is aligned to its size, and FADD is of 4 bytes (R209, R211). DESIGN CHOICE (log entry 61): one event is an access
to bytes of one line; what an agent does across a line is two events, and the manual does not say that it is one access. -/
def outShapeOk (r : OutReq) : Bool :=
  let n := outLen r
  decide (1 ≤ n) && decide (r.pa % 256 + n ≤ 256) &&
  (match r.op with
   | .amo .fadd _ => n == 4 && r.pa % 4 == 0
   | .amo .. | .cas .. => r.pa % n == 0
   | _ => true)

/-- The agents outside the jobs, by the number of their clock; the scope of their accesses (R84, R104). -/
def outClockOf : Agent → Nat
  | .host => 1
  | .peer => 2
  | _ => 0
def outScope (a : Agent) (pa : Nat) : Nat := scopeAt pa (match a with | .service => 5 | _ => 6)
/-- The logical clock of an agent outside the jobs, which rises like a core's (R93, R95). -/
def State.outClock (s : State) (a : Agent) : Nat := s.cycle + Cells.get 0 s.clocks (outClockOf a)
def State.raiseOut (s : State) (a : Agent) (t : Nat) : State :=
  if s.outClock a < t then { s with clocks := Cells.set 0 s.clocks (outClockOf a) (t - s.cycle) } else s

/-- The owner check for an outside agent (R20, R62): the whole access lies in the window of a job of its ASID and world. -/
def State.outsideOwner (s : State) (r : OutReq) (reg : Region) (sec : Bool) : Bool :=
  match reg with
  | .scratch die k off =>
    s.ownerOk r.asid.toNat sec reg && s.ownerOk r.asid.toNat sec (.scratch die k (off + outLen r - 1)) &&
      (match s.scratchOwner die k off with
       | some j => decide (off + outLen r ≤ j.base + j.window)
       | none => false)
  | _ => true

/-- The access itself at a place by an agent: the checks in the order of R42, then the access at its home or scratchpad (R51,
R104), in the agent's logical time (R93, R95), where a lasting memory error turns it away (R425). -/
def outsideAccess (a : Agent) (r : OutReq) (sec : Bool) (reg : Region) : M Unit := do
  let n := outLen r
  let loc := placeAddr reg
  let s ← get
  if !s.worldOk sec loc n then refuseOut 0x13
  else if !s.backed reg then refuseOut 0x15
  else if !s.outsideOwner r reg sec then refuseOut 0x16
  else
    outsideWait (.agent r) (fun _ _ => false) reg n (outWrites r.op) false
    match ← attempt (do
        callFor a (outScope a r.pa) (s.outClock a) loc n
        recallLine loc
        if outReads r.op then probe loc n) with
    | .error f => refuseOut f.cause
    | .ok _ =>
      modify fun s => if outReads r.op then s.raiseOut a (s.wtsAt (lineOf loc)) else s
      let s ← get
      let old := leNum (s.mem.readMany loc n)
      match outValue r.op n old with
      | some v =>
        let (s, t) := s.homeWrite loc (leList n v) (s.outClock a)
        set ((s.raiseOut a t).tellWord loc n ⟨0xE, 0, 0⟩)
      | none => set (s.readMark (lineOf loc) (s.outClock a))
      replyBytes n old

/-- EXTERNAL_SCRATCH_ACCESS (R51): an access from outside the core to a physical scratchpad. -/
def execExternalScratchAccess (r : OutReq) (s : State) : Host.Outcome State Fault Refusal :=
  runEvent (do
    let reg := regionOf (← get).hub.pos.toNat r.pa
    need (outShapeOk r && (match reg with | .scratch .. => true | _ => false))
    outsideAccess .service r r.sec reg) s

/-- An access to the mailbox registers of BAR0 at an offset (R433): the host's side. The
operating system reads and writes the same bytes as its registers (RegName.mailbox); what it does with them is its own (log
entry 23). -/
def mailboxAccess (off : Nat) (r : OutReq) : M Unit := do
  let n := outLen r
  match r.op with
  | .load | .loadN _ => replyBytes n (leNum (Cells.getMany 0 (← get).hub.mailbox off n))
  | .store _ | .storeN _ =>
    modify fun s => s.modHub fun h => { h with mailbox := Cells.setMany 0 h.mailbox off (leList n ((outValue r.op n 0).getD 0)) }
    replyOut 0
  | _ => refuseOut 0

/-- HOST_ACCESS (R433): through the pieces of BAR2; a piece not pointed answers Unsupported Request. The endpoint has the
world that firmware gave it (R429), and no address space of its own (R20). The offsets from 64 GiB on are those of BAR0. -/
def execHostAccess (off : Nat) (r : OutReq) (s : State) : Host.Outcome State Fault Refusal :=
  runEvent (do
    let s ← get
    let piece := Cells.get 0 s.hub.bar2 (off / 2 ^ 30)
    if 2 ^ 36 ≤ off then
      if off + outLen r ≤ 2 ^ 36 + 65536 then mailboxAccess (off - 2 ^ 36) r else refuseOut 0
    else if piece = 0 then refuseOut 0
    else
      let r := { r with pa := piece - 1 + off % 2 ^ 30 }
      need (outShapeOk r)
      match regionOf s.hub.pos.toNat r.pa with
      | .scratch die k off =>
        refuseOut (if s.worldOk s.hub.pcieSec (placeAddr (.scratch die k off)) (outLen r) then 0x16 else 0x13)
      | reg => outsideAccess .host r s.hub.pcieSec reg) s

/-- FABRIC_PEER_ACCESS (R19): a peer's access through its fabric window, which reaches LPDDR6 alone; the UALink station that
brings it (R434) has the world that firmware gave it (R429). -/
def execFabricPeerAccess (r : OutReq) (s : State) : Host.Outcome State Fault Refusal :=
  runEvent (do
    let s ← get
    need (decide (r.station < 8) && decide (2 ^ 51 ≤ r.pa) && decide (r.pa < 2 ^ 52) && outShapeOk r)
    match regionOf s.hub.pos.toNat r.pa with
    | .lpddr die off => outsideAccess .peer r (vget false s.hub.linkSec r.station) (.lpddr die off)
    | _ => refuseOut 0x15) s

/-! ## Registers -/

/-- MAPSTAT (R36). -/
def State.mapstat (s : State) : Nat :=
  (if s.mapHeld then 2 ^ 31 else 0) + (if s.hub.mapRej then 2 ^ 30 else 0) + s.hub.mapq.length

/-- The value a service core reads of a register (R7): write-only registers read 0. -/
def State.readReg (s : State) : RegName → Word
  | .mapq | .jcmd _ | .dcmd _ => 0
  | .mapdone => BitVec.ofNat 64 s.hub.mapdone
  | .mapstat => BitVec.ofNat 64 s.mapstat
  | .sfring d => (s.dieAt d).sfring
  | .sfcnt d => BitVec.ofNat 64 (s.dieAt d).sfcnt
  | .jstat d => BitVec.ofNat 64 ((if s.jbusy d then 2 ^ 63 else 0) + (s.dieAt d).jres)
  | .dcyc d => (s.dieAt d).dcyc
  | .dstat d => BitVec.ofNat 64 ((if s.dbusy d then 2 ^ 63 else 0) + (s.dieAt d).dres)
  | .dsel d => (s.dieAt d).dsel
  | .wlring d => (s.dieAt d).wlring
  | .wlptr d => BitVec.ofNat 64 ((s.dieAt d).wlhead % 2 ^ 32 * 2 ^ 32 + (s.dieAt d).wltail % 2 ^ 32)
  | .wlcfg d => BitVec.ofNat 64 ((s.dieAt d).wldrop * 2 ^ 32 + (s.dieAt d).wlmin)
  | .ddump d => (s.dieAt d).ddump
  | .wp d n => vget 0 (s.dieAt d).wp n
  | .whit d n => vget 0 (s.dieAt d).whit n
  | .bar2 n => BitVec.ofNat 64 (Cells.get 0 s.hub.bar2 n)
  | .mailbox n => BitVec.ofNat 64 (leNum (Cells.getMany 0 s.hub.mailbox (8 * n) 8))

/-- A register of a die's control region at an offset (R408, R418, R419, R437), and its value. -/
def State.readDie (s : State) (die off : Nat) : Option Word :=
  if off % 8 != 0 then none
  else if 0x1000 ≤ off && off < 0x2000 then some ((s.dieAt die).lq ((off - 0x1000) / 64) (off / 8 % 8))
  else if off = 0x2020 then some ((s.ddata (s.dieAt die).dsel).getD 0)
  else if 0x2100 ≤ off && off < 0x2180 then
    some (s.readReg (if off % 16 = 0 then .wp die ((off - 0x2100) / 16) else .whit die ((off - 0x2100) / 16)))
  else
    let table : List (Nat × RegName) :=
      [(0x0000, .jcmd die), (0x0008, .jstat die), (0x0040, .sfring die), (0x0048, .sfcnt die), (0x2000, .dcmd die),
       (0x2008, .dcyc die), (0x2010, .dstat die), (0x2018, .dsel die), (0x2040, .wlring die), (0x2048, .wlptr die),
       (0x2050, .wlcfg die), (0x2058, .ddump die)]
    (table.find? fun e => e.1 == off).map fun e => s.readReg e.2

/-- The presence map as it reads: the own position's bit is 1 (R454). -/
def State.podmapWord (s : State) (i : Nat) : Word :=
  let own := s.hub.pos.toNat
  vget 0 s.hub.podmap i ||| (if own / 64 = i then BitVec.ofNat 64 (2 ^ (own % 64)) else 0)

/-- A register of the hub control region at an offset (R36, R429, R454), for a service core of a world. -/
def State.readHub (s : State) (off : Nat) (sec : Bool) : Option Word :=
  if off % 8 != 0 then none
  else if off = 0x10_0000 then some 0
  else if off = 0x10_0008 then some (s.readReg .mapdone)
  else if off = 0x10_0010 then some (s.readReg .mapstat)
  else if 0x20_0000 ≤ off && off < 0x20_0400 then
    if sec then some (Cells.get 0 s.hub.rgn ((off - 0x20_0000) / 8)) else none
  else if 0x30_0000 ≤ off && off < 0x30_0080 then some (s.podmapWord ((off - 0x30_0000) / 8))
  else none

/-- SERVICE_CORE_ACCESS (R104): at package scope; a load of a control region, after the world check (R27, R42), reads its
registers. A write to a register is that register's own event. -/
def execServiceCoreAccess (r : OutReq) (s : State) : Host.Outcome State Fault Refusal :=
  runEvent (do
    let s ← get
    let answer := fun (v : Option Word) =>
      match v with
      | some w => replyOut w.toNat
      | none => refuseOut 0x15
    match regionOf s.hub.pos.toNat r.pa with
    | .dieCtl die off =>
      need (r.op == .load && r.size == .b8)
      if s.worldOk r.sec (placeAddr (.dieCtl die off)) 8 then answer (s.readDie die off) else refuseOut 0x13
    | .hubCtl off =>
      need (r.op == .load && r.size == .b8)
      if s.worldOk r.sec (placeAddr (.hubCtl off)) 8 then answer (s.readHub off r.sec) else refuseOut 0x13
    | reg =>
      need (outShapeOk r)
      outsideAccess .service r r.sec reg) s

/-! ## REGISTER_WRITE (R7) -/

/-- A DCMD word as a command (R437). -/
def dcmdReq (die : Nat) (v : Word) (sec : Bool) : DbgReq :=
  ⟨die, BitVec.ofNat 4 (fld v 59 56), BitVec.ofNat 5 (fld v 20 16), BitVec.ofNat 16 (fld v 15 0), sec, BitVec.ofNat 35 (fld v 55 21)⟩

/-- A write of DCMD (R438): while BUSY is 1 it stalls its writer; OP 9 to 15 are rejected. -/
def writeDcmd (die : Nat) (v : Word) (sec : Bool) (s : State) : Host.Outcome State Fault Refusal :=
  let r := dcmdReq die v sec
  match fld v 63 60 with
  | 0 => execDebugEnable r s
  | 1 => execDebugDisable r s
  | 2 => execDebugHalt r s
  | 3 => execDebugStep r s
  | 4 => execDebugStepDrain r s
  | 5 => execDebugResume r s
  | 6 => execDebugSnapshot r s
  | 7 => execScheduleCycleStop r s
  | 8 => execCoreResume r s
  | _ => .next (if s.dbusy die then s else s.dstat die 2)

/-- A write of JCMD (R419): while BUSY is 1 it stalls its writer; OP 4 to 15, and a reserved bit, are rejected. -/
def writeJcmd (die : Nat) (v : Word) (s : State) : Host.Outcome State Fault Refusal :=
  if s.jbusy die then .next s
  else if fld v 59 16 != 0 then .next (s.jstat die 2)
  else
    let num := fld v 15 0
    match fld v 63 60 with
    | 0 => execJcmdResume die num s
    | 1 => execJcmdEnd die num s
    | 2 => execJcmdPreempt die num s
    | 3 => execJcmdReadmit die num s
    | _ => .next (s.jstat die 2)

/-- Areas that the operating system put into a ring before it named it: entries up to the first that is 0 (R418, L29). -/
def State.countAreas (s : State) (base : Nat) : Nat → Nat → Nat
  | 0, n => n
  | f + 1, n => if leNum (s.physLoad (base + 8 * n) 8) = 0 then n else s.countAreas base f (n + 1)

/-- A field of 4 bits above 8 is stored as 8. -/
def capSize (v : Word) : Word := if 8 < fld v 3 0 then v &&& 0xFFFF_FFFF_FFFF_FFF0 ||| 8 else v

/-- Changes a die's registers. -/
def regSet (die : Nat) (f : Die → Die) (s : State) : Host.Outcome State Fault Refusal := .next (s.modDie die f)

/-- A watchpoint as it is stored: KIND 0b11 reads EN as 0 (R437). -/
def wpWord (v : Word) : Word :=
  let v := v &&& 0xF00F_FFFF_FFFF_FFC0
  if fld v 62 61 = 3 then v &&& 0x7FFF_FFFF_FFFF_FFFF else v

/-- The place of a register in its control region (R36, R408, R418, R419, R437); the manual gives none for what points BAR2, nor
for the mailbox as the operating system sees it. -/
def regPlace : RegName → Option Region
  | .mapq => some (.hubCtl 0x10_0000)
  | .mapdone => some (.hubCtl 0x10_0008)
  | .mapstat => some (.hubCtl 0x10_0010)
  | .sfring d => some (.dieCtl d 0x0040)
  | .sfcnt d => some (.dieCtl d 0x0048)
  | .jcmd d => some (.dieCtl d 0x0000)
  | .jstat d => some (.dieCtl d 0x0008)
  | .dcmd d => some (.dieCtl d 0x2000)
  | .dcyc d => some (.dieCtl d 0x2008)
  | .dstat d => some (.dieCtl d 0x2010)
  | .dsel d => some (.dieCtl d 0x2018)
  | .wlring d => some (.dieCtl d 0x2040)
  | .wlptr d => some (.dieCtl d 0x2048)
  | .wlcfg d => some (.dieCtl d 0x2050)
  | .ddump d => some (.dieCtl d 0x2058)
  | .wp d n => some (.dieCtl d (0x2100 + 16 * n))
  | .whit d n => some (.dieCtl d (0x2108 + 16 * n))
  | .bar2 _ | .mailbox _ => none

/-- A core of a world may reach a register (R27, R429). -/
def State.regOpen (s : State) (r : RegName) (sec : Bool) : Bool := (regPlace r).all fun g => s.worldOk sec (placeAddr g) 8

/-- REGISTER_WRITE (R7), after the world check (R27): RW and W1C fields change, RO fields keep their values, and a command
register acts. -/
def execRegisterWrite (r : RegName) (v : Word) (sec : Bool) (s : State) : Host.Outcome State Fault Refusal :=
  if !s.regOpen r sec then .next { s with reply := ⟨false, 0x13, 0, []⟩ }
  else match r with
  | .mapq =>
    -- a write while PEND is 256 stalls its writer (R36)
    if s.hub.mapq.length < 256 then .next (s.modHub fun h => { h with mapq := h.mapq ++ [v] }) else .next s
  | .mapdone | .sfcnt _ | .jstat _ | .dstat _ => .next s
  | .mapstat => .next (s.modHub fun h => { h with mapRej := h.mapRej && !bit v 30 })
  | .sfring d =>
    let base := fld v 51 24 * 2 ^ 24
    match physReady base 32768 s with
    | .error _ t => .next t
    | .ok _ s => regSet d (fun x => { x with sfring := BitVec.ofNat 64 base, sfcnt := s.countAreas base 4096 0, sfhead := 0 }) s
  | .jcmd d => writeJcmd d v s
  | .dcmd d => writeDcmd d v sec s
  | .dcyc d => regSet d (fun x => { x with dcyc := v }) s
  | .dsel d => regSet d (fun x => { x with dsel := v &&& 0xFC00_FFFF_FFFF_FFFF }) s
  | .wlring d => regSet d (fun x => { x with wlring := capSize (v &&& 0x000F_FFFF_FFFF_F00F) }) s
  | .wlptr d => regSet d (fun x => { x with wlhead := fld v 63 32 }) s
  | .wlcfg d =>
    regSet d (fun x =>
      { x with wldrop := (BitVec.ofNat 32 x.wldrop &&& ~~~(BitVec.ofNat 32 (fld v 63 32))).toNat, wlmin := fld v 31 0 }) s
  | .ddump d => regSet d (fun x => { x with ddump := v &&& 0x000F_FFFF_FFFF_0000 }) s
  | .wp d n => regSet d (fun x => { x with wp := vset x.wp n (wpWord v) }) s
  | .whit d n => regSet d (fun x => { x with whit := vset x.whit n (vget 0 x.whit n &&& ~~~v) }) s
  | .bar2 n =>
    if n < 64 then .next (s.modHub fun h =>
      { h with bar2 := Cells.set 0 h.bar2 n (if bit v 0 then fld v 51 30 * 2 ^ 30 + 1 else 0) })
    else .next s
  | .mailbox n =>
    if n < 8192 then .next (s.modHub fun h => { h with mailbox := Cells.setMany 0 h.mailbox (8 * n) (leList 8 v.toNat) })
    else .next s

/-- A service core of a world reads a register by its name, after the world check. -/
def State.readByName (s : State) (r : RegName) (sec : Bool) : State :=
  { s with reply := if s.regOpen r sec then ⟨true, 0, s.readReg r, []⟩ else ⟨false, 0x13, 0, []⟩ }

/-- The service cores take the interrupt of a die (R432): every store of the records that it tells of comes before what they do
next, and a fault raised after it has a delivery of its own. -/
def State.takeInterrupt (s : State) (die : Nat) : State :=
  if s.hub.msi.contains die then
    ((List.range 32).foldl (fun s k => s.raiseOut .service (s.clock (die * 32 + k))) s).modHub fun h =>
      { h with msi := h.msi.filter (· != die) }
  else s

end Sys2Proof.Machine
end

