-- ==== Sys2Proof/Machine/Queue.lean ====
section
/-! DEFINITION. Queues and tokens between the streams of a job (R148, R149, R228 to R232). -/

namespace Sys2Proof.Machine

/-- Places of a queue, and of a token FIFO (R148). -/
def queueDepth : Nat := 32
def tokenDepth : Nat := 16

/-- The consumer of a queue (R148). -/
def queueConsumer (j : Job) : QName → StreamId
  | .aq n => recAqv j.lrec n.toNat
  | .bq => .C

/-- Entries of a queue as 64-bit values. -/
def Job.queue (j : Job) : QName → List Word
  | .aq n => j.aq[n.toNat]'n.isLt
  | .bq => j.bq.map fun b => if b then 1 else 0

/-- Replaces the entries of a queue. -/
def Job.setQueue (j : Job) (q : QName) (ws : List Word) : Job :=
  match q with
  | .aq n => { j with aq := j.aq.set n.toNat ws n.isLt }
  | .bq => { j with bq := ws.map fun w => bit w 0 }

/-- Adds an entry at the tail; waits while the queue is full (R229). -/
def pushQueue (q : QName) (v : Word) : M Unit := do
  drain
  let j := (← get).job
  unlessWait (decide ((j.queue q).length < queueDepth)) (.queue q)
  modify fun s => s.modJob fun j => j.setQueue q (j.queue q ++ [v])

/-- Takes the head entry; waits while the queue is empty (R229). -/
def popQueue (q : QName) : M Word := do
  match (← get).job.queue q with
  | [] => throw (.wait (.queue q))
  | v :: r =>
    modify fun s => s.modJob fun j => j.setQueue q r
    pure v

/-- QPUSH (R229), on the A stream whether or not its guard holds (R148, R170). -/
def execQpush (h : Hdr) (q : QName) (a : SReg) (s : State) : Host.Outcome State Fault Refusal :=
  runInstr h [.A] (do
    pushQueue q ((← get).getS a)
    pure .next) s

/-- QPUSH.P (R229): the value of a predicate, into bq. -/
def execQpushP (h : Hdr) (n : PReg) (s : State) : Host.Outcome State Fault Refusal :=
  runInstr h [.A] (do
    pushQueue .bq (if (← get).getP n then 1 else 0)
    pure .next) s

/-- QPOP (R229), on the queue's consumer (R148, R170). -/
def execQpop (h : Hdr) (d : SReg) (q : QName) (s : State) : Host.Outcome State Fault Refusal :=
  runInstr h [queueConsumer s.job q] (do
    drain
    let v ← popQueue q
    modify fun s => s.setS d v
    pure .next) s

/-- The count of a QDROP: what is still to drop, or its operand, 0 when negative (R230). -/
def dropCount (s : State) (a : SReg) : Nat := s.str.qdrop.getD (s.getS a).toInt.toNat

/-- Discards the next k entries in order, waiting with the count still to drop when the queue runs empty (R230); the wait for
each entry is one of its own (R153). -/
def dropEntries (q : QName) (k : Nat) : M Unit := do
  let ws := (← get).job.queue q
  modify fun s => s.modJob fun j => j.setQueue q (ws.drop k)
  if ws.length < k then
    modify fun s =>
      let s := if ws.isEmpty then s else s.endWait s.cur 0
      s.modStr fun t => { t with qdrop := some (k - ws.length) }
    throw (.wait (.queue q))

/-- QDROP (R230), on the queue's consumer (R148, R170). -/
def execQdrop (h : Hdr) (q : QName) (a : SReg) (s : State) : Host.Outcome State Fault Refusal :=
  runInstr h [queueConsumer s.job q] (do
    drain
    dropEntries q (dropCount (← get) a)
    modify fun s => s.modStr fun t => { t with qdrop := none }
    pure .next) s

/-- Producer and consumer of a token FIFO; none when it is not used (R138, R148). -/
def tokenBinding (j : Job) (n : Nat) : Option (StreamId × StreamId) :=
  let t := recTk j.lrec n
  if t = 0 then none else some (streamOf (fldN t 3 2), streamOf (fldN t 1 0))

/-- The stream that may send on a token FIFO, and the one that may wait on it; none when the FIFO is not used. -/
def tokenSender (j : Job) (n : Nat) : List StreamId := (tokenBinding j n).toList.map fun b => b.1
def tokenWaiter (j : Job) (n : Nat) : List StreamId := (tokenBinding j n).toList.map fun b => b.2

/-- TKSEND (R231), on the FIFO's producer (R148, R170). -/
def execTksend (h : Hdr) (n : BitVec 3) (s : State) : Host.Outcome State Fault Refusal :=
  runInstr h (tokenSender s.job n.toNat) (do
    drain
    unlessWait (decide ((← get).job.tk[n.toNat]'n.isLt < tokenDepth)) (.token n.toNat)
    modify fun s => s.modJob fun j => { j with tk := j.tk.set n.toNat (j.tk[n.toNat]'n.isLt + 1) n.isLt }
    pure .next) s

/-- TKWAIT (R231), on the FIFO's consumer (R148, R170). -/
def execTkwait (h : Hdr) (n : BitVec 3) (s : State) : Host.Outcome State Fault Refusal :=
  runInstr h (tokenWaiter s.job n.toNat) (do
    drain
    unlessWait (decide (0 < (← get).job.tk[n.toNat]'n.isLt)) (.token n.toNat)
    modify fun s => s.modJob fun j => { j with tk := j.tk.set n.toNat (j.tk[n.toNat]'n.isLt - 1) n.isLt }
    pure .next) s

end Sys2Proof.Machine
end

