-- ==== Sys2Proof/Machine/Dispatch.lean ====
section
/-! DEFINITION. Dispatch: one arm for each constructor of Instr, in the table's order. -/

namespace Sys2Proof.Machine

/-- The meaning of an instruction or event. -/
def exec (i : Instr) (s : State) : Host.Outcome State Fault Refusal :=
  match i with
  | .add h d a b => Sys2Proof.Machine.execAdd h d a b s
  | .sub h d a b => Sys2Proof.Machine.execSub h d a b s
  | .mul h d a b => Sys2Proof.Machine.execMul h d a b s
  | .mulh h u d a b => Sys2Proof.Machine.execMulh h u d a b s
  | .div h u d a b => Sys2Proof.Machine.execDiv h u d a b s
  | .rem h u d a b => Sys2Proof.Machine.execRem h u d a b s
  | .and h d a b => Sys2Proof.Machine.execAnd h d a b s
  | .or h d a b => Sys2Proof.Machine.execOr h d a b s
  | .xor h d a b => Sys2Proof.Machine.execXor h d a b s
  | .andn h d a b => Sys2Proof.Machine.execAndn h d a b s
  | .shl h d a b => Sys2Proof.Machine.execShl h d a b s
  | .shr h d a b => Sys2Proof.Machine.execShr h d a b s
  | .sar h d a b => Sys2Proof.Machine.execSar h d a b s
  | .min h u d a b => Sys2Proof.Machine.execMin h u d a b s
  | .max h u d a b => Sys2Proof.Machine.execMax h u d a b s
  | .addImm h d a imm => Sys2Proof.Machine.execAddImm h d a imm s
  | .subImm h d a imm => Sys2Proof.Machine.execSubImm h d a imm s
  | .mulImm h d a imm => Sys2Proof.Machine.execMulImm h d a imm s
  | .mulhImm h u d a imm => Sys2Proof.Machine.execMulhImm h u d a imm s
  | .divImm h u d a imm => Sys2Proof.Machine.execDivImm h u d a imm s
  | .remImm h u d a imm => Sys2Proof.Machine.execRemImm h u d a imm s
  | .andImm h d a imm => Sys2Proof.Machine.execAndImm h d a imm s
  | .orImm h d a imm => Sys2Proof.Machine.execOrImm h d a imm s
  | .xorImm h d a imm => Sys2Proof.Machine.execXorImm h d a imm s
  | .andnImm h d a imm => Sys2Proof.Machine.execAndnImm h d a imm s
  | .shlImm h d a imm => Sys2Proof.Machine.execShlImm h d a imm s
  | .shrImm h d a imm => Sys2Proof.Machine.execShrImm h d a imm s
  | .sarImm h d a imm => Sys2Proof.Machine.execSarImm h d a imm s
  | .minImm h u d a imm => Sys2Proof.Machine.execMinImm h u d a imm s
  | .maxImm h u d a imm => Sys2Proof.Machine.execMaxImm h u d a imm s
  | .clz h d a => Sys2Proof.Machine.execClz h d a s
  | .popc h d a => Sys2Proof.Machine.execPopc h d a s
  | .ext h signed w d a => Sys2Proof.Machine.execExt h signed w d a s
  | .bfx h signed d a hi lo => Sys2Proof.Machine.execBfx h signed d a hi lo s
  | .bfi h d a hi lo => Sys2Proof.Machine.execBfi h d a hi lo s
  | .lea h sc d a b imm => Sys2Proof.Machine.execLea h sc d a b imm s
  | .mov h d a => Sys2Proof.Machine.execMov h d a s
  | .movFromLc h d n => Sys2Proof.Machine.execMovFromLc h d n s
  | .movToLc h n a => Sys2Proof.Machine.execMovToLc h n a s
  | .movi h d imm => Sys2Proof.Machine.execMovi h d imm s
  | .moviH h d imm => Sys2Proof.Machine.execMoviH h d imm s
  | .cmp h cc d a b => Sys2Proof.Machine.execCmp h cc d a b s
  | .cmpImm h cc d a imm => Sys2Proof.Machine.execCmpImm h cc d a imm s
  | .sel h n d a b => Sys2Proof.Machine.execSel h n d a b s
  | .plog h op d a b => Sys2Proof.Machine.execPlog h op d a b s
  | .br h imm => Sys2Proof.Machine.execBr h imm s
  | .brQ h imm => Sys2Proof.Machine.execBrQ h imm s
  | .jmp h a imm => Sys2Proof.Machine.execJmp h a imm s
  | .call h d imm => Sys2Proof.Machine.execCall h d imm s
  | .callR h d a imm => Sys2Proof.Machine.execCallR h d a imm s
  | .ret h a => Sys2Proof.Machine.execRet h a s
  | .nop h => Sys2Proof.Machine.execNop h s
  | .loop h n a imm => Sys2Proof.Machine.execLoop h n a imm s
  | .loopp h n a stages imm => Sys2Proof.Machine.execLoopp h n a stages imm s
  | .ld h size signed d a ose imm => Sys2Proof.Machine.execLd h size signed d a ose imm s
  | .st h size a b ose imm => Sys2Proof.Machine.execSt h size a b ose imm s
  | .amo h op size d a b ose => Sys2Proof.Machine.execAmo h op size d a b ose s
  | .cas h size d a b ose => Sys2Proof.Machine.execCas h size d a b ose s
  | .fence h scp => Sys2Proof.Machine.execFence h scp s
  | .pref h l2 a ev imm => Sys2Proof.Machine.execPref h l2 a ev imm s
  | .wback h drop a imm => Sys2Proof.Machine.execWback h drop a imm s
  | .smap h n a b => Sys2Proof.Machine.execSmap h n a b s
  | .sunmap h n => Sys2Proof.Machine.execSunmap h n s
  | .sflush h mask => Sys2Proof.Machine.execSflush h mask s
  | .qpush h q a => Sys2Proof.Machine.execQpush h q a s
  | .qpushP h n => Sys2Proof.Machine.execQpushP h n s
  | .qpop h d q => Sys2Proof.Machine.execQpop h d q s
  | .qdrop h q a => Sys2Proof.Machine.execQdrop h q a s
  | .tksend h n => Sys2Proof.Machine.execTksend h n s
  | .tkwait h n => Sys2Proof.Machine.execTkwait h n s
  | .bar h k => Sys2Proof.Machine.execBar h k s
  | .bara h d k => Sys2Proof.Machine.execBara h d k s
  | .barw h k a => Sys2Proof.Machine.execBarw h k a s
  | .join h => Sys2Proof.Machine.execJoin h s
  | .setf h a b scp ev imm => Sys2Proof.Machine.execSetf h a b scp ev imm s
  | .setfAdd h a b scp ev imm => Sys2Proof.Machine.execSetfAdd h a b scp ev imm s
  | .waitf h cc d a b scp ev imm => Sys2Proof.Machine.execWaitf h cc d a b scp ev imm s
  | .semset h n a => Sys2Proof.Machine.execSemset h n a s
  | .semacq h n k => Sys2Proof.Machine.execSemacq h n k s
  | .semrel h n k => Sys2Proof.Machine.execSemrel h n k s
  | .tlwait h t a imm => Sys2Proof.Machine.execTlwait h t a imm s
  | .tlget h d t => Sys2Proof.Machine.execTlget h d t s
  | .tlgetI h d t => Sys2Proof.Machine.execTlgetI h d t s
  | .vld h d st ss px => Sys2Proof.Machine.execVld h d st ss px s
  | .vst h st src ss pz => Sys2Proof.Machine.execVst h st src ss pz s
  | .vmov h t2 d src t n px py pz => Sys2Proof.Machine.execVmov h t2 d src t n px py pz s
  | .vsplat h d ss => Sys2Proof.Machine.execVsplat h d ss s
  | .vperm h d src t => Sys2Proof.Machine.execVperm h d src t s
  | .vidx h d ss step => Sys2Proof.Machine.execVidx h d ss step s
  | .vget h signed ss src lane => Sys2Proof.Machine.execVget h signed ss src lane s
  | .vput h d lane ss => Sys2Proof.Machine.execVput h d lane ss s
  | .vtest h cc n src => Sys2Proof.Machine.execVtest h cc n src s
  | .vred h op x q src n => Sys2Proof.Machine.execVred h op x q src n s
  | .vredStream h op x q st px => Sys2Proof.Machine.execVredStream h op x q st px s
  | .vdrain h clr d q => Sys2Proof.Machine.execVdrain h clr d q s
  | .vrow h abs d src nc => Sys2Proof.Machine.execVrow h abs d src nc s
  | .vrbase h base size => Sys2Proof.Machine.execVrbase h base size s
  | .mlds h b pb => Sys2Proof.Machine.execMlds h b pb s
  | .mldsK h b pb => Sys2Proof.Machine.execMldsK h b pb s
  | .mmul h z d r0 a pa => Sys2Proof.Machine.execMmul h z d r0 a pa s
  | .mmulAm h z d r0 src m => Sys2Proof.Machine.execMmulAm h z d r0 src m s
  | .mmulg h z d a b ss g pa pb => Sys2Proof.Machine.execMmulg h z d a b ss g pa pb s
  | .mdist h z d r0 a pa => Sys2Proof.Machine.execMdist h z d r0 a pa s
  | .mtopk h l d src ss k nc => Sys2Proof.Machine.execMtopk h l d src ss k nc s
  | .mzero h d => Sys2Proof.Machine.execMzero h d s
  | .mst h c src r0 pc => Sys2Proof.Machine.execMst h c src r0 pc s
  | .mlda h d r0 a => Sys2Proof.Machine.execMlda h d r0 a s
  | .mpub h d n => Sys2Proof.Machine.execMpub h d n s
  | .settle h mask => Sys2Proof.Machine.execSettle h mask s
  | .settleAll h => Sys2Proof.Machine.execSettleAll h s
  | .lqry h ss src => Sys2Proof.Machine.execLqry h ss src s
  | .lqryT h ss t => Sys2Proof.Machine.execLqryT h ss t s
  | .lqryR h ss => Sys2Proof.Machine.execLqryR h ss s
  | .pload h d n a imm => Sys2Proof.Machine.execPload h d n a imm s
  | .psget h d n ix => Sys2Proof.Machine.execPsget h d n ix s
  | .psset h n ix a => Sys2Proof.Machine.execPsset h n ix a s
  | .preset h n => Sys2Proof.Machine.execPreset h n s
  | .pinfo h d n => Sys2Proof.Machine.execPinfo h d n s
  | .stset h n w a => Sys2Proof.Machine.execStset h n w a s
  | .stget h d n w => Sys2Proof.Machine.execStget h d n w s
  | .stld h n a imm => Sys2Proof.Machine.execStld h n a imm s
  | .stadv h n dim a => Sys2Proof.Machine.execStadv h n dim a s
  | .cpy h n a => Sys2Proof.Machine.execCpy h n a s
  | .renq h d a b => Sys2Proof.Machine.execRenq h d a b s
  | .cstat h d c a => Sys2Proof.Machine.execCstat h d c a s
  | .srd h d r => Sys2Proof.Machine.execSrd h d r s
  | .swr h r a => Sys2Proof.Machine.execSwr h r a s
  | .crangeWrite h n a => Sys2Proof.Machine.execCrangeWrite h n a s
  | .lfsrSeed h n a => Sys2Proof.Machine.execLfsrSeed h n a s
  | .trap h code => Sys2Proof.Machine.execTrap h code s
  | .brk h code => Sys2Proof.Machine.execBrk h code s
  | .isync h => Sys2Proof.Machine.execIsync h s
  | .eret h => Sys2Proof.Machine.execEret h s
  | .launch h d a b => Sys2Proof.Machine.execLaunch h d a b s
  | .sliceof h d a imm => Sys2Proof.Machine.execSliceof h d a imm s
  | .nopShort => Sys2Proof.Machine.execNopShort s
  | .movShort d a => Sys2Proof.Machine.execMovShort d a s
  | .addShort d a => Sys2Proof.Machine.execAddShort d a s
  | .subShort d a => Sys2Proof.Machine.execSubShort d a s
  | .andShort d a => Sys2Proof.Machine.execAndShort d a s
  | .orShort d a => Sys2Proof.Machine.execOrShort d a s
  | .xorShort d a => Sys2Proof.Machine.execXorShort d a s
  | .shlShort d a => Sys2Proof.Machine.execShlShort d a s
  | .shrShort d a => Sys2Proof.Machine.execShrShort d a s
  | .sarShort d a => Sys2Proof.Machine.execSarShort d a s
  | .addImmShort d ix => Sys2Proof.Machine.execAddImmShort d ix s
  | .moviShort d ix => Sys2Proof.Machine.execMoviShort d ix s
  | .joinShort => Sys2Proof.Machine.execJoinShort s
  | .retShort => Sys2Proof.Machine.execRetShort s
  | .instructionFill num x => Sys2Proof.Machine.execInstructionFill num x s
  | .walkStart die ix => Sys2Proof.Machine.execWalkStart die ix s
  | .walkRequestAged die ix => Sys2Proof.Machine.execWalkRequestAged die ix s
  | .mapWriteEntry => Sys2Proof.Machine.execMapWriteEntry s
  | .mapMarkersAtHead => Sys2Proof.Machine.execMapMarkersAtHead s
  | .mapCommandDone => Sys2Proof.Machine.execMapCommandDone s
  | .mapFlushAsid => Sys2Proof.Machine.execMapFlushAsid s
  | .stashFill num w line => Sys2Proof.Machine.execStashFill num w line s
  | .stashRecall num w line => Sys2Proof.Machine.execStashRecall num w line s
  | .leaseLapse core ix => Sys2Proof.Machine.execLeaseLapse core ix s
  | .externalScratchAccess r => Sys2Proof.Machine.execExternalScratchAccess r s
  | .serviceCoreAccess r => Sys2Proof.Machine.execServiceCoreAccess r s
  | .hostAccess off r => Sys2Proof.Machine.execHostAccess off r s
  | .fabricPeerAccess r => Sys2Proof.Machine.execFabricPeerAccess r s
  | .weirEntryProceed num e => Sys2Proof.Machine.execWeirEntryProceed num e s
  | .tideStallRelease num e => Sys2Proof.Machine.execTideStallRelease num e s
  | .engineGrant core u => Sys2Proof.Machine.execEngineGrant core u s
  | .engineAging num e => Sys2Proof.Machine.execEngineAging num e s
  | .engineOperationComplete num e => Sys2Proof.Machine.execEngineOperationComplete num e s
  | .copyStart num c => Sys2Proof.Machine.execCopyStart num c s
  | .copyTemplateElement num c => Sys2Proof.Machine.execCopyTemplateElement num c s
  | .copyComplete num c => Sys2Proof.Machine.execCopyComplete num c s
  | .inboundCommandTake num => Sys2Proof.Machine.execInboundCommandTake num s
  | .renqPushAccept num x => Sys2Proof.Machine.execRenqPushAccept num x s
  | .reductionApply num => Sys2Proof.Machine.execReductionApply num s
  | .contributionAdd num t => Sys2Proof.Machine.execContributionAdd num t s
  | .correctionApply num t => Sys2Proof.Machine.execCorrectionApply num t s
  | .lineageSettle num t => Sys2Proof.Machine.execLineageSettle num t s
  | .basinHoldExpiry core ix => Sys2Proof.Machine.execBasinHoldExpiry core ix s
  | .userTrapEntry num => Sys2Proof.Machine.execUserTrapEntry num s
  | .barrierRecheck num x => Sys2Proof.Machine.execBarrierRecheck num x s
  | .waitfRecheck num x => Sys2Proof.Machine.execWaitfRecheck num x s
  | .jobRetire num => Sys2Proof.Machine.execJobRetire num s
  | .dispatcherAdmit die q p => Sys2Proof.Machine.execDispatcherAdmit die q p s
  | .gangAdmit die q ps => Sys2Proof.Machine.execGangAdmit die q ps s
  | .headAged die q cores => Sys2Proof.Machine.execHeadAged die q cores s
  | .reservationPreempt die q => Sys2Proof.Machine.execReservationPreempt die q s
  | .preempt num win => Sys2Proof.Machine.execPreempt num win s
  | .readmit num p => Sys2Proof.Machine.execReadmit num p s
  | .jcmdResume die num => Sys2Proof.Machine.execJcmdResume die num s
  | .jcmdEnd die num => Sys2Proof.Machine.execJcmdEnd die num s
  | .jcmdPreempt die num => Sys2Proof.Machine.execJcmdPreempt die num s
  | .jcmdReadmit die num => Sys2Proof.Machine.execJcmdReadmit die num s
  | .lqdWrite die q w v => Sys2Proof.Machine.execLqdWrite die q w v s
  | .launchPacket p => Sys2Proof.Machine.execLaunchPacket p s
  | .packageReset => Sys2Proof.Machine.execPackageReset s
  | .bootImageFetched b => Sys2Proof.Machine.execBootImageFetched b s
  | .bootRetry => Sys2Proof.Machine.execBootRetry s
  | .measurementExtend n x => Sys2Proof.Machine.execMeasurementExtend n x s
  | .attestationReport nonce => Sys2Proof.Machine.execAttestationReport nonce s
  | .regionWrite n last v sec => Sys2Proof.Machine.execRegionWrite n last v sec s
  | .podmapWrite ix v sec => Sys2Proof.Machine.execPodmapWrite ix v sec s
  | .powerGate b => Sys2Proof.Machine.execPowerGate b s
  | .powerWake b => Sys2Proof.Machine.execPowerWake b s
  | .powerThrottle => Sys2Proof.Machine.execPowerThrottle s
  | .debugEnable r => Sys2Proof.Machine.execDebugEnable r s
  | .debugDisable r => Sys2Proof.Machine.execDebugDisable r s
  | .debugHalt r => Sys2Proof.Machine.execDebugHalt r s
  | .debugStep r => Sys2Proof.Machine.execDebugStep r s
  | .debugStepDrain r => Sys2Proof.Machine.execDebugStepDrain r s
  | .debugResume r => Sys2Proof.Machine.execDebugResume r s
  | .debugSnapshot r => Sys2Proof.Machine.execDebugSnapshot r s
  | .scheduleCycleStop r => Sys2Proof.Machine.execScheduleCycleStop r s
  | .cycleStopReached core => Sys2Proof.Machine.execCycleStopReached core s
  | .coreResume r => Sys2Proof.Machine.execCoreResume r s
  | .ddataWrite die v => Sys2Proof.Machine.execDdataWrite die v s
  | .registerWrite r v sec => Sys2Proof.Machine.execRegisterWrite r v sec s
  | .walkComplete die ix => Sys2Proof.Machine.execWalkComplete die ix s

end Sys2Proof.Machine
end

