-- ==== Sys2Proof/Machine/Turn.lean ====
section
/-! DEFINITION. One turn of the machine (L1): a stream's issue, an event, a pending store's performance, an entry leaving a
cache, an error of a memory, or cycles in which nothing moves; and placing an instruction where the next step fetches it. -/

namespace Sys2Proof.Machine

/-- The stream in turn issues the instruction at its program counter, its words filled first. -/
def State.issue (s : State) : Host.Outcome State Fault Refusal :=
  match s.fetch with
  | .fill => exec (.instructionFill s.job.num s.cur) s
  | .fault f unit => .next (s.fetchFault f unit)
  | .instr i => exec i s.useCode

/-- The issue turn of stream x of a job; nothing when it may not issue. A job that hit a halting watchpoint halts first
(R442). -/
def State.issueTurn (s : State) (num : Nat) (x : StreamId) : Host.Outcome State Fault Refusal :=
  match s.focus num with
  | none => .next s
  | some s =>
    let s := { s with cur := x }
    if !s.job.hits.isEmpty then .next s.watchHalt else if s.mayIssue then s.issue else .next s

/-! ## Turns of the machine itself -/

/-- Removes element i of a list. -/
def dropAt {α : Type} (l : List α) (i : Nat) : List α := l.take i ++ l.drop (i + 1)

/-- Translation i of a core's caches leaves the one that holds it: the second level, and then the first-level ones. -/
def Core.dropTlb (i : Nat) (c : Core) : Core :=
  if i < c.tlb.length then { c with tlb := dropAt c.tlb i }
  else
    let k := i - c.tlb.length
    let n := (vget [] c.tlb1 0).length
    let m := (vget [] c.tlb1 1).length
    let out := fun (a b : Nat) => { c with tlb1 := vset c.tlb1 a (dropAt (vget [] c.tlb1 a) b) }
    if k < n then out 0 k else if k < n + m then out 1 (k - n) else out 2 (k - n - m)

/-- Peer copy i leaves a die's L2 (R69, R70). -/
def Die.dropPeer (d : Die) (i : Nat) : Die :=
  match d.peer[i]? with
  | none => d
  | some c => { d with peer := dropAt d.peer i, l2 := d.l2.filter fun l => l.line != c.line }

/-- Performs pending relaxed store i of a stream, unless an earlier one meets its bytes (R88, R90, R96). -/
def State.performTurn (s : State) (num : Nat) (x : StreamId) (i : Nat) : State :=
  match s.focus num with
  | none => s
  | some s =>
    let s := { s with cur := x }
    match s.str.stores[i]? with
    | none => s
    | some p =>
      if (s.str.stores.take i).any fun q => meets q.pa q.bytes.length p.pa p.bytes.length then s
      else match store ⟨false, p.cc, p.ev, true, p.scp, false⟩ p.pa p.bytes s with
        | .ok _ t =>
          let t := if p.left.isSome then t.raiseScope p.scp t.job.coreIx (t.wtsAt (lineOf p.pa)) else t
          t.modStr fun t => { t with stores := dropAt t.stores i }
        | .error _ _ => s

/-- A displaced unit keeps the times of its first fill (R173). -/
def evictUnit (i : Nat) (t : Stream) : Stream := { t with imem := t.imem.modify i CodeUnit.out }

/-- A unit is filled at any time after the job becomes resident and before the program counter reaches it (R127). -/
def State.fillTurn (s : State) (num : Nat) (x : StreamId) (pc : Nat) : Host.Outcome State Fault Refusal :=
  runEvent (do
    let t ← fillFor num x
    need (pc % 2 == 0 && t.wants pc)
    fillAt num x pc) s

/-! ## Errors of the memories (R46, R73, R425) -/

/-- A local address of LPDDR6, cluster SRAM or a scratchpad of this package, at the start of a 64-byte unit. -/
def isUnit (pa : Nat) : Bool :=
  pa % 64 == 0 && (match regionOf 1024 pa with
    | .lpddr .. | .cluster .. | .scratch .. => placeAddr (regionOf 1024 pa) == pa
    | _ => false)

/-- The word of a place that parity covers becomes v. -/
def Job.spoil (j : Job) (p : ParityAt) (v : Nat) : Job :=
  match p with
  | .vreg i lane => j.setLane i lane (BitVec.ofNat 32 v)
  | .acc a i n => j.setAcc a i n (BitVec.ofNat 32 v)
  | .carry slot key =>
    let p := j.slotAt slot
    { j with slots := vset j.slots slot { p with carry := Cells.set 0 p.carry key (BitVec.ofNat 32 v) } }
  | .image i e =>
    match j.images[i]? with
    | some m => { j with images := j.images.set i { m with img := { m.img with el := Cells.set 0 m.img.el e v } } }
    | none => j

/-- A failed unit of memory: its bytes are lost, and reads of it fail from now on. -/
def State.failUnit (s : State) (pa : Nat) (bytes : List Byte) (l2 : Bool) : State :=
  { s with mem := s.mem.writeMany pa bytes, bad := ⟨pa, l2⟩ :: s.bad.filter (· != ⟨pa, l2⟩) }

/-- A parity error of a word, which is met by an operation or stream of a job that runs: it is lasting for the job, and who
meets it takes fault 0x24 at its current unit. -/
def State.parity (s : State) (num : Nat) (p : ParityAt) (v : Nat) (runs : State → Bool) (f : State → State) : State :=
  match s.focus num with
  | none => s
  | some t =>
    if t.job.onCore && runs t then f (t.modJob fun j => { j.spoil p v with parity := p :: j.parity.filter (· != p) }) else s

/-- An error of a memory structure. A corrected one is counted, and so is one whose retry succeeds, in the error log. One
whose retry fails makes its unit fail; in the L2 its way goes out of service, and a line that has not been written since it
was filled is fetched anew, with nothing lost. A parity error faults its operation or stream, and in instruction memory
discards the unit, which is filled again. -/
def State.upset (s : State) : Upset → State
  | .corrected pa => s.modDie (pa / 2 ^ 48) fun d => { d with errs := d.errs + 1 }
  | .transient pa => s.modDie (pa / 2 ^ 48) fun d => { d with elog := d.elog + 1 }
  | .lasting pa bytes => if isUnit pa && bytes.length == 64 then s.failUnit pa bytes false else s
  | .lastingL2 pa bytes =>
    match (s.dieAt (pa / 2 ^ 48)).l2.find? fun l => l.line == lineOf pa with
    | some l =>
      let t := s.modDie (pa / 2 ^ 48) fun d =>
        { d with ways := d.ways ++ [l.line], l2 := d.l2.filter fun m => m.line != l.line }
      if isUnit pa && bytes.length == 64 && l.dirty then t.failUnit pa bytes true else t
    | none => s
  | .parityOp num id p v =>
    s.parity num p v (fun t => let o := t.job.opAt id; o.started && !o.finished && o.hold.isNone) fun t =>
      if (t.job.opAt id).copy.isSome then t.copyFault id (parityFault t.cycle) else t.opFault id (parityFault t.cycle)
  | .parityStream num x p v =>
    s.parity num p v (fun t => ({ t with cur := x } : State).mayIssue) fun t =>
      ({ t with cur := x } : State).stopped 0 (.fault (parityFault t.cycle))
  | .parityCode num x i =>
    match s.findJob num with
    | some j => (s.modJobNum num fun k => k.setStr x (evictUnit i (k.str x))).modDie j.die fun d => { d with elog := d.elog + 1 }
    | none => s

/-- One turn. -/
def State.take (s : State) : Turn → Host.Outcome State Fault Refusal
  | .issue num x => s.issueTurn num x
  | .act i => if i.isEvent then exec i s else .next s
  | .perform num x i => .next (s.performTurn num x i)
  | .evictL1 core i => .next (s.modCore core fun c => { c with l1 := dropAt c.l1 i })
  | .evictTlb core i => .next (s.modCore core (Core.dropTlb i))
  | .evictWalk die i => .next (s.modDie die fun d => { d with walkCache := dropAt d.walkCache i })
  | .evictPeer die i => .next (s.modDie die fun d => d.dropPeer i)
  | .fillCode num x pc => s.fillTurn num x pc
  | .upset u => .next (s.upset u)
  | .posted => .next (s.postGo [] s.posted)
  | .takeInterrupt die => .next (s.takeInterrupt die)
  | .readRegister r sec => .next (s.readByName r sec)
  | .assign n sec => .next (s.assignWorld n sec)
  | .port n => .next (s.modHub fun h => { h with arrival := n })
  | .peer pos answers => .next (s.peerAnswers pos answers)
  | .idle n => .next { s with cycle := s.cycle + n }

/-! ## The rota (L1) -/

/-- Jobs on cores. -/
def State.placed (s : State) : List Job := s.jobs.filter Job.onCore
/-- Each placed job with the numbers of its Weir entries. -/
def State.entryTurns (s : State) (f : Nat → Nat → Instr) : List Turn :=
  s.placed.flatMap fun j => j.entries.map fun e => .act (f j.num e.id)

/-- Issue turns. -/
def State.issueTurns (s : State) : List Turn :=
  s.placed.flatMap fun j => (allStreams.filter fun x => (j.str x).st == .running).map fun x => .issue j.num x

/-- Turns of the dispatcher of a die: the first head that fits is admitted at the places that the search finds. -/
def State.dispatchTurn (s : State) (die : Nat) : Option Turn :=
  (s.headOrder die).findSome? fun h =>
    (s.placeAll die h.id (s.coresFor die h) h.asks).bind fun (_, ps) =>
      match h.id, ps with
      | .queue q, p :: _ =>
        some (.act (if ((s.dieAt die).ring q).head?.any fun r => recGang r.words then .gangAdmit die q ps else .dispatcherAdmit die q p))
      | .saved n, _ => (ps.find? fun p => p.num == n).map fun p => .act (.readmit n p)
      | _, [] => none

/-- Heads of a die that age or cause pre-emption (R411 steps 3 and 4). -/
def State.agedTurns (s : State) (die : Nat) : List Turn :=
  (s.queueHeads die ++ s.savedHeads die).flatMap fun h =>
    let q := match h.id with | .queue q => q | .saved n => 64 + n
    match h.resAt with
    | some _ => [.act (.reservationPreempt die q)]
    | none =>
      if h.aged s.cycle then
        match s.wanted die h (s.coresFor die h) with
        | some ps => [.act (.headAged die q (coresOf (s.coresFor die h) ps))]
        | none => []
      else []

/-- The turns of one kind of work. -/
def State.rotaTurns (s : State) : Nat → List Turn
  | 0 => s.entryTurns .weirEntryProceed
  | 1 => s.placed.flatMap fun j =>
      [Engine.matrix, .load, .vector, .reduce, .rowstat].map fun u => .act (.engineGrant j.coreIx u)
  | 2 => s.entryTurns .engineOperationComplete ++ s.entryTurns .tideStallRelease
  | 3 => s.placed.flatMap fun j => (List.range 5).flatMap fun c =>
      [.act (.copyStart j.num c), .act (.copyTemplateElement j.num c), .act (.copyComplete j.num c)]
  | 4 => (List.range 8).flatMap fun d =>
      ((List.range (s.dieAt d).walkQ.length).map fun i => .act (.walkStart d i)) ++
        (List.range (s.dieAt d).walking.length).map fun i => .act (.walkComplete d i)
  | 5 => s.placed.flatMap fun j =>
      (if j.pushes.isEmpty then [] else [.act (.reductionApply j.num)]) ++
      j.lineages.flatMap fun l =>
        [.act (.contributionAdd j.num l.tag), .act (.correctionApply j.num l.tag), .act (.lineageSettle j.num l.tag)]
  | 6 => (if s.posted.isEmpty then [] else [.posted]) ++ s.placed.flatMap fun j => allStreams.flatMap fun x =>
      (if (j.str x).stores.isEmpty then [] else [.perform j.num x 0]) ++
      (match (j.str x).wait with | some ⟨.stash w l, _⟩ => [.act (.stashFill j.num w l)] | _ => [])
  | 7 => s.placed.flatMap fun j =>
      (if j.isRetiring then [.act (.jobRetire j.num)] else []) ++ (if j.asked then [.act (.preempt j.num false)] else []) ++
      (if j.inq.isEmpty then [] else [.act (.inboundCommandTake j.num)]) ++
      (if j.faults.isEmpty then [] else [.act (.userTrapEntry j.num)]) ++
      (if (s.coreAt j.coreIx).stopAt.any (· ≤ s.cycle) then [.act (.cycleStopReached j.coreIx)] else []) ++
      j.entries.flatMap fun e => match e.kind with
        | .op o => (match o.stall with | some ⟨.stash w l, _⟩ => [.act (.stashFill j.num w l)] | _ => [])
        | _ => []
  | 8 => ((List.range 8).flatMap fun d => (s.dieAt d).gates.map fun b => .act (.powerWake b)) ++ (List.range 8).filterMap s.dispatchTurn
  | 9 => (List.range 8).flatMap s.agedTurns
  | _ => if s.hub.mapq.isEmpty then [] else [.act .mapWriteEntry, .act .mapMarkersAtHead, .act .mapCommandDone, .act .mapFlushAsid]

/-- The rota's turn number n: issue turns at even numbers, the kinds of work one after the other at odd ones, and each list
in turn. -/
def State.rotaTurn (s : State) (n : Nat) : Turn :=
  let pick := fun (ts : List Turn) (i : Nat) => (ts[i % ts.length]?).getD (.idle 0)
  if n % 2 = 0 then pick s.issueTurns (n / 2) else pick (s.rotaTurns (n / 2 % 11)) (n / 22)

/-- The turn of the next step, and the state without it, in which no part of a job makes accesses yet: the head of the
agenda, or the rota's turn (L1). -/
def State.nextTurn (s : State) : Turn × State :=
  match s.agenda with
  | t :: r => (t, { s with agenda := r, via := none })
  | [] => (s.rotaTurn s.rota, { s with rota := s.rota + 1, via := none })

/-! ## Placing an instruction (L5) -/

/-- The stream on which an instruction may run (R168, R148). -/
def homeStream (w : Nat) : StreamId :=
  match decodeTableWord 96 w with
  | some (.qpush ..) | some (.qpushP ..) => .A
  | some i =>
    match encodeFormat i with
    | some .V => .V
    | some .M => .M
    | _ => .C
  | none => .C
where
  encodeFormat (i : Instr) : Option Fmt := opFormat (bits (encodeWord i) 95 88)

/-- A stream that is about to issue the instruction of the given bytes at its program counter. -/
def Stream.holding (t : Stream) (bs : List Byte) : Stream :=
  let pc := t.pc &&& 0x01FF_FFFF_FFFF_FFFE
  let base := pc.toNat / 256 * 256
  let all := List.replicate (pc.toNat - base) 0 ++ bs
  { t with
    pc := pc, st := .running, hold := none, halted := false, wait := none, hdrVer := some 0
    imem := [⟨base, (all.take 256), all.drop 256, [pc.toNat - base], none, none, none, 0, none, 0, true, 0⟩] }

/-- The machine with a job in residence whose stream x issues the given bytes in the next step. -/
def State.place (s : State) (x : StreamId) (bs : List Byte) : State :=
  let job := { s.job with status := .resident }
  let s := { s with job := job.setStr x ((job.str x).holding bs), cur := x, via := none, agenda := [.issue job.num x] }
  s.modCore job.coreIx fun c => { c with frozen := none, stopAt := none, gated := false }

end Sys2Proof.Machine
end

