-- ==== Sys2Proof/Machine/Step.lean ====
section
/-! DEFINITION. The step: one cycle, in which one turn is taken (L1, L2). -/

namespace Sys2Proof.Machine

/-- One step of the package. -/
def step (s : State) : Host.Outcome State Fault Refusal :=
  let (t, s) := s.nextTurn
  ({ s with cycle := s.cycle + 1 }).take t

/-- The machine with an instruction of the table placed where the next step fetches (L5). -/
def State.withFetchWord (s : State) (nbits w : Nat) : State :=
  s.place (homeStream (w % 2 ^ nbits)) (leBytes 12 (w % 2 ^ nbits))

end Sys2Proof.Machine
end

