-- ==== Sys2Proof/Safety.lean ====
section
/-! DEFINITION. The terms that claims use: a well-kept state, when an instruction runs, how one that has taken its effect
ends, what an access finds, and an engine operation that has entered the Weir. -/

namespace Sys2Proof.Machine

/-! ## Well-kept states -/

/-- Memory and the homes' logical times are in canonical form. -/
def State.memOk (s : State) : Prop := s.mem.wf = true ∧ Cells.wf 0 s.wts = true ∧ Cells.wf 0 s.lts = true

/-! ## Running and ending -/

/-- The stream in turn may run an instruction of header h, which the streams ok may run (R168), and its guard holds
(R160). -/
def State.runs (s : State) (h : Hdr) (ok : List StreamId) : Prop := s.cur ∈ ok ∧ s.guardOk h.g = true

/-- With its effect t taken, the instruction of header h ends: the stream goes on, and a wait or a step that it stood in
is over. -/
def State.ends (t : State) (h : Hdr) (f : Flow) : Host.Outcome State Fault Refusal :=
  .next ((t.goOn (formLen h.form) f).settleStep)

/-- The same for a short form, two bytes long. -/
def State.endsShort (t : State) (f : Flow) : Host.Outcome State Fault Refusal := .next ((t.goOn 2 f).settleStep)

end Sys2Proof.Machine

namespace Sys2Proof

open Machine

/-- The streams of a job that may run an instruction (R168), a queue or token instruction on the stream that R148 binds;
none for an event. -/
def Instr.streams (i : Instr) (j : Job) : List StreamId :=
  match i with
  | .br .. | .jmp .. | .call .. | .callR .. | .ret .. | .retShort
  | .ld .. | .st .. | .amo .. | .cas .. | .fence .. | .pref .. | .wback .. | .smap .. | .sunmap .. | .sflush ..
  | .stset .. | .stget .. | .stld .. | .stadv .. | .cpy .. | .renq .. | .cstat .. => [.C, .A]
  | .brQ .. | .pload .. | .psget .. | .psset .. | .preset .. | .pinfo .. | .swr .. | .crangeWrite .. | .lfsrSeed ..
  | .trap .. | .eret _ | .launch .. => [.C]
  | .vld .. | .vst .. | .vmov .. | .vsplat .. | .vperm .. | .vidx .. | .vget .. | .vput .. | .vtest .. | .vred ..
  | .vredStream .. | .vdrain .. | .vrow .. | .vrbase .. => [.V]
  | .mlds .. | .mldsK .. | .mmul .. | .mmulAm .. | .mmulg .. | .mdist .. | .mtopk .. | .mzero .. | .mst .. | .mlda ..
  | .mpub .. | .settle .. | .settleAll _ | .lqry .. | .lqryT .. | .lqryR .. => [.M]
  | .qpush .. | .qpushP .. => [.A]
  | .qpop _ _ q | .qdrop _ q _ => [queueConsumer j q]
  | .tksend _ n => tokenSender j n.toNat
  | .tkwait _ n => tokenWaiter j n.toNat
  | i => if i.isEvent then [] else [.C, .A, .M, .V]

/-- The scalar register that a register-only instruction writes. -/
def Instr.writesS (i : Instr) : Option SReg :=
  match i with
  | .add _ d _ _ | .sub _ d _ _ | .mul _ d _ _ | .mulh _ _ d _ _ | .div _ _ d _ _ | .rem _ _ d _ _ | .and _ d _ _
  | .or _ d _ _ | .xor _ d _ _ | .andn _ d _ _ | .shl _ d _ _ | .shr _ d _ _ | .sar _ d _ _ | .min _ _ d _ _
  | .max _ _ d _ _ | .addImm _ d _ _ | .subImm _ d _ _ | .mulImm _ d _ _ | .mulhImm _ _ d _ _ | .divImm _ _ d _ _
  | .remImm _ _ d _ _ | .andImm _ d _ _ | .orImm _ d _ _ | .xorImm _ d _ _ | .andnImm _ d _ _ | .shlImm _ d _ _
  | .shrImm _ d _ _ | .sarImm _ d _ _ | .minImm _ _ d _ _ | .maxImm _ _ d _ _ | .clz _ d _ | .popc _ d _
  | .ext _ _ _ d _ | .bfx _ _ d _ _ _ | .bfi _ d _ _ _ | .lea _ _ d _ _ _ | .mov _ d _ | .movFromLc _ d _
  | .movi _ d _ | .moviH _ d _ | .sel _ _ d _ _ | .srd _ d _ => some d
  | .call _ d _ | .callR _ d _ _ => some (if d = 0 then 63 else d)
  | .movShort d _ | .addShort d _ | .subShort d _ | .andShort d _ | .orShort d _ | .xorShort d _ | .shlShort d _
  | .shrShort d _ | .sarShort d _ | .addImmShort d _ | .moviShort d _ => some (d.zeroExtend 6)
  | _ => none

/-- The predicate that a register-only instruction writes. -/
def Instr.writesP (i : Instr) : Option PReg :=
  match i with
  | .cmp _ _ d _ _ | .cmpImm _ _ d _ _ | .plog _ _ d _ _ => some d
  | _ => none

/-- Instructions that write at most one register of their stream: the arithmetic and logic instructions, bit fields,
moves, CMP, SEL, PLOG, SRD, branches and calls, NOP, in every form. -/
def Instr.registerOnly (i : Instr) : Bool :=
  i.writesS.isSome || i.writesP.isSome ||
  (match i with
   | .movToLc .. | .br .. | .jmp .. | .ret .. | .nop _ | .nopShort | .retShort => true
   | _ => false)

end Sys2Proof

namespace Sys2Proof.Machine

/-! ## What an access finds -/

/-- No relaxed store of the stream in turn is still to be performed (R90). -/
def State.calm (s : State) : Prop := s.str.stores = []

/-- No stream waits for a place in a Weir or in its order: who leaves it ends no wait (R441). -/
def State.unwaited (s : State) : Prop :=
  ∀ j ∈ s.jobs, ∀ x w, (j.str x).wait = some w → w.obj ≠ .weir ∧ ∀ k i, w.obj ≠ .order k i

/-- Nothing of the job holds an access to its window back: no Weir entry (R113), no range in force (R121), no provisional
line (R132); and nothing waits for it to leave the Weir. -/
def State.unheld (s : State) : Prop :=
  s.job.entries = [] ∧ s.job.marks = [] ∧ (∀ n, crangeEn (vget 0 s.job.crange n) = false) ∧ s.unwaited

/-- No job's stash owns a line of n bytes of the job's window at off dirty, through the physical scratchpad range (R52, R57). -/
def State.unowned (s : State) (off n : Nat) : Prop :=
  ∀ a, off ≤ a → a < off + n → s.dirtyOwner (s.job.windowPa a) = none

/-- No stash window is mapped (R54). -/
def State.unstashed (s : State) : Prop := ∀ w ∈ s.job.stash.toList, w.v = false

/-- A job of a gang has, at every level above 0, a stream other than the one in turn that has still to arrive (R395). -/
def State.stillOpen (s : State) : Prop :=
  recGang s.job.lrec = true → ∀ k, k ≠ 0 → k < recLevels s.job.lrec →
    ∃ y, y ≠ s.cur ∧ y ∉ (barAt s.job k).arrived ∧ s.job.always y = false

/-- The Weir entries made so far are one more: a held instruction has taken its place and left it (R115). -/
def State.passed (s : State) : State := s.modJob fun j => { j with nextId := j.nextId + 1 }

/-- n bytes at a scratch address lie in the window, in one line, with nothing in the way, the Weir has a place, and memory
is sound. -/
def State.window (s : State) (va n off : Nat) : Prop :=
  vrange va = .scratch off ∧ off + n ≤ s.job.window ∧ va % 256 + n ≤ 256 ∧ s.unheld ∧ s.unstashed ∧ s.unowned off n ∧
    s.weirFree = true ∧ s.sound

/-- No relaxed store that another agent's stream has left behind is owed to agent b (R91): none stands. -/
def State.unowed (s : State) (b : Agent) : Prop :=
  ∀ j ∈ s.jobs, ∀ x, Agent.stream j.num x ≠ b → ∀ p ∈ (j.str x).stores, p.left = none

/-- n bytes at a mapped address, all in one line, are translated to x (R33); no entry of a scratchpad's owner (R51), no
dirty stash line (R57) and no store left behind (R91) holds the access back, and memory is sound. -/
def State.reaches (s : State) (need : Need) (acck va n : Nat) (write : Bool) (x : Xl) : Prop :=
  vrange va = .mapped ∧ va % 256 + n ≤ 256 ∧ xlate need acck va n s = .ok x s ∧
    outsideClear none x.region n write s = .ok () s ∧ recallLine x.pa s = .ok () s ∧ s.sound ∧ s.unowed s.agent

/-- The stream in turn, with nothing to perform, has fenced at a scope (R91, R98). -/
def State.fenced (s : State) (scp : Nat) : State := s.modStr fun t => { t with fence := scp }

/-- The state after n bytes of the job's window at off have been read in place (R95, R115). -/
def State.readAt (s : State) (off n : Nat) : State := s.passed.observe s.job.coreIx (s.job.windowPa off) n

/-- The state after bytes of the job's window at off have been written in place, memory being m then (R88, R95, R115); the
watchpoints of its die look at them (R442). -/
def State.wroteAt (s : State) (off n : Nat) (m : Memory) : State :=
  ({ s with mem := m }.stamp s.job.coreIx (s.job.windowPa off) n).watchWrite s.mem (s.job.windowPa off) n true

/-- The bytes at a place have changed to bs, and no other byte of memory has. -/
def Memory.became (m : Memory) (a : Nat) (bs : List Byte) (m' : Memory) : Prop :=
  ∀ b, m'.read b = if a ≤ b ∧ b < a + bs.length then bs.getD (b - a) 0 else m.read b

/-- No access of agent w from outside a job's window waits in a Weir (R51). -/
def State.noOutside (s : State) (w : Outsider) : Prop := ∀ j ∈ s.jobs, ∀ e ∈ j.entries, e.kind ≠ .outside w

/-- A stream but for who ends its wait (R441). -/
def Stream.plain (t : Stream) : Stream := { t with ender := none }

/-- A job's registers, queues, counters and everything else of its own, but for what a store performed at a home tells it: hits of
watchpoints, and who ends the waits of its streams (R441, R442). -/
def Job.plain (j : Job) : Job :=
  { j with hits := [], c := j.c.plain, a := j.a.plain, m := j.m.plain, v := j.v.plain }

/-- A job is as it was, but for what a store tells it. -/
def Job.sameBut (j j' : Job) : Prop := j'.plain = j.plain

/-- The jobs out of focus are as they were, but for what a store tells them. -/
def State.restSame (s t : State) : Prop := t.rest.map Job.plain = s.rest.map Job.plain

/-! ## An operation that has entered -/

/-- The state in which operation i of timeline tl has been numbered and has entered the Weir at its end (R107, R111). -/
def State.entered (s : State) (i : Instr) (tl : Nat) (keys : Keys) (f : Op → Op) : State :=
  let l := vget ⟨0, 0, []⟩ s.job.tl tl
  let e : Entry := ⟨s.job.nextId, s.cur, s.str.pc, .op (f (Op.of i tl (l.issued + 1) s.cycle)), keys, false, false⟩
  let s : State := { s with
    job := { s.job with
      tl := vset s.job.tl tl { l with issued := l.issued + 1 }, entries := s.job.entries ++ [e], nextId := s.job.nextId + 1 } }
  s.modStr fun t => { t with last := some (tl, l.issued + 1) }

/-! ## Registers of the window that nothing holds -/

/-- No entry of the job's Weir has still an access to make that meets the registers rd, read, and wr, written (R113, R285),
none of them is provisional (R131), and no word has a parity error. -/
def State.lanesFree (s : State) (rd wr : List Nat) : Prop :=
  (∀ e ∈ s.job.entries, { Keys.none with vr := rd, vw := wr }.overlap (s.job.keysDue e) = false) ∧ s.job.parity = [] ∧
    ∀ l ∈ s.job.lineages, ∀ i ∈ rd ++ wr, l.holds (.vreg i) = false

/-- An instruction of header h faults as f says, with its own address as the restart point. -/
def State.faultsWith (s : State) (h : Hdr) (f : FaultInfo) : Host.Outcome State Fault Refusal :=
  .next (s.stopped (formLen h.form) (.fault f))

/-- Entry id of the job's Weir is operation o, which is no part of a lineage; none holds a provisional place, and no handler has
chosen how it goes on (R317). -/
def State.works (s : State) (id : Nat) (o : Op) : Prop :=
  s.job.lineages = [] ∧ s.job.marks = [] ∧ o.role = .plain ∧ o.resume = none ∧
    ∃ e, (s.job.entries.find? fun e => e.id == id) = some e ∧ e.kind = .op o

/-- The n bytes of the job's window at off can be accessed in place: no stash window is mapped, no range is in force (R121), no
stash owns a line of them dirty, and memory is sound. -/
def State.plainAt (s : State) (off n : Nat) : Prop :=
  off + n ≤ s.job.window ∧ s.job.window ≤ 0x80_0000 ∧ s.unstashed ∧ (∀ k, crangeEn (vget 0 s.job.crange k) = false) ∧
    s.unowned off n ∧ s.sound

/-- Row q of a tensor, whose elements have whole bytes and no blocks, lies in the window at off, one element after another, each
at a multiple of its size. -/
def State.rowAt (s : State) (st : List Word) (q off : Nat) : Prop :=
  let w := fmtSize (stFmt st)
  fmtBlock (stFmt st) = false ∧ fmtFour (stFmt st) = false ∧ q < stE st 1 ∧ stE st 0 ≤ 64 ∧ off % w = 0 ∧
    (∀ e, e < stE st 0 → elemAddr st [e, q] = (scratchVa + off + w * e, 0)) ∧ s.plainAt off (w * stE st 0)

/-- The accumulators of job j are those of i, but for the first elements of row r of accumulator d, which are those of vs. -/
def Job.rowSet (i j : Job) (d r : Nat) (vs : List Lane) : Prop :=
  ∀ a m n, m < 64 → n < 64 → j.accAt a m n = if a = d ∧ m = r ∧ n < vs.length then vs.getD n 0 else i.accAt a m n

/-- The window registers of job j are those of i, but for the first lanes of register d, which are those of vs. -/
def Job.lanesSet (i j : Job) (d : Nat) (vs : List Lane) : Prop :=
  ∀ r l, l < 64 → j.lane r l = if r = d ∧ l < vs.length then vs.getD l 0 else i.lane r l

/-- The state in which operation i, which accumulates into tile d, has entered: with Z it closes a lineage that still
expects contributions, and without it is the next contribution of an open one (R322, R326). -/
def State.accumulates (s : State) (i : Instr) (z : Bool) (d : Nat) (keys : Keys) (f : Op → Op) : State :=
  let role := if z then .plain else s.job.contribRole d
  let s0 := if z then s.modJob fun j => j.closeFor d else s
  (s0.entered i 4 keys fun o => { f o with role := role }).modJob fun j => j.addContrib s.job.nextId role

end Sys2Proof.Machine
end

