-- ==== Sys2Proof/Certificates/Slice0/Obligations.lean ====
section
/-! DEFINITION. The statements for the provers. -/

open Sys2Proof Sys2Proof.Machine

/-! ## Scalar instructions (chapter 07) -/

/-- R179: the values of ADD, SUB, MUL, AND, OR, XOR, ANDN, SHL, SHR, SAR, MIN and MAX, in the register and the immediate
form, are written to sD; MULH writes bits 127:64 of the exact product, signed or, with .U, unsigned. Nothing else changes. -/
def Obligations.ArithmeticResults : Prop :=
  (∀ (h : Hdr) (d a b : SReg) (imm : Imm) (s : State), s.runs h allStreams →
     let x := s.getS a;
     (let y := s.getS b;
       exec (.add h d a b) s = (s.setS d (x + y)).ends h .next ∧
       exec (.sub h d a b) s = (s.setS d (x - y)).ends h .next ∧
       exec (.mul h d a b) s = (s.setS d (x * y)).ends h .next ∧
       exec (.and h d a b) s = (s.setS d (x &&& y)).ends h .next ∧
       exec (.or h d a b) s = (s.setS d (x ||| y)).ends h .next ∧
       exec (.xor h d a b) s = (s.setS d (x ^^^ y)).ends h .next ∧
       exec (.andn h d a b) s = (s.setS d (x &&& ~~~y)).ends h .next ∧
       exec (.shl h d a b) s = (s.setS d (x <<< (y &&& 63))).ends h .next ∧
       exec (.shr h d a b) s = (s.setS d (x >>> (y &&& 63))).ends h .next ∧
       exec (.sar h d a b) s = (s.setS d (x.sshiftRight' (y &&& 63))).ends h .next ∧
       exec (.min h false d a b) s = (s.setS d (if x.sle y then x else y)).ends h .next ∧
       exec (.max h false d a b) s = (s.setS d (if x.sle y then y else x)).ends h .next ∧
       exec (.min h true d a b) s = (s.setS d (if x ≤ y then x else y)).ends h .next ∧
       exec (.max h true d a b) s = (s.setS d (if x ≤ y then y else x)).ends h .next) ∧
     (let y := imm.signExtend 64;
       exec (.addImm h d a imm) s = (s.setS d (x + y)).ends h .next ∧
       exec (.subImm h d a imm) s = (s.setS d (x - y)).ends h .next ∧
       exec (.mulImm h d a imm) s = (s.setS d (x * y)).ends h .next ∧
       exec (.andImm h d a imm) s = (s.setS d (x &&& y)).ends h .next ∧
       exec (.orImm h d a imm) s = (s.setS d (x ||| y)).ends h .next ∧
       exec (.xorImm h d a imm) s = (s.setS d (x ^^^ y)).ends h .next ∧
       exec (.andnImm h d a imm) s = (s.setS d (x &&& ~~~y)).ends h .next ∧
       exec (.shlImm h d a imm) s = (s.setS d (x <<< (y &&& 63))).ends h .next ∧
       exec (.shrImm h d a imm) s = (s.setS d (x >>> (y &&& 63))).ends h .next ∧
       exec (.sarImm h d a imm) s = (s.setS d (x.sshiftRight' (y &&& 63))).ends h .next ∧
       exec (.minImm h false d a imm) s = (s.setS d (if x.sle y then x else y)).ends h .next ∧
       exec (.maxImm h false d a imm) s = (s.setS d (if x.sle y then y else x)).ends h .next ∧
       exec (.minImm h true d a imm) s = (s.setS d (if x ≤ y then x else y)).ends h .next ∧
       exec (.maxImm h true d a imm) s = (s.setS d (if x ≤ y then y else x)).ends h .next)) ∧
  (∀ (h : Hdr) (d a b : SReg) (imm : Imm) (s : State), s.runs h allStreams →
     let x := s.getS a;
     (let y := s.getS b;
       exec (.mulh h false d a b) s =
         (s.setS d ((x.signExtend 128 * y.signExtend 128).extractLsb' 64 64)).ends h .next ∧
       exec (.mulh h true d a b) s =
         (s.setS d ((x.zeroExtend 128 * y.zeroExtend 128).extractLsb' 64 64)).ends h .next) ∧
     (let y := imm.signExtend 64;
       exec (.mulhImm h false d a imm) s =
         (s.setS d ((x.signExtend 128 * y.signExtend 128).extractLsb' 64 64)).ends h .next ∧
       exec (.mulhImm h true d a imm) s =
         (s.setS d ((x.zeroExtend 128 * y.zeroExtend 128).extractLsb' 64 64)).ends h .next))

/-- R179, R180: outside R180's cases DIV writes the quotient q rounded toward zero and REM writes a - b q: as whole numbers
a = b q + r, with r smaller than b in size and not of the other sign than a; and the special results of DIV and REM, which raise
no fault. -/
def Obligations.DivideResults : Prop :=
  (∀ (h : Hdr) (d a b : SReg) (imm : Imm) (s : State), s.runs h allStreams →
      let x := s.getS a
      let minus : Word := 0xFFFF_FFFF_FFFF_FFFF
      let least : Word := 0x8000_0000_0000_0000;
      (let y := s.getS b;
        (y = 0 → ∀ u, exec (.div h u d a b) s = (s.setS d minus).ends h .next ∧
          exec (.rem h u d a b) s = (s.setS d x).ends h .next) ∧
        (x = least → y = minus → exec (.div h false d a b) s = (s.setS d least).ends h .next ∧
          exec (.rem h false d a b) s = (s.setS d 0).ends h .next) ∧
        (y ≠ 0 → ¬(x = least ∧ y = minus) → ∃ r : Word, exec (.rem h false d a b) s = (s.setS d r).ends h .next ∧
          (r = 0 ∨ r.msb = x.msb))) ∧
      (let y := imm.signExtend 64;
        (y = 0 → ∀ u, exec (.divImm h u d a imm) s = (s.setS d minus).ends h .next ∧
          exec (.remImm h u d a imm) s = (s.setS d x).ends h .next) ∧
        (x = least → y = minus → exec (.divImm h false d a imm) s = (s.setS d least).ends h .next ∧
          exec (.remImm h false d a imm) s = (s.setS d 0).ends h .next) ∧
        (y ≠ 0 → ¬(x = least ∧ y = minus) → ∃ r : Word, exec (.remImm h false d a imm) s = (s.setS d r).ends h .next ∧
          (r = 0 ∨ r.msb = x.msb)))) ∧
  (∀ (h : Hdr) (d a b : SReg) (imm : Imm) (s : State), s.runs h allStreams →
      let x := s.getS a
      let signed := fun (y q r : Word) =>
        x.toInt = y.toInt * q.toInt + r.toInt ∧ r.toInt.natAbs < y.toInt.natAbs ∧ (r = 0 ∨ r.msb = x.msb);
      let plain := fun (y q r : Word) => x.toNat = y.toNat * q.toNat + r.toNat ∧ r.toNat < y.toNat;
      (let y := s.getS b;
        y ≠ 0 →
        (¬(x = 0x8000_0000_0000_0000 ∧ y = 0xFFFF_FFFF_FFFF_FFFF) → ∃ q r, signed y q r ∧
          exec (.div h false d a b) s = (s.setS d q).ends h .next ∧ exec (.rem h false d a b) s = (s.setS d r).ends h .next) ∧
        (∃ q r, plain y q r ∧
          exec (.div h true d a b) s = (s.setS d q).ends h .next ∧ exec (.rem h true d a b) s = (s.setS d r).ends h .next)) ∧
      (let y := imm.signExtend 64;
        y ≠ 0 →
        (¬(x = 0x8000_0000_0000_0000 ∧ y = 0xFFFF_FFFF_FFFF_FFFF) → ∃ q r, signed y q r ∧
          exec (.divImm h false d a imm) s = (s.setS d q).ends h .next ∧
          exec (.remImm h false d a imm) s = (s.setS d r).ends h .next) ∧
        (∃ q r, plain y q r ∧
          exec (.divImm h true d a imm) s = (s.setS d q).ends h .next ∧
          exec (.remImm h true d a imm) s = (s.setS d r).ends h .next)))

/-- R181, R182, R183: CLZ, POPC, EXT, BFX, BFI and LEA, the bits of each result given one by one. -/
def Obligations.BitFieldResults : Prop :=
  ∀ (h : Hdr) (d a b : SReg) (s : State), s.runs h allStreams →
    let x := s.getS a;
    (∃ n : Nat, n ≤ 64 ∧ (∀ i, 64 - n ≤ i → x.getLsbD i = false) ∧ (n < 64 → x.getLsbD (63 - n) = true) ∧
      exec (.clz h d a) s = (s.setS d (BitVec.ofNat 64 n)).ends h .next) ∧
    exec (.popc h d a) s =
      (s.setS d (BitVec.ofNat 64 ((List.range 64).filter fun i => x.getLsbD i).length)).ends h .next ∧
    (∀ (w : ExtWidth), let n := match w with | .w8 => 8 | .w16 => 16 | .w32 => 32
      (∃ r : Word, (∀ i, i < 64 → r.getLsbD i = (i < n && x.getLsbD i)) ∧
        exec (.ext h false w d a) s = (s.setS d r).ends h .next) ∧
      ∃ r : Word, (∀ i, i < 64 → r.getLsbD i = x.getLsbD (min i (n - 1))) ∧
        exec (.ext h true w d a) s = (s.setS d r).ends h .next) ∧
    (∀ (hi lo : BitVec 6), lo ≤ hi → let n := hi.toNat - lo.toNat
      (∃ r : Word, (∀ i, i < 64 → r.getLsbD i = (i ≤ n && x.getLsbD (lo.toNat + i))) ∧
        exec (.bfx h false d a hi lo) s = (s.setS d r).ends h .next) ∧
      (∃ r : Word, (∀ i, i < 64 → r.getLsbD i = x.getLsbD (lo.toNat + min i n)) ∧
        exec (.bfx h true d a hi lo) s = (s.setS d r).ends h .next) ∧
      ∃ r : Word, (∀ i, i < 64 → r.getLsbD i =
          if lo.toNat ≤ i ∧ i ≤ hi.toNat then x.getLsbD (i - lo.toNat) else (s.getS d).getLsbD i) ∧
        exec (.bfi h d a hi lo) s = (s.setS d r).ends h .next) ∧
    ∀ (sc : BitVec 2) (imm : Imm),
      exec (.lea h sc d a b imm) s =
        (s.setS d (x + s.getS b * BitVec.ofNat 64 (2 ^ sc.toNat) + imm.signExtend 64)).ends h .next

/-- R184 to R187: the five move instructions; CMP writes the truth of its condition to pD, and PLOG its combination of two
predicates; SEL writes sA when pN is true and sB when it is false, with p0 always sA; its guard is apart from pN and decides
whether it takes effect at all, and its word has OP 0x2A, and N in MOD. -/
def Obligations.MoveCompareSelectAndPredicateResults : Prop :=
  (∀ (h : Hdr) (d a : SReg) (n : LcReg) (imm : Imm) (i16 : BitVec 16) (s : State), s.runs h allStreams →
     exec (.mov h d a) s = (s.setS d (s.getS a)).ends h .next ∧
     exec (.movFromLc h d n) s = (s.setS d (s.getLc n)).ends h .next ∧
     exec (.movToLc h n a) s = (s.setLc n (s.getS a)).ends h .next ∧
     exec (.movi h d imm) s = (s.setS d (imm.signExtend 64)).ends h .next ∧
     exec (.moviH h d i16) s = (s.setS d (i16 ++ (s.getS d).extractLsb' 0 48)).ends h .next) ∧
  (∀ (h : Hdr) (d p q : PReg) (a b : SReg) (imm : Imm) (s : State), s.runs h allStreams →
     (∀ cc, let holds := fun (x y : Word) =>
         match cc with
         | .eq => decide (x = y)
         | .ne => decide (x ≠ y)
         | .lt => decide (x.toInt < y.toInt)
         | .ge => decide (y.toInt ≤ x.toInt)
         | .ltu => decide (x.toNat < y.toNat)
         | .geu => decide (y.toNat ≤ x.toNat)
         | .bs => decide (x &&& y ≠ 0)
         | .bc => decide (x &&& y = 0)
       exec (.cmp h cc d a b) s = (s.setP d (holds (s.getS a) (s.getS b))).ends h .next ∧
       exec (.cmpImm h cc d a imm) s = (s.setP d (holds (s.getS a) (imm.signExtend 64))).ends h .next) ∧
     exec (.plog h .and d p q) s = (s.setP d (s.getP p && s.getP q)).ends h .next ∧
     exec (.plog h .or d p q) s = (s.setP d (s.getP p || s.getP q)).ends h .next ∧
     exec (.plog h .xor d p q) s = (s.setP d (s.getP p ^^ s.getP q)).ends h .next ∧
     exec (.plog h .andn d p q) s = (s.setP d (s.getP p && !s.getP q)).ends h .next ∧
     exec (.plog h .orn d p q) s = (s.setP d (s.getP p || !s.getP q)).ends h .next ∧
     exec (.plog h .not d p q) s = (s.setP d (!s.getP p)).ends h .next ∧
     exec (.plog h .set d p q) s = (s.setP d true).ends h .next ∧
     exec (.plog h .clr d p q) s = (s.setP d false).ends h .next) ∧
  (∀ (h : Hdr) (n : PReg) (d a b : SReg) (s : State), s.cur ∈ allStreams →
      (s.guardOk h.g = true →
        (s.getP n = true → exec (.sel h n d a b) s = (s.setS d (s.getS a)).ends h .next) ∧
        (s.getP n = false → exec (.sel h n d a b) s = (s.setS d (s.getS b)).ends h .next) ∧
        exec (.sel h 0 d a b) s = (s.setS d (s.getS a)).ends h .next) ∧
      (s.guardOk h.g = false → exec (.sel h n d a b) s = (s.modStr Stream.noRestart).ends h .next) ∧
      ∀ (form : Form), bits (encodeWord (.sel ⟨h.g, form⟩ n d a b)) 95 88 = 0x2A ∧
        bits (encodeWord (.sel ⟨h.g, form⟩ n d a b)) 82 79 = n.toNat)

/-- R178: a read of s0 returns 0 and a write to s0 is discarded; p0 is true and a write to it is discarded (R134); every
other register reads as it was last written. -/
def Obligations.HardwiredRegisters : Prop :=
  ∀ (t : Stream) (v : Word) (b : Bool),
    t.getS 0 = 0 ∧ t.setS 0 v = t ∧ t.getP 0 = true ∧ t.setP 0 b = t ∧
    (∀ r r' : SReg, r ≠ 0 → (t.setS r v).getS r' = if r' = r then v else t.getS r') ∧
    (∀ p p' : PReg, p ≠ 0 → (t.setP p b).getP p' = if p' = p then b else t.getP p') ∧
    ∀ n n' : LcReg, (t.setLc n v).getLc n' = if n' = n then v else t.getLc n'

/-- R162, R189, R406: every short form does what the table of the short form says; RET goes to s63, and JOIN makes the stream
joined, on the M stream with every lineage closed and every Basin member triggered. No arrival of a gang's job is
completed by it at a wider level. That JOIN leaves the program counter where it stands is a reading (log entry 55). -/
def Obligations.ShortFormResults : Prop :=
  ∀ (d a : BitVec 5) (s : State),
    let x := s.getS (d.zeroExtend 6)
    let y := s.getS (a.zeroExtend 6)
    let gives := fun (v : Word) => (s.setS (d.zeroExtend 6) v).endsShort .next
    exec .nopShort s = s.endsShort .next ∧
    exec (.movShort d a) s = gives y ∧
    exec (.addShort d a) s = gives (x + y) ∧
    exec (.subShort d a) s = gives (x - y) ∧
    exec (.andShort d a) s = gives (x &&& y) ∧
    exec (.orShort d a) s = gives (x ||| y) ∧
    exec (.xorShort d a) s = gives (x ^^^ y) ∧
    exec (.shlShort d a) s = gives (x <<< (y &&& 63)) ∧
    exec (.shrShort d a) s = gives (x >>> (y &&& 63)) ∧
    exec (.sarShort d a) s = gives (x.sshiftRight' (y &&& 63)) ∧
    exec (.addImmShort d a) s = gives (x + a.signExtend 64) ∧
    exec (.moviShort d a) s = gives (a.signExtend 64) ∧
    (s.cur ∈ [StreamId.C, .A] → exec .retShort s = s.endsShort (.jump (s.getS 63))) ∧
    (s.calm → s.stillOpen →
      let t := (s.modStr fun t => { t with st := .joined, fence := 1 }).settleBar0
      (s.cur ≠ .M → exec .joinShort s = t.endsShort .stay) ∧
      (s.cur = .M → exec .joinShort s = (t.modJob fun j =>
        ({ j with lineages := j.lineages.map fun l => { l with closed := true, ndecl := l.niss } } : Job).demand
          fun _ => true).endsShort .stay))

/-- R148, R160, R168, R170, R192: an instruction whose guard fails has no effect but the end of every instruction: the stream
goes on, and what it has kept to restart an instruction that it abandoned goes with it. An instruction on a stream that may not
run it, or a queue or token instruction on one that the job's record does not bind, takes the wrong-stream fault 0x09, whether or
not its guard holds, with the instruction as the restart point. -/
def Obligations.GuardAndStreamChecks : Prop :=
  (∀ (i : Instr) (h : Hdr) (s : State), i.hdr = some h → s.cur ∈ i.streams s.job → s.guardOk h.g = false →
      exec i s = (s.modStr Stream.noRestart).ends h .next) ∧
  (∀ (i : Instr) (h : Hdr) (s : State), i.hdr = some h → s.cur ∉ i.streams s.job →
      let t := (s.endWait s.cur 0).modJob fun j => j.dropHeld s.cur
      exec i s = .next (t.takeFault (t.ownFault (FaultInfo.of 0x09)) (.stream s.cur)).settleStep)

/-- The frame of the register-only instructions: every byte of memory, every other stream, and every scalar register,
predicate and other state of the job is as before, but for the register that the instruction writes and what the end of
every instruction changes (the program counter; with hardware loops in progress their loop registers, frames and stage
predicates, and the rotation of the register region). The stream's own pending stores, fence scope, instruction memory, state
and last operation stay too. -/
def Obligations.RegisterOnlyFrame : Prop :=
  ∀ (i : Instr) (s t : State), i.registerOnly = true → s.cur ∈ i.streams s.job → s.str.wait = none → exec i s = .next t →
    (∀ a, t.mem.read a = s.mem.read a) ∧
    { t with job := s.job } = s ∧
    { t.job with c := s.job.c, a := s.job.a, m := s.job.m, v := s.job.v, rot := s.job.rot } = s.job ∧
    (∀ x, x ≠ s.cur → t.job.str x = s.job.str x) ∧
    (t.str.stores = s.str.stores ∧ t.str.fence = s.str.fence ∧ t.str.imem = s.str.imem ∧ t.str.hdrVer = s.str.hdrVer ∧
      t.str.st = s.str.st ∧ t.str.hold = s.str.hold ∧ t.str.last = s.str.last) ∧
    (∀ r, i.writesS ≠ some r → t.getS r = s.getS r) ∧
    (∀ p, i.writesP ≠ some p → p < 8 ∨ (∀ f ∈ s.str.frames, f.pipe = none) → t.getP p = s.getP p) ∧
    (s.str.frames = [] → t.job.rot = s.job.rot ∧ t.str.frames = [] ∧
      ∀ n, (∀ h a, i ≠ .movToLc h n a) → t.getLc n = s.getLc n)

/-! ## Branches, loops and the end of an instruction (R188 to R193) -/

/-- R188, R189, R193: the targets of BR, JMP and RET, the link and the target of CALL and CALL.R with the target read before
the link is written, BR.Q's pop of bq, and NOP. A taken branch sets the program counter to its target and removes the
outermost loop frame that holds the branch and not its target, with every frame made after it; a call sets the program
counter alone. -/
def Obligations.BranchAndCallResults : Prop :=
  (∀ (h : Hdr) (d a : SReg) (imm : Imm) (s : State),
     let label := s.str.pc + 2 * imm.signExtend 64
     let target := s.getS a + imm.signExtend 64
     let link := s.setS (if d = 0 then 63 else d) (s.str.pc + BitVec.ofNat 64 h.form.len)
     (s.runs h allStreams → exec (.nop h) s = s.ends h .next) ∧
     (s.runs h [.C, .A] →
       exec (.br h imm) s = s.ends h (.jump label) ∧
       exec (.jmp h a imm) s = s.ends h (.jump target) ∧
       exec (.ret h a) s = s.ends h (.jump (s.getS (if a = 0 then 63 else a))) ∧
       exec (.call h d imm) s = link.ends h (.call label) ∧
       exec (.callR h d a imm) s = link.ends h (.call target)) ∧
     (s.runs h [.C] → s.calm → ∀ b r, s.job.bq = b :: r →
       exec (.brQ h imm) s = (s.modJob fun j => { j with bq := r }).ends h (if b then .jump label else .next))) ∧
  (∀ (s : State) (len : Nat) (y : Word),
     let leaves := fun (f : Frame) =>
       (f.start ≤ s.str.pc ∧ s.str.pc < f.stop) ∧ ¬(f.start ≤ y ∧ y < f.stop)
     s.goOn len (.jump y) = s.modStr (fun t =>
       { t with pc := y, frames := (t.frames.reverse.takeWhile fun f => !decide (leaves f)).reverse }) ∧
     s.goOn len (.call y) = s.modStr fun t => { t with pc := y })

/-- R190, R191: LOOP and LOOPP take their trip count from bits 47:0 of sA, remove a frame that the loop register
already has with every frame made after it, and skip the body when the count is 0; else they set the loop register
and make the frame. set_stages(k) gives p(8 + i) for i from 0 to 7, and changes no other predicate; clearing makes
them false. That the skip makes no end check is a reading (log entry 38). -/
def Obligations.LoopStart : Prop :=
  (∀ (h : Hdr) (n : LcReg) (a : SReg) (k : BitVec 3) (imm : Imm) (s : State) (outer : List Frame), s.runs h allStreams →
     ((∀ f ∈ s.str.frames, f.n ≠ n) ∧ outer = s.str.frames ∨
       ∃ inner f, s.str.frames = inner ++ f :: outer ∧ f.n = n ∧ ∀ g ∈ inner, g.n ≠ n) →
     let trip := (s.getS a).toNat % 2 ^ 48
     let stages := k.toNat + 1
     let start := s.str.pc + BitVec.ofNat 64 h.form.len
     let stop := s.str.pc + 2 * imm.signExtend 64
     (trip = 0 →
       exec (.loop h n a imm) s = (s.modStr fun t => { t with frames := outer }).ends h (.loopTo stop) ∧
       exec (.loopp h n a k imm) s = (s.modStr fun t => { clearStages t with frames := outer }).ends h (.loopTo stop)) ∧
     (trip ≠ 0 →
       exec (.loop h n a imm) s =
         (s.modStr fun t =>
           { t.setLc n (BitVec.ofNat 64 trip) with frames := ⟨start, stop, n, none⟩ :: outer }).ends h .next ∧
       exec (.loopp h n a k imm) s =
         (s.modStr fun t =>
           { setStages (t.setLc n (BitVec.ofNat 64 (trip + k.toNat))) trip stages 0 with
             frames := ⟨start, stop, n, some ⟨trip, stages, 0⟩⟩ :: outer }).ends h .next)) ∧
  (∀ (t : Stream) (n s k : Nat) (p : PReg),
     (setStages t n s k).getP p =
       (if 8 ≤ p then decide (p.toNat - 8 < s ∧ p.toNat - 8 ≤ k ∧ k < n + (p.toNat - 8)) else t.getP p) ∧
     (clearStages t).getP p = (if 8 ≤ p then false else t.getP p) ∧
     { setStages t n s k with p := t.p } = t ∧ { clearStages t with p := t.p } = t)

/-- R153, R192, R438, R441: the end check after an instruction of length len that transfers no control, frame by
frame from the innermost: without a frame the program counter alone moves; a frame that does not end here is passed;
one that does and has more than one iteration left goes back to its start, with LOOPP's kernel iteration, stage
predicates and rotation; one with none left is removed, its loop register 0, and the next outer frame is looked at.
When the instruction ends, a wait in which its stream stood is over, and is logged when it lasted MIN cycles or more;
a stream that steps halts again, and a step with drain ends when its operation is complete and every correction due by then is
made. The ring of the wait log as it stands at its reset values, and who is named as the ender of a wait, are the model's
choices (log entry 27). -/
def Obligations.EndOfInstruction : Prop :=
  (∀ (s : State) (len : Nat) (f : Frame) (r : List Frame),
     let e := s.str.pc + BitVec.ofNat 64 len
     let here := f.start ≤ s.str.pc ∧ s.str.pc < f.stop ∧ f.stop = e
     (s.str.frames = [] → s.advance len = s.modStr fun t => { t with pc := e }) ∧
     (s.str.frames = f :: r → ¬here →
       let u := (s.modStr fun t => { t with frames := r }).advance len
       s.advance len = u.modStr fun t => { t with frames := f :: t.frames }) ∧
     (s.str.frames = f :: r → here → 1 < (s.getLc f.n).toNat →
       (f.pipe = none →
         s.advance len = s.modStr fun t => { t.setLc f.n (t.getLc f.n - 1) with pc := f.start }) ∧
       (∀ q, f.pipe = some q →
         let u := s.modStr fun t =>
           { setStages (t.setLc f.n (t.getLc f.n - 1)) q.n q.s (q.k + 1) with
             pc := f.start, frames := { f with pipe := some { q with k := q.k + 1 } } :: r }
         s.advance len = if s.cur = .V then u.modJob Job.rotate else u)) ∧
     (s.str.frames = f :: r → here → (s.getLc f.n).toNat ≤ 1 →
       s.advance len = (s.modStr fun t =>
         let t := { t.setLc f.n 0 with frames := r }
         if f.pipe.isSome then clearStages t else t).advance len)) ∧
  (∀ (s : State),
     let halt := fun (t : State) =>
       match s.str.stepping with
       | .none => t
       | .one => t.modStr fun u => { u with stepping := .none, halted := true }
       | .drain | .left _ => (t.modStr fun u => { u with halted := true }).modJob fun j => j.endDrain s.cur
     (s.str.wait = none → s.settleStep = halt s) ∧
     (∀ w, s.str.wait = some w → s.cycle - w.since < (s.dieAt s.job.die).wlmin →
       s.settleStep = halt (s.modStr fun u => { u with wait := none, ender := none })) ∧
     (∀ w, s.str.wait = some w → (s.dieAt s.job.die).wlmin ≤ s.cycle - w.since →
       s.settleStep = halt ((s.putLog s.cur w 0).modStr fun u => { u with wait := none, ender := none }))) ∧
  (∀ (j : Job) (x : StreamId),
     let y := j.str x
     let turns := fun (m : StepMode) => j.endDrain x = j.setStr x { y with stepping := m };
     y.halted = true →
     (y.stepping = .drain → j.lastDone x = false → j.endDrain x = j) ∧
     (y.stepping = .drain → j.lastDone x = true → j.dueNow = [] → turns .none) ∧
     (y.stepping = .drain → j.lastDone x = true → j.corrected j.dueNow = false → turns (.left j.dueNow)) ∧
     (∀ due, y.stepping = .left due → turns (if j.corrected due then .none else .left due)))

/-! ## Memory instructions (chapter 08) -/

/-- R205, R206, R12, R13, R95: what LD writes to sD. At a mapped address it is the home's bytes, or, when the load is
not prompt and the core's clock lies in the lease of a held copy, in its L1 or for a peer's line in the die's L2, the copy's;
at a scratch address the window's
bytes; at a copy channel's aperture the count of copies issued on it; in the device-tree page the frame's bytes.
Memory and the job are otherwise as before. How held copies are kept is the model's reading (log entries 4 and 10). -/
def Obligations.LoadResults : Prop :=
  ∀ (h : Hdr) (size : Size) (sg : Bool) (d a : SReg) (o : Ose) (imm : Imm) (s : State), s.runs h [.C, .A] → s.calm →
    let n := sizeBytes size
    let va := (s.getS a + imm.signExtend 64).toNat
    let run := exec (.ld h size sg d a o imm) s
    let wide := fun (x : Nat) =>
      if sg then (BitVec.ofNat (8 * n) x).signExtend 64 else (BitVec.ofNat (8 * n) x).setWidth 64
    (∀ x, s.reaches .r 0 va n false x →
      (o.ord = 2 ∨ x.cc = 2 ∨ leased x.pa = false ∨
        ((s.coreAt s.job.coreIx).l1 = [] ∧ (s.dieAt s.job.die).peer = [])) →
      ∃ t : State, run = (t.setS d (wide (leNum (s.mem.readMany x.pa n)))).ends h .next ∧
        t.mem = s.mem ∧ t.job = s.job ∧ t.rest = s.rest) ∧
    (∀ x, s.reaches .r 0 va n false x → o.ord ≠ 2 → x.cc ≠ 2 → leased x.pa = true →
      let usable := fun (c : HeldCopy) => c.usable (lineOf x.pa) (s.clock s.job.coreIx) s.cycle
      let part := fun (c : HeldCopy) => wide (leNum ((c.bytes.drop (x.pa % 256)).take n));
      (∀ c, (s.coreAt s.job.coreIx).l1.find? usable = some c →
        run = ((s.modCore s.job.coreIx fun k => k.useL1 (lineOf x.pa)).setS d (part c)).ends h .next) ∧
      ∀ c, (s.coreAt s.job.coreIx).l1.find? usable = none → 2 ^ 51 ≤ x.pa →
        (s.dieAt s.job.die).peer.find? usable = some c → ∃ t : State, run = (t.setS d (part c)).ends h .next ∧
          t.mem = s.mem ∧ t.job = s.job ∧ t.rest = s.rest ∧
          (o.ev ≠ 0 → x.cc = 0 → s.job.coreIx < 256 → c ∈ (t.coreAt s.job.coreIx).l1)) ∧
    (∀ off, s.window va n off →
      run = ((s.readAt off n).setS d (wide (leNum (s.mem.readMany (s.job.windowPa off) n)))).ends h .next) ∧
    (∀ c, vrange va = .copy c 0 → size = .b8 → c < recChan s.job.lrec →
      run = (s.setS d (BitVec.ofNat 64 (vget ⟨0, 0, []⟩ s.job.tl c).issued)).ends h .next) ∧
    (∀ off x, vrange va = .dtree off → va % 256 + n ≤ 256 → off + n ≤ 65536 → dtreeXl .r 0 off n s = .ok x s →
      recallLine x.pa s = .ok () s → s.sound → s.unowed s.agent →
      ∃ t : State, run = (t.setS d (wide (leNum (s.mem.readMany x.pa n)))).ends h .next ∧
        t.mem = s.mem ∧ t.job = s.job ∧ t.rest = s.rest)

/-- R205, R207, R12, R13, R88: ST writes the low bytes of sB at its address and no other byte: at once, or, when it
is relaxed, of a class other than device and not to a scratchpad, from the stream's pending stores, where it
keeps its scope; a store in the device-tree page takes the permission fault; a 64-bit store at a copy aperture starts a
copy, as CPY does. When a relaxed store is performed is the model's reading (log entry 4). -/
def Obligations.StoreResults : Prop :=
  ∀ (h : Hdr) (size : Size) (a b : SReg) (o : Ose) (imm : Imm) (s : State), s.runs h [.C, .A] → s.calm → s.memOk →
    let n := sizeBytes size
    let va := (s.getS a + imm.signExtend 64).toNat
    let bs := leList n (s.getS b).toNat
    let run := exec (.st h size a b o imm) s
    (∀ x, s.reaches .w 1 va n true x →
      let sits := o.ord = 1 ∧ x.cc ≠ 2 ∧ ∀ die k off, x.region ≠ .scratch die k off
      let scp := max (x.scope o.scp.toNat) s.str.fence
      (sits → run = (s.modStr fun t => { t with
        stores := t.stores ++ [⟨x.pa, bs, o.ev.toNat, x.cc, scp, none⟩] }).ends h .next) ∧
      (¬sits → ∃ t : State, run = t.ends h .next ∧ s.mem.became x.pa bs t.mem ∧ s.job.sameBut t.job ∧ s.restSame t)) ∧
    (∀ off, s.window va n off → ∃ m, s.mem.became (s.job.windowPa off) bs m ∧
      run = (s.passed.wroteAt off n m).ends h .next) ∧
    (∀ c, vrange va = .copy c 0 → size = .b8 → c < recChan s.job.lrec → c < 4 →
      run = exec (.cpy h (BitVec.ofNat 2 c) b) s) ∧
    (∀ off, vrange va = .dtree off → va % 256 + n ≤ 256 → off + n ≤ 65536 →
      run = .next (s.stopped (formLen h.form)
        (.fault { FaultInfo.of 0x12 with va := 0x01FF_FFFF_C000_0000 + off, acck := 1 })))

/-- R209, R210: AMO and CAS read the old value, write the new one in the same event (CAS only when the old value is that
of sD) and return the old value zero-extended. No other byte changes. -/
def Obligations.AtomicResults : Prop :=
  ∀ (h : Hdr) (size : Size) (d a b : SReg) (o : Ose) (s : State), s.runs h [.C, .A] → s.calm → s.memOk →
    let n := sizeBytes size
    let va := (s.getS a).toNat
    let y := (s.getS b).toNat % 2 ^ (8 * n)
    let signed := fun (x : Nat) => (BitVec.ofNat (8 * n) x).toInt
    let new := fun (op : AmoOp) (old : Nat) =>
      match op with
      | .swap => y
      | .add => (old + y) % 2 ^ (8 * n)
      | .and => old &&& y
      | .or => old ||| y
      | .xor => old ^^^ y
      | .min => if signed y < signed old then y else old
      | .max => if signed old < signed y then y else old
      | .minu => if y < old then y else old
      | .maxu => if old < y then y else old
      | .fadd => (add32 (BitVec.ofNat 32 old) (BitVec.ofNat 32 y)).toNat
    let want := (s.getS d).toNat % 2 ^ (8 * n)
    va % n = 0 →
    (∀ x, s.reaches .rw 2 va n true x →
      let old := leNum (s.mem.readMany x.pa n)
      (∀ op, ∃ t : State, exec (.amo h op size d a b o) s = (t.setS d (BitVec.ofNat 64 old)).ends h .next ∧
        s.mem.became x.pa (leList n (new op old)) t.mem ∧ s.job.sameBut t.job ∧ s.restSame t) ∧
      ∃ t : State, exec (.cas h size d a b o) s = (t.setS d (BitVec.ofNat 64 old)).ends h .next ∧
        (if old = want then s.mem.became x.pa (leList n y) t.mem else t.mem = s.mem) ∧
        s.job.sameBut t.job ∧ s.restSame t) ∧
    ∀ off, s.window va n off →
      let pa := s.job.windowPa off
      let old := leNum (s.mem.readMany pa n)
      (∀ op, ∃ m, s.mem.became pa (leList n (new op old)) m ∧
        exec (.amo h op size d a b o) s = (((s.readAt off n).wroteAt off n m).setS d (BitVec.ofNat 64 old)).ends h .next) ∧
      (old = want → ∃ m, s.mem.became pa (leList n y) m ∧
        exec (.cas h size d a b o) s = (((s.readAt off n).wroteAt off n m).setS d (BitVec.ofNat 64 old)).ends h .next) ∧
      (old ≠ want → exec (.cas h size d a b o) s = ((s.readAt off n).setS d (BitVec.ofNat 64 old)).ends h .next)

/-- R9 to R12, R25, R27, R42, R208, R211: the faults of LD, ST, AMO and CAS, with the instruction as the restart point: the
address fault 0x14 outside the parts of the address space, beyond the window, beyond the device-tree page and at an aperture of
no channel or with a shape that starts or counts no copy; then the alignment fault 0x17, of an access that leaves its 256-byte
line or of an atomic at no multiple of its size; then of a page the first that applies of the permission fault 0x12, the world
fault 0x13, the unbacked fault 0x15 and the owner fault 0x16, or the fault of a walk made for the access. -/
def Obligations.AccessFaults : Prop :=
  ∀ (h : Hdr) (size : Size) (sg : Bool) (op : AmoOp) (d a b : SReg) (o : Ose) (imm : Imm) (s : State),
    s.runs h [.C, .A] → s.calm →
    let n := sizeBytes size
    let faults := fun (i : Instr) (acck va : Nat) =>
      let need : Need := if acck = 0 then .r else if acck = 1 then .w else .rw
      let gives := fun (cause : Nat) => exec i s = s.faultsWith h { FaultInfo.of cause with va := va, acck := acck }
      let broken := match vrange va with
        | .mapped => False
        | .scratch off => s.job.window < off + n
        | .copy c off => acck = 2 ∨ off ≠ 0 ∨ n ≠ 8 ∨ recChan s.job.lrec ≤ c
        | .dtree off => 65536 < off + n
        | .reserved => True
      let crooked := 256 < va % 256 + n ∨ acck = 2 ∧ va % n ≠ 0
      let fits := ¬broken ∧ ¬crooked
      let cached := s.tlbFind s.job.coreIx (s.job.tlbKind s.asker) s.job.ctx va;
      (broken → gives 0x14) ∧
      (¬broken → crooked → gives 0x17) ∧
      (fits → ∀ off, vrange va = .dtree off → acck ≠ 0 → gives 0x12) ∧
      (fits → vrange va = .mapped →
        (∀ t, cached = some t → s.job.walkFaults = [] →
          let r := regionOf s.hub.pos.toNat (leafPa t.level t.leaf va)
          let secure := s.job.ctx.sec && pteS t.leaf
          let world := (s.job.ctx.sec = true ∨ pteS t.leaf = false) ∧ s.worldOk secure (placeAddr r) n = true;
          (needOk need t.leaf = false → gives 0x12) ∧
          (needOk need t.leaf = true → ¬world → gives 0x13) ∧
          (needOk need t.leaf = true → world → s.backed r = false → gives 0x15) ∧
          (needOk need t.leaf = true → world → s.backed r = true →
            s.ownerOk s.job.ctx.asid s.job.ctx.sec r = false → gives 0x16)) ∧
        (cached = none → ∀ x f rest, s.job.walkFaults = (x, f) :: rest → x = s.asker → f.va / 65536 = va / 65536 →
          exec i s = (s.modJob fun j => { j with walkFaults := rest }).faultsWith h (TFault.info { f with va := va } acck)));
    faults (.ld h size sg d a o imm) 0 (s.getS a + imm.signExtend 64).toNat ∧
    faults (.st h size a b o imm) 1 (s.getS a + imm.signExtend 64).toNat ∧
    faults (.amo h op size d a b o) 2 (s.getS a).toNat ∧
    faults (.cas h size d a b o) 2 (s.getS a).toNat

/-- R91, R98, R129, R174, R202: FENCE, and ISYNC which fences at package scope and empties the stream's instruction memory, with
the faults that its fills' walks have met, perform
every pending store of the stream, in order, and the scope counts for what follows. No stash line is owned dirty, and no
other stream has left a store behind. -/
def Obligations.FenceAndIsyncResults : Prop :=
  ∀ (h : Hdr) (scp : BitVec 3) (s : State), (∀ j ∈ s.jobs, j.lines = []) → s.unowed s.agent →
    let mem := s.str.stores.foldl (fun m p => m.writeMany p.pa p.bytes) s.mem
    (s.runs h [.C, .A] → ∃ t : State, exec (.fence h scp) s = t.ends h .next ∧ t.mem = mem ∧ s.restSame t ∧
      Job.sameBut (s.job.setStr s.cur { s.str with stores := [], fence := scp.toNat }) t.job) ∧
    (s.runs h allStreams → ∃ t : State, exec (.isync h) s = t.ends h .next ∧ t.mem = mem ∧ s.restSame t ∧
      Job.sameBut { s.job.setStr s.cur { s.str with stores := [], imem := [], fence := 5 } with
        walkFaults := s.job.walkFaults.filter fun f => f.1 != .code s.cur } t.job)

/-- R213, R214: PREF and WBACK are dropped at an address that is not mapped, in a stash window's range, or whose
translation faults; else PREF brings the line into the core's L1 (unless it asks for L2 alone, or the L1 holds a copy that a load
may use, which stays), from the die's copy of a peer's line where a load may use it, and WBACK cleans the L2's record of it,
which for a peer's line is the requesting die's, with DROP at priority 0. Neither changes memory, a core's
clock or the job. The L2 as a record of lines is the
model's reading (log entry 4); that PREF always makes its fill at once is its choice (log entry 67). -/
def Obligations.CacheHintResults : Prop :=
  ∀ (h : Hdr) (f : Bool) (a : SReg) (ev : BitVec 3) (imm : Imm) (s : State), s.runs h [.C, .A] →
    let va := (s.getS a + imm.signExtend 64).toNat
    let pref := exec (.pref h f a ev imm) s
    let wback := exec (.wback h f a imm) s
    (vrange va ≠ .mapped ∨ s.job.inStashRange va = true → pref = s.ends h .next ∧ wback = s.ends h .next) ∧
    (vrange va = .mapped → s.job.inStashRange va = false →
      (∀ e t, xlate .r 0 va 1 s = .error (.fault e) t → pref = t.ends h .next ∧ wback = t.ends h .next) ∧
      ∀ x, xlate .r 0 va 1 s = .ok x s →
        (x.cc = 2 ∨ leased x.pa = false → pref = s.ends h .next ∧ wback = s.ends h .next) ∧
        (x.cc ≠ 2 → leased x.pa = true →
          wback = (s.modDie (if 2 ^ 51 ≤ x.pa then s.job.die else x.pa / 2 ^ 48) fun d => { d with l2 := d.l2.map fun l =>
            if l.line = x.pa / 256 then { l with dirty := false, pri := if f then 0 else l.pri } else l }).ends h .next ∧
          (recallLine x.pa s = .ok () s → s.sound → s.unowed s.agent → ∃ t : State, pref = t.ends h .next ∧
            t.mem = s.mem ∧ t.job = s.job ∧ t.rest = s.rest ∧ (∀ i, t.clock i = s.clock i) ∧
            let l1 := (s.coreAt s.job.coreIx).l1
            let usable := fun (c : HeldCopy) => c.usable (x.pa / 256) (s.clock s.job.coreIx) s.cycle
            let peer := if 2 ^ 51 ≤ x.pa then (s.dieAt s.job.die).peer.find? usable else none
            (l1.any usable = true → (t.coreAt s.job.coreIx).l1 = l1) ∧
            (l1.any usable = false → f = false → ev ≠ 0 → x.cc = 0 → s.job.coreIx < 256 → ∃ c ∈ (t.coreAt s.job.coreIx).l1,
              c.line = x.pa / 256 ∧ (∀ k, peer = some k → c = k) ∧
              (peer = none → c.bytes = s.mem.readMany (x.pa / 256 * 256) 256)))))

/-- R215, R216, R52: SMAP maps a window with every line invalid, or takes the address fault when its request breaks R52;
SUNMAP writes the window's dirty lines back and makes it invalid; SFLUSH writes back the dirty lines of the mapped windows
it names, which stay mapped. R57: a dirty line that is written back leaves its bytes at its home, is clean, and nothing else
of memory or of the job's lines changes, no store of the hardware waiting for that line. The lines that are written back here
have their homes outside the scratchpads, whose accesses have an order of their own. -/
def Obligations.StashWindowResults : Prop :=
  (∀ (h : Hdr) (n : BitVec 3) (mask : BitVec 8) (a b : SReg) (s : State), s.runs h [.C, .A] → s.calm → s.unheld →
     s.weirFree = true →
     let none : StashWin := ⟨false, 0, 0, 0, 0⟩
     let de := s.getS b
     let dirty := fun (p : Nat → Bool) => s.job.lines.filter fun l => l.dirty && p l.win
     let written := fun (ls : List StashLine) => (ls.foldl (fun u l => u.writeBack s.job.num l) s).mem
     let apart := ∀ l ∈ s.job.lines, ∀ die k off, regionOf s.hub.pos.toNat (lineOf l.pa * 256) ≠ .scratch die k off
     (smapBad s.job n.toNat (s.getS a) de = false →
       exec (.smap h n a b) s = (s.modJob fun j =>
         { j with
           stash := vset j.stash n.toNat
             ⟨true, (s.getS a).toNat / 65536, (de.extractLsb' 0 7).toNat, (de.extractLsb' 8 7).toNat, (de.extractLsb' 16 3).toNat⟩
           lines := j.lines.filter fun l => l.win != n.toNat }).ends h .next) ∧
     (smapBad s.job n.toNat (s.getS a) de = true →
       exec (.smap h n a b) s =
         .next (s.stopped (formLen h.form) (.fault { FaultInfo.of 0x14 with va := (s.getS a).toNat }))) ∧
     ((vget none s.job.stash n.toNat).v = false → exec (.sunmap h n) s = s.ends h .next) ∧
     ((vget none s.job.stash n.toNat).v = true → s.sound → apart → ∃ t : State, exec (.sunmap h n) s = t.ends h .next ∧
       t.mem = written (dirty fun w => w == n.toNat) ∧ t.job.stash = vset s.job.stash n.toNat none ∧
       ∀ l ∈ t.job.lines, l.win ≠ n.toNat) ∧
     let named := fun (w : Nat) => decide (w < 8) && mask.getLsbD w && (vget none s.job.stash w).v
     ((∀ w, named w = false) → exec (.sflush h mask) s = s.ends h .next) ∧
     ((∃ w, named w = true) → s.sound → apart → ∃ t : State, exec (.sflush h mask) s = t.ends h .next ∧
       t.mem = written (dirty named) ∧ t.job.stash = s.job.stash)) ∧
  (∀ (s : State) (l : StashLine), s.memOk → s.job.present = true → l ∈ s.job.lines →
     (∀ p ∈ s.posted, lineOf p.pa ≠ lineOf l.pa) →
     let t := s.writeBack s.job.num l
     s.mem.became (l.pa / 256 * 256) (s.mem.readMany (s.job.windowPa (s.job.stashOff l)) 256) t.mem ∧
     (∀ m ∈ t.job.lines, m.win = l.win → m.line = l.line → m.dirty = false) ∧
     t.job.lines.filter (fun m => !(m.win == l.win && m.line == l.line)) =
       s.job.lines.filter (fun m => !(m.win == l.win && m.line == l.line)))

/-- R223, R224, R225: STSET and STGET move one word, STLD the eight words of 64 bytes of memory; STADV advances BASE, and
for a block format SBASE, by sA elements along a dimension, and faults where blocks or nibbles would be split. -/
def Obligations.StreamRegisterResults : Prop :=
  ∀ (h : Hdr) (n : StReg) (w : BitVec 3) (dim : BitVec 2) (d a : SReg) (imm : Imm) (s : State),
    s.runs h [.C, .A] → s.calm →
    let va := (s.getS a + imm.signExtend 64).toNat
    let ld := exec (.stld h n a imm) s
    let words := fun (bs : List Byte) => (List.range 8).map fun i => BitVec.ofNat 64 (leNum ((bs.drop (8 * i)).take 8))
    let st := s.job.stWords n.toNat
    let c := (s.getS a).toInt
    let adv := fun (base scale : Int) =>
      exec (.stadv h n dim a) s = (s.modJob fun j =>
        (j.setStWord n.toNat 0 (stW st 0 + BitVec.ofInt 64 base)).setStWord n.toNat 5
          (stW st 5 + BitVec.ofInt 64 scale)).ends h .next
    let step := if fmtFour (stFmt st) && dim == 0 then c / 2 else c * stS st dim.toNat
    let faults := exec (.stadv h n dim a) s =
      .next (s.stopped (formLen h.form) (.fault { FaultInfo.of 0x18 with aux := n.toNat }))
    exec (.stset h n w a) s = (s.modJob fun j => j.setStWord n.toNat w.toNat (s.getS a)).ends h .next ∧
    exec (.stget h d n w) s = (s.setS d (s.job.stWord n.toNat w.toNat)).ends h .next ∧
    (∀ x, s.reaches .r 0 va 64 false x → va % 64 = 0 →
      (leased x.pa = false ∨ x.cc = 2 ∨ ((s.coreAt s.job.coreIx).l1 = [] ∧ (s.dieAt s.job.die).peer = [])) →
      ∃ t : State, ld = (t.modJob fun j => j.setStWords n.toNat (words (s.mem.readMany x.pa 64))).ends h .next ∧
        t.mem = s.mem ∧ t.job = s.job ∧ t.rest = s.rest) ∧
    (∀ off, s.window va 64 off → va % 64 = 0 →
      ld = ((s.readAt off 64).modJob fun j => j.setStWords n.toNat (words (s.mem.readMany (s.job.windowPa off) 64))).ends h .next) ∧
    (∀ off x, vrange va = .dtree off → va % 64 = 0 → va % 256 + 64 ≤ 256 → off + 64 ≤ 65536 →
      dtreeXl .r 0 off 64 s = .ok x s → recallLine x.pa s = .ok () s → s.sound → s.unowed s.agent →
      ∃ t : State, ld = (t.modJob fun j => j.setStWords n.toNat (words (s.mem.readMany x.pa 64))).ends h .next ∧
        t.mem = s.mem ∧ t.job = s.job ∧ t.rest = s.rest) ∧
    (fmtFour (stFmt st) = true → dim = 0 → c % 2 ≠ 0 → faults) ∧
    (¬(fmtFour (stFmt st) = true ∧ dim = 0 ∧ c % 2 ≠ 0) →
      (stBlen st ≠ 32 → adv step 0) ∧
      (stBlen st = 32 → dim.toNat = stBdim st → c % 32 ≠ 0 → faults) ∧
      (stBlen st = 32 → dim.toNat = stBdim st → c % 32 = 0 → adv step (c / 32 * stSS st dim.toNat)) ∧
      (stBlen st = 32 → dim.toNat ≠ stBdim st → adv step (c * stSS st dim.toNat)))

/-- R365, R366: CPY numbers a copy on its channel's timeline, reads its template then, enters it into the Weir and puts it
at the tail of the channel's queue. -/
def Obligations.CopyIsQueued : Prop :=
  ∀ (h : Hdr) (n : BitVec 2) (a : SReg) (s u : State) (tmpl : List Word), s.runs h [.C, .A] → s.calm →
    n.toNat < recChan s.job.lrec → queuedCopies (vget [] s.job.chans n.toNat) < 32 → s.weirFree = true →
    s.job.returning = false → readTemplate s.job.ctbase.toNat (s.getS a) s = .ok tmpl u →
    let cmd := s.getS a
    exec (.cpy h n a) s =
      ((u.entered (.cpy ⟨⟨false, 0⟩, .guarded⟩ n 0) n.toNat (copyEntryKeys u.job n.toNat cmd tmpl) fun o =>
        { o with
          copy := some (CopyOp.of n.toNat cmd s.job.ctbase.toNat tmpl none)
          argv := [u.job.argvOf (tPsin tmpl), u.job.argvOf (tPsout tmpl)] }).modJob fun j =>
        { j with chans := vset j.chans n.toNat (vget [] j.chans n.toNat ++ [.copy u.job.nextId]) }).ends h .next

/-! ## Queues, tokens and synchronisation (chapters 06, 09 and 17) -/

/-- R138, R148, R228 to R231: QPUSH and QPUSH.P add an entry at the tail, QPOP takes the head, QDROP discards sA entries; a
full or an empty queue makes them wait, QDROP with the count still to drop. TKSEND adds a token and TKWAIT takes one, on the
streams that TKMAP names; a full or an empty FIFO makes them wait. A stream that is not bound, or an unused FIFO, is the
wrong-stream fault. -/
def Obligations.QueueAndTokenResults : Prop :=
  (∀ (h : Hdr) (n : BitVec 2) (q : QName) (p : PReg) (d a : SReg) (s : State), s.runs h allStreams → s.calm →
     let v := s.getS a
     let k := v.toInt.toNat
     let es := s.job.queue q
     let wrong := .next (s.stopped (formLen h.form) (.fault (FaultInfo.of 0x09)))
     (s.cur = .A →
       ((s.job.aq[n.toNat]'n.isLt).length < 32 → exec (.qpush h (.aq n) a) s = (s.modJob fun j =>
         { j with aq := j.aq.set n.toNat (j.aq[n.toNat]'n.isLt ++ [v]) n.isLt }).ends h .next) ∧
       (s.job.bq.length < 32 →
         exec (.qpush h .bq a) s = (s.modJob fun j => { j with bq := j.bq ++ [v.getLsbD 0] }).ends h .next ∧
         exec (.qpushP h p) s = (s.modJob fun j => { j with bq := j.bq ++ [s.getP p] }).ends h .next) ∧
       (32 ≤ es.length → exec (.qpush h q a) s = .next (s.beginWait (.queue q))) ∧
       (32 ≤ s.job.bq.length → exec (.qpushP h p) s = .next (s.beginWait (.queue .bq)))) ∧
     (s.cur ≠ .A → exec (.qpush h q a) s = wrong ∧ exec (.qpushP h p) s = wrong) ∧
     (s.cur ≠ queueConsumer s.job q → exec (.qpop h d q) s = wrong ∧ exec (.qdrop h q a) s = wrong) ∧
     (s.cur = queueConsumer s.job q →
       (∀ x r, es = x :: r →
         exec (.qpop h d q) s = ((s.modJob fun j => j.setQueue q r).setS d x).ends h .next) ∧
       (es = [] → exec (.qpop h d q) s = .next (s.beginWait (.queue q))) ∧
       (s.str.qdrop = none → k ≤ es.length →
         exec (.qdrop h q a) s = (s.modJob fun j => j.setQueue q (es.drop k)).ends h .next) ∧
       let short := fun (m : Nat) =>
         let u := s.modJob fun j => j.setQueue q []
         .next (((if es = [] then u else u.endWait s.cur 0).modStr fun t =>
           { t with qdrop := some (m - es.length) }).beginWait (.queue q));
       (s.str.qdrop = none → es.length < k → exec (.qdrop h q a) s = short k) ∧
       (∀ m, s.str.qdrop = some m → es.length < m → exec (.qdrop h q a) s = short m) ∧
       (∀ m, s.str.qdrop = some m → m ≤ es.length →
         exec (.qdrop h q a) s = ((s.modJob fun j => j.setQueue q (es.drop m)).modStr fun t =>
           { t with qdrop := none }).ends h .next))) ∧
  (∀ (h : Hdr) (n : BitVec 3) (s : State), s.runs h allStreams → s.calm →
     let m := recTk s.job.lrec n.toNat
     let c := s.job.tk[n.toNat]'n.isLt
     let wrong := .next (s.stopped (formLen h.form) (.fault (FaultInfo.of 0x09)))
     let put := fun (v : Nat) => (s.modJob fun j => { j with tk := j.tk.set n.toNat v n.isLt }).ends h .next
     (m = 0 → exec (.tksend h n) s = wrong ∧ exec (.tkwait h n) s = wrong) ∧
     (m ≠ 0 →
       (s.cur ≠ streamOf (m / 4) → exec (.tksend h n) s = wrong) ∧
       (s.cur ≠ streamOf (m % 4) → exec (.tkwait h n) s = wrong) ∧
       (s.cur = streamOf (m / 4) →
         (c < 16 → exec (.tksend h n) s = put (c + 1)) ∧
         (16 ≤ c → exec (.tksend h n) s = .next (s.beginWait (.token n.toNat)))) ∧
       (s.cur = streamOf (m % 4) →
         (0 < c → exec (.tkwait h n) s = put (c - 1)) ∧
         (c = 0 → exec (.tkwait h n) s = .next (s.beginWait (.token n.toNat))))))

/-- R395, R398, R400: the barrier of the job's own streams (level 0): BARA arrives and gives the phase; BARW waits
while the phase is the one it was given; BAR arrives once and waits for its phase to complete. The phase completes
when each of the four streams has arrived, is idle or stands at JOIN, which ends the waits on it. Levels that the job does not
have take their faults. The cases of a handler entered from JOIN are readings (log entries 40 and 41). -/
def Obligations.StreamBarrierResults : Prop :=
  ∀ (h : Hdr) (k : BitVec 3) (d a : SReg) (s : State), s.runs h allStreams → s.calm →
    let b := s.job.bar0
    let there := fun (x : StreamId) => x = s.cur ∨ x ∈ b.arrived ∨ s.job.always x = true
    let all := there .C ∧ there .A ∧ there .M ∧ there .V
    let next : BarState := { b with arrived := [], phase := (b.phase + 1) % 2 ^ 32 }
    let some_ : BarState := { b with arrived := b.arrived ++ [s.cur] }
    let put := fun (x : BarState) => (s.fenced 1).modJob fun j => { j with bar0 := x }
    let done := ((put some_).tellOwn onBar0 s.maker).modJob fun j => { j with bar0 := next }
    let takes := fun (f : FaultInfo) (i : Instr) => exec i s = .next (s.stopped (formLen h.form) (.fault f))
    (s.job.always s.cur = false → s.cur ∉ b.arrived → b.phase < 2 ^ 32 →
      (all → exec (.bara h d 0) s = (done.setS d (BitVec.ofNat 64 b.phase)).ends h .next) ∧
      (¬all → exec (.bara h d 0) s = ((put some_).setS d (BitVec.ofNat 64 b.phase)).ends h .next) ∧
      (s.str.bar = none → all → exec (.bar h 0) s = done.ends h .next) ∧
      (s.str.bar = none → ¬all → exec (.bar h 0) s = .next
        (((put some_).modStr fun t => { t with bar := some ⟨0, b.phase⟩ }).beginWait (.barrier 0 0)))) ∧
    let open_ := b.phase = (s.getS a).toNat % 2 ^ 32 ∧ ∃ x, s.job.always x = false;
    (¬open_ → exec (.barw h 0 a) s = (s.fenced 1).ends h .next) ∧
    (open_ → exec (.barw h 0 a) s = .next (s.beginWait (.barrier 0 0))) ∧
    (k ≠ 0 → recGang s.job.lrec = false →
      let f := { FaultInfo.of 0x20 with aux := k.toNat }
      takes f (.bara h d k) ∧ takes f (.barw h k a) ∧ takes f (.bar h k)) ∧
    (recGang s.job.lrec = true → recLevels s.job.lrec ≤ k.toNat →
      let f := { FaultInfo.of 0x22 with aux := k.toNat }
      takes f (.bara h d k) ∧ takes f (.barw h k a) ∧ takes f (.bar h k))

/-- R396, R397, R400: a job's arrival at an object of level k: one atomic adds 1 to COUNT, or, when it is the last of
EXPECT, makes COUNT 0 and PHASE one more; an object that breaks R400 takes the barrier fault and is not written. -/
def Obligations.BarrierObjectArrival : Prop :=
  ∀ (k : Nat) (x : Xl) (s : State), k ≠ 0 → k < 8 → s.memOk → s.sound → barrierXl k .rw 2 s = .ok x s →
    recallLine x.pa s = .ok () s → s.unowed s.agent →
    let bs := s.mem.readMany x.pa 64
    let count := leNum (bs.take 4)
    let phase := leNum ((bs.drop 4).take 4)
    let expect := leNum ((bs.drop 8).take 8)
    let bad := expect = 0 ∨ recS s.job.lrec k < expect ∨ expect ≤ count ∨ ∃ b ∈ bs.drop 16, b ≠ 0
    (¬bad → ∃ t : State, jobArrival k s = .ok phase t ∧ s.restSame t ∧ s.mem.became x.pa
      (if count + 1 = expect then leList 4 0 ++ leList 4 (phase + 1) else leList 4 (count + 1) ++ leList 4 phase) t.mem ∧
      (barAt t.job k).last = some phase ∧ (barAt t.job k).arrived = []) ∧
    (bad → ∃ t : State, jobArrival k s = .error (.fault { FaultInfo.of 0x22 with aux := k }) t ∧ t.mem = s.mem)

/-- R395, R406: JOIN makes the stream joined with the program counter at the JOIN, counts it as arrived at level 0, and on
the M stream closes every lineage and triggers every Basin entry: with the arrivals of the job made that it completes at wider
levels, of which there are none where another stream has still to arrive. The place of the program counter is a reading (log
entry 55). -/
def Obligations.JoinResult : Prop :=
  ∀ (h : Hdr) (s : State), s.runs h allStreams → s.calm →
    let joins := fun (u : State) =>
      let t := (u.modStr fun t => { t with st := .joined }).settleBar0
      (if s.cur = .M then t.modJob fun j =>
        ({ j with lineages := j.lineages.map fun l => { l with closed := true, ndecl := l.niss } } : Job).demand fun _ => true
      else t).ends h .stay
    (s.stillOpen → exec (.join h) s = joins (s.fenced 1)) ∧
    (∀ u, joinArrivals (s.fenced 1) = .ok () u → u.cur = s.cur → exec (.join h) s = joins u) ∧
    (recGang s.job.lrec = true → recLevels s.job.lrec = 2 →
      (∀ y, y ≠ s.cur → y ∈ (barAt s.job 1).arrived ∨ s.job.always y = true) →
      ∀ p pa u v, phaseNow 1 (s.fenced 1) = .ok (p, pa) u → u.job = (s.fenced 1).job → u.cur = s.cur →
        (barAt s.job 1).last ≠ some p → jobArrival 1 (u.fenced (s.job.barScope 1)) = .ok p v →
        joinArrivals (s.fenced 1) = .ok () v)

/-- R401, R402: SETF stores sB at the flag word and SETF.ADD adds to it, at its home and before the stream goes on; WAITF
gives the word to sD when its condition holds, and waits when it does not. -/
def Obligations.FlagResults : Prop :=
  ∀ (h : Hdr) (d a b : SReg) (scp ev : BitVec 3) (imm : Imm) (x : Xl) (s : State),
    s.runs h allStreams → s.calm → s.memOk →
    let va := (s.getS a + imm.signExtend 64).toNat
    let v := s.getS b
    let old := leNum (s.mem.readMany x.pa 8)
    let w : Word := BitVec.ofNat 64 old
    va % 8 = 0 →
    (s.reaches .w 1 va 8 true x → ∃ t : State, exec (.setf h a b scp ev imm) s = t.ends h .next ∧
      s.mem.became x.pa (leList 8 v.toNat) t.mem ∧ (s.fenced scp.toNat).job.sameBut t.job ∧ s.restSame t) ∧
    (s.reaches .rw 2 va 8 true x → ∃ t : State, exec (.setfAdd h a b scp ev imm) s = t.ends h .next ∧
      s.mem.became x.pa (leList 8 (w + v).toNat) t.mem ∧ (s.fenced scp.toNat).job.sameBut t.job ∧ s.restSame t) ∧
    (s.reaches .r 0 va 8 false x → ∀ cc, let holds :=
        match cc with
        | .eq => w = v
        | .ne => w ≠ v
        | .geu => v.toNat ≤ w.toNat
        | .ge => v.toInt ≤ w.toInt
        | .bs => w &&& v ≠ 0
      ∃ t : State, t.mem = s.mem ∧ t.job = s.job ∧ t.rest = s.rest ∧
        (holds → exec (.waitf h cc d a b scp ev imm) s = ((t.fenced scp.toNat).setS d w).ends h .next) ∧
        (¬holds → exec (.waitf h cc d a b scp ev imm) s = .next (t.beginWait (.flag x.pa))))

/-- R389 to R392: SEMSET sets count and ceiling; SEMACQ takes k units when they are there and no stream that waits ahead is
still to be served, else joins the waiters; SEMREL gives k units back, or at an over-release faults with its restart point
after it. A semaphore serves its waiters in order, each as soon as the count reaches what it asks. A waiter that is served
keeps its place with 0 units to come: a reading (log entry 44). -/
def Obligations.SemaphoreResults : Prop :=
  (∀ (h : Hdr) (n k : BitVec 4) (a : SReg) (s : State), s.runs h allStreams → s.calm →
    let m := semAt s.job n.toNat
    let u := k.toNat + 1
    let v := s.getS a
    let put := fun (m : Sem) => s.modJob fun j => setSem j n.toNat m
    let serves := fun (m : Sem) => (s.tellOwn (onSem n.toNat) s.maker).modJob fun j => setSem j n.toNat m.serve
    let ceil := (v.extractLsb' 16 16).toNat
    let mine := m.waiters.find? fun w => w.1 == s.cur
    let free := u ≤ m.count ∧ ∀ w ∈ m.waiters, w.2 = 0
    let acq := exec (.semacq h n k) s
    let waits := fun (t : State) => acq = .next (t.beginWait (.sem n.toNat (formLen h.form)));
    exec (.semset h n a) s =
      (serves { m with ceil := ceil, count := min (v.extractLsb' 0 16).toNat ceil }).ends h .next ∧
    (mine = none → free → acq = (put { m with count := m.count - u }).ends h .next) ∧
    (mine = none → ¬free → waits (put { m with waiters := m.waiters ++ [(s.cur, u)] })) ∧
    (mine = some (s.cur, 0) →
      acq = (put { m with waiters := m.waiters.filter fun w => w.1 != s.cur }).ends h .next) ∧
    (∀ c, mine = some (s.cur, c + 1) → waits s) ∧
    (m.count + u ≤ m.ceil →
      exec (.semrel h n k) s = (serves { m with count := m.count + u }).ends h .next) ∧
    (m.ceil < m.count + u → exec (.semrel h n k) s = .next (s.stopped (formLen h.form) (.after
      { FaultInfo.of 0x21 with aux := n.toNat + u * 16 + m.count * 2 ^ 16 + m.ceil * 2 ^ 32 })))) ∧
  ∀ (m : Sem), (m.waiters = [] → m.serve = m) ∧
    ∀ x c r, m.waiters = (x, c) :: r →
      (m.count < c → m.serve = m) ∧
      (c ≤ m.count →
        let rest := ({ m with count := m.count - c, waiters := r } : Sem).serve
        m.serve = { rest with waiters := (x, 0) :: rest.waiters })

/-- R363, R404, R405: TLGET writes the completed count of a timeline to sD, and TLGET.I its issued count, as they stand when
it issues; they are no access and order nothing: the stream's pending stores stay, and nothing else changes. TLWAIT ends at
once for number 0 or a count that is reached, waits for one that is not, faults on a channel that the job does not have, and
raises the status of a copy that asks for it once. That TLGET performs no pending store follows R405 against R388 (log entry
53). -/
def Obligations.TimelineResults : Prop :=
  ∀ (h : Hdr) (t : BitVec 3) (d a : SReg) (imm : BitVec 45) (s : State), s.runs h allStreams →
    let n := (s.getS a + imm.zeroExtend 64).toNat
    let l := vget ⟨0, 0, []⟩ s.job.tl t.toNat
    let wait := exec (.tlwait h t a imm) s
    let u := if t = 4 then s.modJob fun j => j.demand fun o => decide (o.num ≤ n) else s
    let exists_ := 4 ≤ t.toNat ∨ t.toNat < recChan s.job.lrec
    exec (.tlget h d t) s = (s.setS d (BitVec.ofNat 64 l.completed)).ends h .next ∧
    exec (.tlgetI h d t) s = (s.setS d (BitVec.ofNat 64 l.issued)).ends h .next ∧
    (s.calm →
    (n = 0 → wait = s.ends h .next) ∧
    (n ≠ 0 → ¬exists_ → wait = .next (s.stopped (formLen h.form)
      (.fault { FaultInfo.of 0x23 with aux := t.toNat, tl := t.toNat }))) ∧
    (n ≠ 0 → exists_ → n ≤ l.completed → statusFault s.job t.toNat n = none → wait = u.ends h .next) ∧
    (n ≠ 0 → exists_ → l.completed < n → wait = .next (u.beginWait (.timeline t.toNat))) ∧
    (n ≠ 0 → t.toNat < recChan s.job.lrec → t.toNat < 4 → n ≤ l.completed → ∀ num v,
      statusFault s.job t.toNat n = some (num, v) →
      wait = .next ((s.modJob fun j => { j with
          status5 := vset j.status5 t.toNat (Cells.set 0 (vget [] j.status5 t.toNat) num (v + 512)) }).stopped
        (formLen h.form) (.fault { FaultInfo.of 0x1D with
          eng := 4, chan := t.toNat, opnum := num, tl := t.toNat, aux := v % 256 }))))

/-! ## Engine instructions (chapters 10, 11 and 13) -/

/-- R226, R276, R277, R279, R280, R282, R286, R268, R288: the vector operations and VROW check their streams,
registers and ports at issue, are numbered on the timeline of their engine, capture their streams, window registers
and ARGV registers, and enter the Weir with the keys of what they read and write. What breaks a limit takes its fault
and issues nothing. What an ARGV register captures is a reading (log entry 47). -/
def Obligations.VectorIssue : Prop :=
  ∀ (h : Hdr) (op : RedOp) (x t2 abs : Bool) (clr : DrainClear) (d v t : VReg) (st : StReg) (ss : SReg) (a : AccReg)
    (q : BitVec 2) (n : BitVec 6) (nc : BitVec 7) (px py pz : Slot) (s : State),
    s.runs h [.V] → s.calm → s.mayEnter = true →
    let j := s.job
    let w := j.stWords st.toNat
    let r := rowOffset w (s.getS ss)
    let keys := streamKeys j.window r (stExt r)
    let bind := fun (p : Slot) => j.bindBreach [⟨p.toNat, false, stE w 0⟩]
    let vmov := j.bindBreach [⟨px.toNat, t2, 64⟩, ⟨py.toNat, t2, 64⟩, ⟨pz.toNat, t2, 64⟩]
    let slots := [px.toNat, py.toNat, pz.toNat];
    (stBad w = false → vgeomBad w px.toNat = false →
      (∀ rs, j.resolveRun true d.toNat (stE w 1) = some rs →
        (bind px = none → exec (.vld h d st ss px) s =
          (s.entered (.vld h d st ss px) 5 (j.portKeys [px.toNat] { Keys.none with sr := keys, vw := rs }) fun o =>
            { o with sts := [r], vd := rs, argv := [j.argvOf px.toNat] }).ends h .next) ∧
        (∀ b, bind px = some b → exec (.vld h d st ss px) s = s.faultsWith h { FaultInfo.of 0x1C with aux := b }) ∧
        (bind px = none → exec (.vst h st d ss px) s =
          (s.entered (.vst h st d ss px) 5 (j.portKeys [px.toNat] { Keys.none with sw := keys, vr := rs }) fun o =>
            { o with sts := [r], vs := rs, argv := [j.argvOf px.toNat] }).ends h .next) ∧
        (∀ b, bind px = some b → exec (.vst h st d ss px) s = s.faultsWith h { FaultInfo.of 0x1C with aux := b })) ∧
      (j.resolveRun true d.toNat (stE w 1) = none →
        exec (.vld h d st ss px) s = s.faultsWith h (FaultInfo.of 0x1A) ∧
        exec (.vst h st d ss px) s = s.faultsWith h (FaultInfo.of 0x1A)) ∧
      (bind px = none → exec (.vredStream h op x q st px) s =
        (s.entered (.vredStream h op x q st px) 5
          (j.portKeys [px.toNat] { Keys.none with sr := streamKeys j.window w (stExt w) }) fun o =>
          { o with sts := [w], argv := [j.argvOf px.toNat] }).ends h .next) ∧
      (∀ b, bind px = some b → exec (.vredStream h op x q st px) s = s.faultsWith h { FaultInfo.of 0x1C with aux := b })) ∧
    (∀ i, (i = .vld h d st ss px ∨ i = .vst h st d ss px ∨ i = .vredStream h op x q st px) →
      (stBad w = true → exec i s = s.faultsWith h { FaultInfo.of 0x18 with aux := st.toNat }) ∧
      (stBad w = false → vgeomBad w px.toNat = true → exec i s = s.faultsWith h (FaultInfo.of 0x1A))) ∧
    (∀ vs vt vd, j.resolveRun true v.toNat (n.toNat + 1) = some vs →
      (if t2 then j.resolveRun true t.toNat (n.toNat + 1) = some vt else vt = []) →
      j.resolveRun true d.toNat (n.toNat + 1) = some vd →
      (vmov = none → exec (.vmov h t2 d v t n px py pz) s =
        (s.entered (.vmov h t2 d v t n px py pz) 5 (j.portKeys slots { Keys.none with vr := vs ++ vt, vw := vd }) fun o =>
          { o with vd := vd, vs := vs, vt := vt, argv := slots.map j.argvOf }).ends h .next) ∧
      (∀ b, vmov = some b → exec (.vmov h t2 d v t n px py pz) s = s.faultsWith h { FaultInfo.of 0x1C with aux := b })) ∧
    (j.resolveRun true v.toNat (n.toNat + 1) = none →
      exec (.vmov h t2 d v t n px py pz) s = s.faultsWith h (FaultInfo.of 0x1A) ∧
      exec (.vred h op x q v n) s = s.faultsWith h (FaultInfo.of 0x1A)) ∧
    (∀ vs, j.resolveRun true v.toNat (n.toNat + 1) = some vs → exec (.vred h op x q v n) s =
      (s.entered (.vred h op x q v n) 5 { Keys.none with vr := vs } fun o => { o with vs := vs }).ends h .next) ∧
    (∀ i, j.resolve true d.toNat = some i → exec (.vdrain h clr d q) s =
      (s.entered (.vdrain h clr d q) 5 { Keys.none with vw := [i] } fun o => { o with vd := [i] }).ends h .next) ∧
    (j.resolve true d.toNat = none → exec (.vdrain h clr d q) s = s.faultsWith h (FaultInfo.of 0x1A)) ∧
    (a.toNat < recAccs j.lrec → ∀ rs, j.resolveRun true d.toNat 3 = some rs → exec (.vrow h abs d a nc) s =
      (s.entered (.vrow h abs d a nc) 5 { Keys.none with ar := [a.toNat], vw := rs } fun o => { o with vd := rs }).ends h
        .next) ∧
    (recAccs j.lrec ≤ a.toNat ∨ j.resolveRun true d.toNat 3 = none →
      exec (.vrow h abs d a nc) s = s.faultsWith h (FaultInfo.of 0x19))

/-- R276, R283, R284, R288: the lane instructions, on registers that no earlier operation holds. Each lane of the result is
given; every other register keeps its lanes; a register outside the window takes the vector operand fault. -/
def Obligations.LaneResults : Prop :=
  ∀ (h : Hdr) (d v t : VReg) (ss : SReg) (step : BitVec 21) (l : BitVec 6) (sg : Bool) (p : PReg) (base : BitVec 9)
    (size : BitVec 10) (s : State), s.runs h [.V] →
    let j := s.job
    let writes := fun (i : Nat) (f : Nat → Lane) => (s.modJob fun j => j.setLanes i ((List.range 64).map f)).ends h .next
    let wrong := s.faultsWith h (FaultInfo.of 0x1A);
    (∀ i, j.resolve true d.toNat = some i → s.lanesFree [] [i] →
      exec (.vsplat h d ss) s = writes i (fun _ => (s.getS ss).extractLsb' 0 32) ∧
      exec (.vidx h d ss step) s =
        writes i (fun k => (s.getS ss + BitVec.ofNat 64 k * step.signExtend 64).extractLsb' 0 32) ∧
      exec (.vput h d l ss) s = (s.modJob fun j => j.setLane i l.toNat ((s.getS ss).extractLsb' 0 32)).ends h .next) ∧
    (∀ i a b, j.resolve true d.toNat = some i → j.resolve true v.toNat = some a → j.resolve true t.toNat = some b →
      s.lanesFree [a, b] [i] →
      exec (.vperm h d v t) s =
        writes i (fun k => let x := (j.lane b k).toNat; if x < 64 then j.lane a x else 0)) ∧
    (∀ a, j.resolve true v.toNat = some a → s.lanesFree [a] [] →
      exec (.vget h sg ss v l) s = (s.setS ss (let y := j.lane a l.toNat
        if sg then y.signExtend 64 else y.setWidth 64)).ends h .next ∧
      ∀ cc, exec (.vtest h cc p v) s = (s.setP p (vcondHolds cc (j.lanes a))).ends h .next) ∧
    (base.toNat + size.toNat ≤ recVregs j.lrec → exec (.vrbase h base size) s =
      (s.modJob fun j => { j with rb := base.toNat, rs := size.toNat, rot := 0 }).ends h .next) ∧
    (recVregs j.lrec < base.toNat + size.toNat → exec (.vrbase h base size) s = wrong) ∧
    (j.resolve true d.toNat = none → exec (.vsplat h d ss) s = wrong ∧ exec (.vidx h d ss step) s = wrong ∧
      exec (.vput h d l ss) s = wrong ∧ exec (.vperm h d v t) s = wrong ∧ exec (.vget h sg ss d l) s = wrong ∧
      ∀ cc, exec (.vtest h cc p d) s = wrong) ∧
    (Cells.wf 0 j.vreg = true → ∀ i k m, m < 64 → ∀ e x,
      (j.setLanes i ((List.range 64).map e)).lane k m = (if k = i then e m else j.lane k m) ∧
      (j.setLane i l.toNat x).lane k m = (if k = i ∧ m = l.toNat then x else j.lane k m))

/-- R255, R256, R258 to R267, R269, R272, R322, R338: the matrix operations check their operands at issue, bind the
image of the job's last MLDS, are numbered on timeline 4, take their role in a lineage of the tile that they write,
and enter the Weir with their keys. What breaks a limit takes the matrix operand fault. When an overwritten source
closes its lineage is a reading (log entry 45); the keys of MMULG, whose row count is not known at issue, are the model's choice
(log entry 66). -/
def Obligations.MatrixIssue : Prop :=
  ∀ (h : Hdr) (z : Bool) (d a2 : AccReg) (r0 : BitVec 6) (m nc : BitVec 7) (k : BitVec 5) (l : Bool) (g : BitVec 9)
    (a b : StReg) (ss : SReg) (v : VReg) (pa pb : Slot) (s : State),
    s.runs h [.M] → s.calm → s.mayEnter = true →
    let j := s.job
    let wa := j.stWords a.toNat
    let wb := j.stWords b.toNat
    let sr := fun (w : List Word) => streamKeys j.window w (stExt w)
    let bad := fun (i : Instr) => exec i s = s.faultsWith h (FaultInfo.of 0x19)
    let loads := fun (i : Instr) (u : State) (key : Option BasinKey) =>
      ((u.entered i 4 (u.job.portKeys [pb.toNat] { Keys.none with sr := streamKeys u.job.window wb (stExt wb) }) fun o =>
        { o with sts := [wb], key := key, argv := [u.job.argvOf pb.toNat], scal := BitVec.ofNat 64 u.job.bdom }).modJob fun j =>
          { j with last := some ⟨(vget ⟨0, 0, []⟩ j.tl 4).issued, stE wb 0, stE wb 1, stFmt wb, key⟩ }).ends h .next
    let tile := { Keys.none with ar := [d.toNat], aw := [d.toNat] };
    (stBad wb = false → tileBad wb 2 pb.toNat = false → j.bindBreach [⟨pb.toNat, false, stE wb 1⟩] = none →
      exec (.mlds h b pb) s = loads (.mlds h b pb) s none ∧
      ∀ key u, keyOf wb pb.toNat j.bdom j.nextId s = .ok key u → u.calm → u.mayEnter = true →
        exec (.mldsK h b pb) s = loads (.mldsK h b pb) u key) ∧
    (stBad wb = false → tileBad wb 2 pb.toNat = true → bad (.mlds h b pb) ∧ bad (.mldsK h b pb)) ∧
    (j.accOk d.toNat = true → stBad wa = false →
      (∀ i, j.last = some i → j.bindBreach [⟨pa.toNat, false, stE wa 0⟩] = none →
        (movingBad i wa r0.toNat pa.toNat false = false → exec (.mmul h z d r0 a pa) s =
          let ks := j.portKeys [pa.toNat] { tile with sr := sr wa }
          let prov := ks.sr.findSome? fun r => j.markAt r.1 r.2
          let late := prov.isSome && i.key.isSome;
          ((s.accumulates (.mmul h z d r0 a pa) z d.toNat ks fun o =>
            { o with
              sts := [wa], argv := [j.argvOf pa.toNat], img := i.num, key := i.key
              basin := if prov.isSome then none else s.basinEntry i.key
              late := if late then some j.basinHold else none
              stall := if late then prov.map fun t => ⟨.lineage (j.srcOf t), s.cycle⟩ else none }).rowsTrigger
              i.key).ends h .next) ∧
        (movingBad i wa r0.toNat pa.toNat true = false → exec (.mdist h z d r0 a pa) s =
          ((s.accumulates (.mdist h z d r0 a pa) z d.toNat (j.portKeys [pa.toNat] { tile with sr := sr wa }) fun o =>
            { o with sts := [wa], argv := [j.argvOf pa.toNat], img := i.num, key := i.key }).rowsTrigger
              i.key).ends h .next)) ∧
      (∀ i, j.last = some i → movingBad i wa r0.toNat pa.toNat false = true → bad (.mmul h z d r0 a pa)) ∧
      (∀ i, j.last = some i → movingBad i wa r0.toNat pa.toNat true = true → bad (.mdist h z d r0 a pa)) ∧
      (j.last = none → bad (.mmul h z d r0 a pa) ∧ bad (.mdist h z d r0 a pa)) ∧
      (rowsBad wa r0.toNat true = false → j.bindBreach [⟨pa.toNat, false, stE wa 0⟩] = none →
        exec (.mst h a d r0 pa) s =
          (s.entered (.mst h a d r0 pa) 4 (j.portKeys [pa.toNat] { Keys.none with ar := [d.toNat], sw := sr wa }) fun o =>
            { o with sts := [wa], argv := [j.argvOf pa.toNat] }).ends h .next) ∧
      (rowsBad wa r0.toNat false = false → exec (.mlda h d r0 a) s =
        ((s.modJob fun j => j.closeFor d.toNat).entered (.mlda h d r0 a) 4
          { Keys.none with aw := [d.toNat], sr := sr wa } fun o => { o with sts := [wa] }).ends h .next) ∧
      (rowsBad wa r0.toNat true = true → bad (.mst h a d r0 pa)) ∧
      (rowsBad wa r0.toNat false = true → bad (.mlda h d r0 a))) ∧
    (∀ i, j.accOk d.toNat = true → j.accOk a2.toNat = true → j.last = some i →
      let fits := fmtClass i.fmt = some 0 ∧ i.k = 64 ∧ a2 ≠ d ∧ r0.toNat + m.toNat ≤ 64
      (fits → exec (.mmulAm h z d r0 a2 m) s =
        (s.accumulates (.mmulAm h z d r0 a2 m) z d.toNat { tile with ar := [d.toNat, a2.toNat] } fun o =>
          { o with img := i.num, key := i.key }).ends h .next) ∧
      (¬fits → bad (.mmulAm h z d r0 a2 m))) ∧
    (j.accOk d.toNat = true → stBad wa = false → stBad wb = false →
      let wrong := operandBad wa 2 pa.toNat || tileBad wb 3 pb.toNat || !pairOk (stFmt wb) (stFmt wa) || stE wa 0 != stE wb 0
      let table := s.getS ss
      let accs := (List.range (Nat.min (recAccs j.lrec - d.toNat) ((stE wa 1 + 63) / 64))).map (d.toNat + ·)
      (wrong = true ∨ j.last = none → bad (.mmulg h z d a b ss g pa pb)) ∧
      (wrong = false → j.last ≠ none → table.toNat % 8 = 0 →
        j.bindBreach [⟨pa.toNat, false, stE wa 0⟩, ⟨pb.toNat, false, stE wb 1⟩] = none →
        exec (.mmulg h z d a b ss g pa pb) s =
          (s.entered (.mmulg h z d a b ss g pa pb) 4 (j.portKeys [pa.toNat, pb.toNat]
            { Keys.none with sr := sr wa ++ sr wb ++ scratchKey table.toNat (8 * g.toNat), ar := accs, aw := accs }) fun o =>
            { o with sts := [wa, wb], scal := table, argv := [j.argvOf pa.toNat, j.argvOf pb.toNat] }).ends h .next)) ∧
    (j.accOk d.toNat = true →
      (exec (.mzero h d) s = ((s.modJob fun j => j.closeFor d.toNat).entered (.mzero h d) 4
        { Keys.none with aw := [d.toNat] } fun o => o).ends h .next) ∧
      (∀ rs, j.resolveRun false v.toNat (2 * k.toNat) = some rs → exec (.mtopk h l v d ss k nc) s =
        (s.entered (.mtopk h l v d ss k nc) 4 { Keys.none with ar := [d.toNat], vw := rs } fun o =>
          { o with vd := rs, scal := s.getS ss }).ends h .next) ∧
      (j.resolveRun false v.toNat (2 * k.toNat) = none → bad (.mtopk h l v d ss k nc))) ∧
    (j.accOk d.toNat = false → bad (.mmulAm h z d r0 a2 m) ∧ bad (.mzero h d) ∧ bad (.mtopk h l v d ss k nc) ∧
      (stBad wa = false → bad (.mmul h z d r0 a pa) ∧ bad (.mdist h z d r0 a pa) ∧ bad (.mst h a d r0 pa) ∧
        bad (.mlda h d r0 a) ∧ (stBad wb = false → bad (.mmulg h z d a b ss g pa pb)))) ∧
    ((stBad wa = true → exec (.mmul h z d r0 a pa) s = s.faultsWith h { FaultInfo.of 0x18 with aux := a.toNat }) ∧
      (stBad wb = true → exec (.mlds h b pb) s = s.faultsWith h { FaultInfo.of 0x18 with aux := b.toNat }))

/-- R320, R325, R333, R334: MPUB publishes a tile as the source of a lineage with the lowest free tag and n contributions
declared, when the job has a tag, the tile is in no lineage and the correction store has room, and else has no effect; it
waits for operations that write the tile. SETTLE and SETTLE.ALL end when no lineage has one of their accumulators, and else
close those that have and wait. LQRY, LQRY.T and LQRY.R give their words. -/
def Obligations.SpillResults : Prop :=
  ∀ (h : Hdr) (d : AccReg) (n t : BitVec 4) (mask : BitVec 8) (ss : SReg) (s : State), s.runs h [.M] →
    let j := s.job
    let a := d.toNat
    let bad := fun (i : Instr) => exec i s = s.faultsWith h (FaultInfo.of 0x19)
    let busy := j.entries.any fun e => e.keys.aw.contains a
    let free := fun (t : Nat) => (j.lineage t).isNone
    let room := (j.lineages.any fun l => l.holds (.acc a)) = false ∧ 1 + n.toNat ≤ s.freeTiles
    let named := fun (l : Lineage) => l.names fun a => mask.getLsbD a
    let settles := fun (i : Instr) (p : Lineage → Bool) =>
      ((∀ l ∈ j.lineages, p l = false) → exec i s = s.ends h .next) ∧
      (∀ l r, j.lineages.filter p = l :: r → ∃ u : State, exec i s = .next (u.beginWait (.settle l.src)) ∧
        u.job.lineages = j.lineages.map (fun m => if p m then { m with closed := true, ndecl := m.niss } else m) ∧
        u.mem = s.mem ∧ u.rest = s.rest ∧ u.job.acc = j.acc ∧ u.job.vreg = j.vreg);
    (recAccs j.lrec ≤ a → bad (.mpub h d n) ∧ bad (.lqry h ss d)) ∧
    (a < recAccs j.lrec →
      (busy = true → ∃ u : State, exec (.mpub h d n) s = .next (u.beginWait (.order 1 a)) ∧ u.job.lineages = j.lineages) ∧
      (busy = false → (∀ t < 16, free t = false) ∨ ¬room → exec (.mpub h d n) s = s.ends h .next) ∧
      (busy = false → room → ∀ t < 16, free t = true → (∀ u < t, free u = false) →
        exec (.mpub h d n) s = (s.modJob fun j => { j with
          lineages := j.lineages ++ [⟨t, a, j.nextId, n.toNat, n.toNat, 0, 0, false,
            (j.acc.filter fun e => e.1 / 4096 == a).map fun e => (e.1 % 4096, e.2), [], []⟩] }).ends h .next) ∧
      exec (.lqry h ss d) s = (s.setS ss (BitVec.ofNat 64 (lqryAcc j a))).ends h .next) ∧
    ((∀ a, mask.getLsbD a = true → a < recAccs j.lrec) → settles (.settle h mask) named) ∧
    ((∃ a, mask.getLsbD a = true ∧ recAccs j.lrec ≤ a) → bad (.settle h mask)) ∧
    settles (.settleAll h) (fun _ => true) ∧
    exec (.lqryT h ss t) s = (s.setS ss (BitVec.ofNat 64 (lqryTag j t.toNat))).ends h .next ∧
    exec (.lqryR h ss) s = (s.setS ss (BitVec.ofNat 64
      (s.freeTiles * 2 ^ 16 + (16 - j.lineages.length) * 2 ^ 8 + (4 - j.recorded)))).ends h .next

/-! ## Port slots (chapter 12) -/

/-- R308 to R313: PLOAD reads 264 bytes, installs the image when it breaks no rule, and writes its status to sD; PSGET and
PSSET read and write one item of a slot's state, PRESET clears the state that elements leave, PINFO describes the program;
a slot above PSLOTS is the binding fault. No Weir entry of the job is there to wait for, nor a relaxed store, and no stream
waits for what these leave behind them in the Weir. An item reads as it was last
written, WDEPTH as the low four bits written and at most 8; a write changes no other item. -/
def Obligations.PortInstructionResults : Prop :=
  (∀ (h : Hdr) (n : Slot) (d a : SReg) (imm : Imm) (i : BitVec 12) (s : State), s.runs h [.C] → s.calm →
     s.job.entries = [] → s.job.parity = [] → s.weirFree = true → s.unwaited →
     let slot := s.job.slotAt n.toNat
     let put := fun (u : State) (p : PortSlot) => u.modJob fun j => { j with slots := vset j.slots n.toNat p }
     let wrong := s.faultsWith h { FaultInfo.of 0x1C with aux := n.toNat }
     let va := (s.getS a + imm.signExtend 64).toNat
     let v := (s.getS a).extractLsb' 0 32
     let loads := fun (u : State) (bs : List Byte) =>
       let r := install slot (words32 66 bs)
       exec (.pload h d n a imm) s = ((put u r.2).setS d (BitVec.ofNat 64 r.1)).ends h .next;
     (recPslots s.job.lrec < n.toNat → exec (.pload h d n a imm) s = wrong ∧ exec (.psget h d n i) s = wrong ∧
       exec (.psset h n i a) s = wrong ∧ exec (.preset h n) s = wrong ∧ exec (.pinfo h d n) s = wrong) ∧
     (n.toNat ≤ recPslots s.job.lrec →
       (∀ off, vrange va = .scratch off → off + 264 ≤ s.job.window → va % 8 = 0 → s.unheld → s.unstashed →
         s.unowned off 264 → s.sound → loads (s.readAt off 264) (s.mem.readMany (s.job.windowPa off) 264)) ∧
       (∀ bs u, readImage n.toNat va s = .ok bs u → u.job.slots = s.job.slots → u.cur = s.cur → u.unwaited →
         let u' := u.modJob fun j => j.dropHeld u.cur
         loads u' bs) ∧
       exec (.psget h d n i) s = (s.passed.setS d (BitVec.ofNat 64 (slotItem slot i.toNat))).ends h .next ∧
       exec (.psset h n i a) s = (put s.passed (setSlotItem slot i.toNat v)).ends h .next ∧
       exec (.preset h n) s =
         (put s.passed { slot with carry := [], win := [], wdepth := 0, satn := 0, flun := 0 }).ends h .next ∧
       exec (.pinfo h d n) s = (s.setS d (BitVec.ofNat 64 (slotInfo slot))).ends h .next)) ∧
  (∀ (p : PortSlot) (i k : Nat) (v : Lane), Cells.wf 0 p.carry = true → Cells.wf 0 p.win = true → i ≤ 0x403 → k ≤ 0x403 →
     slotItem (setSlotItem p i v) k =
       (if k ≠ i then slotItem p k else if i = 0x403 then min (v.toNat % 16) 8 else v.toNat) ∧
     Cells.wf 0 (setSlotItem p i v).carry = true ∧ Cells.wf 0 (setSlotItem p i v).win = true ∧
     (setSlotItem p i v).image = p.image)

/-! ## System registers, traps, launches (chapters 07 and 18) -/

/-- R53, R75, R118, R142, R194, R195, R196: what SRD writes to sD for every system register of the map. -/
def Obligations.SystemRegisterReads : Prop :=
  ∀ (h : Hdr) (d : SReg) (s : State), s.runs h allStreams → s.job.lrec ≠ [] →
    let j := s.job
    let gives := fun (r : Nat) (v : Nat) => exec (.srd h d (BitVec.ofNat 12 r)) s = (s.setS d (BitVec.ofNat 64 v)).ends h .next
    let win := fun (n : Nat) => vget ⟨false, 0, 0, 0, 0⟩ j.stash n;
    gives 0x000 (s.hub.pod.toNat * 2 ^ 42 + s.hub.pos.toNat * 2 ^ 32 + j.die % 8 * 2 ^ 13 + j.core / 8 % 4 * 2 ^ 11 +
      j.core % 8 * 2 ^ 8 + j.slot % 8) ∧
    gives 0x001 (j.ctx.asid % 2 ^ 16 * 2 ^ 48 + j.num % 2 ^ 32) ∧
    gives 0x002 (if recWorld j.lrec then 1 else 0) ∧
    gives 0x003 s.cycle ∧
    (∀ k < 8, gives (0x010 + k) (recCoord j.lrec j.index k) ∧ gives (0x018 + k) (recN j.lrec k)) ∧
    gives 0x020 j.ctbase.toNat ∧
    (∀ n < 4, gives (0x024 + n) (vget 0 j.crange n).toNat ∧ gives (0x028 + n) (vget 0 j.ctide n) ∧
      gives (0x02C + n) (vget 0 j.seed n).toNat) ∧
    gives 0x030 j.bhold ∧
    gives 0x031 j.bdom ∧
    (∀ n < 8,
      gives (0x040 + n) (if (win n).v then (win n).gva % 2 ^ 41 * 2 ^ 16 + 1 else 0) ∧
      gives (0x048 + n) (if (win n).v then (win n).sizem1 % 128 * 2 ^ 32 + (win n).off % 128 * 2 ^ 16 + (win n).epri % 8 * 2
        else 0)) ∧
    gives 0x060 ((if j.trap.inTrap then 2 ^ 31 else 0) + streamNum j.trap.strm * 2 ^ 24 + j.trap.code % 2 ^ 16 * 2 ^ 8 +
      j.trap.cause % 2 ^ 8) ∧
    gives 0x061 j.trap.tret.toNat ∧
    gives 0x062 j.trap.tfrec.toNat

/-- R118, R119, R194 to R197, R357: what SWR writes: of CTBASE, BHOLD, BDOM and TRET the fields marked RW; of CRANGEn and
LFSRn, for a channel that the job has, once every copy issued on it is complete (for CRANGEn, one on another channel that fills
channel n too, R373), until when it waits; of any other register nothing. -/
def Obligations.SystemRegisterWrites : Prop :=
  ∀ (h : Hdr) (a : SReg) (n : BitVec 2) (s : State), s.runs h [.C] →
    let v := s.getS a
    let swr := fun (r : Nat) => exec (.swr h (BitVec.ofNat 12 r) a) s
    let rw := v &&& 0x807F_FF00_007F_FF00
    let lo := (v.extractLsb' 8 15).toNat * 256
    let hi := ((v.extractLsb' 40 15).toNat + 1) * 256
    let empty := hi ≤ lo ∨ s.job.window < hi
    let seed : Lane := if v.extractLsb' 0 32 = 0 then 1 else v.extractLsb' 0 32;
    swr 0x020 = (s.modJob fun j => { j with ctbase := v &&& 0x01FF_FFFF_FFFC_0000 }).ends h .next ∧
    swr 0x030 = (s.modJob fun j => { j with bhold := v.toNat % 2 ^ 10 }).ends h .next ∧
    swr 0x031 = (s.modJob fun j => { j with bdom := v.toNat % 2 ^ 16 }).ends h .next ∧
    swr 0x061 = (s.modJob fun j => { j with trap := { j.trap with tret := v &&& 0x01FF_FFFF_FFFF_FFFE } }).ends h .next ∧
    (∀ r < 4096, r ∉ [0x020, 0x030, 0x031, 0x061] → swr r = s.ends h .next) ∧
    (recChan s.job.lrec ≤ n.toNat →
      exec (.crangeWrite h n a) s = s.ends h .next ∧ exec (.lfsrSeed h n a) s = s.ends h .next) ∧
    (n.toNat < recChan s.job.lrec → s.str.wait = none →
      ((∀ e ∈ s.job.entries, n.toNat ∉ e.fills) →
        (empty → exec (.crangeWrite h n a) s =
          (s.modJob fun j => { j with crange := vset j.crange n.toNat (rw &&& 0x7FFF_FFFF_FFFF_FFFF) }).ends h .next) ∧
        (¬empty → v.msb = false → exec (.crangeWrite h n a) s =
          (s.modJob fun j => { j with crange := vset j.crange n.toNat rw }).ends h .next) ∧
        (¬empty → v.msb = true → exec (.crangeWrite h n a) s =
          (s.modJob fun j => { j with
            crange := vset j.crange n.toNat rw, ctide := vset j.ctide n.toNat lo
            filled := vset j.filled n.toNat [] }).ends h .next)) ∧
      ((∀ e ∈ s.job.entries, e.fills.head? ≠ some n.toNat) →
        exec (.lfsrSeed h n a) s = (s.modJob fun j => { j with
          seed := vset j.seed n.toNat seed
          draws := Cells.clear (64 * n.toNat) (64 * n.toNat + 64) j.draws }).ends h .next) ∧
      ((∃ e ∈ s.job.entries, e.id < s.job.nextId ∧ n.toNat ∈ e.fills) →
        exec (.crangeWrite h n a) s = .next (s.beginWait (.copies n.toNat s.job.nextId))) ∧
      ((∃ e ∈ s.job.entries, e.id < s.job.nextId ∧ e.fills.head? = some n.toNat) →
        exec (.lfsrSeed h n a) s = .next (s.beginWait (.copies n.toNat s.job.nextId))))

/-- R198, R201, R421, R423, R424: a fault of stream x is taken. Its record is written at the job's next place, in
service or pending. A user-recoverable fault goes to the job's handler, when there is one: at once, with C's address,
frames and the fault in TRET, TSTAT and TFREC, unless C is held, halted or in a handler, or an older fault is pending; a second one on C within the
handler is a double fault, which goes to the operating system as every other fault does, with a notice. The stream,
other than C for its own handled fault, is held. No store of the hardware waits for the record's line, and nothing in the
order of a scratchpad holds the record back. The walk of the record's write and the fields of a double fault are
readings (log entries 16 and 33). -/
def Obligations.FaultIsTaken : Prop :=
  ∀ (f : FaultInfo) (x : StreamId) (loc : Xl) (s : State), f.strm = x → s.memOk →
    (∀ y, (s.job.str y).wait = none) → (s.job.str x).hold = none → s.noOutside (.part s.job.num (.strm .C)) →
    s.noOutside (.part s.job.num (.code .C)) →
    xlateNow s s.job.ctx .w (faultAddr s.job s.job.nextSeq) 256 = .ok loc → recallLine loc.pa s = .ok () s →
    (∀ p ∈ s.posted, lineOf p.pa ≠ lineOf loc.pa) →
    (∀ p keep, outsideWait (.hw p) (fun _ _ => false) (regionOf s.hub.pos.toNat loc.pa) 256 true keep s = .ok () s) →
    let seq := s.job.nextSeq
    let u := s.takeFault f (.stream x)
    let user := (f.cause == 0x09 || f.cause == 0x0C || f.cause == 0x1B || f.cause == 0x21) &&
      recTrapv s.job.lrec != 0 && recEntry s.job.lrec .C != 0
    let double := user && x == .C && s.job.trap.inTrap
    let now := user && !s.job.trap.inTrap && s.job.c.hold.isNone && !s.job.c.halted &&
      s.job.faults.all fun r => r.state != 2 || r.toOs
    let state := if user && !double && !now then 2 else 1
    let g := if double then { f with cause := 0x0F, aux := s.job.trap.seq } else f
    u.job.nextSeq = seq + 1 ∧ s.mem.became loc.pa (faultBytes g seq state) u.mem ∧ u.rest = s.rest ∧
    u.job.faults = s.job.faults ++ [⟨seq, g, state, !user || double, .stream x, none⟩] ∧
    (now = true → u.job.c.pc = recTrapv s.job.lrec ∧ u.job.c.frames = [] ∧ u.job.c.s = s.job.c.s ∧ u.job.c.p = s.job.c.p ∧
      u.job.trap.inTrap = true ∧ u.job.trap.strm = x ∧ u.job.trap.code = f.code ∧ u.job.trap.cause = f.cause ∧
      u.job.trap.tret = s.job.c.pc &&& 0x01FF_FFFF_FFFF_FFFE ∧
      u.job.trap.tfrec = BitVec.ofNat 64 (faultAddr s.job seq) ∧ u.job.trap.frames = s.job.c.frames) ∧
    (now = false → u.job.trap = s.job.trap ∧ u.job.c.pc = s.job.c.pc ∧ u.job.c.frames = s.job.c.frames) ∧
    (x ≠ .C ∨ user = false ∨ double = true → (u.job.str x).hold = some seq) ∧
    (user = false ∨ double = true → s.job.die ∈ u.hub.msi)

/-- R199, R200: TRAP takes the trap fault with its code, and BRK without debug the breakpoint fault, after the loop
end check has moved past them; BRK with debug halts the stream there. ERET outside a handler takes the ERET fault; in
one it ends the trap: C goes on at TRET with the frames set aside, and the stream of the fault is released at the
restart point that the record holds, which can be read, with no failed unit in memory. The restart point that the record
holds is a reading (log entry 19). -/
def Obligations.TrapBreakAndReturn : Prop :=
  ∀ (h : Hdr) (code : BitVec 16) (s : State), s.str.wait = none →
    let t := s.advance (formLen h.form)
    let after := fun (f : FaultInfo) => .next ((t.takeFault (s.ownFault f) (.stream s.cur)).settleStep);
    (s.runs h [.C] →
      exec (.trap h code) s = after { FaultInfo.of 0x0C with code := code.toNat } ∧
      (s.job.trap.inTrap = false → exec (.eret h) s = s.faultsWith h (FaultInfo.of 0x0D)) ∧
      (s.job.trap.inTrap = true → s.calm → s.sound → recordReady s.job.trap.seq (s.fenced 1) = .ok () (s.fenced 1) →
        ∃ u : State, exec (.eret h) s = u.ends h .stay ∧
        u.job.trap.inTrap = false ∧ u.job.c.frames = s.job.trap.frames ∧ u.job.c.pc = s.job.trap.tret ∧
        u.job.c.s = s.job.c.s ∧ u.job.c.p = s.job.c.p ∧
        (∀ r ∈ u.job.faults, r.seq ≠ s.job.trap.seq) ∧
        ∀ r, (s.job.faults.find? fun r => r.seq == s.job.trap.seq) = some r → r.info.strm ≠ .C →
          (s.job.str r.info.strm).hold = some s.job.trap.seq →
          (∀ q ∈ s.job.faults, q.seq ≠ s.job.trap.seq → q.holdsStream r.info.strm = false) →
          (u.job.str r.info.strm).hold = none ∧
          ∀ bs, (s.fenced 1).trapReturn.hwLoad (faultAddr s.job r.seq + 8) 8 = some bs →
            (u.job.str r.info.strm).pc =
              if leNum bs = r.info.pc then (s.job.str r.info.strm).pc else BitVec.ofNat 64 (leNum bs))) ∧
    (s.runs h allStreams →
      (s.job.debug = false → exec (.brk h code) s = after { FaultInfo.of 0x0E with code := code.toNat }) ∧
      (s.job.debug = true →
        exec (.brk h code) s = .next (t.settleStep.modStr fun u => { u with halted := true })))

/-- R76, R217: SLICEOF gives the home of an address: of a byte of the window, of a mapped address through its cached
translation, without asking for a permission; and NOHOME where there is none. A secure leaf is the world fault for a
job of the normal world. The words of the corners are readings (log entry 31); that an address with a bit of 63:57 set gives
NOHOME, and no fault, is the model's choice (log entry 65). -/
def Obligations.SliceofResult : Prop :=
  ∀ (h : Hdr) (d a : SReg) (imm : Imm) (s : State), s.runs h allStreams →
    let va := (s.getS a + imm.signExtend 64).toNat
    let j := s.job
    let run := exec (.sliceof h d a imm) s
    let gives := fun (v : Word) => run = (s.setS d v).ends h .next
    let nohome : Word := 0x8000_0000_0000_0000;
    (∀ off, vrange va = .scratch off →
      (off < j.window → gives (homeWord (.scratch j.die j.core 0) 2 0xE)) ∧ (j.window ≤ off → gives nohome)) ∧
    (vaOk va 1 = false → gives nohome) ∧
    (vrange va = .mapped → vaOk va 1 = true → ∀ t, s.tlbFind j.coreIx (j.tlbKind s.asker) j.ctx va = some t →
      let r := regionOf s.hub.pos.toNat (leafPa t.level t.leaf va)
      (j.ctx.sec = false → pteS t.leaf = true → run = s.faultsWith h { FaultInfo.of 0x13 with va := va }) ∧
      (j.ctx.sec = true ∨ pteS t.leaf = false →
        (s.backed r = true → gives (homeWord r (pteCC t.leaf) (pteHome t.leaf))) ∧ (s.backed r = false → gives nohome))) ∧
    ((∃ off, vrange va = .dtree off) ∨ vrange va = .reserved ∨ (∃ c o, vrange va = .copy c o) → gives nohome)

/-- R136, R144, R203, R409: LAUNCH reads its record and gives the reason for which it is not enqueued: a selector
with reserved bits, a queue that is not open to the process or is full, a broken record; with none, the record is
copied into the ring and TAIL counts it, in the same event, and sD becomes 0. A record that is not 256-byte aligned
in the mapped range is the address fault. That it acts in one event, and the address fault elsewhere, are readings (log
entries 35 and 58). -/
def Obligations.LaunchResult : Prop :=
  ∀ (h : Hdr) (d a b : SReg) (s : State), s.runs h [.C] → s.calm →
    let va := (s.getS a).toNat
    let sel := s.getS b
    let f := s.fenced 5
    let run := exec (.launch h d a b) s;
    (va % 256 ≠ 0 ∨ vrange va ≠ .mapped → run = f.faultsWith h { FaultInfo.of 0x14 with va := va }) ∧
    (va % 256 = 0 → ∀ x, f.reaches .r 0 va 256 false x →
      let words := wordsOf 32 (s.mem.readMany x.pa 256)
      let die := if sel.getLsbD 9 then s.job.die else (sel.extractLsb' 6 3).toNat
      let q := (sel.extractLsb' 0 6).toNat
      let dd := s.dieAt die
      let c := dd.context q
      let isOpen := s.hub.boot.started ∧ (dd.lq q 0).msb = true ∧ c.asid = s.job.ctx.asid ∧ c.sec = s.job.ctx.sec
      let gives := fun (n : Nat) => ∃ t : State, run = (t.setS d (BitVec.ofNat 64 n)).ends h .next ∧
        t.mem = s.mem ∧ t.job = f.job ∧ t.rest = s.rest ∧ ∀ i, (t.dieAt i).queues = (s.dieAt i).queues;
      (1024 ≤ sel.toNat → gives 0x12) ∧
      (sel.toNat < 1024 → ¬isOpen → gives 0x10) ∧
      (sel.toNat < 1024 → isOpen → dd.lqFull q = true → gives 0x11) ∧
      (sel.toNat < 1024 → isOpen → dd.lqFull q = false → recReason words c.sec false ≠ 0 →
        gives (recReason words c.sec false)) ∧
      (sel.toNat < 1024 → isOpen → dd.lqFull q = false → recReason words c.sec false = 0 →
        ∃ t : State, run = ((t.enqueue die q words none).setS d 0).ends h .next ∧
          t.mem = s.mem ∧ t.job = f.job ∧ t.rest = s.rest ∧
          (die < 8 → ((t.enqueue die q words none).dieAt die).ring q = dd.ring q ++
            [⟨words, c, s.hub.nextLaunch, s.cycle, [], none, 0, none, s.hub.arrival⟩])))

/-! ## Events: fills, walks and mapping commands (chapters 01, 04 and 06) -/

/-- R30 to R32, R127, R169, R171, R173, R175: a fill puts the unit of an address into the stream's instruction memory, with
the home's bytes and the words that a run from the address expands, or with the fault it met, and at the first fill reads
the kernel header; it goes to the program counter, or, where its words are there, ahead of it. A walk request starts in its
order, in a walk for the same granule that is in service or in one of its own, and ages; when its walk is complete the leaf
reaches the requesters' translation caches, or the fault each requester's job; with nothing owned dirty and nothing cached
the walk is R22's. Where fills go on and that a walk is one event are readings (log entries 12 and 30), and so is that the walk
cache keeps the 4,096 entries read last (log entry 10). -/
def Obligations.FillAndWalkEvents : Prop :=
  (∀ (num : Nat) (x : StreamId) (s t : State), s.focus num = some t → t.job.onCore = true → t.job.issues = true →
      (t.job.str x).st ≠ .idle → t.coreRuns t.job.coreIx = true →
    let y := t.job.str x
    let u0 : State := { t with via := some (.code x), cur := x }
    let run := exec (.instructionFill num x) s
    let header := ((recEntry t.job.lrec x).toNat + 2 ^ 64 - 16) % 2 ^ 64
    let puts := fun (u : State) (v : CodeUnit) (b : Nat) =>
      let w := u.modStrOf x fun t => t.putUnit v
      run = .next (w.makeRoom w.job.coreIx x num b 128)
    let fills := fun (u0 : State) (a : Nat) =>
      let b := a / 256 * 256
      (∀ bs w u, codeRead b 256 u0 = .ok (bs, w) u →
        let v := ((u.job.str x).unitKept b).fill bs w (a % 256) u.cycle
        (v.reach = none ∨ v.reach = some 0 → puts u v b) ∧
        ∀ v' u', fillTail v ((u.job.str x).unitKept (b + 256)).first u = .ok v' u' → puts u' v' b) ∧
      (∀ f u, codeRead b 256 u0 = .error (.fault f) u → puts u (((u.job.str x).unitKept b).bad f u.cycle) b) ∧
      (∀ o u, codeRead b 256 u0 = .error (.wait o) u → run = .next u);
    (y.hdrVer ≠ none →
      (y.wants y.pc.toNat = true → fills u0 y.pc.toNat) ∧
      (y.wants y.pc.toNat = false →
        (∀ a, y.ahead 16 (y.pc.toNat / 256 * 256) = some a → fills u0 a) ∧
        (y.ahead 16 (y.pc.toNat / 256 * 256) = none → run = .next s))) ∧
    (y.hdrVer = none →
      ((recEntry t.job.lrec x).toNat % 16 ≠ 0 →
        fills (u0.modStrOf x fun t => { t with hdrVer := some hdrBroken }) y.pc.toNat) ∧
      ((recEntry t.job.lrec x).toNat % 16 = 0 →
        (∀ bs w u, codeRead header 16 u0 = .ok (bs, w) u →
          fills (u.modStrOf x fun t => { t with hdrVer := some (headerVer x bs) }) y.pc.toNat) ∧
        ∀ f u, codeRead header 16 u0 = .error (.fault f) u →
          let b := y.pc.toNat / 256 * 256
          puts u (((u.job.str x).unitKept b).bad f u.cycle) b))) ∧
  (∀ (va n : Nat) (x : Xl) (s : State), vrange va = .mapped → vaOk va n = true → xlate .x 3 va n s = .ok x s →
    outsideClear none x.region n false s = .ok () s → recallLine x.pa s = .ok () s → s.sound → s.unowed s.agent → ∃ u : State,
      codeRead va n s = .ok (s.mem.readMany x.pa n, s.wtsAt (lineOf x.pa)) u ∧ u.mem = s.mem ∧ u.job = s.job ∧ u.rest = s.rest) ∧
  (∀ (die i : Nat) (s : State) (w : WalkReq), let d := s.dieAt die
    d.walkQ[i]? = some w →
    (d.canStart w = true → (∀ v ∈ d.walkQ, d.canStart v = true → v.before s.cycle w = false) →
      let gone := fun (d : Die) => { d with walkQ := d.walkQ.take i ++ d.walkQ.drop (i + 1) };
      ((∀ v ∈ d.walking, v.same w.asid w.sec w.va = false) → exec (.walkStart die i) s =
        .next (s.modDie die fun d => { gone d with walking := d.walking ++ [w] })) ∧
      ((∃ v ∈ d.walking, v.same w.asid w.sec w.va = true) → exec (.walkStart die i) s =
        .next (s.modDie die fun d => { gone d with
          walking := d.walking.map fun v => if v.same w.asid w.sec w.va then v.merge w.who w.cls else v }))) ∧
    (w.aged = false → w.since + 4096 ≤ s.cycle → exec (.walkRequestAged die i) s =
      .next (s.modDie die fun d => { d with walkQ := d.walkQ.set i { w with aged := true } }))) ∧
  (∀ (die i : Nat) (s : State) (w : WalkReq), (s.dieAt die).walking[i]? = some w →
    let cache := (s.dieAt die).walkCache
    let without := fun (d : Die) => { d with walking := d.walking.take i ++ d.walking.drop (i + 1) }
    (∀ l e pa es u, walkGo cache w.asid w.sec w.va 3 w.root s = .ok (.leaf l e pa, es) u →
      exec (.walkComplete die i) s = .next ((u.modDie die fun d => { without d with
        walkCache := ((es.filter fun e => !cache.contains e) ++ d.walkCache).take 4096 }).deliver w (.leaf l e pa))) ∧
    (∀ f es u, walkGo cache w.asid w.sec w.va 3 w.root s = .ok (.fault f, es) u →
      exec (.walkComplete die i) s = .next ((u.modDie die fun d => { without d with
        walkCache := d.walkCache.take 4096 }).deliver w (.fault f))) ∧
    (cache = [] → (∀ j ∈ s.jobs, j.lines = []) → s.sound → ∀ c : Ctx, c.asid = w.asid → c.sec = w.sec → c.root = w.root →
      ∃ es, exec (.walkComplete die i) s = .next ((s.modDie die fun d => { without d with
        walkCache := es }).deliver w (walk s c w.va)))) ∧
  (∀ s : State, (∀ j ∈ s.jobs, j.lines = []) → s.sound → ∀ c va, ∃ es,
    walkGo [] c.asid c.sec va 3 c.root s = .ok (walk s c va, es) s) ∧
  (∀ (s : State) (w : WalkReq) (core : Nat) (by_ : Asker), s.job.present = true → core < 256 →
    w.who = [⟨s.job.num, core, by_⟩] →
    (∀ f, (s.deliver w (.fault f)).job.walkFaults = s.job.walkFaults ++ [(by_, f)]) ∧
    ∀ l e pa, ((s.deliver w (.leaf l e pa)).coreAt core).tlb.head? =
      some ⟨w.asid, w.sec, l, w.va / pageSize l * pageSize l, e, pa⟩)

/-- R36 to R41, R57, R58: a mapping command, once no stash line stands between the hub and memory, is read and rejected when
it is malformed, else markers are placed for every job that matches it; once they stand at the heads of the queues its entry is stored and the translations that the old
value could have produced are removed; then the command ends and MAPDONE counts it. An invalidation of an address
space that a job uses is rejected; any other removes the space's cached entries. Which commands are malformed, and
that a flush takes global pages too, are readings (log entries 51 and 54). -/
def Obligations.MapEvents : Prop :=
  (∀ (s : State),
    let ended := fun (u : State) (rej : Bool) => u.modHub fun h =>
      { h with mapq := h.mapq.tail, mapdone := (h.mapdone + 1) % 2 ^ 64, mapRej := h.mapRej || rej, mapCmd := none };
    (s.hub.mapq ≠ [] → s.hub.mapCmd = none → s.mapReady s = .ok () s → s.mapHead = none →
      exec .mapWriteEntry s = .next (ended s.mapLoss true)) ∧
    (∀ ws, s.hub.mapCmd = none → s.mapReady s = .ok () s → s.mapHead = some ws →
      let c : MapCmd := ⟨ws, 0, 0, []⟩
      let w := fun (i : Nat) => ws.getD i 0
      let op := ((w 0).extractLsb' 44 3).toNat
      let asid := ((w 0).extractLsb' 48 16).toNat
      let sec := (w 0).getLsbD 47
      let pa := (w 2).toNat
      let malformed := op ≠ 0 ∨ (w 0).extractLsb' 0 42 ≠ 0 ∨ pa % 8 ≠ 0 ∨ s.backed (regionOf s.hub.pos.toNat pa) = false
      (op ≠ 1 → malformed → exec .mapWriteEntry s = .next (ended s true)) ∧
      (¬malformed → physReady pa 8 s = .ok () s →
        let c := { c with old := leNum (s.physLoad pa 8) }
        let js := (s.jobs.filter fun j => j.present && c.matches j.ctx.asid j.ctx.sec).map fun j => j.num
        exec .mapWriteEntry s = .next ((s.mapJobs fun j => if j.present && js.contains j.num then
          { j with chans := j.chans.map (· ++ [.marker]), inq := j.inq ++ [.marker] } else j).modHub
            fun h => { h with mapCmd := some { c with jobs := js } })) ∧
      (op = 1 →
        let mine := fun (x : Ctx) => x.asid = asid ∧ x.sec = sec
        let used := (∃ j ∈ s.jobs, j.present = true ∧ mine j.ctx) ∨
          ∃ d ∈ s.dies.toList, ∃ q ∈ d.queues, ∃ r ∈ q.2, mine r.ctx
        (used ∨ (w 0).extractLsb' 0 42 ≠ 0 → exec .mapFlushAsid s = .next (ended s true)) ∧
        (¬used → (w 0).extractLsb' 0 42 = 0 → exec .mapFlushAsid s = .next (ended
          (s.forget (fun t => t.asid == asid && t.sec == sec) fun w => w.asid == asid && w.sec == sec) false)))) ∧
    (∀ c, s.hub.mapCmd = some c →
      let stored := s.physStore (c.word 2).toNat (leList 8 (c.word 3).toNat)
      let next := fun (u : State) => u.modHub fun h => { h with mapCmd := some { c with stage := 1 } }
      let freed := fun (u : State) => u.mapJobs fun j => if j.present && c.jobs.contains j.num then
        { j with chans := j.chans.map fun q => q.erase .marker, inq := j.inq.erase .marker } else j;
      (c.stage = 0 → (∀ j ∈ s.jobs, j.present = true → c.jobs.contains j.num = true → j.markersReady = true) →
        ((∀ j ∈ s.jobs, j.present = true → ∀ l ∈ j.lines, l.dirty = true → c.staleLine j l = true → j.stashProv l = false) →
          ((s.jobs.filter fun j => j.present && c.jobs.contains j.num).forM fun j => backsReady j.num c.staleLine) s = .ok () s →
          exec .mapMarkersAtHead s = .next (next (stored.purge c))) ∧
        ((∀ j ∈ s.jobs, j.lines = []) →
          exec .mapMarkersAtHead s = .next (next (stored.forget c.stale c.staleWalk)))) ∧
      (c.stage = 1 →
        ((∀ j ∈ s.jobs, j.present = true → c.matches j.ctx.asid j.ctx.sec = false) →
          exec .mapCommandDone s = .next (ended (freed s) false)) ∧
        ∀ u, ((s.jobs.filter fun j => j.present && c.matches j.ctx.asid j.ctx.sec).map fun j => j.num).forM settleStores s =
            .ok () u → exec .mapCommandDone s = .next (ended (freed u) false)))) ∧
  ∀ (s : State) (p : Tlb → Bool) (q : WalkEnt → Bool), let u := s.forget p q
    u.mem = s.mem ∧ u.job = s.job ∧ u.rest = s.rest ∧ u.hub = s.hub ∧
    (∀ i < 256, (∀ t, t ∈ (u.coreAt i).tlb ↔ t ∈ (s.coreAt i).tlb ∧ p t = false) ∧
      ∀ k < 3, ∀ t, t ∈ vget [] (u.coreAt i).tlb1 k ↔ t ∈ vget [] (s.coreAt i).tlb1 k ∧ p t = false) ∧
    ∀ d < 8, ∀ w, w ∈ (u.dieAt d).walkCache ↔ w ∈ (s.dieAt d).walkCache ∧ q w = false

/-! ## Events: stash lines, leases, and agents outside the jobs (chapters 02, 03 and 19) -/

/-- R54, R57, R60, R95: a stash line is filled from its home, clean under a read lease, or the fault that its
translation met is kept for the access; a dirty line with no provisional data is recalled, when nothing in the order of a
scratchpad that is its home holds it back; a copy whose lease the
core's clock has passed is no longer held. How leases are kept is a reading (log entry 4). -/
def Obligations.StashAndLeaseEvents : Prop :=
  ∀ (num w line core i : Nat) (s : State),
    (∀ t, s.focus num = some t → t.job.onCore = true → t.memOk →
      let t : State := { t with via := some (.stash w line), cur := .C }
      let d := vget ⟨false, 0, 0, 0, 0⟩ t.job.stash w
      let va := d.gva * 65536 + line * 256
      let off := d.off * 65536 + line * 256
      d.v = true → line < (d.sizem1 + 1) * 256 → t.job.lineAt w line = none →
      (∀ x, t.job.markAt off (off + 256) = none → xlate .r 7 va 256 t = .ok x t →
        outsideClear none x.region 256 false t = .ok () t → recallLine x.pa t = .ok () t → t.sound →
        t.unowed t.agent → ∃ u : State,
        exec (.stashFill num w line) s = .next u ∧
        t.mem.became (t.job.windowPa off) (t.mem.readMany x.pa 256) u.mem ∧
        ∃ l, u.job.lineAt w line = some l ∧ l.pa = x.pa ∧ l.cc = x.cc ∧ l.dirty = false) ∧
      (∀ f u, fillLine w line t = .error (.fault f) u → exec (.stashFill num w line) s =
        .next (u.modJob fun j =>
          { j with walkFaults := j.walkFaults ++ [(.stash w line, ⟨f.cause, va, f.level, f.entry, f.aux⟩)] }))) ∧
    (∀ j l, s.findJob num = some j → j.lineAt w line = some l → l.dirty = true → j.stashProv l = false →
      backWait (fun _ _ => false) j l s = .ok () s →
      (s.sound → exec (.stashRecall num w line) s = .next (s.writeBack num l)) ∧
      exec (.stashRecall num w line) s =
        .next ((s.writeBack num l).windowLoss num (j.windowPa (j.stashOff l)) 256)) ∧
    (∀ c, (s.coreAt core).l1[i]? = some c → c.lease < s.clock core → exec (.leaseLapse core i) s =
      .next (s.modCore core fun k => { k with l1 := k.l1.take i ++ k.l1.drop (i + 1) }))

/-- R19, R20, R27, R42, R51, R104, R433, R434, R437: the accesses of service cores, of a host through BAR2, of peer
packages through the fabric window, and of other cores and dies at a scratchpad, loads and stores of up to 256 bytes among
them: each is checked for its world, for
memory that answers, and at a scratchpad for its owner, and then reads and writes at the home in one event; a load changes no
memory and no job. A service
core's load of a control region reads its registers. No store that a stream has left behind is owed, and no access of the
agent stands in a Weir. Replies, the mailbox of BAR0, the wait for overlapping entries and the shape of an access are the model's
(log entries 23, 43 and 61). -/
def Obligations.OutsideAccessEvents : Prop :=
  ∀ (off : Nat) (r : OutReq) (s : State), s.memOk → outShapeOk r = true →
    let n := outLen r
    let refused := fun (c : Nat) => (.next { s with reply := ⟨false, c, 0, []⟩ } : Host.Outcome State Fault Refusal)
    let longer := fun (v : Nat) => if n ≤ 8 then [] else leList n v
    let answers := fun (e : Host.Outcome State Fault Refusal) (a : Agent) (sec : Bool) (reg : Region) =>
      let loc := placeAddr reg
      let old := leNum (s.mem.readMany loc n)
      let fits := fun (v : Word) => v.toNat % 2 ^ (8 * n);
      (s.worldOk sec loc n = false → e = refused 0x13) ∧
      (s.worldOk sec loc n = true → s.backed reg = false → e = refused 0x15) ∧
      (s.worldOk sec loc n = true → s.backed reg = true → s.outsideOwner r reg sec = false → e = refused 0x16) ∧
      (s.worldOk sec loc n = true → s.backed reg = true → s.outsideOwner r reg sec = true →
        (∀ die k o, reg = .scratch die k o → (s.coreAt (die * 32 + k)).stands s.cycle = false ∧
          s.roomOn (die * 32 + k) = true ∧
          ∀ j, s.scratchOwner die k o = some j → j.entries = [] ∧ j.marks = []) → recallLine loc s = .ok () s → s.sound →
        s.unowed a → s.noOutside (.agent r) →
        ∃ t : State, e = .next t ∧ t.reply = ⟨true, 0, BitVec.ofNat 64 old, longer old⟩ ∧ s.job.sameBut t.job ∧ s.restSame t ∧
          match r.op with
          | .load | .loadN _ => t.mem = s.mem ∧ t.job = s.job ∧ t.rest = s.rest
          | .store v => s.mem.became loc (leList n (fits v)) t.mem
          | .storeN bs => s.mem.became loc bs t.mem
          | .amo o v => s.mem.became loc (leList n (amoValue o n old (fits v))) t.mem
          | .cas x v => if old = fits x then s.mem.became loc (leList n (fits v)) t.mem else t.mem = s.mem);
    (∀ die k o, regionOf s.hub.pos.toNat r.pa = .scratch die k o →
      answers (exec (.externalScratchAccess r) s) .service r.sec (.scratch die k o)) ∧
    (off < 2 ^ 36 → Cells.get 0 s.hub.bar2 (off / 2 ^ 30) = 0 → exec (.hostAccess off r) s = refused 0) ∧
    (∀ o, off = 2 ^ 36 + o →
      (65536 < o + n → exec (.hostAccess off r) s = refused 0) ∧
      (o + n ≤ 65536 →
        let old := leNum (Cells.getMany 0 s.hub.mailbox o n)
        let stores := fun (bs : List Byte) => exec (.hostAccess off r) s = .next { s.modHub fun h =>
          { h with mailbox := Cells.setMany 0 h.mailbox o bs } with reply := ⟨true, 0, 0, []⟩ };
        (∀ k, (r.op = .load ∨ r.op = .loadN k) → exec (.hostAccess off r) s = .next { s with
          reply := ⟨true, 0, BitVec.ofNat 64 old, longer old⟩ }) ∧
        (∀ v, r.op = .store v → stores (leList n v.toNat)) ∧
        (∀ bs, r.op = .storeN bs → stores bs))) ∧
    (off < 2 ^ 36 → Cells.get 0 s.hub.bar2 (off / 2 ^ 30) ≠ 0 →
      r.pa = Cells.get 0 s.hub.bar2 (off / 2 ^ 30) - 1 + off % 2 ^ 30 →
      (∀ die k o, regionOf s.hub.pos.toNat r.pa = .scratch die k o → exec (.hostAccess off r) s =
        refused (if s.worldOk s.hub.pcieSec (placeAddr (.scratch die k o)) n then 0x16 else 0x13)) ∧
      ((∀ die k o, regionOf s.hub.pos.toNat r.pa ≠ .scratch die k o) →
        answers (exec (.hostAccess off r) s) .host s.hub.pcieSec (regionOf s.hub.pos.toNat r.pa))) ∧
    (2 ^ 51 ≤ r.pa → r.pa < 2 ^ 52 → r.station < 8 →
      (∀ die o, regionOf s.hub.pos.toNat r.pa = .lpddr die o →
        answers (exec (.fabricPeerAccess r) s) .peer (vget false s.hub.linkSec r.station) (.lpddr die o)) ∧
      ((∀ die o, regionOf s.hub.pos.toNat r.pa ≠ .lpddr die o) → exec (.fabricPeerAccess r) s = refused 0x15)) ∧
    (let reg := regionOf s.hub.pos.toNat r.pa
      let run := exec (.serviceCoreAccess r) s
      let reads := fun (v : Option Word) =>
        (s.worldOk r.sec (placeAddr reg) 8 = false → run = refused 0x13) ∧
        (s.worldOk r.sec (placeAddr reg) 8 = true → run = match v with
          | some w => .next { s with reply := ⟨true, 0, w, []⟩ }
          | none => refused 0x15);
      (∀ die o, reg = .dieCtl die o → r.op = .load → r.size = .b8 → reads (s.readDie die o)) ∧
      (∀ o, reg = .hubCtl o → r.op = .load → r.size = .b8 → reads (s.readHub o r.sec)) ∧
      ((∀ die o, reg ≠ .dieCtl die o) → (∀ o, reg ≠ .hubCtl o) → answers run .service r.sec reg))

/-! ## Events: errors of the memories (chapters 02 and 18) -/

/-- R46, R73, R422, R423, R425: an error that is corrected, and one whose retry succeeds, is counted and changes nothing
else; one whose retry fails loses the bytes of its 64-byte unit, and no other, and the unit then fails, unless it stood
unchanged in the L2, whose way alone goes out of service. An LD that meets a failed unit takes fault 0x24 with the unit's
address in AUX, and the unit's block or frame is then out of service: no window is placed over such a block. A parity error
faults the operation that meets it; one in instruction memory discards the unit, whose words are then no longer there, and is
counted. How errors come and AUX of a parity error are the model's (log entry 22). -/
def Obligations.MemoryErrors : Prop :=
  (∀ (r : List Turn) (u : State) (pa : Nat) (bytes : List Byte),
     let turn := fun (e : Upset) => step { u with agenda := .upset e :: r }
     let s : State := { u with agenda := r, via := none, cycle := u.cycle + 1 };
     turn (.corrected pa) = .next (s.modDie (pa / 2 ^ 48) fun d => { d with errs := d.errs + 1 }) ∧
     turn (.transient pa) = .next (s.modDie (pa / 2 ^ 48) fun d => { d with elog := d.elog + 1 }) ∧
     (u.memOk → isUnit pa = true → bytes.length = 64 → ∃ t : State, turn (.lasting pa bytes) = .next t ∧
       s.mem.became pa bytes t.mem ∧ { t with mem := s.mem, bad := s.bad } = s ∧
       ∀ a n, (s.failing a n = none → ((t.failing a n).isSome ↔ a < pa + 64 ∧ pa < a + n)) ∧
         ∀ b, s.failing a n = some b → (t.failing a n).isSome = true) ∧
     (∀ l, ((s.dieAt (pa / 2 ^ 48)).l2.find? fun l => l.line == pa / 256) = some l → l.dirty = false →
       turn (.lastingL2 pa bytes) = .next (s.modDie (pa / 2 ^ 48) fun d =>
         { d with ways := d.ways ++ [l.line], l2 := d.l2.filter fun m => m.line != l.line })) ∧
     (∀ num x i j, s.findJob num = some j → turn (.parityCode num x i) =
       .next ((s.modJobNum num fun k => k.setStr x { k.str x with imem := (k.str x).imem.modify i fun w =>
         { w with here := false, bytes := [], tail := [], words := [], fault := none, tailFault := none } }).modDie j.die
           fun d => { d with elog := d.elog + 1 })) ∧
     (∀ num x i, s.findJob num = none → turn (.parityCode num x i) = .next s) ∧
     ∀ num id at_ v t, s.focus num = some t → t.job.onCore = true →
       let o := t.job.opAt id
       o.started = true → o.finished = false → o.hold = none → o.copy = none →
       (t.job.spoil at_ v).entries = t.job.entries ∧
       turn (.parityOp num id at_ v) = .next ((t.modJob fun j =>
         { j.spoil at_ v with parity := at_ :: j.parity.filter (· != at_) }).opFault id
         { FaultInfo.of 0x24 with aux := Config.parityAux t.cycle })) ∧
  (∀ (h : Hdr) (size : Size) (sg : Bool) (d a : SReg) (o : Ose) (imm : Imm) (b : BadUnit) (s : State),
     s.runs h [.C, .A] → s.calm →
     let n := sizeBytes size
     let va := (s.getS a + imm.signExtend 64).toNat
     let run := exec (.ld h size sg d a o imm) s
     let fault := { FaultInfo.of 0x24 with va := va, aux := b.pa };
     (∀ x, vrange va = .mapped → va % 256 + n ≤ 256 → xlate .r 0 va n s = .ok x s →
       outsideClear none x.region n false s = .ok () s → recallLine x.pa s = .ok () s → s.unowed s.agent →
       s.failing x.pa n = some b →
       (o.ord = 2 ∨ x.cc = 2 ∨ leased x.pa = false ∨
         ((s.coreAt s.job.coreIx).l1 = [] ∧ (s.dieAt s.job.die).peer = [])) →
       run = (s.outOfService b).faultsWith h fault) ∧
     (∀ off, vrange va = .scratch off → off + n ≤ s.job.window → va % 256 + n ≤ 256 → s.unheld → s.unstashed →
       s.unowned off n → s.weirFree = true → s.str.wait = none → s.failing (s.job.windowPa off) n = some b →
       run = (s.passed.outOfService b).faultsWith h fault)) ∧
  (∀ (b : BadUnit) (s : State), b.l2 = false →
     let t := s.outOfService b
     t.mem = s.mem ∧ t.job = s.job ∧ t.rest = s.rest ∧ t.bad = s.bad ∧
     (∀ die < 8, ∀ k < 32, ∀ off < 0x80_0000, b.pa = placeAddr (.scratch die k off) →
       off / 65536 ∈ (t.coreAt (die * 32 + k)).oos) ∧
     ∀ die < 8, ∀ off, (off < 2 ^ 44 ∧ b.pa = placeAddr (.lpddr die off) ∨
         ∃ c < 4, off < 0x100_0000 ∧ b.pa = placeAddr (.cluster die c off)) → b.pa / 65536 ∈ (t.dieAt die).oos) ∧
  ∀ (s : State) (a : Ask) (p : Place) (k : Nat), k ∈ (s.coreAt (p.die * 32 + p.core)).oos →
    p.base ≤ k → k * 65536 < p.base * 65536 + recWindow a.lrec → s.fitsAt a p = false

/-! ## Events: engines (chapters 04, 05, 10, 11 and 14) -/

/-- R107, R113, R121, R154, R286, R306, R342, R343: a free engine goes to the first operation in the order of R154,
with its port engines and, for a Basin entry, its stack; the operation that holds an engine makes its next unit, with the port
engines that it needs, unless they are kept for another; a
finished one completes its number and leaves the Weir; an operation ages; a Basin hold ends; the oldest reduction
push is applied. Two units are given: MZERO clears its tile, VDRAIN takes and clears its latch. The unit of work, the
order by whole keys, stacks, pushes and ties are the model's (log entries 13, 14, 36, 48 and 60). -/
def Obligations.EngineEvents : Prop :=
  ∀ (core num id i : Nat) (u : Engine) (s : State),
    (s.coreRuns core = true → ((s.coreAt core).grant u).holder = none → core < 256 → ∀ b, s.winner core u = some b →
      let ids := (s.stackOf core b).map fun x => (x.1.num, x.2.1.id)
      ∃ t : State, exec (.engineGrant core u) s = .next t ∧
        (t.coreAt core).grant u =
          ⟨some (b.job.num, b.entry.id), b.job.slot, ids.tail, if 1 < ids.length then ids else []⟩ ∧
        ((∀ j ∈ s.jobs, ∀ e ∈ j.entries, ∀ o, e.kind = .op o → o.basin = none) →
          t.mem = s.mem ∧ t.hub = s.hub ∧ t.dies = s.dies)) ∧
    (∀ t, s.focus num = some t → t.job.onCore = true →
      let o := t.job.opAt id
      (∀ u, o.engine = some u → o.since + 4096 ≤ t.cycle →
        ((t.coreAt t.job.coreIx).grant u).holder ≠ some (num, id) → o.finished = false → o.hold = none →
        exec (.engineAging num id) s = .next (t.modOpOf num id fun o => { o with aged := true })) ∧
      (o.copy = none → t.job.opComplete id o = true → t.coreRuns t.job.coreIx = true → ∃ u : State, exec (.engineOperationComplete num id) s = .next u ∧
        u.job.tl = vset t.job.tl o.tl ((vget ⟨0, 0, []⟩ t.job.tl o.tl).complete o.num) ∧
        (∀ e ∈ u.job.entries, e.id ≠ id) ∧ u.mem = t.mem ∧ u.job.acc = t.job.acc ∧ u.job.vreg = t.job.vreg) ∧
      (t.coreRuns t.job.coreIx = true → ∀ p r, t.job.pushes = p :: r → p.due ≤ t.cycle →
        exec (.reductionApply num) s = .next (t.modJob fun j => { j.applyPush p with pushes := r }).endDrains)) ∧
    (∀ t e o, s.focus num = some t → (t.job.entries.find? fun e => e.id == id) = some e → e.kind = .op o → e.away = false →
      t.coreRuns t.job.coreIx = true → t.holdsEngine num id o = true → o.hold = none → o.finished = false →
      let c := t.coreAt t.job.coreIx
      let runs := fun (u : State) =>
        ((∀ n, (o.stall.map fun w => w.obj) ≠ some (.tide n)) → exec (.weirEntryProceed num id) s = .next (u.runUnit id)) ∧
        ((∃ n, (o.stall.map fun w => w.obj) = some (.tide n)) → exec (.tideStallRelease num id) s = .next (u.runUnit id));
      (o.ports = 0 ∨ c.portsHeld num id = true → runs t) ∧
      (o.ports ≠ 0 → c.portsHeld num id = false → c.portsUsed + o.ports ≤ 4 →
        ((t.keptBid t.job.coreIx).any fun b => b.op.engine != some .matrix) = false →
        runs (t.modCore t.job.coreIx fun c => { c with
          ports := c.ports ++ [(num, id, o.ports)], portLast := t.job.slot }))) ∧
    (let all := ((s.onCore core).map fun j => j.entries.filterMap fun e =>
        match e.kind with | .op o => (o.basin.map fun b => (j.num, e.id, b)) | _ => none).flatten
      ∀ n e til b, all[i]? = some (n, e, til, b) → til ≤ s.cycle →
        exec (.basinHoldExpiry core i) s = .next (s.modOpOf n e fun o => { o with basin := some (til, true) })) ∧
    (∀ (l : Timeline), l.completed + 1 ∉ l.ahead → l.completed + 2 ∉ l.ahead →
      (l.complete (l.completed + 1)).completed = l.completed + 1 ∧
      ∀ n, n ≠ l.completed + 1 → (l.complete n).completed = l.completed ∧ n ∈ (l.complete n).ahead) ∧
    (s.job.lineages = [] → ∀ d q clr, let v := (s.job.opAt id).vd.headD 0
      mzeroUnit id d s = .ok true (s.modJob fun j => { j with acc := Cells.clear (4096 * d) (4096 * d + 4096) j.acc }) ∧
      (s.job.pushes = [] →
        let lanes := Cells.getMany 0 s.job.latch (64 * q.toNat) 64
        vdrainUnit id clr q s = .ok true (s.modJob fun j => { (j.setLanes v lanes) with
          latch := Cells.setMany 0 j.latch (64 * q.toNat) (lanes.map fun x => match clr with
            | .keep => x | .cp => 0 | .cn => 0xFF80_0000 | .ci => 0x7F80_0000) })))

/-- R262, R263 to R265, R267, R268, R273, R279, R282, R286: what a unit of an engine operation puts into the registers, for a
place that is not provisional and a port with no program: MMUL, MDIST, MMUL.AM and MMULG the exact sums over their moving row
into a row of the accumulator, MLDA an element, MTOPK its choices, VROW its statistics, VLD the lanes of a row, VMOV the bits of a
register, VRED a push of its lanes or of their fold, which is combined into the latch when it is applied; and nothing else of
the registers and of memory. An element's code is the little-endian number at its address. What a unit is is the model's (log
entry 48). -/
def Obligations.EngineRegisterUnits : Prop :=
  (∀ (id : Nat) (s : State), s.job.lineages = [] → s.job.parity = [] → unitBody id s = unitOf id (s.job.opAt id).instr s) ∧
  (∀ (id : Nat) (s t : State) (fin : Bool), unitBody id (s.asOp id) = .ok fin t → s.runUnit id = t.afterUnit id fin) ∧
  ∀ (id : Nat) (s : State) (o : Op), s.works id o →
    let st := o.sts.headD []
    let q := (o.run 0).q
    let e := stE st 0
    let last := decide (stE st 1 ≤ q + 1)
    let old := fun (z : Bool) (u : State) (d r n : Nat) => if z then (0 : Lane) else u.job.accAt d r n
    let regs := fun (t u : State) => t.mem = u.mem ∧ t.rest = u.rest ∧ t.hub = u.hub ∧ t.job.streg = s.job.streg
    let row := fun (m : M Bool) (fin : Bool) (u : State) (d r : Nat) (vs : List Lane) => ∃ t : State, m s = .ok fin t ∧
      regs t u ∧ t.job.vreg = s.job.vreg ∧ s.job.rowSet t.job d r vs
    let plain := o.run 0 = ⟨q, false, [], [], 0⟩;
    (∀ z dist d r0 g x u, s.imageNow o = some g → g.n ≤ 64 → r0 + q < 64 → movingRow id st q s = .ok x u → u.job = s.job →
      row (mulUnit id z dist d r0 0) last u d (r0 + q) (mulRow dist g x (old z s d (r0 + q)))) ∧
    (∀ z d r0 a m g, s.job.imageFor o = some g → g.n ≤ 64 → r0 + o.unit < 64 →
      row (mmulAmUnit id z d r0 a m) (decide (m ≤ o.unit + 1)) s d (r0 + o.unit)
        (mulRow false g ((List.range g.k).map fun k => dec32 (s.job.accAt a o.unit k)) (old z s d (r0 + o.unit)))) ∧
    (∀ z d groups pb w first g x u, o.table ≠ [] → groupAt o.table o.unit = some (w, first) → o.gimg = some g → g.n ≤ 64 →
      movingRow id st q s = .ok x u → u.job = s.job →
      row (mmulgUnit id z d groups 0 pb) (decide (tableRows o.table ≤ q + 1)) u (d + q / 64) (q % 64)
        (mulRow false g x (old z s (d + q / 64) (q % 64)))) ∧
    (∀ d r0 b i n code sc u v, b = o.bind id 0 8 0 none → (o.run 0).outs.length = n → r0 + i < 64 → n < 64 →
      elemCode id st [n, i] s = .ok code u → u.job = s.job → elemScale id st [n, i] u = .ok sc v → v.job = s.job →
      (elemIn st code sc).2 = none → ∃ t : State, mldaElem id d r0 b st i n s = .ok () t ∧ regs t v ∧
        t.job.vreg = s.job.vreg ∧ (t.job.accAt d (r0 + i) n = (elemIn st code sc).1) ∧
        (∀ a m k, m < 64 → k < 64 → ¬(a = d ∧ m = r0 + i ∧ k = n) → t.job.accAt a m k = s.job.accAt a m k) ∧
        ((t.job.opAt id).run 0).outs = (o.run 0).outs ++ [(elemIn st code sc).1]) ∧
    (∀ l a k nc, o.vd.Nodup → o.vd.length = 2 * k → ∃ t : State, mtopkUnit id l a k nc s = .ok true t ∧ regs t s ∧
      t.job.acc = s.job.acc ∧ (∀ r, r ∉ o.vd → ∀ m, m < 64 → t.job.lane r m = s.job.lane r m) ∧
      ∀ m, m < 64 → ∀ p, p < k →
        let best := topkRow l ((List.range nc).map fun c => s.job.accAt a m c) (o.scal.truncate 32) k;
        t.job.lane (o.vd.getD p 0) m = best.1.getD p 0 ∧ t.job.lane (o.vd.getD (k + p) 0) m = best.2.getD p 0) ∧
    (∀ abs a nc x y z, o.vd = [x, y, z] → x ≠ y → y ≠ z → x ≠ z → ∃ t : State, vrowUnit id abs a nc s = .ok true t ∧
      regs t s ∧ t.job.acc = s.job.acc ∧ (∀ r, r ∉ o.vd → ∀ m, m < 64 → t.job.lane r m = s.job.lane r m) ∧
      ∀ m, m < 64 →
        let xs := (List.range nc).map fun c => let v := s.job.accAt a m c; if abs then orNan v (v &&& 0x7FFF_FFFF) else v;
        t.job.lane x m = xs.tail.foldl max32 (max32 (xs.headD 0) (xs.headD 0)) ∧
        t.job.lane y m = orNan (treeSum xs) (treeSum xs) ∧ t.job.lane z m = treeSum (xs.map fun v => mul32 v v)) ∧
    (∀ ins u, plain → q < stE st 1 → e ≤ 64 →
      readRow id st e (fun k => [k, q]) (vldLane st) s = .ok ins u → u.job = s.job → (∀ x ∈ ins, x.2 = none) →
      (∃ t : State, vldUnit id 0 s = .ok last t ∧ regs t u ∧ t.job.acc = s.job.acc ∧
        s.job.lanesSet t.job (o.vd.getD q 0) (ins.map fun x => x.1)) ∧
      ∀ op x (l : BitVec 2), ∃ t : State, vredStreamUnit id op x l 0 s = .ok last t ∧ regs t u ∧ t.job.acc = s.job.acc ∧
        t.job.vreg = s.job.vreg ∧ t.job.pushes = s.job.pushes ++ [pushOf o.num u.cycle l.toNat q op x
          (ins.map (fun x => x.1) ++ List.replicate (64 - e) (match op with
            | .add => (0 : Lane) | .max => 0xFF80_0000 | .min => 0x7F80_0000))]) ∧
    (∀ t2, ∃ t : State, vmovUnit id t2 0 0 0 s = .ok (decide (o.vd.length ≤ q + 1)) t ∧ regs t s ∧ t.job.acc = s.job.acc ∧
      s.job.lanesSet t.job (o.vd.getD q 0) (s.job.lanes (o.vs.getD q 0))) ∧
    (∀ op x (l : BitVec 2), let vs := s.job.lanes (o.vs.getD o.unit 0)
      let p : Push := ⟨o.num, s.cycle + 12, l.toNat, op,
        if x then [(o.unit % 64, treeFold (redCombine op) 7 vs)] else vs.zipIdx.map fun (v, k) => (k, v)⟩;
      ∃ t : State, vredUnit id op x l s = .ok (decide (o.vs.length ≤ o.unit + 1)) t ∧ regs t s ∧ t.job.acc = s.job.acc ∧
        t.job.vreg = s.job.vreg ∧ t.job.pushes = s.job.pushes ++ [p] ∧
        ∀ r k, k < 64 → (s.job.applyPush p).latchAt r k = if r ≠ l.toNat then s.job.latchAt r k
          else if x then (if k = o.unit % 64 then redCombine op (s.job.latchAt r k) (treeFold (redCombine op) 7 vs)
            else s.job.latchAt r k)
          else redCombine op (s.job.latchAt r k) (vs.getD k 0)) ∧
    (∀ ix off, let w := Nat.max 1 (fmtSize (stFmt st))
      let at_ := (elemAddr st ix).1
      vrange at_ = .scratch off → at_ % 256 + w ≤ 256 → s.plainAt off w → ∃ t : State,
        elemCode id st ix s = .ok (let x := leNum (s.mem.readMany (s.job.windowPa off) w)
          if fmtFour (stFmt st) then (if (elemAddr st ix).2 = 0 then x % 16 else x / 16) else x) t ∧ t.mem = s.mem ∧ t.job = s.job) ∧
    (∀ ix, (fmtBlock (stFmt st) = false → elemScale id st ix s = .ok 0 s) ∧
      ∀ off, fmtBlock (stFmt st) = true → vrange (scaleAddr st ix) = .scratch off → s.plainAt off 1 → ∃ t : State,
        elemScale id st ix s = .ok (s.mem.read (s.job.windowPa off)).toNat t ∧ t.mem = s.mem ∧ t.job = s.job)

/-- R267, R273, R280: a unit of MST or VST with no program at its port writes the codes of its row, each the conversion of its
value to the stream's format, into the window, where the row lies there element after element, and no other byte of memory; a
code that MST's conversion cannot give, with OVF = 1, is its port fault 0x1B. What a unit is is the model's (log entry 48). -/
def Obligations.EngineStoreUnits : Prop :=
  ∀ (id off : Nat) (s : State) (o : Op), s.works id o → s.memOk →
    let st := o.sts.headD []
    let q := (o.run 0).q
    let f := stFmt st;
    s.rowAt st q off → o.run 0 = ⟨q, false, [], [], 0⟩ →
    let stores := fun (m : M Bool) (int : Bool) (v : Nat → Lane) =>
      (∀ e, e < stE st 0 → stOvf st = true → (laneConv f int (v e)).bad = false) → ∃ t : State,
        m s = .ok (decide (stE st 1 ≤ q + 1)) t ∧ t.job.vreg = s.job.vreg ∧ t.job.acc = s.job.acc ∧
        s.mem.became (s.job.windowPa off) ((List.range (stE st 0)).flatMap fun e => leList (fmtSize f) (laneConv f int (v e)).code)
          t.mem;
    stores (vstUnit id 0) (fmtInt f) (fun e => s.job.lane (o.vs.getD q 0) e) ∧
    (∀ a r0, stores (mstUnit id a r0 0) false (fun e => s.job.accAt a (r0 + q) e)) ∧
    (o.sat = [] → stOvf st = true → ∀ a r0 e, e < stE st 0 →
      (∀ k, k < e → (laneConv f false (s.job.accAt a (r0 + q) k)).bad = false) →
      (laneConv f false (s.job.accAt a (r0 + q) e)).bad = true → ∃ (x : FaultInfo) (t : State),
        mstUnit id a r0 0 s = .error (.fault x) t ∧ x.cause = 0x1B ∧ t.job.acc = s.job.acc)

/-! ## Events: copies and remote commands (chapter 16) -/

/-- R366, R376, R379, R380, R381, R387: the copy at the head of its channel starts once its template is read and
checked, goes on element by element when it is its turn, waits where an access waits, and stops at a fault; when it is done
it leaves the Weir and its channel, and its number is complete. An element of a plain copy within the window moves its
bytes, with no stash window and no dirty stash line over them. The next inbound command is numbered on timeline 7 and enters
the Weir. The element as the unit of work and the turns
are the model's (log entries 14 and 64). -/
def Obligations.CopyEvents : Prop :=
  ∀ (num c id : Nat) (s t : State), s.focus num = some t → t.job.onCore = true → t.coreRuns t.job.coreIx = true →
    let o := t.job.opAt id
    let u0 : State := { t with via := some (.op id), cur := t.job.strmOf id }
    let runs := fun (e : Host.Outcome State Fault Refusal) (body : M Unit) (after : State → State) =>
      (∀ u, body u0 = .ok () u → e = .next ((after u).goesOn id)) ∧
      (∀ w u, body u0 = .error (.wait w) u → e = .next (u.setStall id (some w) 0)) ∧
      (∀ f u, body u0 = .error (.fault f) u → e = .next (u.copyFault id f));
    (t.job.copyHead c = some id → o.hold = none → (∀ e ∈ t.job.entries, e.id = id → e.away = false) → ∀ cp, o.copy = some cp →
      (o.started = false →
        let run := exec (.copyStart num c) s
        runs run (copyStart id) (fun u => u) ∧
        (cp.bad = none → cp.tmpl ≠ [] → templateBreach cp.tmpl cp.cmd cp.chan (recChan t.job.lrec) = none →
          tPsin cp.tmpl = 0 → tPsout cp.tmpl = 0 → o.ports = 0 → o.stall = none →
          t.noOutside (.part t.job.num (.op id)) → ∃ u : State, run = .next u ∧
            (u.job.opAt id).started = true ∧ (u.job.opAt id).cp.started = true ∧ u.mem = t.mem ∧ u.rest = t.rest)) ∧
      (o.started = true → o.finished = false →
        let run := exec (.copyTemplateElement num c) s
        (u0.mayMove id = false → run = .next s) ∧
        (u0.mayMove id = true →
          runs run (do opParity id; copyElement id) (fun u => u.copyMoves id (u0.copiesBefore id).isEmpty) ∧
          let m := cp.tmpl
          let place := copyPlace m (tBases m cp.cmd).1 (tBases m cp.cmd).2 cp.pos 0
          let n := runLen m cp.pos place.1 place.2
          let len := n * sideSize (tSfmt m)
          (tKind m = 0 → tPack m = 0 → tPsin m = 0 → tPsout m = 0 → tRed m = 0 → tSfmt m = tDfmt m → copyBlk m = false →
            0 < sideSize (tSfmt m) → cp.zero = [] → o.ports = 0 → o.stall = none → t.memOk → t.sound → t.unstashed →
            t.job.marks = [] → t.job.parity = [] → (∀ k, crangeEn (vget 0 t.job.crange k) = false) →
            (t.job.entries.head?.map fun e => e.id) = some id → ∀ so do_, vrange place.1 = .scratch so →
            vrange place.2 = .scratch do_ → so + len ≤ t.job.window → do_ + len ≤ t.job.window →
            t.unowned so len → t.unowned do_ len → ∃ u : State, run = .next u ∧
              t.mem.became (t.job.windowPa do_) (t.mem.readMany (t.job.windowPa so) len) u.mem ∧
              (u.job.opAt id).cp.pos = cp.pos + n ∧ (u.job.opAt id).cp.elem = cp.elem + 1))) ∧
      (o.finished = true → runs (exec (.copyComplete num c) s) (copyEnd id) (fun u => u) ∧
        (tSemen cp.tmpl = false → tFen cp.tmpl = false → ∃ u : State, exec (.copyComplete num c) s = .next u ∧
          u.job.tl = vset t.job.tl o.tl ((vget ⟨0, 0, []⟩ t.job.tl o.tl).complete o.num) ∧
          (∀ e ∈ u.job.entries, e.id ≠ id) ∧ u.mem = t.mem ∧
          (cp.chan < 4 → vget [] u.job.chans cp.chan = (vget [] t.job.chans cp.chan).tail)))) ∧
    (∀ cmd rest q, t.job.copyHead 4 = none → t.job.inq = .block (cmd :: rest) :: q → t.mayEnter = true →
      let run := exec (.inboundCommandTake num) s
      let u1 : State := { t with via := some .inbound, cur := .C }
      let enters := fun (tmpl : List Word) (bad : Option FaultInfo) (u : State) =>
        let l := vget ⟨0, 0, []⟩ u.job.tl 7
        run = .next (u.modJob fun j => { j with
          tl := vset j.tl 7 { l with issued := l.issued + 1 }
          entries := j.entries ++ [⟨j.nextId, .C, 0,
            .op (copyEntryOp j 4 7 (l.issued + 1) u.cycle cmd t.job.ctbase.toNat tmpl bad), copyEntryKeys j 4 cmd tmpl,
            false, false⟩]
          nextId := j.nextId + 1
          inq := if rest.isEmpty then q else .block rest :: q });
      (∀ tmpl u, readTemplate t.job.ctbase.toNat cmd u1 = .ok tmpl u → u.weirFree = true → enters tmpl none u) ∧
      (∀ f u, readTemplate t.job.ctbase.toNat cmd u1 = .error (.fault f) u → u.weirFree = true → enters [] (some f) u) ∧
      (∀ w u, readTemplate t.job.ctbase.toNat cmd u1 = .error (.wait w) u → run = .next u) ∧
      let va := t.job.ctbase.toNat + 64 * (cmd.extractLsb' 0 12).toNat
      ∀ off, vrange va = .scratch off → vaOk va 64 = true → off + 64 ≤ t.job.window → t.unstashed → t.unowned off 64 → t.sound →
        t.job.marks = [] → (∀ k, crangeEn (vget 0 t.job.crange k) = false) → t.weirFree = true → ∃ u : State,
          run = .next u ∧ u.mem = t.mem ∧ u.rest = t.rest ∧ u.job.inq = (if rest.isEmpty then q else .block rest :: q) ∧
          (vget ⟨0, 0, []⟩ u.job.tl 7).issued = (vget ⟨0, 0, []⟩ t.job.tl 7).issued + 1 ∧
          u.job.entries.length = t.job.entries.length + 1)

/-- R126, R383 to R387: CSTAT gives the state of one of the last 64 copies of a channel, or of inbound commands. RENQ
reads its header from the scratchpad, and gives 1 for a job that is not there, 2 for one of another address space or
world, 3 for a closed queue; else it waits for a place, copies its block into the target's queue, and gives 0. A
waiting push looks again as the instruction it is. When the block is read is a reading (log entry 35). -/
def Obligations.RemoteCommandResults : Prop :=
  ∀ (h : Hdr) (d a b : SReg) (c : BitVec 3) (s : State), s.runs h [.C, .A] →
    let n := (s.getS a).toNat
    let l := vget ⟨0, 0, []⟩ s.job.tl (if c.toNat < 4 then c.toNat else 7)
    let known := (c.toNat < recChan s.job.lrec ∨ c.toNat = 4) ∧ c.toNat ≤ 4 ∧ n ≠ 0 ∧ n ≤ l.issued ∧ l.issued < n + 64
    let done := n ≤ l.completed ∨ n ∈ l.ahead
    let cstat := fun (v : Nat) => exec (.cstat h d c a) s = (s.setS d (BitVec.ofNat 64 v)).ends h .next;
    (¬known → cstat 0) ∧
    (known → done → cstat (2 ^ 63 + 2 ^ 62 + Cells.get 0 (vget [] s.job.status5 c.toNat) n % 256)) ∧
    (known → ¬done → cstat (2 ^ 63 + Cells.get 0 (vget [] s.job.status5 c.toNat) n % 256)) ∧
    (∀ off, s.calm → s.unheld → s.unstashed → s.sound → s.weirFree = true → s.str.renq = none →
      vrange (s.getS b).toNat = .scratch off → (s.getS b).toNat % 8 = 0 → off + 8 ≤ s.job.window →
      let hdr := leNum (s.mem.readMany (s.job.windowPa off) 8)
      hdr < 15 → off + 8 * (hdr + 2) ≤ s.job.window → s.unowned off (8 * (hdr + 2)) →
      let target := n % 2 ^ 32
      let run := exec (.renq h d a b) s
      let gives := fun (v : Nat) => run = (((s.fenced 5).readAt off 8).setS d (BitVec.ofNat 64 v)).ends h .next;
      (s.findJob target = none → gives 1) ∧
      (∀ j, s.findJob target = some j →
        let same := j.ctx.asid = s.job.ctx.asid ∧ j.ctx.sec = s.job.ctx.sec;
        (¬same → gives 2) ∧
        (same → j.inClosed = true → gives 3) ∧
        (same → j.inClosed = false → inBlocks j.inq < recIqd j.lrec → ∃ u : State, run = (u.setS d 0).ends h .next ∧
          u.mem = s.mem ∧ (vget ⟨0, 0, []⟩ u.job.tl 6).issued = (vget ⟨0, 0, []⟩ s.job.tl 6).issued + 1 ∧
          ∃ k, u.findJob target = some k ∧ k.inq = j.inq ++
            [.block (wordsOf (hdr + 1) (s.mem.readMany (s.job.windowPa (off + 8)) (8 * (hdr + 1))))]) ∧
        (same → j.inClosed = false → recIqd j.lrec ≤ inBlocks j.inq → ∃ u : State,
          run = .next (u.beginWait (.channel target 4)) ∧ u.mem = s.mem ∧ u.rest = s.rest ∧ u.str.renq = some hdr))) ∧
    (∀ num x t m, s.focus num = some t →
      let u : State := { t with cur := x };
      u.mayIssue = true → (u.str.wait.map fun w => w.obj) = some (.channel m 4) → u.fetch = .instr (.renq h d a b) →
      let run := exec (.renqPushAccept num x) s
      run = exec (.renq h d a b) u ∧
      ∀ hdr off j, u.runs h [.C, .A] → u.str.renq = some hdr → (u.getS b).toNat = scratchVa + off →
        off + 8 * (hdr + 2) ≤ u.job.window → off % 8 = 0 → hdr < 15 → u.job.marks = [] →
        (∀ k, crangeEn (vget 0 u.job.crange k) = false) → u.unstashed → u.unowned off (8 * (hdr + 2)) → u.sound →
        u.findJob ((u.getS a).toNat % 2 ^ 32) = some j → j.ctx.asid = u.job.ctx.asid → j.ctx.sec = u.job.ctx.sec →
        j.inClosed = false → inBlocks j.inq < recIqd j.lrec → ∃ w : State, run = (w.setS d 0).ends h .next ∧ w.mem = u.mem ∧
          ∃ k, w.findJob ((u.getS a).toNat % 2 ^ 32) = some k ∧ k.inq = j.inq ++
            [.block (wordsOf (hdr + 1) (u.mem.readMany (u.job.windowPa (off + 8)) (8 * (hdr + 1))))])

/-! ## Events: lineages (chapter 13) -/

/-- R322, R327, R331, R336: the next row of the next contribution that is ready is added to its source, element by element in
FP32; the next row, register or push of the next correction due is computed and added to its target, on the engine of the
operation that made it; a lineage that is closed or complete, with every contribution added, every correction made and no
linear consumer of it still to start, settles and is gone, and its scratch lines are provisional no more. Rows and units as
events are the model's (log entry 48). -/
def Obligations.LineageEvents : Prop :=
  ∀ (num tag : Nat) (s t : State) (l : Lineage), s.focus num = some t → t.job.onCore = true →
    t.job.lineage tag = some l →
    let put := fun (j : Job) (f : Lineage → Lineage) =>
      { j with lineages := j.lineages.map fun m => if m.tag = tag then f m else m };
    (∀ d, l.deltas[l.nadd]? = some d → d.ready = true → d.added = false → t.coreRuns t.job.coreIx = true →
      let left := d.cells.filter fun c => decide (d.row ≤ c.1 / 64)
      let r := (left.map fun c => c.1 / 64).foldl min 64
      let here := left.filter fun c => c.1 / 64 == r
      let all := decide (left.length ≤ here.length)
      exec (.contributionAdd num tag) s = .next (t.modJob fun j =>
        put (here.foldl (fun j c =>
          j.setAcc l.src (c.1 / 64) (c.1 % 64) (add32 (j.accAt l.src (c.1 / 64) (c.1 % 64)) c.2)) j) fun m =>
          { m with
            nadd := m.nadd + if all then 1 else 0
            deltas := m.deltas.map fun e => if e.id = d.id then { d with row := r + 1, added := all } else e })) ∧
    (∀ k g, l.nextDue = some (k, g) → t.coreRuns t.job.coreIx = true → t.corrTurn g.op = true → ∀ u, g.op.engine = some u →
      let units := l.correction t.job.window k g
      let cells := units.getD g.unit []
      let next := if g.unit + 1 < units.length then { g with unit := g.unit + 1 }
        else { g with unit := 0, corrs := g.corrs ++ [units.flatten] }
      let ends := fun (v : State) => exec (.correctionApply num tag) s =
        .next ((v.modJob fun j => put j fun m =>
          { m with targets := m.targets.map fun u => if u.id = g.id then next else u }).modCore t.job.coreIx fun c =>
            c.setGrant { c.grant u with last := t.job.slot } u).endDrains
      ((∀ q, g.places.headD (.acc 0) ≠ .latch q) → ends (cells.foldl (fun s c => s.addCell g c.1 c.2) t)) ∧
      ∀ q, g.places.headD (.acc 0) = .latch q →
        (cells = [] → ends t) ∧
        (cells ≠ [] → ends (t.modJob fun j => { j with pushes := j.pushes ++ [⟨0, t.cycle + 12, q, .add, cells⟩] }))) ∧
    ((l.closed = true ∨ l.niss = l.ndecl) → l.nadd = l.niss → t.coreRuns t.job.coreIx = true →
      t.job.consumerDue l = false → (∀ u ∈ l.targets, u.based = true ∧ u.corrs.length = l.niss ∧ t.job.corrPending u = false) →
      let gone := t.modJob fun j =>
        { j with lineages := j.lineages.filter fun m => m.tag != tag, marks := j.marks.filter fun m => m.2 != tag }
      exec (.lineageSettle num tag) s = .next (gone.job.entries.foldl (fun s e =>
        match e.kind with | .op o => s.enterLate e o | _ => s) gone).endDrains ∧
      ((∀ e ∈ t.job.entries, ∀ o, e.kind = .op o → o.late = none) →
        exec (.lineageSettle num tag) s = .next gone.endDrains))

/-! ## Events: waits looked at again, handlers, retirement (chapters 05, 17 and 18) -/

/-- R150, R198, R201, R397, R402: a waiting barrier instruction or WAITF that looks again runs as the instruction it
is; the first pending user fault is delivered to the handler when it can be; a job whose streams have all reached
JOIN closes its inbound queue, drains, lets go of its stash windows, departs from its groups, adds 1 to DONEA and is
gone, a fault of a step holding it there. What a faulting step leaves is a reading (log entry 56). -/
def Obligations.WaitTrapAndRetireEvents : Prop :=
  ∀ (num : Nat) (x : StreamId) (s t : State), s.focus num = some t →
    (let u : State := { t with cur := x };
      u.mayIssue = true →
      (∀ k pa h d a, (u.str.wait.map fun w => w.obj) = some (.barrier k pa) →
        (u.fetch = .instr (.bar h d) → exec (.barrierRecheck num x) s = exec (.bar h d) u) ∧
        (∀ r, u.fetch = .instr (.bara h r d) → exec (.barrierRecheck num x) s = exec (.bara h r d) u) ∧
        (u.fetch = .instr (.barw h d a) → exec (.barrierRecheck num x) s = exec (.barw h d a) u) ∧
        (u.fetch = .instr (.barw h 0 a) → u.runs h allStreams → u.calm →
          u.job.bar0.phase ≠ (u.getS a).toNat % 2 ^ 32 →
          exec (.barrierRecheck num x) s = (u.fenced 1).ends h .next)) ∧
      (∀ pa h cc d a b scp ev imm, (u.str.wait.map fun w => w.obj) = some (.flag pa) →
        u.fetch = .instr (.waitf h cc d a b scp ev imm) →
        exec (.waitfRecheck num x) s = exec (.waitf h cc d a b scp ev imm) u ∧
        ∀ y, let va := (u.getS a + imm.signExtend 64).toNat
          let w : Word := BitVec.ofNat 64 (leNum (u.mem.readMany y.pa 8));
          cc = .eq → w = u.getS b → va % 8 = 0 → u.runs h allStreams → u.calm → u.reaches .r 0 va 8 false y → ∃ v : State,
            exec (.waitfRecheck num x) s = ((v.fenced scp.toNat).setS d w).ends h .next ∧ v.mem = u.mem ∧ v.job = u.job)) ∧
    (t.job.onCore = true → t.coreRuns t.job.coreIx = true → t.job.deliverable = true → t.job.c.wait = none →
      ∀ r, (t.job.faults.find? fun r => r.state == 2 && !r.toOs) = some r → ∃ u : State,
        exec (.userTrapEntry num) s = .next u ∧ u.job.c.pc = recTrapv t.job.lrec ∧ u.job.c.frames = [] ∧
        u.job.trap.inTrap = true ∧ u.job.trap.strm = r.info.strm ∧ u.job.trap.cause = r.info.cause ∧
        u.job.trap.tret = t.job.c.pc &&& 0x01FF_FFFF_FFFF_FFFE ∧ u.job.trap.frames = t.job.c.frames ∧
        u.job.trap.tfrec = BitVec.ofNat 64 (faultAddr t.job r.seq)) ∧
    (t.job.onCore = true → t.job.allJoined = true → t.coreRuns t.job.coreIx = true →
      let run := exec (.jobRetire num) s
      let t' : State := { t with via := some .retire, cur := .C }
      let goesTo := fun (u : State) (n : Nat) => run = .next (u.modJob fun j => { j with status := .retiring n });
      (t.job.status = .resident → ∃ u : State, run = .next u ∧ u.job.status = .retiring 1 ∧ u.job.inClosed = true ∧
        u.mem = t.mem ∧ u.rest = t.rest) ∧
      (t.job.faults = [] →
        (t.job.status = .retiring 1 → t.job.drained = true → goesTo t' 2) ∧
        (t.job.status = .retiring 2 → t.job.lines = [] →
          let u := t'.modJob fun j => { j with stash := Vector.replicate 8 ⟨false, 0, 0, 0, 0⟩ }
          goesTo u (if recGang t.job.lrec then 11 else 3)) ∧
        (t.job.status = .retiring 3 → recDonea t.job.lrec = 0 → goesTo t' 4) ∧
        (∀ pa, t.job.status = .retiring 3 → recDonea t.job.lrec ≠ 0 → t.memOk →
          t'.reaches .rw 2 (recDonea t.job.lrec) 8 true pa → ∃ u : State, goesTo u 4 ∧
            t.mem.became pa.pa (leList 8 (leNum (t.mem.readMany pa.pa 8) + 1)) u.mem) ∧
        (∀ f u, t.job.status = .retiring 3 → recDonea t.job.lrec ≠ 0 →
          vatomic ⟨2, 4, [], none⟩ (recDonea t.job.lrec) 8 (fun o => some ((o + 1) % 2 ^ 64)) t' = .error (.fault f) u →
          run = .next (u.takeFault { f with eng := 6 } .retire)) ∧
        (∀ k u, t.job.status = .retiring (10 + k) → 1 ≤ k → k < recLevels t.job.lrec → departLevel k t' = .ok () u →
          goesTo u (10 + k + 1)) ∧
        (∀ k, t.job.status = .retiring (10 + k) → 1 ≤ k → recLevels t.job.lrec ≤ k → goesTo t' 3) ∧
        (t.job.status = .retiring 4 → ∃ u : State, run = .next u ∧ u.job.status = .retired ∧ u.mem = t.mem ∧
          ((∀ j ∈ t.jobs, ∀ e ∈ j.entries, ∀ w, e.kind ≠ .outside w) → u.rest = t.rest))))

/-! ## Events: the dispatcher and the commands of the operating system (chapter 18) -/

/-- R134, R144, R146, R147, R154, R155, R411, R412, R416, R417, R420: the dispatcher admits the first head that fits,
at a place that fits, a gang as a whole; an aged head reserves cores and later asks for pre-emption; a job asked for
is stopped and saved; a saved job takes a place again. A job that is admitted has the state of R134. Places as
parameters, saved context kept in State, and the details of heads are the model's (log entries 25, 28, 51, 62, 63 and 81). -/
def Obligations.DispatchEvents : Prop :=
  ∀ (die q num : Nat) (p : Place) (s : State),
    (s.hub.boot.started = true → die < 8 → ∀ h r rs, s.mayAdmit die (.queue q) = some h → (s.dieAt die).ring q = r :: rs →
      let cores := s.coresFor die h;
      (∀ a as, recGang r.words = false → h.asks = a :: as → s.fitsAt a p = true → p.die * 32 + p.core ∈ cores →
        s.nearest die (.queue q) cores a [] p = true → spaceReady none p (recWindow r.words) s = .ok () s →
        exec (.dispatcherAdmit die q p) s = .next
          (((s.put die (.queue q) a p).modJobNum p.num fun j => { j with status := .resident }).recordDone die q (r.next + 1))) ∧
      (∀ ps t, recGang r.words = true → (ps.forM fun p => spaceReady none p (recWindow r.words)) s = .ok () s → s.putAll die (.queue q) cores h.asks ps = some t →
        exec (.gangAdmit die q ps) s = .next (((t.recordDone die q h.asks.length).residentReport r).startGang r.launch))) ∧
    (die < 8 → ∀ h, s.headAt die q = some h →
      (∀ cores ps, h.aged s.cycle = true → h.resAt = none → (∀ i ∈ cores, i ∈ s.coresFor die h) →
        s.wanted die h cores = some ps → coresOf cores ps = cores →
        ((s.bare h).putAll die h.id (s.groupCores h (s.coresFor die h)) h.asks ps).isSome = true →
        exec (.headAged die q cores) s = .next (s.reserve die q cores)) ∧
      (∀ at_ j r, h.resAt = some at_ → at_ + 2 ^ 24 ≤ s.cycle → s.headFits die h = false →
        (s.jobs.filter fun j => (j.status == .resident || j.status == .admitting) && h.cores.contains j.coreIx &&
          decide (j.cls ≤ h.class s.cycle)) = j :: r → (∀ k ∈ j :: r, k.asked = false) →
        exec (.reservationPreempt die q) s = .next
          (s.askPreempt (r.foldl (fun a b => if a.admitted ≤ b.admitted then b else a) j)))) ∧
    (∀ t, s.focus num = some t → t.job.onCore = true →
      let u := t.wakeCore t.job.coreIx
      ((∀ x, (u.job.str x).stores = []) → ∃ v, stopStreams u = .ok () v) ∧
      let goes := u.job.asked = true ∧ u.job.status = .resident ∧ u.job.isRetiring = false ∧ u.stoppable u.job = true ∧
        u.job.aloneToGo = false ∧ u.areasFor u.job = true ∧ areaReady u.job.die u = .ok true u
      let wins := u.spaceWanted u.job = true ∧ backsReady num (fun j l => !j.stashProv l) u = .ok () u
      (goes → ∀ v, stopStreams u = .ok () v →
        let w := (v.quit.takeArea u.job.die).1
        let pa := (v.quit.takeArea u.job.die).2
        let c := w.job.areaBytes w.cycle
        let y := (w.putArea w.job.coreIx pa 0 ((c.getLast?.map fun e => e.1 + 1).getD 0) c).preempted num 0
        let z := y.modJob fun k =>
          { k with status := .saved, asked := false, savedAt := y.cycle, area := some (pa, u.job.die) };
        exec (.preempt num false) s = .next z ∧ (wins → exec (.preempt num true) s = .next (z.saveWindow num))) ∧
      ((∀ x, (u.job.str x).stores = []) → goes →
        (∃ v : State, exec (.preempt num false) s = .next v ∧ v.job.status = .saved ∧ v.job.asked = false) ∧
        (wins → ∃ v : State, exec (.preempt num true) s = .next v ∧ v.job.status = .saved ∧ v.job.asked = false))) ∧
    (∀ j h a t ps, s.findJob num = some j → s.mayAdmit j.die (.saved num) = some h →
      (h.asks.find? fun a => a.saved == some num) = some a → s.fitsAt a p = true →
      p.die * 32 + p.core ∈ s.coresFor j.die h →
      (s.put j.die h.id a p).placeAll j.die h.id (s.coresFor j.die h) (h.asks.filter fun b => b.saved != some num) =
        some (t, ps) →
      (p :: ps).forM (fun q => spaceReady (some q.num) q (recWindow a.lrec)) s = .ok () s →
      (∀ k ∈ t.jobs, ∀ r ∈ k.faults, r.held ≠ .objects) →
      exec (.readmit num p) s = .next (t.mapJobs fun k =>
        if k.status == .admitting && (h.asks.filterMap fun b => b.saved).contains k.num then { k with status := .resident }
        else k)) ∧
    (∀ (r : QRec) (i : Nat) (x : StreamId), let j := newJob r i s.cycle p
      (j.str x).pc = recEntry r.words x ∧ ((j.str x).st = .idle ↔ recEntry r.words x = 0) ∧
      (j.str x).getS 1 = recArgp r.words ∧ (∀ n : SReg, n ≠ 1 → (j.str x).getS n = 0) ∧
      (∀ n : PReg, n ≠ 0 → (j.str x).getP n = false) ∧ j.vreg = [] ∧ j.acc = [] ∧ j.streg = [] ∧ j.entries = [] ∧
      j.bdom = recMdom r.words ∧ j.bhold = 64 ∧ j.trap.inTrap = false)

/-- R203, R408, R409, R414, R415, R416, R419, R424: the commands of JCMD for a job, each with its result, RES 1 for a
job that is not there, and none while a pre-emption asked for so is under way; a write of a launch queue's descriptor; and a launch packet, answered by a report with the
reason for which it is refused, or enqueued. That resume releases every held fault, the world of the launch port and
other details are readings (log entries 8, 20 and 51). -/
def Obligations.JobCommandEvents : Prop :=
  ∀ (die num : Nat) (s : State),
    let res := fun (u : State) (n : Nat) => u.modDie die fun d => { d with jres := n }
    let all := [Instr.jcmdResume die num, .jcmdEnd die num, .jcmdPreempt die num, .jcmdReadmit die num];
    (s.jbusy die = true → ∀ i ∈ all, exec i s = .next s) ∧
    (die < 8 → s.jbusy die = false → s.focus num = none → ∀ i ∈ all, exec i s = .next (res s 1)) ∧
    (die < 8 → s.jbusy die = false → ∀ t, s.focus num = some t →
      ((∃ r ∈ t.job.faults, r.toOs = true) → t.sound → (∀ r ∈ t.job.faults, r.toOs = true → recordReady r.seq t = .ok () t) →
        exec (.jcmdResume die num) s = .next (res t.releaseHeld 0)) ∧
      ((∀ r ∈ t.job.faults, r.toOs = false) → exec (.jcmdResume die num) s = .next (res t 3)) ∧
      let ready := (t.ended.forM fun n => backsReady n fun j l => !j.stashProv l) s = .ok () s;
      ((∀ k ∈ t.jobs, ∀ r ∈ k.faults, r.held ≠ .objects) → ready → exec (.jcmdEnd die num) s = .next (res (t.endJob num) 0)) ∧
      ((∃ k ∈ t.shareOf t.job (fun _ => true), ∃ r ∈ k.faults, r.held = .objects) → ready →
        exec (.jcmdEnd die num) s =
          .next (res (((t.shareOf t.job fun _ => true).map fun k => k.num).foldl (fun u n => u.endJob n) t) 0)) ∧
      (t.job.isRetiring = true →
        exec (.jcmdPreempt die num) s = .next (res t 5) ∧ exec (.jcmdReadmit die num) s = .next (res t 5)) ∧
      (t.job.isRetiring = false →
        (t.job.status = .saved → exec (.jcmdPreempt die num) s = .next (res t 4) ∧
          ∃ u : State, exec (.jcmdReadmit die num) s = .next (res u 0) ∧ u.job = { t.job with urgent := true } ∧ u.mem = t.mem) ∧
        (t.job.status ≠ .saved → exec (.jcmdReadmit die num) s = .next (res t 4) ∧
          exec (.jcmdPreempt die num) s =
            .next (res ((t.askPreempt t.job).modDie die fun d => { d with jjob := some num }) 0)))) ∧
    (∀ q w v, die < 8 → q < 64 → w < 5 →
      let old := (s.dieAt die).lq q w
      let put := fun (x : Word) => exec (.lqdWrite die q w v) s =
        .next (s.modDie die fun d => { d with lqd := Cells.set 0 d.lqd (8 * q + w) x });
      (((s.dieAt die).lq q 0).msb = true → w = 0 →
        put (old &&& 0x40FF_FFFF_FFFF_FFFF ||| v &&& 0xBF00_0000_0000_0000)) ∧
      (((s.dieAt die).lq q 0).msb = true → w ≠ 0 → put old) ∧
      (((s.dieAt die).lq q 0).msb = false →
        (w = 0 → (v.extractLsb' 52 4).toNat ≤ 8 → put (v &&& 0xFFF0_FFFF_0000_0000)) ∧
        (w = 1 → put (v &&& 0x000F_FFFF_FFFE_0000)) ∧ (w = 2 → put (v &&& 0x000F_FFFF_FFFF_0000)) ∧
        (w = 3 → put (v &&& 0x000F_FFFF_FFFF_FF00)) ∧ (w = 4 → put (v &&& 0x01FF_FFFF_FFFF_0000)))) ∧
    (∀ bs : List Byte, bs.length = 32 →
      let part := fun (lo n : Nat) => leNum ((bs.drop lo).take n)
      let reply := part 24 8
      let tag : Word := BitVec.ofNat 64 (part 0 8)
      let recpa := part 8 8
      let sel := part 16 1
      let d := part 17 1
      let report := fun (u : State) (reason state : Nat) =>
        exec (.launchPacket bs) s = .next (u.report s.hub.arrival reply 2 (reportBytes tag reason state 0 []))
      let badPacket := part 18 6 ≠ 0 ∨ 64 ≤ sel ∨ 7 < d ∨ 2 ^ 52 ≤ recpa ∨ recpa % 256 ≠ 0
      let words := wordsOf 32 (s.physLoad recpa 256)
      let queue := s.queueReason d sel true
      let broken := recReason words ((s.dieAt d).context sel).sec true
      let good := reply < 2 ^ 52 ∧ reply % 64 = 0;
      (¬good → exec (.launchPacket bs) s = .next (s.modHub fun h => { h with errlog := h.errlog + 1 })) ∧
      (good → badPacket → report s 0x13 3) ∧
      (good → ¬badPacket → s.hub.boot.started = false → report s 0x15 3) ∧
      (good → ¬badPacket → s.hub.boot.started = true → physRecall recpa 256 s = .ok () s → s.portReads recpa = false →
        report (s.hubLoss (placeAddr (regionOf s.hub.pos.toNat recpa)) 256) 0x14 3) ∧
      (good → ¬badPacket → s.hub.boot.started = true → physRecall recpa 256 s = .ok () s → s.portReads recpa = true →
        (queue ≠ 0 → report s queue 3) ∧
        (queue = 0 → broken ≠ 0 → report s broken 3) ∧
        (queue = 0 → broken = 0 → report (s.enqueue d sel words (some (reply, tag))) 0 1)))

/-! ## Events: boot, power, debug, registers (chapters 19 and 20) -/

/-- R2, R426 to R429, R431, R454: package reset keeps memory contents and module flash and starts the boot anew; an
image that was fetched and whose certificate, signature and version are in order is measured and started, any other is a boot failure,
after which stage 2 starts again 10 seconds later; a measurement is extended by SM3; a report answers with the body
of R428 and its signature; region registers and the presence map are written by secure service cores alone; an idle
block gates its power and wakes. The hash, signatures and fused version are opaque, memory is kept by choice, and what goes
to the management port is counted (log entries 3, 9, 23 and 26). -/
def Obligations.BootAndPowerEvents : Prop :=
  ∀ (s : State),
    (∃ t : State, exec .packageReset s = .next t ∧ t.mem = s.mem ∧ t.job = State.reset.job ∧ t.rest = [] ∧
      t.cores = State.reset.cores ∧ t.dies = State.reset.dies ∧ t.cycle = 0 ∧ t.wts = [] ∧ t.lts = [] ∧
      t.hub.boot.stage = 1 ∧ t.hub.boot.started = false ∧ t.hub.configErrs = 0 ∧ t.hub.mr = Vector.replicate 16 0 ∧
      t.hub.code = s.hub.code ∧ t.hub.caps = s.hub.caps ∧ t.hub.rate = s.hub.rate) ∧
    (s.hub.boot.stage = 1 → s.hub.boot.failed = false → ∀ b : BootImage,
      let cert := Config.sm3 b.cert
      let image := Config.sm3 b.image
      let ok := b.fetched = true ∧ Config.sm2RootOk cert b.certSig = true ∧ Config.sm2OwnerOk b.cert image b.sig = true ∧
        Config.fusedVersion ≤ b.version;
      (¬ok → exec (.bootImageFetched b) s = .next (s.modHub fun h =>
        { h with boot := { h.boot with failed := true, failAt := s.cycle }, bootFrames := h.bootFrames + 1 })) ∧
      (ok → ∃ t : State, exec (.bootImageFetched b) s = .next t ∧ t.mem = s.mem ∧ t.job = s.job ∧ t.hub.boot.stage = 5 ∧
        t.hub.boot.started = s.hub.memoryOk ∧
        t.hub.configErrs = s.hub.configErrs + (if s.hub.memoryOk then 0 else 1) ∧ t.hub.pod = b.pod ∧ t.hub.pos = b.pos ∧
        t.hub.mr = ((((s.hub.extend 0 cert).extend 1 image).extend 2 (Config.sm3 b.worlds)).extend 3 (Config.sm3 b.dtree)).mr)) ∧
    (s.hub.boot.failed = true → s.hub.boot.failAt + 30_000_000_000 ≤ s.cycle →
      exec .bootRetry s = .next (s.modHub fun h => { h with boot := { h.boot with failed := false } })) ∧
    (∀ n x, n < 16 → s.hub.boot.stage = 5 → exec (.measurementExtend n x) s = .next (s.modHub fun h =>
      { h with mr := vset h.mr n (Config.sm3 (digestBytes (vget 0 h.mr n) ++ digestBytes x)) })) ∧
    (∀ nonce, 1 ≤ s.hub.boot.stage → ∃ t : State, exec (.attestationReport nonce) s = .next t ∧
      t.reply.ok = true ∧ t.reply.bytes = reportBody s nonce ++
        (leList 64 (Config.sm2Sign s.hub.boot.resets s.hub.boot.reports (reportBody s nonce)).toNat).reverse ∧
      t.mem = s.mem ∧ t.job = s.job ∧ t.hub.mr = s.hub.mr) ∧
    (∀ n last v, n < 64 →
      (∀ u, settleFlight s = .ok () u → exec (.regionWrite n last v true) s = .next (u.modHub fun h =>
        { h with rgn := Cells.set 0 h.rgn (2 * n + (if last then 1 else 0)) (v &&& 0x800F_FFFF_FFFF_0000) })) ∧
      ((∀ j ∈ s.jobs, j.onCore = false) → exec (.regionWrite n last v true) s = .next (s.modHub fun h =>
        { h with rgn := Cells.set 0 h.rgn (2 * n + (if last then 1 else 0)) (v &&& 0x800F_FFFF_FFFF_0000) })) ∧
      exec (.regionWrite n last v false) s = .next s) ∧
    (∀ i v, i < 16 →
      (∀ u, settleFlight s = .ok () u → exec (.podmapWrite i v true) s =
        .next (u.modHub fun h => { h with podmap := vset h.podmap i v })) ∧
      ((∀ j ∈ s.jobs, j.onCore = false) →
        exec (.podmapWrite i v true) s = .next (s.modHub fun h => { h with podmap := vset h.podmap i v })) ∧
      exec (.podmapWrite i v false) s = .next s) ∧
    ((∀ j ∈ s.jobs, j.onCore = false) → settleFlight s = .ok () s) ∧
    (∀ b, let d := blockDie b
      d < 8 → b ∉ (s.dieAt d).gates → s.blockIdle b = true → ∃ t : State,
        exec (.powerGate b) s = .next t ∧ (t.dieAt d).gates = (s.dieAt d).gates ++ [b] ∧ t.mem = s.mem ∧ t.job = s.job ∧
        (∀ i, b = .core i → i < 256 → (t.coreAt i).gated = true)) ∧
    (∀ b, let d := blockDie b
      d < 8 → b ∈ (s.dieAt d).gates → ∃ t : State,
        exec (.powerWake b) s = .next t ∧ b ∉ (t.dieAt d).gates ∧ t.mem = s.mem ∧ t.job = s.job ∧
        (∀ i, b = .core i → i < 256 → (t.coreAt i).gated = false)) ∧
    exec .powerThrottle s = .next { s with cycle := s.cycle + 1 }

/-- R7, R36, R418, R437, R438, R440 to R443: the commands of DCMD, with RES 2 for a reserved bit or a secure job
named by a normal core and RES 1 for a job that is not there; a cycle stop freezes its core; DDATA writes an item of
a halted job, or waits in the Weir behind what overlaps; and a write of a register with no row of its own changes its RW and W1C fields, after the world check. The layout of a BAR2
register, the count of areas, and debug details are the model's (log entries 23, 27, 29 and 37). -/
def Obligations.DebugAndRegisterEvents : Prop :=
  ∀ (r : DbgReq) (s : State), r.die < 8 →
    let dres := fun (u : State) (n : Nat) => u.modDie r.die fun d => { d with dres := n }
    let named := fun (x : StreamId) => r.smask.getLsbD (streamNum x)
    let jobOps := [Instr.debugEnable r, .debugDisable r, .debugHalt r, .debugStep r, .debugStepDrain r, .debugResume r,
      .debugSnapshot r]
    let core := r.die * 32 + r.core.toNat;
    (s.dbusy r.die = true → ∀ i ∈ jobOps ++ [.scheduleCycleStop r, .coreResume r], exec i s = .next s) ∧
    (s.dbusy r.die = false → r.rsvd ≠ 0 → ∀ i ∈ jobOps ++ [.scheduleCycleStop r, .coreResume r], exec i s = .next (dres s 2)) ∧
    (s.dbusy r.die = false → r.rsvd = 0 →
      (s.focus r.num.toNat = none → ∀ i ∈ jobOps, exec i s = .next (dres s 1)) ∧
      (∀ t, s.focus r.num.toNat = some t →
        (t.job.ctx.sec = true → r.sec = false → ∀ i ∈ jobOps, exec i s = .next (dres s 2)) ∧
        (t.job.ctx.sec = false ∨ r.sec = true →
          exec (.debugEnable r) s = .next (dres (t.modJob fun j => { j with debug := true }) 0) ∧
          exec (.debugDisable r) s = .next (dres (t.modJob fun j => { j with debug := false }) 0) ∧
          (∃ u : State, exec (.debugHalt r) s = .next (dres u 0) ∧ ∀ x, named x = true → (u.job.str x).halted = true ∧
            ((∀ n len c, (t.job.str x).wait ≠ some ⟨.sem n len, c⟩) → (u.job.str x).pc = (t.job.str x).pc)) ∧
          (∃ u : State, exec (.debugResume r) s = .next (dres u 0) ∧ u.mem = t.mem ∧
            ∀ x, u.job.str x = if named x then { t.job.str x with halted := false, stepping := .none } else t.job.str x) ∧
          ((∀ x, named x = true → t.job.isHalted x = false) →
            exec (.debugStep r) s = .next (dres t 3) ∧ exec (.debugStepDrain r) s = .next (dres t 3)) ∧
          ((∃ x, named x = true ∧ t.job.isHalted x = true) →
            ∀ (i : Instr) m, (i = .debugStep r ∧ m = .one ∨ i = .debugStepDrain r ∧ m = .drain) → ∃ u : State,
              exec i s = .next (dres u 0) ∧ u.mem = t.mem ∧
              (u.dieAt r.die).dstep = some (t.job.num, (smask r).filter t.job.isHalted) ∧ ∀ x, u.job.str x =
                if named x && t.job.isHalted x then { t.job.str x with halted := false, stepping := m, last := none }
                else t.job.str x) ∧
          (t.job.waits = [] → exec (.debugSnapshot r) s = .next (dres t 0)) ∧
          (∀ x w, t.job.waits = [(x, w)] → exec (.debugSnapshot r) s = .next (dres (t.putLog x w 2) 0)))) ∧
      ((s.coreAt core).sec = true → r.sec = false →
        exec (.scheduleCycleStop r) s = .next (dres s 2) ∧ exec (.coreResume r) s = .next (dres s 2)) ∧
      ((s.coreAt core).sec = false ∨ r.sec = true →
        exec (.scheduleCycleStop r) s = .next (dres (s.modCore core fun c =>
          { c with stopAt := some (Nat.max (s.dieAt r.die).dcyc.toNat s.cycle) }) 0) ∧
        ((s.coreAt core).frozen = none →
          exec (.coreResume r) s = .next (dres (s.modCore core fun c => { c with stopAt := none }) 0)) ∧
        ((s.coreAt core).frozen = some [] → dumpReady core s = .ok () s → exec (.coreResume r) s =
          .next (dres (s.modCore core fun c => { c with frozen := none, stopAt := none }) 0)))) ∧
    (∀ at_, (s.coreAt core).stopAt = some at_ → at_ ≤ s.cycle → (s.coreAt core).frozen = none →
      (∀ j ∈ s.jobs, j.pushes = []) → ∃ t : State, exec (.cycleStopReached core) s = .next t ∧
        (t.coreAt core).frozen = some [] ∧ (t.coreAt core).stopAt = none ∧ t.mem = s.mem) ∧
    (∀ v, let dsel := (s.dieAt r.die).dsel
      let who : Outsider := .debugger r.die dsel v;
      (s.findJob (dsel.extractLsb' 32 16).toNat = none → exec (.ddataWrite r.die v) s = .next (dres s 1)) ∧
      ∀ j, s.findJob (dsel.extractLsb' 32 16).toNat = some j →
        (j.poke dsel v = none → exec (.ddataWrite r.die v) s = .next (dres s 3)) ∧
        ∀ k f, j.poke dsel v = some (k, f) → s.noOutside who →
          ((∀ e ∈ j.entries, k.overlap (j.keysLeft e) = false) →
            exec (.ddataWrite r.die v) s =
              .next (dres ((if (dsel.extractLsb' 60 4).toNat = 4 then s.tell (fun k _ o => k.num == j.num &&
                onSem ((dsel.extractLsb' 0 32).toNat - 16) o) ⟨0xE, 0, 0⟩ else s).modJobNum j.num f) 0)) ∧
          ((∃ e ∈ j.entries, k.overlap (j.keysLeft e) = true) →
            exec (.ddataWrite r.die v) s = .next (s.modJobNum j.num fun j => { j with
              entries := j.entries ++ [⟨j.nextId, .C, 0, .outside who, k, false, false⟩], nextId := j.nextId + 1 }))) ∧
    (∀ v sec n, let d := r.die
      let gives := fun (reg : RegName) (u : State) => s.regOpen reg sec = true → exec (.registerWrite reg v sec) s = .next u
      let put := fun (reg : RegName) (f : Die → Die) => gives reg (s.modDie d f)
      let keeps := fun (reg : RegName) => gives reg s;
      (∀ reg, s.regOpen reg sec = false → exec (.registerWrite reg v sec) s = .next { s with reply := ⟨false, 0x13, 0, []⟩ }) ∧
      ((sec = true ∨ s.hub.rgn = []) → ∀ reg, s.regOpen reg sec = true) ∧
      (s.hub.mapq.length < 256 → gives .mapq (s.modHub fun h => { h with mapq := h.mapq ++ [v] })) ∧
      (256 ≤ s.hub.mapq.length → keeps .mapq) ∧
      keeps .mapdone ∧ keeps (.sfcnt d) ∧ keeps (.jstat d) ∧ keeps (.dstat d) ∧
      gives .mapstat (s.modHub fun h => { h with mapRej := h.mapRej && !v.getLsbD 30 }) ∧
      (let base := (v.extractLsb' 24 28).toNat * 2 ^ 24;
        physReady base 32768 s = .ok () s → put (.sfring d) fun x => { x with
          sfring := BitVec.ofNat 64 base, sfcnt := s.countAreas base 4096 0, sfhead := 0 }) ∧
      (∀ m, m < 8192 → gives (.mailbox m) (s.modHub fun h => { h with
        mailbox := Cells.setMany 0 h.mailbox (8 * m) (leList 8 v.toNat) })) ∧
      put (.dcyc d) (fun x => { x with dcyc := v }) ∧
      put (.dsel d) (fun x => { x with dsel := v &&& 0xFC00_FFFF_FFFF_FFFF }) ∧
      ((v.extractLsb' 0 4).toNat ≤ 8 → put (.wlring d) fun x => { x with wlring := v &&& 0x000F_FFFF_FFFF_F00F }) ∧
      put (.wlptr d) (fun x => { x with wlhead := (v.extractLsb' 32 32).toNat }) ∧
      put (.wlcfg d) (fun x => { x with
        wldrop := (BitVec.ofNat 32 x.wldrop &&& ~~~(v.extractLsb' 32 32)).toNat, wlmin := (v.extractLsb' 0 32).toNat }) ∧
      put (.ddump d) (fun x => { x with ddump := v &&& 0x000F_FFFF_FFFF_0000 }) ∧
      put (.whit d n) (fun x => { x with whit := vset x.whit n (vget 0 x.whit n &&& ~~~v) }) ∧
      ((v.extractLsb' 61 2).toNat ≠ 3 →
        put (.wp d n) fun x => { x with wp := vset x.wp n (v &&& 0xF00F_FFFF_FFFF_FFC0) }) ∧
      (n < 64 → gives (.bar2 n) (s.modHub fun h => { h with
        bar2 := Cells.set 0 h.bar2 n (if v.getLsbD 0 then (v.extractLsb' 30 22).toNat * 2 ^ 30 + 1 else 0) })) ∧
      (s.jbusy d = true → keeps (.jcmd d)) ∧ (s.dbusy d = true → keeps (.dcmd d)) ∧
      (v.extractLsb' 16 44 = 0 → s.jbusy d = false → s.regOpen (.jcmd d) sec = true →
        let op := (v.extractLsb' 60 4).toNat
        let num := (v.extractLsb' 0 16).toNat
        let is := fun (i : Instr) => exec (.registerWrite (.jcmd d) v sec) s = exec i s;
        (op = 0 → is (.jcmdResume d num)) ∧ (op = 1 → is (.jcmdEnd d num)) ∧ (op = 2 → is (.jcmdPreempt d num)) ∧
        (op = 3 → is (.jcmdReadmit d num))))

/-! ## The machine as a whole -/

/-- R158, R169 to R173: a step whose turn is a stream's issue runs the instruction that the bytes at its program
counter decode to: the step is exec of that instruction, one cycle on, with the stream's job in focus and the unit's last
use noted. The bytes are those of a filled unit that is not stale, whose words are expanded, going on into the next unit
where the instruction crosses into it. Words that are not there are filled; an odd address, a stale unit and bytes that are
no instruction take their faults. A decoded instruction is well formed and no event. Turns are the model's (log entry 1). -/
def Obligations.StepRunsDecoded : Prop :=
  (∀ (num : Nat) (x : StreamId) (r : List Turn) (s t : State), s.agenda = .issue num x :: r →
    State.focus { s with agenda := r, via := none, cycle := s.cycle + 1 } num = some t →
    let u : State := { t with cur := x };
    (u.job.hits = [] → u.mayIssue = true →
      (∀ i, u.fetch = .instr i → step s = exec i u.useCode) ∧
      (u.fetch = .fill → step s = exec (.instructionFill num x) u) ∧
      (∀ f unit, u.fetch = .fault f unit → step s = .next (u.fetchFault f unit))) ∧
    (u.job.hits = [] → u.mayIssue = false → step s = .next u)) ∧
  (∀ (s : State) (v : CodeUnit) (ver : Nat),
    let pc := s.str.pc.toNat
    let bs := v.bytes.drop (pc % 256)
    let fresh := fun (first : Option Nat) (w : Nat) => ∀ f, first = some f → w ≤ f;
    pc % 2 = 0 → s.str.unitAt (pc / 256 * 256) = some v → v.fault = none → s.str.hdrVer = some ver →
    (¬fresh v.first v.wts → s.fetch = .fault (FaultInfo.of 0x0B) 0) ∧
    (fresh v.first v.wts → pc % 256 ∉ v.words → s.fetch = .fill) ∧
    (fresh v.first v.wts → pc % 256 ∈ v.words → ver < 256 →
      (instrLen (bs.headD 0) ≤ bs.length →
        (∀ i rest, decode bs = .ok (i, rest) → s.fetch = .instr i) ∧
        (∀ e, decode bs = .error e →
          ∃ n, s.fetch = .fault { FaultInfo.of 0x08 with dstat := n } 0 ∧ (n = 1 ∨ n = 2 ∨ n = 3))) ∧
      (bs.length < instrLen (bs.headD 0) → v.tailFault = none →
        (¬fresh v.tailFirst v.tailWts → s.fetch = .fault (FaultInfo.of 0x0B) 0) ∧
        (fresh v.tailFirst v.tailWts → ∀ i rest, decode (bs ++ v.tail) = .ok (i, rest) → s.fetch = .instr i)))) ∧
  (∀ s : State, s.str.pc.toNat % 2 = 1 → s.fetch = .fault (FaultInfo.of 0x0A) 0) ∧
  (∀ s : State, s.str.pc.toNat % 2 = 0 → s.str.unitAt (s.str.pc.toNat / 256 * 256) = none → s.fetch = .fill) ∧
  ∀ bs i rest, decode bs = .ok (i, rest) → i.wf = true ∧ i.isEvent = false ∧ ∃ h, i.hdr = some h ∧ rest = bs.drop h.form.len

/-- R156 to R168, R278: words written out from the encodings: bytes of every form, of each operand format, decode to the
instruction that they stand for. -/
def Obligations.DecodeWords : Prop :=
  let g : Guard := ⟨false, 0⟩
  let reads := fun (bs : List Byte) (i : Instr) => decode bs = .ok (i, []);
  reads [0x09, 0x2A] (.addShort 5 9) ∧
  reads [0xA8, 0x03, 0x51, 0x08] (.cmp ⟨g, .scalar⟩ .lt 3 4 5) ∧
  reads [0xD2, 0x01, 0x40, 0x18, 0x07, 0x00] (.sub ⟨⟨true, 2⟩, .guarded⟩ 4 6 7) ∧
  reads [0xE0, 0x10, 0xA3, 0x28, 0x00, 0x00, 0x20, 0x4E] (.addImm ⟨⟨false, 3⟩, .wide⟩ 5 5 40000) ∧
  reads [0xC0, 0x60, 0x73, 0x08, 0xA3, 0x10] (.ld ⟨g, .guarded⟩ .b8 false 7 2 ⟨2, 4, 3⟩ 16) ∧
  reads [0xE0, 0xA1, 0x20, 0x18, 0x00, 0x00, 0x02, 0x00] (.mmul ⟨g, .wide⟩ false 1 0 3 2) ∧
  reads [0xC0, 0xC0, 0x00, 0x18, 0x40, 0x00] (.cpy ⟨g, .guarded⟩ 1 6) ∧
  reads [0xC0, 0xC1, 0x00, 0x51, 0x15, 0x00] (.renq ⟨g, .guarded⟩ 16 20 21) ∧
  reads [0xE0, 0x92, 0x40, 0x01, 0x05, 0x00, 0x60, 0x10] (.vmov ⟨g, .wide⟩ false 10 20 0 0 3 0 4) ∧
  reads [0xF0, 0x92, 0x00, 0x00, 0x90, 0x32, 0x00, 0x00, 0x80, 0x82, 0x02, 0x00] (.vmov ⟨g, .literal⟩ false 10 20 0 0 3 5 4) ∧
  reads [0xF5, 0x27, 0x57, 0x13, 0xCF, 0x8A, 0x46, 0x02, 0x00, 0x00, 0x0A, 0x00] (.movi ⟨g, .literal⟩ 5 0x1234_5678_9ABD) ∧
  decode [0xF8] = .error .reservedPrefix ∧
  decode [0xC0] = .error .truncated

/-- R156 to R167: decoding the encoding of a well-formed instruction that its form can carry gives the instruction back,
with the bytes that follow it: no bit of an operand is dropped, whatever the form. -/
def Obligations.DecodeOfEncode : Prop :=
  ∀ (i : Instr) (rest : List Byte), i.wf = true → i.encodable = true → decode (encode i ++ rest) = .ok (i, rest)

/-- R4: multi-byte values in memory are little-endian: of a value that n bytes at an address make, the byte at address
a + i holds bits 8 i + 7 to 8 i, the byte at the lowest address bits 7 to 0; and a value stored reads back. -/
def Obligations.LittleEndian : Prop :=
  ∀ (m : Memory) (a n v : Nat), m.wf = true →
    (∀ i, i < n → ∀ k, k < 8 →
      (leNum (m.readMany a n)).testBit (8 * i + k) = (m.read (a + i)).getLsbD k ∧
      ((m.writeMany a (leList n v)).read (a + i)).getLsbD k = v.testBit (8 * i + k)) ∧
    leNum (m.readMany a n) < 2 ^ (8 * n) ∧
    leNum ((m.writeMany a (leList n v)).readMany a n) = v % 2 ^ (8 * n)

/-- R4: every step keeps memory and the homes' logical times in canonical form, whatever the turn: so equal memories are
equal data, and a byte reads as it was last written. -/
def Obligations.MemOkIsKept : Prop := ∀ s t : State, s.memOk → step s = .next t → t.memOk

/-- R134, R426, R429, R436, R454: the machine right after package reset: no job, the boot not begun, memory with nothing
listed and in canonical form, the registers that the rules give at the values they give, and every other register at the
value that the assumption log names (rows 3, 6, 7 and 8: the model's choices). -/
def Obligations.ResetState : Prop :=
  let s := State.reset
  s.memOk ∧ s.mem = [] ∧ (∀ a, s.mem.read a = 0) ∧ s.jobs.all (fun j => !j.present) = true ∧ s.cycle = 0 ∧
  s.hub.boot.stage = 0 ∧ s.hub.boot.started = false ∧ s.hub.mr = Vector.replicate 16 0 ∧ s.hub.rgn = [] ∧
  s.hub.podmap = Vector.replicate 16 0 ∧ s.hub.mapq = [] ∧ s.hub.mapdone = 0 ∧
  s.hub.code = 1 ∧ s.hub.caps = List.replicate 128 4 ∧ s.hub.rate = 14400 ∧ s.hub.pod = 0 ∧ s.hub.pos = 0 ∧
  s.hub.pcieSec = false ∧ s.hub.linkSec = Vector.replicate 8 false ∧ s.hub.ethSec = Vector.replicate 4 false ∧
  s.hub.arrival = 0 ∧ s.hub.deaf = [] ∧ s.posted = [] ∧ s.bad = [] ∧
  (∀ d < 8, let x := s.dieAt d
    x.queues = [] ∧ (∀ q w, x.lq q w = 0) ∧ x.sfring = 0 ∧ x.sfcnt = 0 ∧ x.dcyc = 0 ∧ x.wlring = 0 ∧ x.wlmin = 0 ∧
    x.wp = Vector.replicate 8 0 ∧ x.whit = Vector.replicate 8 0) ∧
  (∀ i < 256, let c := s.coreAt i
    c.sec = false ∧ c.copySec = false ∧ c.tlb = [] ∧ c.tlb1 = Vector.replicate 3 [] ∧ c.l1 = [] ∧ c.ports = [] ∧ c.keys = [] ∧ c.frozen = none ∧ c.gated = false) ∧
  (∀ x : StreamId, let y := s.job.str x
    y.st = .idle ∧ y.pc = 0 ∧ (∀ r, y.getS r = 0) ∧ (∀ p, y.getP p = (p == 0)) ∧ (∀ n, y.getLc n = 0) ∧ y.frames = []) ∧
  (∀ r l, s.job.lane r l = 0) ∧ (∀ a i n, s.job.accAt a i n = 0) ∧ (∀ n w, s.job.stWord n w = 0) ∧
  s.job.rb = 0 ∧ s.job.rs = 0 ∧ s.job.rot = 0 ∧ s.job.aq = Vector.replicate 4 [] ∧ s.job.bq = [] ∧
  (∀ n, semAt s.job n = ⟨0, 0xFFFF, []⟩) ∧ s.job.tk = Vector.replicate 8 0 ∧ (∀ t, timeline s.job t = ⟨0, 0, []⟩) ∧
  s.job.ctbase = 0 ∧ s.job.crange = Vector.replicate 4 0 ∧ s.job.ctide = Vector.replicate 4 0 ∧ s.job.bdom = 0 ∧
  s.job.bhold = 64 ∧ s.job.trap.inTrap = false ∧ s.job.seed = Vector.replicate 4 1 ∧ s.job.slots = Vector.replicate 32 .empty
end

