-- ==== Sys2Proof/Laws/Cells.lean ====
section
/-! SUPPORT. Sparse tables: what reads as what after a write, and that every operation keeps the canonical form. -/

namespace Sys2Proof.Machine

variable {α : Type} [DecidableEq α] {d : α}

/-! ## The canonical form -/

theorem Cells.wfFrom_mono {lo lo' : Nat} {c : Cells α} (h : Cells.wfFrom d lo c = true) (l : lo' ≤ lo) :
    Cells.wfFrom d lo' c = true := by
  cases c with
  | nil => rfl
  | cons e r =>
    simp only [Cells.wfFrom, Bool.and_eq_true, decide_eq_true_eq] at *
    exact ⟨⟨Nat.le_trans l h.1.1, h.1.2⟩, h.2⟩

theorem Cells.get_below {lo a : Nat} {c : Cells α} (h : Cells.wfFrom d lo c = true) (l : a < lo) :
    Cells.get d c a = d := by
  cases c with
  | nil => rfl
  | cons e r =>
    simp only [Cells.wfFrom, Bool.and_eq_true, decide_eq_true_eq] at h
    have := h.1.1
    rw [Cells.get, if_neg (by omega), if_pos (by omega)]

theorem Cells.wfFrom_set {lo a : Nat} {v : α} {c : Cells α} (h : Cells.wfFrom d lo c = true) (l : lo ≤ a) :
    Cells.wfFrom d lo (Cells.set d c a v) = true := by
  induction c generalizing lo with
  | nil =>
    unfold Cells.set; split
    · rfl
    · simp [Cells.wfFrom, *]
  | cons e r ih =>
    obtain ⟨k, w⟩ := e
    simp only [Cells.wfFrom, Bool.and_eq_true, decide_eq_true_eq, Bool.not_eq_true', decide_eq_false_iff_not] at h
    obtain ⟨⟨h1, h2⟩, h3⟩ := h
    unfold Cells.set
    split <;> rename_i ka
    · split
      · simp [Cells.wfFrom, *]
      · simp only [Cells.wfFrom, Bool.and_eq_true, decide_eq_true_eq, Bool.not_eq_true', decide_eq_false_iff_not]
        exact ⟨⟨l, ‹_›⟩, ⟨by omega, h2⟩, h3⟩
    · split <;> rename_i kb
      · split
        · exact Cells.wfFrom_mono h3 (by omega)
        · simp only [Cells.wfFrom, Bool.and_eq_true, decide_eq_true_eq, Bool.not_eq_true', decide_eq_false_iff_not]
          exact ⟨⟨l, ‹_›⟩, kb ▸ h3⟩
      · simp only [Cells.wfFrom, Bool.and_eq_true, decide_eq_true_eq, Bool.not_eq_true', decide_eq_false_iff_not]
        exact ⟨⟨h1, h2⟩, ih h3 (by omega)⟩

@[simp] theorem Cells.wf_nil : Cells.wf d ([] : Cells α) = true := rfl

/-- A write keeps the canonical form. -/
theorem Cells.wf_set {c : Cells α} (h : Cells.wf d c = true) (a : Nat) (v : α) : Cells.wf d (Cells.set d c a v) = true :=
  Cells.wfFrom_set h (Nat.zero_le _)

/-- Writing many values keeps the canonical form. -/
theorem Cells.wf_setMany {c : Cells α} (h : Cells.wf d c = true) (a : Nat) (vs : List α) :
    Cells.wf d (Cells.setMany d c a vs) = true := by
  induction vs generalizing c a with
  | nil => exact h
  | cons v vs ih => exact ih (Cells.wf_set h a v) (a + 1)

theorem Cells.wfFrom_filter {lo : Nat} {c : Cells α} (p : Nat × α → Bool) (h : Cells.wfFrom d lo c = true) :
    Cells.wfFrom d lo (List.filter p c) = true := by
  induction c generalizing lo with
  | nil => rfl
  | cons e r ih =>
    obtain ⟨k, w⟩ := e
    simp only [Cells.wfFrom, Bool.and_eq_true, decide_eq_true_eq, Bool.not_eq_true', decide_eq_false_iff_not] at h
    obtain ⟨⟨h1, h2⟩, h3⟩ := h
    rw [List.filter_cons]
    split
    · simp only [Cells.wfFrom, Bool.and_eq_true, decide_eq_true_eq, Bool.not_eq_true', decide_eq_false_iff_not]
      exact ⟨⟨h1, h2⟩, ih h3⟩
    · exact ih (Cells.wfFrom_mono h3 (by omega))

/-- Clearing a range keeps the canonical form. -/
theorem Cells.wf_clear {c : Cells α} (h : Cells.wf d c = true) (lo hi : Nat) : Cells.wf d (Cells.clear lo hi c) = true :=
  Cells.wfFrom_filter _ h

/-- The canonical form, said of the whole list. -/
theorem Cells.wfFrom_iff {lo : Nat} {c : Cells α} :
    Cells.wfFrom d lo c = true ↔ c.Pairwise (fun a b => a.1 < b.1) ∧ ∀ e ∈ c, lo ≤ e.1 ∧ e.2 ≠ d := by
  induction c generalizing lo with
  | nil => simp [Cells.wfFrom]
  | cons e r ih =>
    obtain ⟨k, w⟩ := e
    simp only [Cells.wfFrom, Bool.and_eq_true, decide_eq_true_eq, Bool.not_eq_true', decide_eq_false_iff_not, ih,
      List.pairwise_cons, List.mem_cons, forall_eq_or_imp]
    constructor
    · rintro ⟨⟨a, b⟩, p, q⟩
      exact ⟨⟨fun x h => by have := (q x h).1; omega, p⟩, ⟨a, b⟩, fun x h => ⟨by have := (q x h).1; omega, (q x h).2⟩⟩
    · rintro ⟨⟨s, p⟩, ⟨a, b⟩, q⟩
      exact ⟨⟨a, b⟩, p, fun x h => ⟨by have := s x h; omega, (q x h).2⟩⟩

theorem Cells.wf_iff {c : Cells α} :
    Cells.wf d c = true ↔ c.Pairwise (fun a b => a.1 < b.1) ∧ ∀ e ∈ c, e.2 ≠ d := by
  simp [Cells.wf, Cells.wfFrom_iff]

/-- Values written out from a key on make a table in canonical form. -/
theorem Cells.wfFrom_of (a : Nat) (vs : List α) : Cells.wfFrom d a (Cells.of d a vs) = true := by
  induction vs generalizing a with
  | nil => rfl
  | cons v vs ih =>
    unfold Cells.of
    split
    · exact Cells.wfFrom_mono (ih _) (by omega)
    · simp [Cells.wfFrom, *]

theorem Cells.wf_of (a : Nat) (vs : List α) : Cells.wf d (Cells.of d a vs) = true :=
  Cells.wfFrom_mono (Cells.wfFrom_of a vs) (Nat.zero_le _)

/-- Keys moved down past what lies below them keep the canonical form. -/
theorem Cells.wf_shift {c : Cells α} (h : Cells.wf d c = true) (lo : Nat) :
    Cells.wf d ((c.filter fun e => decide (lo ≤ e.1)).map fun e => (e.1 - lo, e.2)) = true := by
  rw [Cells.wf_iff] at *
  constructor
  · refine List.pairwise_map.2 ((h.1.filter _).imp_of_mem fun {a b} ha _ r => ?_)
    have : lo ≤ a.1 := by simpa using (List.mem_filter.1 ha).2
    show a.1 - lo < b.1 - lo
    omega
  · intro e he
    obtain ⟨x, hx, rfl⟩ := List.mem_map.1 he
    exact h.2 x (List.mem_filter.1 hx).1

/-- Grafting one table in canonical form into another keeps the form. -/
theorem Cells.wf_graft {c mid : Cells α} (h : Cells.wf d c = true) (k : Cells.wf d mid = true) (lo hi : Nat) (l : lo ≤ hi) :
    Cells.wf d (Cells.graft c lo hi mid) = true := by
  rw [Cells.wf_iff] at *
  unfold Cells.graft
  constructor
  · refine List.pairwise_append.2 ⟨List.pairwise_append.2 ⟨h.1.filter _, ?_, ?_⟩, h.1.filter _, ?_⟩
    · exact List.pairwise_map.2 ((k.1.filter _).imp fun {a b} r => by show lo + a.1 < lo + b.1; omega)
    · intro a ha b hb
      obtain ⟨x, _, rfl⟩ := List.mem_map.1 hb
      have : a.1 < lo := by simpa using (List.mem_filter.1 ha).2
      show a.1 < lo + x.1
      omega
    · intro a ha b hb
      have hb' : hi ≤ b.1 := by simpa using (List.mem_filter.1 hb).2
      rcases List.mem_append.1 ha with q | q
      · have : a.1 < lo := by simpa using (List.mem_filter.1 q).2
        omega
      · obtain ⟨x, hx, rfl⟩ := List.mem_map.1 q
        have : lo + x.1 < hi := by simpa using (List.mem_filter.1 hx).2
        show lo + x.1 < b.1
        omega
  · intro e he
    rcases List.mem_append.1 he with q | q
    · rcases List.mem_append.1 q with q | q
      · exact h.2 e (List.mem_filter.1 q).1
      · obtain ⟨x, hx, rfl⟩ := List.mem_map.1 q
        exact k.2 x (List.mem_filter.1 hx).1
    · exact h.2 e (List.mem_filter.1 q).1

/-! ## Reading -/

theorem Cells.getFrom_set {lo a b : Nat} {v : α} {c : Cells α} (h : Cells.wfFrom d lo c = true) :
    Cells.get d (Cells.set d c a v) b = if b = a then v else Cells.get d c b := by
  induction c generalizing lo with
  | nil =>
    unfold Cells.set
    split
    · simp_all [Cells.get]
    · simp [Cells.get]
  | cons e r ih =>
    obtain ⟨k, w⟩ := e
    simp only [Cells.wfFrom, Bool.and_eq_true, decide_eq_true_eq] at h
    obtain ⟨⟨h1, h2⟩, h3⟩ := h
    have low : ∀ x, x ≤ k → Cells.get d r x = d := fun x hx => Cells.get_below h3 (by omega)
    unfold Cells.set
    split <;> rename_i ka
    · split <;> rename_i vd
      · split
        · subst b; rw [Cells.get, if_neg (by omega), if_pos ka, vd]
        · rfl
      · rw [Cells.get]
        split
        · rfl
        · split
          · rw [Cells.get, if_neg (by omega), if_pos (by omega)]
          · rfl
    · split <;> rename_i kb
      · subst kb
        split <;> rename_i vd
        · split
          · subst b; rw [low _ (Nat.le_refl _), vd]
          · rw [Cells.get, if_neg ‹_›]
            split
            · exact low _ (by omega)
            · rfl
        · simp only [Cells.get]
          split
          · rfl
          · rfl
      · rw [Cells.get, Cells.get, ih h3]
        split
        · rw [if_neg (by omega)]
        · split
          · rw [if_neg (by omega)]
          · rfl

/-- A read after a write. -/
theorem Cells.get_set {c : Cells α} (h : Cells.wf d c = true) (a b : Nat) (v : α) :
    Cells.get d (Cells.set d c a v) b = if b = a then v else Cells.get d c b := Cells.getFrom_set h

/-- A read after a write of many values. -/
theorem Cells.get_setMany {c : Cells α} (h : Cells.wf d c = true) (a b : Nat) (vs : List α) :
    Cells.get d (Cells.setMany d c a vs) b =
      if a ≤ b ∧ b < a + vs.length then vs.getD (b - a) d else Cells.get d c b := by
  induction vs generalizing c a with
  | nil => rw [if_neg (by simp only [List.length_nil]; omega)]; rfl
  | cons v vs ih =>
    rw [Cells.setMany, ih (Cells.wf_set h a v), Cells.get_set h]
    simp only [List.length_cons]
    by_cases e : b = a
    · subst e; rw [if_neg (by omega), if_pos rfl, if_pos ⟨by omega, by omega⟩]; simp
    · rw [if_neg e]
      by_cases l : a + 1 ≤ b ∧ b < a + 1 + vs.length
      · rw [if_pos l, if_pos ⟨by omega, by omega⟩]
        have : b - a = (b - (a + 1)) + 1 := by omega
        rw [this, List.getD_cons_succ]
      · rw [if_neg l, if_neg (by omega)]

theorem Cells.getFrom_clear {lo l h a : Nat} {c : Cells α} (w : Cells.wfFrom d lo c = true) :
    Cells.get d (Cells.clear l h c) a = if l ≤ a ∧ a < h then d else Cells.get d c a := by
  induction c generalizing lo with
  | nil => simp [Cells.clear, Cells.get]
  | cons e r ih =>
    obtain ⟨k, v⟩ := e
    simp only [Cells.wfFrom, Bool.and_eq_true, decide_eq_true_eq] at w
    obtain ⟨⟨h1, h2⟩, h3⟩ := w
    have ih := ih h3
    have low : ∀ x, x ≤ k → Cells.get d r x = d := fun x hx => Cells.get_below h3 (by omega)
    unfold Cells.clear at *
    rw [List.filter_cons]
    by_cases p : (k < l || h ≤ k) = true
    · rw [if_pos p]
      simp only [Bool.or_eq_true, decide_eq_true_eq] at p
      rw [Cells.get, Cells.get, ih]
      by_cases e : a = k
      · subst e; rw [if_pos rfl, if_pos rfl, if_neg (by omega)]
      · rw [if_neg e, if_neg e]
        split
        · split <;> rfl
        · rfl
    · rw [if_neg p, ih]
      simp only [Bool.or_eq_true, decide_eq_true_eq] at p
      rw [Cells.get]
      by_cases e : l ≤ a ∧ a < h
      · rw [if_pos e, if_pos e]
      · rw [if_neg e, if_neg e, if_neg (by omega)]
        split
        · exact low _ (by omega)
        · rfl

/-- A read after clearing a range. -/
theorem Cells.get_clear {c : Cells α} (w : Cells.wf d c = true) (l h a : Nat) :
    Cells.get d (Cells.clear l h c) a = if l ≤ a ∧ a < h then d else Cells.get d c a := Cells.getFrom_clear w

/-! ## Memory -/

theorem Memory.wf_write {m : Memory} (h : m.wf = true) (a : Nat) (b : Byte) : (m.write a b).wf = true := Cells.wf_set h a b
theorem Memory.wf_writeMany {m : Memory} (h : m.wf = true) (a : Nat) (bs : List Byte) : (m.writeMany a bs).wf = true :=
  Cells.wf_setMany h a bs

/-- A byte read after a byte write. -/
theorem Memory.read_write {m : Memory} (h : m.wf = true) (a b : Nat) (v : Byte) :
    (m.write a v).read b = if b = a then v else m.read b := Cells.get_set h a b v

/-- Writing bytes changes the place to them, and no other byte. -/
theorem Memory.became_writeMany {m : Memory} (h : m.wf = true) (a : Nat) (bs : List Byte) :
    m.became a bs (m.writeMany a bs) := fun b => Cells.get_setMany h a b bs

/-- Memory in which nothing is listed reads as the blank byte. -/
@[simp] theorem Memory.read_nil (a : Nat) : Memory.read [] a = Memory.blank := rfl

/-- At reset, memory and the logical times are in canonical form. -/
theorem reset_memOk : State.reset.memOk := ⟨rfl, rfl, rfl⟩

end Sys2Proof.Machine
end

