-- ==== Sys2Proof/Laws/State.lean ====
section
/-! SUPPORT. One lemma for each field and each named update of the state, and what registers read as after a write. -/

namespace Sys2Proof.Machine

/-! ## modJob -/

@[simp] theorem State.modJob_job (s : State) (f : Job → Job) : (s.modJob f).job = f s.job := rfl
@[simp] theorem State.modJob_cur (s : State) (f : Job → Job) : (s.modJob f).cur = s.cur := rfl
@[simp] theorem State.modJob_rest (s : State) (f : Job → Job) : (s.modJob f).rest = s.rest := rfl
@[simp] theorem State.modJob_mem (s : State) (f : Job → Job) : (s.modJob f).mem = s.mem := rfl
@[simp] theorem State.modJob_wts (s : State) (f : Job → Job) : (s.modJob f).wts = s.wts := rfl
@[simp] theorem State.modJob_lts (s : State) (f : Job → Job) : (s.modJob f).lts = s.lts := rfl
@[simp] theorem State.modJob_cores (s : State) (f : Job → Job) : (s.modJob f).cores = s.cores := rfl
@[simp] theorem State.modJob_dies (s : State) (f : Job → Job) : (s.modJob f).dies = s.dies := rfl
@[simp] theorem State.modJob_hub (s : State) (f : Job → Job) : (s.modJob f).hub = s.hub := rfl
@[simp] theorem State.modJob_cycle (s : State) (f : Job → Job) : (s.modJob f).cycle = s.cycle := rfl
@[simp] theorem State.modJob_reply (s : State) (f : Job → Job) : (s.modJob f).reply = s.reply := rfl
@[simp] theorem State.modJob_agenda (s : State) (f : Job → Job) : (s.modJob f).agenda = s.agenda := rfl
@[simp] theorem State.modJob_rota (s : State) (f : Job → Job) : (s.modJob f).rota = s.rota := rfl
@[simp] theorem State.modJob_bad (s : State) (f : Job → Job) : (s.modJob f).bad = s.bad := rfl
@[simp] theorem State.modJob_via (s : State) (f : Job → Job) : (s.modJob f).via = s.via := rfl
@[simp] theorem State.modJob_clocks (s : State) (f : Job → Job) : (s.modJob f).clocks = s.clocks := rfl
@[simp] theorem State.modJob_posted (s : State) (f : Job → Job) : (s.modJob f).posted = s.posted := rfl

/-! ## setStr -/

@[simp] theorem Job.setStr_str (j : Job) (x : StreamId) : j.setStr x (j.str x) = j := by cases x <;> rfl
@[simp] theorem State.setStr_job (s : State) (t : Stream) : (s.setStr t).job = s.job.setStr s.cur t := rfl
@[simp] theorem State.setStr_cur (s : State) (t : Stream) : (s.setStr t).cur = s.cur := rfl
@[simp] theorem State.setStr_rest (s : State) (t : Stream) : (s.setStr t).rest = s.rest := rfl
@[simp] theorem State.setStr_mem (s : State) (t : Stream) : (s.setStr t).mem = s.mem := rfl
@[simp] theorem State.setStr_wts (s : State) (t : Stream) : (s.setStr t).wts = s.wts := rfl
@[simp] theorem State.setStr_lts (s : State) (t : Stream) : (s.setStr t).lts = s.lts := rfl
@[simp] theorem State.setStr_cores (s : State) (t : Stream) : (s.setStr t).cores = s.cores := rfl
@[simp] theorem State.setStr_dies (s : State) (t : Stream) : (s.setStr t).dies = s.dies := rfl
@[simp] theorem State.setStr_hub (s : State) (t : Stream) : (s.setStr t).hub = s.hub := rfl
@[simp] theorem State.setStr_cycle (s : State) (t : Stream) : (s.setStr t).cycle = s.cycle := rfl
@[simp] theorem State.setStr_reply (s : State) (t : Stream) : (s.setStr t).reply = s.reply := rfl
@[simp] theorem State.setStr_agenda (s : State) (t : Stream) : (s.setStr t).agenda = s.agenda := rfl
@[simp] theorem State.setStr_rota (s : State) (t : Stream) : (s.setStr t).rota = s.rota := rfl
@[simp] theorem State.setStr_bad (s : State) (t : Stream) : (s.setStr t).bad = s.bad := rfl
@[simp] theorem State.setStr_via (s : State) (t : Stream) : (s.setStr t).via = s.via := rfl
@[simp] theorem State.setStr_clocks (s : State) (t : Stream) : (s.setStr t).clocks = s.clocks := rfl
@[simp] theorem State.setStr_posted (s : State) (t : Stream) : (s.setStr t).posted = s.posted := rfl

/-! ## modStr -/

@[simp] theorem State.modStr_job (s : State) (f : Stream → Stream) : (s.modStr f).job = s.job.setStr s.cur (f s.str) := rfl
@[simp] theorem State.modStr_cur (s : State) (f : Stream → Stream) : (s.modStr f).cur = s.cur := rfl
@[simp] theorem State.modStr_rest (s : State) (f : Stream → Stream) : (s.modStr f).rest = s.rest := rfl
@[simp] theorem State.modStr_mem (s : State) (f : Stream → Stream) : (s.modStr f).mem = s.mem := rfl
@[simp] theorem State.modStr_wts (s : State) (f : Stream → Stream) : (s.modStr f).wts = s.wts := rfl
@[simp] theorem State.modStr_lts (s : State) (f : Stream → Stream) : (s.modStr f).lts = s.lts := rfl
@[simp] theorem State.modStr_cores (s : State) (f : Stream → Stream) : (s.modStr f).cores = s.cores := rfl
@[simp] theorem State.modStr_dies (s : State) (f : Stream → Stream) : (s.modStr f).dies = s.dies := rfl
@[simp] theorem State.modStr_hub (s : State) (f : Stream → Stream) : (s.modStr f).hub = s.hub := rfl
@[simp] theorem State.modStr_cycle (s : State) (f : Stream → Stream) : (s.modStr f).cycle = s.cycle := rfl
@[simp] theorem State.modStr_reply (s : State) (f : Stream → Stream) : (s.modStr f).reply = s.reply := rfl
@[simp] theorem State.modStr_agenda (s : State) (f : Stream → Stream) : (s.modStr f).agenda = s.agenda := rfl
@[simp] theorem State.modStr_rota (s : State) (f : Stream → Stream) : (s.modStr f).rota = s.rota := rfl
@[simp] theorem State.modStr_bad (s : State) (f : Stream → Stream) : (s.modStr f).bad = s.bad := rfl
@[simp] theorem State.modStr_via (s : State) (f : Stream → Stream) : (s.modStr f).via = s.via := rfl
@[simp] theorem State.modStr_clocks (s : State) (f : Stream → Stream) : (s.modStr f).clocks = s.clocks := rfl
@[simp] theorem State.modStr_posted (s : State) (f : Stream → Stream) : (s.modStr f).posted = s.posted := rfl

/-! ## modStrOf -/

@[simp] theorem State.modStrOf_job (s : State) (x : StreamId) (f : Stream → Stream) : (s.modStrOf x f).job = s.job.setStr x (f (s.job.str x)) := rfl
@[simp] theorem State.modStrOf_cur (s : State) (x : StreamId) (f : Stream → Stream) : (s.modStrOf x f).cur = s.cur := rfl
@[simp] theorem State.modStrOf_rest (s : State) (x : StreamId) (f : Stream → Stream) : (s.modStrOf x f).rest = s.rest := rfl
@[simp] theorem State.modStrOf_mem (s : State) (x : StreamId) (f : Stream → Stream) : (s.modStrOf x f).mem = s.mem := rfl
@[simp] theorem State.modStrOf_wts (s : State) (x : StreamId) (f : Stream → Stream) : (s.modStrOf x f).wts = s.wts := rfl
@[simp] theorem State.modStrOf_lts (s : State) (x : StreamId) (f : Stream → Stream) : (s.modStrOf x f).lts = s.lts := rfl
@[simp] theorem State.modStrOf_cores (s : State) (x : StreamId) (f : Stream → Stream) : (s.modStrOf x f).cores = s.cores := rfl
@[simp] theorem State.modStrOf_dies (s : State) (x : StreamId) (f : Stream → Stream) : (s.modStrOf x f).dies = s.dies := rfl
@[simp] theorem State.modStrOf_hub (s : State) (x : StreamId) (f : Stream → Stream) : (s.modStrOf x f).hub = s.hub := rfl
@[simp] theorem State.modStrOf_cycle (s : State) (x : StreamId) (f : Stream → Stream) : (s.modStrOf x f).cycle = s.cycle := rfl
@[simp] theorem State.modStrOf_reply (s : State) (x : StreamId) (f : Stream → Stream) : (s.modStrOf x f).reply = s.reply := rfl
@[simp] theorem State.modStrOf_agenda (s : State) (x : StreamId) (f : Stream → Stream) : (s.modStrOf x f).agenda = s.agenda := rfl
@[simp] theorem State.modStrOf_rota (s : State) (x : StreamId) (f : Stream → Stream) : (s.modStrOf x f).rota = s.rota := rfl
@[simp] theorem State.modStrOf_bad (s : State) (x : StreamId) (f : Stream → Stream) : (s.modStrOf x f).bad = s.bad := rfl
@[simp] theorem State.modStrOf_via (s : State) (x : StreamId) (f : Stream → Stream) : (s.modStrOf x f).via = s.via := rfl
@[simp] theorem State.modStrOf_clocks (s : State) (x : StreamId) (f : Stream → Stream) : (s.modStrOf x f).clocks = s.clocks := rfl
@[simp] theorem State.modStrOf_posted (s : State) (x : StreamId) (f : Stream → Stream) : (s.modStrOf x f).posted = s.posted := rfl

/-! ## setS -/

@[simp] theorem State.setS_job (s : State) (r : SReg) (v : Word) : (s.setS r v).job = s.job.setStr s.cur (s.str.setS r v) := rfl
@[simp] theorem State.setS_cur (s : State) (r : SReg) (v : Word) : (s.setS r v).cur = s.cur := rfl
@[simp] theorem State.setS_rest (s : State) (r : SReg) (v : Word) : (s.setS r v).rest = s.rest := rfl
@[simp] theorem State.setS_mem (s : State) (r : SReg) (v : Word) : (s.setS r v).mem = s.mem := rfl
@[simp] theorem State.setS_wts (s : State) (r : SReg) (v : Word) : (s.setS r v).wts = s.wts := rfl
@[simp] theorem State.setS_lts (s : State) (r : SReg) (v : Word) : (s.setS r v).lts = s.lts := rfl
@[simp] theorem State.setS_cores (s : State) (r : SReg) (v : Word) : (s.setS r v).cores = s.cores := rfl
@[simp] theorem State.setS_dies (s : State) (r : SReg) (v : Word) : (s.setS r v).dies = s.dies := rfl
@[simp] theorem State.setS_hub (s : State) (r : SReg) (v : Word) : (s.setS r v).hub = s.hub := rfl
@[simp] theorem State.setS_cycle (s : State) (r : SReg) (v : Word) : (s.setS r v).cycle = s.cycle := rfl
@[simp] theorem State.setS_reply (s : State) (r : SReg) (v : Word) : (s.setS r v).reply = s.reply := rfl
@[simp] theorem State.setS_agenda (s : State) (r : SReg) (v : Word) : (s.setS r v).agenda = s.agenda := rfl
@[simp] theorem State.setS_rota (s : State) (r : SReg) (v : Word) : (s.setS r v).rota = s.rota := rfl
@[simp] theorem State.setS_bad (s : State) (r : SReg) (v : Word) : (s.setS r v).bad = s.bad := rfl
@[simp] theorem State.setS_via (s : State) (r : SReg) (v : Word) : (s.setS r v).via = s.via := rfl
@[simp] theorem State.setS_clocks (s : State) (r : SReg) (v : Word) : (s.setS r v).clocks = s.clocks := rfl
@[simp] theorem State.setS_posted (s : State) (r : SReg) (v : Word) : (s.setS r v).posted = s.posted := rfl

/-! ## setP -/

@[simp] theorem State.setP_job (s : State) (r : PReg) (v : Bool) : (s.setP r v).job = s.job.setStr s.cur (s.str.setP r v) := rfl
@[simp] theorem State.setP_cur (s : State) (r : PReg) (v : Bool) : (s.setP r v).cur = s.cur := rfl
@[simp] theorem State.setP_rest (s : State) (r : PReg) (v : Bool) : (s.setP r v).rest = s.rest := rfl
@[simp] theorem State.setP_mem (s : State) (r : PReg) (v : Bool) : (s.setP r v).mem = s.mem := rfl
@[simp] theorem State.setP_wts (s : State) (r : PReg) (v : Bool) : (s.setP r v).wts = s.wts := rfl
@[simp] theorem State.setP_lts (s : State) (r : PReg) (v : Bool) : (s.setP r v).lts = s.lts := rfl
@[simp] theorem State.setP_cores (s : State) (r : PReg) (v : Bool) : (s.setP r v).cores = s.cores := rfl
@[simp] theorem State.setP_dies (s : State) (r : PReg) (v : Bool) : (s.setP r v).dies = s.dies := rfl
@[simp] theorem State.setP_hub (s : State) (r : PReg) (v : Bool) : (s.setP r v).hub = s.hub := rfl
@[simp] theorem State.setP_cycle (s : State) (r : PReg) (v : Bool) : (s.setP r v).cycle = s.cycle := rfl
@[simp] theorem State.setP_reply (s : State) (r : PReg) (v : Bool) : (s.setP r v).reply = s.reply := rfl
@[simp] theorem State.setP_agenda (s : State) (r : PReg) (v : Bool) : (s.setP r v).agenda = s.agenda := rfl
@[simp] theorem State.setP_rota (s : State) (r : PReg) (v : Bool) : (s.setP r v).rota = s.rota := rfl
@[simp] theorem State.setP_bad (s : State) (r : PReg) (v : Bool) : (s.setP r v).bad = s.bad := rfl
@[simp] theorem State.setP_via (s : State) (r : PReg) (v : Bool) : (s.setP r v).via = s.via := rfl
@[simp] theorem State.setP_clocks (s : State) (r : PReg) (v : Bool) : (s.setP r v).clocks = s.clocks := rfl
@[simp] theorem State.setP_posted (s : State) (r : PReg) (v : Bool) : (s.setP r v).posted = s.posted := rfl

/-! ## setLc -/

@[simp] theorem State.setLc_job (s : State) (r : LcReg) (v : Word) : (s.setLc r v).job = s.job.setStr s.cur (s.str.setLc r v) := rfl
@[simp] theorem State.setLc_cur (s : State) (r : LcReg) (v : Word) : (s.setLc r v).cur = s.cur := rfl
@[simp] theorem State.setLc_rest (s : State) (r : LcReg) (v : Word) : (s.setLc r v).rest = s.rest := rfl
@[simp] theorem State.setLc_mem (s : State) (r : LcReg) (v : Word) : (s.setLc r v).mem = s.mem := rfl
@[simp] theorem State.setLc_wts (s : State) (r : LcReg) (v : Word) : (s.setLc r v).wts = s.wts := rfl
@[simp] theorem State.setLc_lts (s : State) (r : LcReg) (v : Word) : (s.setLc r v).lts = s.lts := rfl
@[simp] theorem State.setLc_cores (s : State) (r : LcReg) (v : Word) : (s.setLc r v).cores = s.cores := rfl
@[simp] theorem State.setLc_dies (s : State) (r : LcReg) (v : Word) : (s.setLc r v).dies = s.dies := rfl
@[simp] theorem State.setLc_hub (s : State) (r : LcReg) (v : Word) : (s.setLc r v).hub = s.hub := rfl
@[simp] theorem State.setLc_cycle (s : State) (r : LcReg) (v : Word) : (s.setLc r v).cycle = s.cycle := rfl
@[simp] theorem State.setLc_reply (s : State) (r : LcReg) (v : Word) : (s.setLc r v).reply = s.reply := rfl
@[simp] theorem State.setLc_agenda (s : State) (r : LcReg) (v : Word) : (s.setLc r v).agenda = s.agenda := rfl
@[simp] theorem State.setLc_rota (s : State) (r : LcReg) (v : Word) : (s.setLc r v).rota = s.rota := rfl
@[simp] theorem State.setLc_bad (s : State) (r : LcReg) (v : Word) : (s.setLc r v).bad = s.bad := rfl
@[simp] theorem State.setLc_via (s : State) (r : LcReg) (v : Word) : (s.setLc r v).via = s.via := rfl
@[simp] theorem State.setLc_clocks (s : State) (r : LcReg) (v : Word) : (s.setLc r v).clocks = s.clocks := rfl
@[simp] theorem State.setLc_posted (s : State) (r : LcReg) (v : Word) : (s.setLc r v).posted = s.posted := rfl

/-! ## modCore -/

@[simp] theorem State.modCore_job (s : State) (i : Nat) (f : Core → Core) : (s.modCore i f).job = s.job := rfl
@[simp] theorem State.modCore_cur (s : State) (i : Nat) (f : Core → Core) : (s.modCore i f).cur = s.cur := rfl
@[simp] theorem State.modCore_rest (s : State) (i : Nat) (f : Core → Core) : (s.modCore i f).rest = s.rest := rfl
@[simp] theorem State.modCore_mem (s : State) (i : Nat) (f : Core → Core) : (s.modCore i f).mem = s.mem := rfl
@[simp] theorem State.modCore_wts (s : State) (i : Nat) (f : Core → Core) : (s.modCore i f).wts = s.wts := rfl
@[simp] theorem State.modCore_lts (s : State) (i : Nat) (f : Core → Core) : (s.modCore i f).lts = s.lts := rfl
@[simp] theorem State.modCore_cores (s : State) (i : Nat) (f : Core → Core) : (s.modCore i f).cores = vset s.cores i (f (s.coreAt i)) := rfl
@[simp] theorem State.modCore_dies (s : State) (i : Nat) (f : Core → Core) : (s.modCore i f).dies = s.dies := rfl
@[simp] theorem State.modCore_hub (s : State) (i : Nat) (f : Core → Core) : (s.modCore i f).hub = s.hub := rfl
@[simp] theorem State.modCore_cycle (s : State) (i : Nat) (f : Core → Core) : (s.modCore i f).cycle = s.cycle := rfl
@[simp] theorem State.modCore_reply (s : State) (i : Nat) (f : Core → Core) : (s.modCore i f).reply = s.reply := rfl
@[simp] theorem State.modCore_agenda (s : State) (i : Nat) (f : Core → Core) : (s.modCore i f).agenda = s.agenda := rfl
@[simp] theorem State.modCore_rota (s : State) (i : Nat) (f : Core → Core) : (s.modCore i f).rota = s.rota := rfl
@[simp] theorem State.modCore_bad (s : State) (i : Nat) (f : Core → Core) : (s.modCore i f).bad = s.bad := rfl
@[simp] theorem State.modCore_via (s : State) (i : Nat) (f : Core → Core) : (s.modCore i f).via = s.via := rfl
@[simp] theorem State.modCore_clocks (s : State) (i : Nat) (f : Core → Core) : (s.modCore i f).clocks = s.clocks := rfl
@[simp] theorem State.modCore_posted (s : State) (i : Nat) (f : Core → Core) : (s.modCore i f).posted = s.posted := rfl

/-! ## modDie -/

@[simp] theorem State.modDie_job (s : State) (i : Nat) (f : Die → Die) : (s.modDie i f).job = s.job := rfl
@[simp] theorem State.modDie_cur (s : State) (i : Nat) (f : Die → Die) : (s.modDie i f).cur = s.cur := rfl
@[simp] theorem State.modDie_rest (s : State) (i : Nat) (f : Die → Die) : (s.modDie i f).rest = s.rest := rfl
@[simp] theorem State.modDie_mem (s : State) (i : Nat) (f : Die → Die) : (s.modDie i f).mem = s.mem := rfl
@[simp] theorem State.modDie_wts (s : State) (i : Nat) (f : Die → Die) : (s.modDie i f).wts = s.wts := rfl
@[simp] theorem State.modDie_lts (s : State) (i : Nat) (f : Die → Die) : (s.modDie i f).lts = s.lts := rfl
@[simp] theorem State.modDie_cores (s : State) (i : Nat) (f : Die → Die) : (s.modDie i f).cores = s.cores := rfl
@[simp] theorem State.modDie_dies (s : State) (i : Nat) (f : Die → Die) : (s.modDie i f).dies = vset s.dies i (f (s.dieAt i)) := rfl
@[simp] theorem State.modDie_hub (s : State) (i : Nat) (f : Die → Die) : (s.modDie i f).hub = s.hub := rfl
@[simp] theorem State.modDie_cycle (s : State) (i : Nat) (f : Die → Die) : (s.modDie i f).cycle = s.cycle := rfl
@[simp] theorem State.modDie_reply (s : State) (i : Nat) (f : Die → Die) : (s.modDie i f).reply = s.reply := rfl
@[simp] theorem State.modDie_agenda (s : State) (i : Nat) (f : Die → Die) : (s.modDie i f).agenda = s.agenda := rfl
@[simp] theorem State.modDie_rota (s : State) (i : Nat) (f : Die → Die) : (s.modDie i f).rota = s.rota := rfl
@[simp] theorem State.modDie_bad (s : State) (i : Nat) (f : Die → Die) : (s.modDie i f).bad = s.bad := rfl
@[simp] theorem State.modDie_via (s : State) (i : Nat) (f : Die → Die) : (s.modDie i f).via = s.via := rfl
@[simp] theorem State.modDie_clocks (s : State) (i : Nat) (f : Die → Die) : (s.modDie i f).clocks = s.clocks := rfl
@[simp] theorem State.modDie_posted (s : State) (i : Nat) (f : Die → Die) : (s.modDie i f).posted = s.posted := rfl

/-! ## modHub -/

@[simp] theorem State.modHub_job (s : State) (f : Hub → Hub) : (s.modHub f).job = s.job := rfl
@[simp] theorem State.modHub_cur (s : State) (f : Hub → Hub) : (s.modHub f).cur = s.cur := rfl
@[simp] theorem State.modHub_rest (s : State) (f : Hub → Hub) : (s.modHub f).rest = s.rest := rfl
@[simp] theorem State.modHub_mem (s : State) (f : Hub → Hub) : (s.modHub f).mem = s.mem := rfl
@[simp] theorem State.modHub_wts (s : State) (f : Hub → Hub) : (s.modHub f).wts = s.wts := rfl
@[simp] theorem State.modHub_lts (s : State) (f : Hub → Hub) : (s.modHub f).lts = s.lts := rfl
@[simp] theorem State.modHub_cores (s : State) (f : Hub → Hub) : (s.modHub f).cores = s.cores := rfl
@[simp] theorem State.modHub_dies (s : State) (f : Hub → Hub) : (s.modHub f).dies = s.dies := rfl
@[simp] theorem State.modHub_hub (s : State) (f : Hub → Hub) : (s.modHub f).hub = f s.hub := rfl
@[simp] theorem State.modHub_cycle (s : State) (f : Hub → Hub) : (s.modHub f).cycle = s.cycle := rfl
@[simp] theorem State.modHub_reply (s : State) (f : Hub → Hub) : (s.modHub f).reply = s.reply := rfl
@[simp] theorem State.modHub_agenda (s : State) (f : Hub → Hub) : (s.modHub f).agenda = s.agenda := rfl
@[simp] theorem State.modHub_rota (s : State) (f : Hub → Hub) : (s.modHub f).rota = s.rota := rfl
@[simp] theorem State.modHub_bad (s : State) (f : Hub → Hub) : (s.modHub f).bad = s.bad := rfl
@[simp] theorem State.modHub_via (s : State) (f : Hub → Hub) : (s.modHub f).via = s.via := rfl
@[simp] theorem State.modHub_clocks (s : State) (f : Hub → Hub) : (s.modHub f).clocks = s.clocks := rfl
@[simp] theorem State.modHub_posted (s : State) (f : Hub → Hub) : (s.modHub f).posted = s.posted := rfl

/-! ## passed -/

@[simp] theorem State.passed_job (s : State) : (s.passed).job = { s.job with nextId := s.job.nextId + 1 } := rfl
@[simp] theorem State.passed_cur (s : State) : (s.passed).cur = s.cur := rfl
@[simp] theorem State.passed_rest (s : State) : (s.passed).rest = s.rest := rfl
@[simp] theorem State.passed_mem (s : State) : (s.passed).mem = s.mem := rfl
@[simp] theorem State.passed_wts (s : State) : (s.passed).wts = s.wts := rfl
@[simp] theorem State.passed_lts (s : State) : (s.passed).lts = s.lts := rfl
@[simp] theorem State.passed_cores (s : State) : (s.passed).cores = s.cores := rfl
@[simp] theorem State.passed_dies (s : State) : (s.passed).dies = s.dies := rfl
@[simp] theorem State.passed_hub (s : State) : (s.passed).hub = s.hub := rfl
@[simp] theorem State.passed_cycle (s : State) : (s.passed).cycle = s.cycle := rfl
@[simp] theorem State.passed_reply (s : State) : (s.passed).reply = s.reply := rfl
@[simp] theorem State.passed_agenda (s : State) : (s.passed).agenda = s.agenda := rfl
@[simp] theorem State.passed_rota (s : State) : (s.passed).rota = s.rota := rfl
@[simp] theorem State.passed_bad (s : State) : (s.passed).bad = s.bad := rfl
@[simp] theorem State.passed_via (s : State) : (s.passed).via = s.via := rfl
@[simp] theorem State.passed_clocks (s : State) : (s.passed).clocks = s.clocks := rfl
@[simp] theorem State.passed_posted (s : State) : (s.passed).posted = s.posted := rfl

/-! ## Streams of a job -/

@[simp] theorem Job.str_setStr (j : Job) (x y : StreamId) (t : Stream) :
    (j.setStr x t).str y = if y = x then t else j.str y := by cases x <;> cases y <;> rfl
@[simp] theorem Job.setStr_setStr (j : Job) (x : StreamId) (t u : Stream) : (j.setStr x t).setStr x u = j.setStr x u := by
  cases x <;> rfl
@[simp] theorem Job.setStr_self (j : Job) (x : StreamId) : j.setStr x (j.str x) = j := by cases x <;> rfl
@[simp] theorem State.str_setStr (s : State) (t : Stream) : (s.setStr t).str = t := by
  simp [State.str]
@[simp] theorem State.str_modStr (s : State) (f : Stream → Stream) : (s.modStr f).str = f s.str := by
  simp [State.modStr]
@[simp] theorem State.modStr_modStr (s : State) (f g : Stream → Stream) :
    (s.modStr f).modStr g = s.modStr fun t => g (f t) := by
  simp [State.modStr, State.setStr, State.str]
@[simp] theorem State.setStr_str (s : State) : s.setStr s.str = s := by simp [State.setStr, State.str]
theorem State.modStr_eq (s : State) (f : Stream → Stream) : s.modStr f = s.setStr (f s.str) := rfl
@[simp] theorem State.str_setS (s : State) (r : SReg) (v : Word) : (s.setS r v).str = s.str.setS r v := by
  simp [State.setS]
@[simp] theorem State.str_setP (s : State) (r : PReg) (v : Bool) : (s.setP r v).str = s.str.setP r v := by
  simp [State.setP]
@[simp] theorem State.str_setLc (s : State) (r : LcReg) (v : Word) : (s.setLc r v).str = s.str.setLc r v := by
  simp [State.setLc]
@[simp] theorem State.modJob_modJob (s : State) (f g : Job → Job) : (s.modJob f).modJob g = s.modJob fun j => g (f j) := rfl

@[simp] theorem Job.setStr_num (j : Job) (x : StreamId) (t : Stream) : (j.setStr x t).num = j.num := by cases x <;> rfl
@[simp] theorem Job.setStr_status (j : Job) (x : StreamId) (t : Stream) : (j.setStr x t).status = j.status := by cases x <;> rfl
@[simp] theorem Job.setStr_ctx (j : Job) (x : StreamId) (t : Stream) : (j.setStr x t).ctx = j.ctx := by cases x <;> rfl
@[simp] theorem Job.setStr_lrec (j : Job) (x : StreamId) (t : Stream) : (j.setStr x t).lrec = j.lrec := by cases x <;> rfl
@[simp] theorem Job.setStr_index (j : Job) (x : StreamId) (t : Stream) : (j.setStr x t).index = j.index := by cases x <;> rfl
@[simp] theorem Job.setStr_launch (j : Job) (x : StreamId) (t : Stream) : (j.setStr x t).launch = j.launch := by cases x <;> rfl
@[simp] theorem Job.setStr_die (j : Job) (x : StreamId) (t : Stream) : (j.setStr x t).die = j.die := by cases x <;> rfl
@[simp] theorem Job.setStr_core (j : Job) (x : StreamId) (t : Stream) : (j.setStr x t).core = j.core := by cases x <;> rfl
@[simp] theorem Job.setStr_slot (j : Job) (x : StreamId) (t : Stream) : (j.setStr x t).slot = j.slot := by cases x <;> rfl
@[simp] theorem Job.setStr_base (j : Job) (x : StreamId) (t : Stream) : (j.setStr x t).base = j.base := by cases x <;> rfl
@[simp] theorem Job.setStr_admitted (j : Job) (x : StreamId) (t : Stream) : (j.setStr x t).admitted = j.admitted := by cases x <;> rfl
@[simp] theorem Job.setStr_vreg (j : Job) (x : StreamId) (t : Stream) : (j.setStr x t).vreg = j.vreg := by cases x <;> rfl
@[simp] theorem Job.setStr_rb (j : Job) (x : StreamId) (t : Stream) : (j.setStr x t).rb = j.rb := by cases x <;> rfl
@[simp] theorem Job.setStr_rs (j : Job) (x : StreamId) (t : Stream) : (j.setStr x t).rs = j.rs := by cases x <;> rfl
@[simp] theorem Job.setStr_rot (j : Job) (x : StreamId) (t : Stream) : (j.setStr x t).rot = j.rot := by cases x <;> rfl
@[simp] theorem Job.setStr_acc (j : Job) (x : StreamId) (t : Stream) : (j.setStr x t).acc = j.acc := by cases x <;> rfl
@[simp] theorem Job.setStr_latch (j : Job) (x : StreamId) (t : Stream) : (j.setStr x t).latch = j.latch := by cases x <;> rfl
@[simp] theorem Job.setStr_pushes (j : Job) (x : StreamId) (t : Stream) : (j.setStr x t).pushes = j.pushes := by cases x <;> rfl
@[simp] theorem Job.setStr_streg (j : Job) (x : StreamId) (t : Stream) : (j.setStr x t).streg = j.streg := by cases x <;> rfl
@[simp] theorem Job.setStr_aq (j : Job) (x : StreamId) (t : Stream) : (j.setStr x t).aq = j.aq := by cases x <;> rfl
@[simp] theorem Job.setStr_bq (j : Job) (x : StreamId) (t : Stream) : (j.setStr x t).bq = j.bq := by cases x <;> rfl
@[simp] theorem Job.setStr_tk (j : Job) (x : StreamId) (t : Stream) : (j.setStr x t).tk = j.tk := by cases x <;> rfl
@[simp] theorem Job.setStr_sem (j : Job) (x : StreamId) (t : Stream) : (j.setStr x t).sem = j.sem := by cases x <;> rfl
@[simp] theorem Job.setStr_tl (j : Job) (x : StreamId) (t : Stream) : (j.setStr x t).tl = j.tl := by cases x <;> rfl
@[simp] theorem Job.setStr_slots (j : Job) (x : StreamId) (t : Stream) : (j.setStr x t).slots = j.slots := by cases x <;> rfl
@[simp] theorem Job.setStr_crange (j : Job) (x : StreamId) (t : Stream) : (j.setStr x t).crange = j.crange := by cases x <;> rfl
@[simp] theorem Job.setStr_ctide (j : Job) (x : StreamId) (t : Stream) : (j.setStr x t).ctide = j.ctide := by cases x <;> rfl
@[simp] theorem Job.setStr_filled (j : Job) (x : StreamId) (t : Stream) : (j.setStr x t).filled = j.filled := by cases x <;> rfl
@[simp] theorem Job.setStr_seed (j : Job) (x : StreamId) (t : Stream) : (j.setStr x t).seed = j.seed := by cases x <;> rfl
@[simp] theorem Job.setStr_draws (j : Job) (x : StreamId) (t : Stream) : (j.setStr x t).draws = j.draws := by cases x <;> rfl
@[simp] theorem Job.setStr_ctbase (j : Job) (x : StreamId) (t : Stream) : (j.setStr x t).ctbase = j.ctbase := by cases x <;> rfl
@[simp] theorem Job.setStr_bhold (j : Job) (x : StreamId) (t : Stream) : (j.setStr x t).bhold = j.bhold := by cases x <;> rfl
@[simp] theorem Job.setStr_bdom (j : Job) (x : StreamId) (t : Stream) : (j.setStr x t).bdom = j.bdom := by cases x <;> rfl
@[simp] theorem Job.setStr_trap (j : Job) (x : StreamId) (t : Stream) : (j.setStr x t).trap = j.trap := by cases x <;> rfl
@[simp] theorem Job.setStr_stash (j : Job) (x : StreamId) (t : Stream) : (j.setStr x t).stash = j.stash := by cases x <;> rfl
@[simp] theorem Job.setStr_lines (j : Job) (x : StreamId) (t : Stream) : (j.setStr x t).lines = j.lines := by cases x <;> rfl
@[simp] theorem Job.setStr_last (j : Job) (x : StreamId) (t : Stream) : (j.setStr x t).last = j.last := by cases x <;> rfl
@[simp] theorem Job.setStr_images (j : Job) (x : StreamId) (t : Stream) : (j.setStr x t).images = j.images := by cases x <;> rfl
@[simp] theorem Job.setStr_entries (j : Job) (x : StreamId) (t : Stream) : (j.setStr x t).entries = j.entries := by cases x <;> rfl
@[simp] theorem Job.setStr_copyTurn (j : Job) (x : StreamId) (t : Stream) : (j.setStr x t).copyTurn = j.copyTurn := by cases x <;> rfl
@[simp] theorem Job.setStr_parity (j : Job) (x : StreamId) (t : Stream) : (j.setStr x t).parity = j.parity := by cases x <;> rfl
@[simp] theorem Job.setStr_nextId (j : Job) (x : StreamId) (t : Stream) : (j.setStr x t).nextId = j.nextId := by cases x <;> rfl
@[simp] theorem Job.setStr_chans (j : Job) (x : StreamId) (t : Stream) : (j.setStr x t).chans = j.chans := by cases x <;> rfl
@[simp] theorem Job.setStr_status5 (j : Job) (x : StreamId) (t : Stream) : (j.setStr x t).status5 = j.status5 := by cases x <;> rfl
@[simp] theorem Job.setStr_inq (j : Job) (x : StreamId) (t : Stream) : (j.setStr x t).inq = j.inq := by cases x <;> rfl
@[simp] theorem Job.setStr_inClosed (j : Job) (x : StreamId) (t : Stream) : (j.setStr x t).inClosed = j.inClosed := by cases x <;> rfl
@[simp] theorem Job.setStr_lineages (j : Job) (x : StreamId) (t : Stream) : (j.setStr x t).lineages = j.lineages := by cases x <;> rfl
@[simp] theorem Job.setStr_marks (j : Job) (x : StreamId) (t : Stream) : (j.setStr x t).marks = j.marks := by cases x <;> rfl
@[simp] theorem Job.setStr_faults (j : Job) (x : StreamId) (t : Stream) : (j.setStr x t).faults = j.faults := by cases x <;> rfl
@[simp] theorem Job.setStr_nextSeq (j : Job) (x : StreamId) (t : Stream) : (j.setStr x t).nextSeq = j.nextSeq := by cases x <;> rfl
@[simp] theorem Job.setStr_walkFaults (j : Job) (x : StreamId) (t : Stream) : (j.setStr x t).walkFaults = j.walkFaults := by cases x <;> rfl
@[simp] theorem Job.setStr_debug (j : Job) (x : StreamId) (t : Stream) : (j.setStr x t).debug = j.debug := by cases x <;> rfl
@[simp] theorem Job.setStr_bar0 (j : Job) (x : StreamId) (t : Stream) : (j.setStr x t).bar0 = j.bar0 := by cases x <;> rfl
@[simp] theorem Job.setStr_bars (j : Job) (x : StreamId) (t : Stream) : (j.setStr x t).bars = j.bars := by cases x <;> rfl
@[simp] theorem Job.setStr_winSaved (j : Job) (x : StreamId) (t : Stream) : (j.setStr x t).winSaved = j.winSaved := by cases x <;> rfl
@[simp] theorem Job.setStr_area (j : Job) (x : StreamId) (t : Stream) : (j.setStr x t).area = j.area := by cases x <;> rfl
@[simp] theorem Job.setStr_windowSave (j : Job) (x : StreamId) (t : Stream) : (j.setStr x t).windowSave = j.windowSave := by cases x <;> rfl
@[simp] theorem Job.setStr_savedAt (j : Job) (x : StreamId) (t : Stream) : (j.setStr x t).savedAt = j.savedAt := by cases x <;> rfl
@[simp] theorem Job.setStr_urgent (j : Job) (x : StreamId) (t : Stream) : (j.setStr x t).urgent = j.urgent := by cases x <;> rfl
@[simp] theorem Job.setStr_asked (j : Job) (x : StreamId) (t : Stream) : (j.setStr x t).asked = j.asked := by cases x <;> rfl
@[simp] theorem Job.setStr_cores (j : Job) (x : StreamId) (t : Stream) : (j.setStr x t).cores = j.cores := by cases x <;> rfl
@[simp] theorem Job.setStr_resAt (j : Job) (x : StreamId) (t : Stream) : (j.setStr x t).resAt = j.resAt := by cases x <;> rfl
@[simp] theorem Job.setStr_hits (j : Job) (x : StreamId) (t : Stream) : (j.setStr x t).hits = j.hits := by cases x <;> rfl

/-! ## Registers of a stream (R134, R178) -/

@[simp] theorem Stream.setS_pc (t : Stream) (r : SReg) (v : Word) : (t.setS r v).pc = t.pc := by unfold Stream.setS; split <;> rfl
@[simp] theorem Stream.setS_p (t : Stream) (r : SReg) (v : Word) : (t.setS r v).p = t.p := by unfold Stream.setS; split <;> rfl
@[simp] theorem Stream.setS_lc (t : Stream) (r : SReg) (v : Word) : (t.setS r v).lc = t.lc := by unfold Stream.setS; split <;> rfl
@[simp] theorem Stream.setS_frames (t : Stream) (r : SReg) (v : Word) : (t.setS r v).frames = t.frames := by unfold Stream.setS; split <;> rfl
@[simp] theorem Stream.setS_st (t : Stream) (r : SReg) (v : Word) : (t.setS r v).st = t.st := by unfold Stream.setS; split <;> rfl
@[simp] theorem Stream.setS_hold (t : Stream) (r : SReg) (v : Word) : (t.setS r v).hold = t.hold := by unfold Stream.setS; split <;> rfl
@[simp] theorem Stream.setS_halted (t : Stream) (r : SReg) (v : Word) : (t.setS r v).halted = t.halted := by unfold Stream.setS; split <;> rfl
@[simp] theorem Stream.setS_stepping (t : Stream) (r : SReg) (v : Word) : (t.setS r v).stepping = t.stepping := by unfold Stream.setS; split <;> rfl
@[simp] theorem Stream.setS_wait (t : Stream) (r : SReg) (v : Word) : (t.setS r v).wait = t.wait := by unfold Stream.setS; split <;> rfl
@[simp] theorem Stream.setS_stores (t : Stream) (r : SReg) (v : Word) : (t.setS r v).stores = t.stores := by unfold Stream.setS; split <;> rfl
@[simp] theorem Stream.setS_fence (t : Stream) (r : SReg) (v : Word) : (t.setS r v).fence = t.fence := by unfold Stream.setS; split <;> rfl
@[simp] theorem Stream.setS_imem (t : Stream) (r : SReg) (v : Word) : (t.setS r v).imem = t.imem := by unfold Stream.setS; split <;> rfl
@[simp] theorem Stream.setS_hdrVer (t : Stream) (r : SReg) (v : Word) : (t.setS r v).hdrVer = t.hdrVer := by unfold Stream.setS; split <;> rfl
@[simp] theorem Stream.setS_qdrop (t : Stream) (r : SReg) (v : Word) : (t.setS r v).qdrop = t.qdrop := by unfold Stream.setS; split <;> rfl
@[simp] theorem Stream.setS_bar (t : Stream) (r : SReg) (v : Word) : (t.setS r v).bar = t.bar := by unfold Stream.setS; split <;> rfl
@[simp] theorem Stream.setS_renq (t : Stream) (r : SReg) (v : Word) : (t.setS r v).renq = t.renq := by unfold Stream.setS; split <;> rfl
@[simp] theorem Stream.setS_last (t : Stream) (r : SReg) (v : Word) : (t.setS r v).last = t.last := by unfold Stream.setS; split <;> rfl
@[simp] theorem Stream.setP_pc (t : Stream) (r : PReg) (v : Bool) : (t.setP r v).pc = t.pc := by unfold Stream.setP; split <;> rfl
@[simp] theorem Stream.setP_s (t : Stream) (r : PReg) (v : Bool) : (t.setP r v).s = t.s := by unfold Stream.setP; split <;> rfl
@[simp] theorem Stream.setP_lc (t : Stream) (r : PReg) (v : Bool) : (t.setP r v).lc = t.lc := by unfold Stream.setP; split <;> rfl
@[simp] theorem Stream.setP_frames (t : Stream) (r : PReg) (v : Bool) : (t.setP r v).frames = t.frames := by unfold Stream.setP; split <;> rfl
@[simp] theorem Stream.setP_st (t : Stream) (r : PReg) (v : Bool) : (t.setP r v).st = t.st := by unfold Stream.setP; split <;> rfl
@[simp] theorem Stream.setP_hold (t : Stream) (r : PReg) (v : Bool) : (t.setP r v).hold = t.hold := by unfold Stream.setP; split <;> rfl
@[simp] theorem Stream.setP_halted (t : Stream) (r : PReg) (v : Bool) : (t.setP r v).halted = t.halted := by unfold Stream.setP; split <;> rfl
@[simp] theorem Stream.setP_stepping (t : Stream) (r : PReg) (v : Bool) : (t.setP r v).stepping = t.stepping := by unfold Stream.setP; split <;> rfl
@[simp] theorem Stream.setP_wait (t : Stream) (r : PReg) (v : Bool) : (t.setP r v).wait = t.wait := by unfold Stream.setP; split <;> rfl
@[simp] theorem Stream.setP_stores (t : Stream) (r : PReg) (v : Bool) : (t.setP r v).stores = t.stores := by unfold Stream.setP; split <;> rfl
@[simp] theorem Stream.setP_fence (t : Stream) (r : PReg) (v : Bool) : (t.setP r v).fence = t.fence := by unfold Stream.setP; split <;> rfl
@[simp] theorem Stream.setP_imem (t : Stream) (r : PReg) (v : Bool) : (t.setP r v).imem = t.imem := by unfold Stream.setP; split <;> rfl
@[simp] theorem Stream.setP_hdrVer (t : Stream) (r : PReg) (v : Bool) : (t.setP r v).hdrVer = t.hdrVer := by unfold Stream.setP; split <;> rfl
@[simp] theorem Stream.setP_qdrop (t : Stream) (r : PReg) (v : Bool) : (t.setP r v).qdrop = t.qdrop := by unfold Stream.setP; split <;> rfl
@[simp] theorem Stream.setP_bar (t : Stream) (r : PReg) (v : Bool) : (t.setP r v).bar = t.bar := by unfold Stream.setP; split <;> rfl
@[simp] theorem Stream.setP_renq (t : Stream) (r : PReg) (v : Bool) : (t.setP r v).renq = t.renq := by unfold Stream.setP; split <;> rfl
@[simp] theorem Stream.setP_last (t : Stream) (r : PReg) (v : Bool) : (t.setP r v).last = t.last := by unfold Stream.setP; split <;> rfl
@[simp] theorem Stream.setLc_pc (t : Stream) (r : LcReg) (v : Word) : (t.setLc r v).pc = t.pc := rfl
@[simp] theorem Stream.setLc_s (t : Stream) (r : LcReg) (v : Word) : (t.setLc r v).s = t.s := rfl
@[simp] theorem Stream.setLc_p (t : Stream) (r : LcReg) (v : Word) : (t.setLc r v).p = t.p := rfl
@[simp] theorem Stream.setLc_frames (t : Stream) (r : LcReg) (v : Word) : (t.setLc r v).frames = t.frames := rfl
@[simp] theorem Stream.setLc_st (t : Stream) (r : LcReg) (v : Word) : (t.setLc r v).st = t.st := rfl
@[simp] theorem Stream.setLc_hold (t : Stream) (r : LcReg) (v : Word) : (t.setLc r v).hold = t.hold := rfl
@[simp] theorem Stream.setLc_halted (t : Stream) (r : LcReg) (v : Word) : (t.setLc r v).halted = t.halted := rfl
@[simp] theorem Stream.setLc_stepping (t : Stream) (r : LcReg) (v : Word) : (t.setLc r v).stepping = t.stepping := rfl
@[simp] theorem Stream.setLc_wait (t : Stream) (r : LcReg) (v : Word) : (t.setLc r v).wait = t.wait := rfl
@[simp] theorem Stream.setLc_stores (t : Stream) (r : LcReg) (v : Word) : (t.setLc r v).stores = t.stores := rfl
@[simp] theorem Stream.setLc_fence (t : Stream) (r : LcReg) (v : Word) : (t.setLc r v).fence = t.fence := rfl
@[simp] theorem Stream.setLc_imem (t : Stream) (r : LcReg) (v : Word) : (t.setLc r v).imem = t.imem := rfl
@[simp] theorem Stream.setLc_hdrVer (t : Stream) (r : LcReg) (v : Word) : (t.setLc r v).hdrVer = t.hdrVer := rfl
@[simp] theorem Stream.setLc_qdrop (t : Stream) (r : LcReg) (v : Word) : (t.setLc r v).qdrop = t.qdrop := rfl
@[simp] theorem Stream.setLc_bar (t : Stream) (r : LcReg) (v : Word) : (t.setLc r v).bar = t.bar := rfl
@[simp] theorem Stream.setLc_renq (t : Stream) (r : LcReg) (v : Word) : (t.setLc r v).renq = t.renq := rfl
@[simp] theorem Stream.setLc_last (t : Stream) (r : LcReg) (v : Word) : (t.setLc r v).last = t.last := rfl

/-- s0 reads 0 whatever is written to it; any other register reads as it was last written (R178). -/
theorem Stream.getS_setS (t : Stream) (r q : SReg) (v : Word) :
    (t.setS r v).getS q = if q = 0 then 0 else if q = r then v else t.getS q := by
  unfold Stream.getS Stream.setS
  by_cases h : q = 0
  · simp [h]
  · by_cases e : r = 0
    · simp_all
    · simp only [h, e, if_false, Vector.getElem_set]
      by_cases x : q = r
      · simp [x]
      · have : r.toNat ≠ q.toNat := fun y => x (BitVec.eq_of_toNat_eq y.symm)
        simp [x, this]

/-- p0 is true whatever is written to it (R134). -/
theorem Stream.getP_setP (t : Stream) (r q : PReg) (v : Bool) :
    (t.setP r v).getP q = if q = 0 then true else if q = r then v else t.getP q := by
  unfold Stream.getP Stream.setP
  by_cases h : q = 0
  · simp [h]
  · by_cases e : r = 0
    · simp_all
    · simp only [h, e, if_false, Vector.getElem_set]
      by_cases x : q = r
      · simp [x]
      · have : r.toNat ≠ q.toNat := fun y => x (BitVec.eq_of_toNat_eq y.symm)
        simp [x, this]

theorem Stream.getLc_setLc (t : Stream) (r q : LcReg) (v : Word) :
    (t.setLc r v).getLc q = if q = r then v else t.getLc q := by
  unfold Stream.getLc Stream.setLc
  simp only [Vector.getElem_set]
  by_cases x : q = r
  · simp [x]
  · have : r.toNat ≠ q.toNat := fun y => x (BitVec.eq_of_toNat_eq y.symm)
    simp [x, this]

@[simp] theorem Stream.getS_zero (t : Stream) : t.getS 0#6 = 0 := by simp [Stream.getS]
@[simp] theorem Stream.getP_zero (t : Stream) : t.getP 0#4 = true := by simp [Stream.getP]
@[simp] theorem Stream.setS_zero (t : Stream) (v : Word) : t.setS 0#6 v = t := by simp [Stream.setS]
@[simp] theorem Stream.setP_zero (t : Stream) (v : Bool) : t.setP 0#4 v = t := by simp [Stream.setP]
@[simp] theorem State.getS_zero (s : State) : s.getS 0#6 = 0 := Stream.getS_zero _
@[simp] theorem State.getP_zero (s : State) : s.getP 0#4 = true := Stream.getP_zero _
@[simp] theorem State.setS_zero (s : State) (v : Word) : s.setS 0#6 v = s := by simp [State.setS]
@[simp] theorem State.setP_zero (s : State) (v : Bool) : s.setP 0#4 v = s := by simp [State.setP]

/-! ## Elements of vectors -/

theorem vget_vset {α : Type} {n : Nat} (d : α) (v : Vector α n) (i k : Nat) (a : α) :
    vget d (vset v i a) k = if k = i ∧ i < n then a else vget d v k := by
  unfold vget vset
  rw [Vector.getElem?_setIfInBounds]
  by_cases e : i = k
  · subst e
    by_cases l : i < n
    · simp [l]
    · simp [l]
  · have : k ≠ i := fun x => e x.symm
    simp [e, this]

theorem State.coreAt_modCore (s : State) (i k : Nat) (f : Core → Core) :
    (s.modCore i f).coreAt k = if k = i ∧ i < 256 then f (s.coreAt i) else s.coreAt k := vget_vset ..
theorem State.dieAt_modDie (s : State) (i k : Nat) (f : Die → Die) :
    (s.modDie i f).dieAt k = if k = i ∧ i < 8 then f (s.dieAt i) else s.dieAt k := vget_vset ..
@[simp] theorem State.coreAt_modJob (s : State) (f : Job → Job) (i : Nat) : (s.modJob f).coreAt i = s.coreAt i := rfl
@[simp] theorem State.dieAt_modJob (s : State) (f : Job → Job) (i : Nat) : (s.modJob f).dieAt i = s.dieAt i := rfl
@[simp] theorem State.coreAt_modDie (s : State) (d : Nat) (f : Die → Die) (i : Nat) :
    (s.modDie d f).coreAt i = s.coreAt i := rfl
@[simp] theorem State.dieAt_modCore (s : State) (c : Nat) (f : Core → Core) (i : Nat) :
    (s.modCore c f).dieAt i = s.dieAt i := rfl
@[simp] theorem State.coreAt_modHub (s : State) (f : Hub → Hub) (i : Nat) : (s.modHub f).coreAt i = s.coreAt i := rfl
@[simp] theorem State.dieAt_modHub (s : State) (f : Hub → Hub) (i : Nat) : (s.modHub f).dieAt i = s.dieAt i := rfl

/-! ## Clocks, reads and writes in place, fences -/

@[simp] theorem State.raiseClock_job (s : State) (i t : Nat) : (s.raiseClock i t).job = s.job := by
  unfold State.raiseClock; split <;> rfl
@[simp] theorem State.raiseClock_cur (s : State) (i t : Nat) : (s.raiseClock i t).cur = s.cur := by
  unfold State.raiseClock; split <;> rfl
@[simp] theorem State.raiseClock_rest (s : State) (i t : Nat) : (s.raiseClock i t).rest = s.rest := by
  unfold State.raiseClock; split <;> rfl
@[simp] theorem State.raiseClock_mem (s : State) (i t : Nat) : (s.raiseClock i t).mem = s.mem := by
  unfold State.raiseClock; split <;> rfl
@[simp] theorem State.raiseClock_wts (s : State) (i t : Nat) : (s.raiseClock i t).wts = s.wts := by
  unfold State.raiseClock; split <;> rfl
@[simp] theorem State.raiseClock_lts (s : State) (i t : Nat) : (s.raiseClock i t).lts = s.lts := by
  unfold State.raiseClock; split <;> rfl
@[simp] theorem State.raiseClock_dies (s : State) (i t : Nat) : (s.raiseClock i t).dies = s.dies := by
  unfold State.raiseClock; split <;> rfl
@[simp] theorem State.raiseClock_hub (s : State) (i t : Nat) : (s.raiseClock i t).hub = s.hub := by
  unfold State.raiseClock; split <;> rfl
@[simp] theorem State.raiseClock_cycle (s : State) (i t : Nat) : (s.raiseClock i t).cycle = s.cycle := by
  unfold State.raiseClock; split <;> rfl
@[simp] theorem State.raiseClock_reply (s : State) (i t : Nat) : (s.raiseClock i t).reply = s.reply := by
  unfold State.raiseClock; split <;> rfl
@[simp] theorem State.raiseClock_agenda (s : State) (i t : Nat) : (s.raiseClock i t).agenda = s.agenda := by
  unfold State.raiseClock; split <;> rfl
@[simp] theorem State.raiseClock_rota (s : State) (i t : Nat) : (s.raiseClock i t).rota = s.rota := by
  unfold State.raiseClock; split <;> rfl
@[simp] theorem State.raiseClock_bad (s : State) (i t : Nat) : (s.raiseClock i t).bad = s.bad := by
  unfold State.raiseClock; split <;> rfl
@[simp] theorem State.raiseClock_via (s : State) (i t : Nat) : (s.raiseClock i t).via = s.via := by
  unfold State.raiseClock; split <;> rfl
@[simp] theorem State.raiseClock_clocks (s : State) (i t : Nat) : (s.raiseClock i t).clocks = s.clocks := by
  unfold State.raiseClock; split <;> rfl

@[simp] theorem State.observe_job (s : State) (core pa n : Nat) : (s.observe core pa n).job = s.job := by
  unfold State.observe
  generalize List.range _ = l
  induction l generalizing s with
  | nil => rfl
  | cons i l ih => exact (ih _).trans (State.raiseClock_job _ _ _)
@[simp] theorem State.observe_cur (s : State) (core pa n : Nat) : (s.observe core pa n).cur = s.cur := by
  unfold State.observe
  generalize List.range _ = l
  induction l generalizing s with
  | nil => rfl
  | cons i l ih => exact (ih _).trans (State.raiseClock_cur _ _ _)
@[simp] theorem State.observe_rest (s : State) (core pa n : Nat) : (s.observe core pa n).rest = s.rest := by
  unfold State.observe
  generalize List.range _ = l
  induction l generalizing s with
  | nil => rfl
  | cons i l ih => exact (ih _).trans (State.raiseClock_rest _ _ _)
@[simp] theorem State.observe_mem (s : State) (core pa n : Nat) : (s.observe core pa n).mem = s.mem := by
  unfold State.observe
  generalize List.range _ = l
  induction l generalizing s with
  | nil => rfl
  | cons i l ih => exact (ih _).trans (State.raiseClock_mem _ _ _)
@[simp] theorem State.observe_wts (s : State) (core pa n : Nat) : (s.observe core pa n).wts = s.wts := by
  unfold State.observe
  generalize List.range _ = l
  induction l generalizing s with
  | nil => rfl
  | cons i l ih => exact (ih _).trans (State.raiseClock_wts _ _ _)
@[simp] theorem State.observe_dies (s : State) (core pa n : Nat) : (s.observe core pa n).dies = s.dies := by
  unfold State.observe
  generalize List.range _ = l
  induction l generalizing s with
  | nil => rfl
  | cons i l ih => exact (ih _).trans (State.raiseClock_dies _ _ _)
@[simp] theorem State.observe_hub (s : State) (core pa n : Nat) : (s.observe core pa n).hub = s.hub := by
  unfold State.observe
  generalize List.range _ = l
  induction l generalizing s with
  | nil => rfl
  | cons i l ih => exact (ih _).trans (State.raiseClock_hub _ _ _)
@[simp] theorem State.observe_cycle (s : State) (core pa n : Nat) : (s.observe core pa n).cycle = s.cycle := by
  unfold State.observe
  generalize List.range _ = l
  induction l generalizing s with
  | nil => rfl
  | cons i l ih => exact (ih _).trans (State.raiseClock_cycle _ _ _)
@[simp] theorem State.observe_reply (s : State) (core pa n : Nat) : (s.observe core pa n).reply = s.reply := by
  unfold State.observe
  generalize List.range _ = l
  induction l generalizing s with
  | nil => rfl
  | cons i l ih => exact (ih _).trans (State.raiseClock_reply _ _ _)
@[simp] theorem State.observe_agenda (s : State) (core pa n : Nat) : (s.observe core pa n).agenda = s.agenda := by
  unfold State.observe
  generalize List.range _ = l
  induction l generalizing s with
  | nil => rfl
  | cons i l ih => exact (ih _).trans (State.raiseClock_agenda _ _ _)
@[simp] theorem State.observe_rota (s : State) (core pa n : Nat) : (s.observe core pa n).rota = s.rota := by
  unfold State.observe
  generalize List.range _ = l
  induction l generalizing s with
  | nil => rfl
  | cons i l ih => exact (ih _).trans (State.raiseClock_rota _ _ _)
@[simp] theorem State.observe_bad (s : State) (core pa n : Nat) : (s.observe core pa n).bad = s.bad := by
  unfold State.observe
  generalize List.range _ = l
  induction l generalizing s with
  | nil => rfl
  | cons i l ih => exact (ih _).trans (State.raiseClock_bad _ _ _)
@[simp] theorem State.observe_via (s : State) (core pa n : Nat) : (s.observe core pa n).via = s.via := by
  unfold State.observe
  generalize List.range _ = l
  induction l generalizing s with
  | nil => rfl
  | cons i l ih => exact (ih _).trans (State.raiseClock_via _ _ _)
@[simp] theorem State.observe_clocks (s : State) (core pa n : Nat) : (s.observe core pa n).clocks = s.clocks := by
  unfold State.observe
  generalize List.range _ = l
  induction l generalizing s with
  | nil => rfl
  | cons i l ih => exact (ih _).trans (State.raiseClock_clocks _ _ _)

@[simp] theorem State.stamp_job (s : State) (core pa n : Nat) : (s.stamp core pa n).job = s.job := by
  unfold State.stamp
  generalize List.range _ = l
  induction l generalizing s with
  | nil => rfl
  | cons i l ih => exact (ih _).trans (State.raiseClock_job _ _ _)
@[simp] theorem State.stamp_cur (s : State) (core pa n : Nat) : (s.stamp core pa n).cur = s.cur := by
  unfold State.stamp
  generalize List.range _ = l
  induction l generalizing s with
  | nil => rfl
  | cons i l ih => exact (ih _).trans (State.raiseClock_cur _ _ _)
@[simp] theorem State.stamp_rest (s : State) (core pa n : Nat) : (s.stamp core pa n).rest = s.rest := by
  unfold State.stamp
  generalize List.range _ = l
  induction l generalizing s with
  | nil => rfl
  | cons i l ih => exact (ih _).trans (State.raiseClock_rest _ _ _)
@[simp] theorem State.stamp_mem (s : State) (core pa n : Nat) : (s.stamp core pa n).mem = s.mem := by
  unfold State.stamp
  generalize List.range _ = l
  induction l generalizing s with
  | nil => rfl
  | cons i l ih => exact (ih _).trans (State.raiseClock_mem _ _ _)
@[simp] theorem State.stamp_dies (s : State) (core pa n : Nat) : (s.stamp core pa n).dies = s.dies := by
  unfold State.stamp
  generalize List.range _ = l
  induction l generalizing s with
  | nil => rfl
  | cons i l ih => exact (ih _).trans (State.raiseClock_dies _ _ _)
@[simp] theorem State.stamp_hub (s : State) (core pa n : Nat) : (s.stamp core pa n).hub = s.hub := by
  unfold State.stamp
  generalize List.range _ = l
  induction l generalizing s with
  | nil => rfl
  | cons i l ih => exact (ih _).trans (State.raiseClock_hub _ _ _)
@[simp] theorem State.stamp_cycle (s : State) (core pa n : Nat) : (s.stamp core pa n).cycle = s.cycle := by
  unfold State.stamp
  generalize List.range _ = l
  induction l generalizing s with
  | nil => rfl
  | cons i l ih => exact (ih _).trans (State.raiseClock_cycle _ _ _)
@[simp] theorem State.stamp_reply (s : State) (core pa n : Nat) : (s.stamp core pa n).reply = s.reply := by
  unfold State.stamp
  generalize List.range _ = l
  induction l generalizing s with
  | nil => rfl
  | cons i l ih => exact (ih _).trans (State.raiseClock_reply _ _ _)
@[simp] theorem State.stamp_agenda (s : State) (core pa n : Nat) : (s.stamp core pa n).agenda = s.agenda := by
  unfold State.stamp
  generalize List.range _ = l
  induction l generalizing s with
  | nil => rfl
  | cons i l ih => exact (ih _).trans (State.raiseClock_agenda _ _ _)
@[simp] theorem State.stamp_rota (s : State) (core pa n : Nat) : (s.stamp core pa n).rota = s.rota := by
  unfold State.stamp
  generalize List.range _ = l
  induction l generalizing s with
  | nil => rfl
  | cons i l ih => exact (ih _).trans (State.raiseClock_rota _ _ _)
@[simp] theorem State.stamp_bad (s : State) (core pa n : Nat) : (s.stamp core pa n).bad = s.bad := by
  unfold State.stamp
  generalize List.range _ = l
  induction l generalizing s with
  | nil => rfl
  | cons i l ih => exact (ih _).trans (State.raiseClock_bad _ _ _)
@[simp] theorem State.stamp_via (s : State) (core pa n : Nat) : (s.stamp core pa n).via = s.via := by
  unfold State.stamp
  generalize List.range _ = l
  induction l generalizing s with
  | nil => rfl
  | cons i l ih => exact (ih _).trans (State.raiseClock_via _ _ _)
@[simp] theorem State.stamp_clocks (s : State) (core pa n : Nat) : (s.stamp core pa n).clocks = s.clocks := by
  unfold State.stamp
  generalize List.range _ = l
  induction l generalizing s with
  | nil => rfl
  | cons i l ih => exact (ih _).trans (State.raiseClock_clocks _ _ _)

/-! ## Watchpoints write the counts of a die and the hits of a job -/

theorem State.foldl_same {α : Type} (f : State → α → State) (h : ∀ s a, { f s a with job := s.job, dies := s.dies } = s) (l : List α)
    (s : State) : { l.foldl f s with job := s.job, dies := s.dies } = s := by
  induction l generalizing s with
  | nil => rfl
  | cons a l ih => exact (congrArg (fun t : State => { t with job := s.job, dies := s.dies }) (ih (f s a))).trans (h s a)
theorem State.foldl_hits {α : Type} (f : State → α → State) (h : ∀ s a, { (f s a).job with hits := s.job.hits } = s.job) (l : List α)
    (s : State) : { (l.foldl f s).job with hits := s.job.hits } = s.job := by
  induction l generalizing s with
  | nil => rfl
  | cons a l ih => exact (congrArg (fun t : Job => { t with hits := s.job.hits }) (ih (f s a))).trans (h s a)
theorem State.hit_same (s : State) (pa k o : Nat) (m : Bool) : { s.hit pa k o m with job := s.job, dies := s.dies } = s := by
  unfold State.hit
  split
  · rfl
  · exact State.foldl_same _ (fun s n => by dsimp only; split <;> rfl) _ s
theorem State.hit_job (s : State) (pa k o : Nat) (m : Bool) : { (s.hit pa k o m).job with hits := s.job.hits } = s.job := by
  unfold State.hit
  split
  · rfl
  · exact State.foldl_hits _ (fun s n => by dsimp only; split <;> rfl) _ s
theorem State.watchWrite_same (s : State) (old : Memory) (pa n : Nat) (m : Bool) :
    { s.watchWrite old pa n m with job := s.job, dies := s.dies } = s := by
  unfold State.watchWrite
  split
  · exact State.foldl_same _ (fun s i => by dsimp only; split <;> [rfl; exact State.hit_same ..]) _ s
  · rfl
theorem State.watchWrite_job (s : State) (old : Memory) (pa n : Nat) (m : Bool) :
    { (s.watchWrite old pa n m).job with hits := s.job.hits } = s.job := by
  unfold State.watchWrite
  split
  · exact State.foldl_hits _ (fun s i => by dsimp only; split <;> [rfl; exact State.hit_job ..]) _ s
  · rfl
@[simp] theorem State.hit_cur (s : State) (pa k o : Nat) (m : Bool) : (s.hit pa k o m).cur = s.cur :=
  (congrArg State.cur (s.hit_same pa k o m) :)
@[simp] theorem State.hit_via (s : State) (pa k o : Nat) (m : Bool) : (s.hit pa k o m).via = s.via :=
  (congrArg State.via (s.hit_same pa k o m) :)
@[simp] theorem State.hit_rest (s : State) (pa k o : Nat) (m : Bool) : (s.hit pa k o m).rest = s.rest :=
  (congrArg State.rest (s.hit_same pa k o m) :)
@[simp] theorem State.hit_mem (s : State) (pa k o : Nat) (m : Bool) : (s.hit pa k o m).mem = s.mem :=
  (congrArg State.mem (s.hit_same pa k o m) :)
@[simp] theorem State.hit_wts (s : State) (pa k o : Nat) (m : Bool) : (s.hit pa k o m).wts = s.wts :=
  (congrArg State.wts (s.hit_same pa k o m) :)
@[simp] theorem State.hit_lts (s : State) (pa k o : Nat) (m : Bool) : (s.hit pa k o m).lts = s.lts :=
  (congrArg State.lts (s.hit_same pa k o m) :)
@[simp] theorem State.hit_cores (s : State) (pa k o : Nat) (m : Bool) : (s.hit pa k o m).cores = s.cores :=
  (congrArg State.cores (s.hit_same pa k o m) :)
@[simp] theorem State.hit_hub (s : State) (pa k o : Nat) (m : Bool) : (s.hit pa k o m).hub = s.hub :=
  (congrArg State.hub (s.hit_same pa k o m) :)
@[simp] theorem State.hit_cycle (s : State) (pa k o : Nat) (m : Bool) : (s.hit pa k o m).cycle = s.cycle :=
  (congrArg State.cycle (s.hit_same pa k o m) :)
@[simp] theorem State.hit_reply (s : State) (pa k o : Nat) (m : Bool) : (s.hit pa k o m).reply = s.reply :=
  (congrArg State.reply (s.hit_same pa k o m) :)
@[simp] theorem State.hit_agenda (s : State) (pa k o : Nat) (m : Bool) : (s.hit pa k o m).agenda = s.agenda :=
  (congrArg State.agenda (s.hit_same pa k o m) :)
@[simp] theorem State.hit_rota (s : State) (pa k o : Nat) (m : Bool) : (s.hit pa k o m).rota = s.rota :=
  (congrArg State.rota (s.hit_same pa k o m) :)
@[simp] theorem State.hit_bad (s : State) (pa k o : Nat) (m : Bool) : (s.hit pa k o m).bad = s.bad :=
  (congrArg State.bad (s.hit_same pa k o m) :)
@[simp] theorem State.hit_clocks (s : State) (pa k o : Nat) (m : Bool) : (s.hit pa k o m).clocks = s.clocks :=
  (congrArg State.clocks (s.hit_same pa k o m) :)
@[simp] theorem State.hit_posted (s : State) (pa k o : Nat) (m : Bool) : (s.hit pa k o m).posted = s.posted :=
  (congrArg State.posted (s.hit_same pa k o m) :)
@[simp] theorem State.watchWrite_cur (s : State) (old : Memory) (pa n : Nat) (m : Bool) : (s.watchWrite old pa n m).cur = s.cur :=
  (congrArg State.cur (s.watchWrite_same old pa n m) :)
@[simp] theorem State.watchWrite_via (s : State) (old : Memory) (pa n : Nat) (m : Bool) : (s.watchWrite old pa n m).via = s.via :=
  (congrArg State.via (s.watchWrite_same old pa n m) :)
@[simp] theorem State.watchWrite_rest (s : State) (old : Memory) (pa n : Nat) (m : Bool) : (s.watchWrite old pa n m).rest = s.rest :=
  (congrArg State.rest (s.watchWrite_same old pa n m) :)
@[simp] theorem State.watchWrite_mem (s : State) (old : Memory) (pa n : Nat) (m : Bool) : (s.watchWrite old pa n m).mem = s.mem :=
  (congrArg State.mem (s.watchWrite_same old pa n m) :)
@[simp] theorem State.watchWrite_wts (s : State) (old : Memory) (pa n : Nat) (m : Bool) : (s.watchWrite old pa n m).wts = s.wts :=
  (congrArg State.wts (s.watchWrite_same old pa n m) :)
@[simp] theorem State.watchWrite_lts (s : State) (old : Memory) (pa n : Nat) (m : Bool) : (s.watchWrite old pa n m).lts = s.lts :=
  (congrArg State.lts (s.watchWrite_same old pa n m) :)
@[simp] theorem State.watchWrite_cores (s : State) (old : Memory) (pa n : Nat) (m : Bool) : (s.watchWrite old pa n m).cores = s.cores :=
  (congrArg State.cores (s.watchWrite_same old pa n m) :)
@[simp] theorem State.watchWrite_hub (s : State) (old : Memory) (pa n : Nat) (m : Bool) : (s.watchWrite old pa n m).hub = s.hub :=
  (congrArg State.hub (s.watchWrite_same old pa n m) :)
@[simp] theorem State.watchWrite_cycle (s : State) (old : Memory) (pa n : Nat) (m : Bool) : (s.watchWrite old pa n m).cycle = s.cycle :=
  (congrArg State.cycle (s.watchWrite_same old pa n m) :)
@[simp] theorem State.watchWrite_reply (s : State) (old : Memory) (pa n : Nat) (m : Bool) : (s.watchWrite old pa n m).reply = s.reply :=
  (congrArg State.reply (s.watchWrite_same old pa n m) :)
@[simp] theorem State.watchWrite_agenda (s : State) (old : Memory) (pa n : Nat) (m : Bool) : (s.watchWrite old pa n m).agenda = s.agenda :=
  (congrArg State.agenda (s.watchWrite_same old pa n m) :)
@[simp] theorem State.watchWrite_rota (s : State) (old : Memory) (pa n : Nat) (m : Bool) : (s.watchWrite old pa n m).rota = s.rota :=
  (congrArg State.rota (s.watchWrite_same old pa n m) :)
@[simp] theorem State.watchWrite_bad (s : State) (old : Memory) (pa n : Nat) (m : Bool) : (s.watchWrite old pa n m).bad = s.bad :=
  (congrArg State.bad (s.watchWrite_same old pa n m) :)
@[simp] theorem State.watchWrite_clocks (s : State) (old : Memory) (pa n : Nat) (m : Bool) : (s.watchWrite old pa n m).clocks = s.clocks :=
  (congrArg State.clocks (s.watchWrite_same old pa n m) :)
@[simp] theorem State.watchWrite_posted (s : State) (old : Memory) (pa n : Nat) (m : Bool) : (s.watchWrite old pa n m).posted = s.posted :=
  (congrArg State.posted (s.watchWrite_same old pa n m) :)

/-! ## Waking a core, and telling what a store ends -/

@[simp] theorem State.wakeCore_cur (s : State) (i : Nat) : (s.wakeCore i).cur = s.cur := rfl
@[simp] theorem State.wakeCore_via (s : State) (i : Nat) : (s.wakeCore i).via = s.via := rfl
@[simp] theorem State.wakeCore_mem (s : State) (i : Nat) : (s.wakeCore i).mem = s.mem := rfl
@[simp] theorem State.wakeCore_wts (s : State) (i : Nat) : (s.wakeCore i).wts = s.wts := rfl
@[simp] theorem State.wakeCore_lts (s : State) (i : Nat) : (s.wakeCore i).lts = s.lts := rfl
@[simp] theorem State.wakeCore_hub (s : State) (i : Nat) : (s.wakeCore i).hub = s.hub := rfl
@[simp] theorem State.wakeCore_cycle (s : State) (i : Nat) : (s.wakeCore i).cycle = s.cycle := rfl
@[simp] theorem State.wakeCore_reply (s : State) (i : Nat) : (s.wakeCore i).reply = s.reply := rfl
@[simp] theorem State.wakeCore_agenda (s : State) (i : Nat) : (s.wakeCore i).agenda = s.agenda := rfl
@[simp] theorem State.wakeCore_rota (s : State) (i : Nat) : (s.wakeCore i).rota = s.rota := rfl
@[simp] theorem State.wakeCore_bad (s : State) (i : Nat) : (s.wakeCore i).bad = s.bad := rfl
@[simp] theorem State.wakeCore_clocks (s : State) (i : Nat) : (s.wakeCore i).clocks = s.clocks := rfl
@[simp] theorem State.wakeCore_posted (s : State) (i : Nat) : (s.wakeCore i).posted = s.posted := rfl
@[simp] theorem State.wakeCore_job (s : State) (i : Nat) : (s.wakeCore i).job = s.job := rfl
@[simp] theorem State.wakeCore_rest (s : State) (i : Nat) : (s.wakeCore i).rest = s.rest := rfl
@[simp] theorem State.rouse_cur (s : State) (i : Nat) : (s.rouse i).cur = s.cur := by unfold State.rouse; split <;> rfl
@[simp] theorem State.rouse_via (s : State) (i : Nat) : (s.rouse i).via = s.via := by unfold State.rouse; split <;> rfl
@[simp] theorem State.rouse_mem (s : State) (i : Nat) : (s.rouse i).mem = s.mem := by unfold State.rouse; split <;> rfl
@[simp] theorem State.rouse_wts (s : State) (i : Nat) : (s.rouse i).wts = s.wts := by unfold State.rouse; split <;> rfl
@[simp] theorem State.rouse_lts (s : State) (i : Nat) : (s.rouse i).lts = s.lts := by unfold State.rouse; split <;> rfl
@[simp] theorem State.rouse_hub (s : State) (i : Nat) : (s.rouse i).hub = s.hub := by unfold State.rouse; split <;> rfl
@[simp] theorem State.rouse_cycle (s : State) (i : Nat) : (s.rouse i).cycle = s.cycle := by unfold State.rouse; split <;> rfl
@[simp] theorem State.rouse_reply (s : State) (i : Nat) : (s.rouse i).reply = s.reply := by unfold State.rouse; split <;> rfl
@[simp] theorem State.rouse_agenda (s : State) (i : Nat) : (s.rouse i).agenda = s.agenda := by unfold State.rouse; split <;> rfl
@[simp] theorem State.rouse_rota (s : State) (i : Nat) : (s.rouse i).rota = s.rota := by unfold State.rouse; split <;> rfl
@[simp] theorem State.rouse_bad (s : State) (i : Nat) : (s.rouse i).bad = s.bad := by unfold State.rouse; split <;> rfl
@[simp] theorem State.rouse_clocks (s : State) (i : Nat) : (s.rouse i).clocks = s.clocks := by unfold State.rouse; split <;> rfl
@[simp] theorem State.rouse_posted (s : State) (i : Nat) : (s.rouse i).posted = s.posted := by unfold State.rouse; split <;> rfl
@[simp] theorem State.rouse_job (s : State) (i : Nat) : (s.rouse i).job = s.job := by unfold State.rouse; split <;> rfl
@[simp] theorem State.rouse_rest (s : State) (i : Nat) : (s.rouse i).rest = s.rest := by unfold State.rouse; split <;> rfl

/-- What neither a change of jobs nor the waking of a core touches is as it was after a store has told whose wait it ends. -/
theorem State.tell_same {β : Type} (g : State → β) (m : ∀ (s : State) (f : Job → Job), g (s.mapJobs f) = g s)
    (r : ∀ (s : State) (i : Nat), g (s.rouse i) = g s) (s : State) (p : Job → StreamId → WaitObj → Bool) (e : Ender) :
    g (s.tell p e) = g s := by
  have all (l : List Job) : ∀ t : State, g (l.foldl (fun s j => s.rouse j.coreIx) t) = g t := by
    induction l with
    | nil => exact fun _ => rfl
    | cons j l ih => exact fun t => (ih _).trans (r t _)
  unfold State.tell
  dsimp only
  split
  · rfl
  · rw [all, m]

@[simp] theorem State.tell_cur (s : State) (p : Job → StreamId → WaitObj → Bool) (e : Ender) : (s.tell p e).cur = s.cur :=
  State.tell_same State.cur (fun _ _ => rfl) State.rouse_cur s p e
@[simp] theorem State.tell_via (s : State) (p : Job → StreamId → WaitObj → Bool) (e : Ender) : (s.tell p e).via = s.via :=
  State.tell_same State.via (fun _ _ => rfl) State.rouse_via s p e
@[simp] theorem State.tell_mem (s : State) (p : Job → StreamId → WaitObj → Bool) (e : Ender) : (s.tell p e).mem = s.mem :=
  State.tell_same State.mem (fun _ _ => rfl) State.rouse_mem s p e
@[simp] theorem State.tell_wts (s : State) (p : Job → StreamId → WaitObj → Bool) (e : Ender) : (s.tell p e).wts = s.wts :=
  State.tell_same State.wts (fun _ _ => rfl) State.rouse_wts s p e
@[simp] theorem State.tell_lts (s : State) (p : Job → StreamId → WaitObj → Bool) (e : Ender) : (s.tell p e).lts = s.lts :=
  State.tell_same State.lts (fun _ _ => rfl) State.rouse_lts s p e
@[simp] theorem State.tell_hub (s : State) (p : Job → StreamId → WaitObj → Bool) (e : Ender) : (s.tell p e).hub = s.hub :=
  State.tell_same State.hub (fun _ _ => rfl) State.rouse_hub s p e
@[simp] theorem State.tell_cycle (s : State) (p : Job → StreamId → WaitObj → Bool) (e : Ender) : (s.tell p e).cycle = s.cycle :=
  State.tell_same State.cycle (fun _ _ => rfl) State.rouse_cycle s p e
@[simp] theorem State.tell_reply (s : State) (p : Job → StreamId → WaitObj → Bool) (e : Ender) : (s.tell p e).reply = s.reply :=
  State.tell_same State.reply (fun _ _ => rfl) State.rouse_reply s p e
@[simp] theorem State.tell_agenda (s : State) (p : Job → StreamId → WaitObj → Bool) (e : Ender) : (s.tell p e).agenda = s.agenda :=
  State.tell_same State.agenda (fun _ _ => rfl) State.rouse_agenda s p e
@[simp] theorem State.tell_rota (s : State) (p : Job → StreamId → WaitObj → Bool) (e : Ender) : (s.tell p e).rota = s.rota :=
  State.tell_same State.rota (fun _ _ => rfl) State.rouse_rota s p e
@[simp] theorem State.tell_bad (s : State) (p : Job → StreamId → WaitObj → Bool) (e : Ender) : (s.tell p e).bad = s.bad :=
  State.tell_same State.bad (fun _ _ => rfl) State.rouse_bad s p e
@[simp] theorem State.tell_clocks (s : State) (p : Job → StreamId → WaitObj → Bool) (e : Ender) : (s.tell p e).clocks = s.clocks :=
  State.tell_same State.clocks (fun _ _ => rfl) State.rouse_clocks s p e
@[simp] theorem State.tell_posted (s : State) (p : Job → StreamId → WaitObj → Bool) (e : Ender) : (s.tell p e).posted = s.posted :=
  State.tell_same State.posted (fun _ _ => rfl) State.rouse_posted s p e

@[simp] theorem State.wroteAt_mem (s : State) (off n : Nat) (m : Memory) : (s.wroteAt off n m).mem = m := by
  simp [State.wroteAt]
theorem State.wroteAt_job (s : State) (off n : Nat) (m : Memory) : { (s.wroteAt off n m).job with hits := s.job.hits } = s.job := by
  have := State.watchWrite_job ({ s with mem := m }.stamp s.job.coreIx (s.job.windowPa off) n) s.mem (s.job.windowPa off) n true
  rwa [State.stamp_job] at this
@[simp] theorem State.fenced_job (s : State) (scp : Nat) : (s.fenced scp).job = s.job.setStr s.cur { s.str with fence := scp } := rfl
@[simp] theorem State.fenced_cur (s : State) (scp : Nat) : (s.fenced scp).cur = s.cur := rfl
@[simp] theorem State.fenced_rest (s : State) (scp : Nat) : (s.fenced scp).rest = s.rest := rfl
@[simp] theorem State.fenced_mem (s : State) (scp : Nat) : (s.fenced scp).mem = s.mem := rfl
@[simp] theorem State.fenced_wts (s : State) (scp : Nat) : (s.fenced scp).wts = s.wts := rfl
@[simp] theorem State.fenced_lts (s : State) (scp : Nat) : (s.fenced scp).lts = s.lts := rfl
@[simp] theorem State.fenced_dies (s : State) (scp : Nat) : (s.fenced scp).dies = s.dies := rfl
@[simp] theorem State.fenced_hub (s : State) (scp : Nat) : (s.fenced scp).hub = s.hub := rfl
@[simp] theorem State.fenced_cycle (s : State) (scp : Nat) : (s.fenced scp).cycle = s.cycle := rfl
@[simp] theorem State.fenced_reply (s : State) (scp : Nat) : (s.fenced scp).reply = s.reply := rfl
@[simp] theorem State.fenced_agenda (s : State) (scp : Nat) : (s.fenced scp).agenda = s.agenda := rfl
@[simp] theorem State.fenced_rota (s : State) (scp : Nat) : (s.fenced scp).rota = s.rota := rfl
@[simp] theorem State.fenced_bad (s : State) (scp : Nat) : (s.fenced scp).bad = s.bad := rfl
@[simp] theorem State.fenced_via (s : State) (scp : Nat) : (s.fenced scp).via = s.via := rfl
@[simp] theorem State.fenced_clocks (s : State) (scp : Nat) : (s.fenced scp).clocks = s.clocks := rfl
@[simp] theorem State.fenced_posted (s : State) (scp : Nat) : (s.fenced scp).posted = s.posted := rfl

end Sys2Proof.Machine
end

