-- ==== Sys2Proof/Laws/Calm.lean ====
section
/-! SUPPORT. What the shared operations answer when nothing is in their way: no pending store, no Weir entry, no tide, no
provisional line, no stash window. -/

namespace Sys2Proof.Machine

variable {s : State}

/-! ## Pending stores -/

/-- A meaning goes on from the answer of its first part. -/
theorem bind_ok {α β : Type} {m : M α} {f : α → M β} {t : State} {a : α} (e : m s = .ok a t) : (m >>= f) s = f a t := by
  show EStateM.bind m f s = _
  unfold EStateM.bind
  rw [e]

theorem bind_error {α β : Type} {m : M α} {f : α → M β} {t : State} {x : Halt} (e : m s = .error x t) :
    (m >>= f) s = .error x t := by
  show EStateM.bind m f s = _
  unfold EStateM.bind
  rw [e]

theorem modify_ok (f : State → State) : (modify f : M PUnit) s = .ok () (f s) := rfl

theorem drain_calm (c : s.calm) : drain s = .ok () s := by
  show performAll s.str.stores s = _
  rw [c]; rfl

theorem drainMeeting_calm (c : s.calm) (pa n : Nat) : drainMeeting pa n s = .ok () s := by
  show (if s.str.stores.any _ then drain else pure ()) s = _
  rw [c]; rfl

theorem orderFirst_calm (c : s.calm) (o : Ose) : orderFirst o s = .ok () s := by
  unfold orderFirst
  split
  · rfl
  · show (match (if s.str.stores.isEmpty then none else s.str.fenceAhead) with | none => drain | some g => _ : M Unit) s = _
    rw [show s.str.stores = [] from c]
    exact drain_calm c

/-- A fence of a stream with nothing to perform leaves its scope (R91, R98). -/
theorem fenceAt_calm (c : s.calm) (scp : Nat) : fenceAt scp s = .ok () (s.fenced scp) := by
  have e : s.modStr (fun t => { t with stores := t.stores.map fun p => { p with scp := Nat.max p.scp scp } }) = s := by
    have : ({ s.str with stores := s.str.stores.map fun p => { p with scp := Nat.max p.scp scp } } : Stream) = s.str := by
      rw [show s.str.stores = [] from c]
      exact congrArg (fun l => { s.str with stores := l }) (show s.str.stores = [] from c).symm
    show { s with job := s.job.setStr s.cur { s.str with stores := s.str.stores.map fun p => { p with scp := Nat.max p.scp scp } } } = s
    rw [this]
    exact congrArg (fun j : Job => { s with job := j }) (Job.setStr_str s.job s.cur)
  rw [fenceAt, bind_ok (modify_ok _), e, bind_ok (drain_calm c)]
  rfl

theorem uptoLast_none {p : Pending → Bool} : ∀ l : List Pending, (∀ q ∈ l, p q = false) → uptoLast p l = []
  | [], _ => rfl
  | a :: l, h => by
    rw [uptoLast, if_neg]
    simpa using fun q m => h q m

/-- Where nothing is owed to an agent, its accesses call in no store left behind. -/
theorem owed_none {b : Agent} (u : s.unowed b) (q clock pa n : Nat) : s.owed b q clock pa n = [] := by
  unfold State.owed
  simp only [List.flatMap_eq_nil_iff]
  intro j hj
  split
  · rfl
  · simp only [List.flatMap_eq_nil_iff, List.map_eq_nil_iff]
    intro x _
    refine uptoLast_none _ fun p hp => ?_
    unfold State.owes
    by_cases e : Agent.stream j.num x = b
    · subst e
      cases p.left <;> simp
    · rw [u j hj x e p hp]

theorem callFor_unowed {b : Agent} (u : s.unowed b) (q clock pa n : Nat) : callFor b q clock pa n s = .ok () s := by
  show (match s.owed b q clock pa n with | [] => pure () | l => _ : M Unit) s = _
  rw [owed_none u]; rfl

theorem callIn_unowed (u : s.unowed s.agent) (scp pa n : Nat) : callIn scp pa n s = .ok () s := callFor_unowed u ..

/-! ## Holds -/

theorem unlessWait_true (w : WaitObj) : unlessWait true w s = .ok () s := rfl

theorem waitTide_free (x : List Nat) (off n : Nat) (e : s.job.tideAt x off (off + n) = none) : waitTide x off n s = .ok () s := by
  show (match s.job.tideAt x off (off + n) with | some c => throw (.wait (.tide c)) | none => pure () : M Unit) s = _
  rw [e]; rfl

theorem settledFor_free (id lo hi : Nat) (e : s.job.marks = []) : settledFor id lo hi s = .ok () s := by
  show (match s.job.markFor id lo hi with | some t => throw (.wait (.lineage (s.job.srcOf t))) | none => pure () : M Unit) s = _
  simp [Job.markFor, e]; rfl

theorem settledBytes_free (lo hi : Nat) (e : s.job.marks = []) : settledBytes lo hi s = .ok () s := by
  show (match s.job.markAt lo hi with | some t => throw (.wait (.lineage (s.job.srcOf t))) | none => pure () : M Unit) s = _
  simp [Job.markAt, e]; rfl

/-- With no range in force, no access stalls on a tide. -/
theorem tideAt_none {j : Job} (e : ∀ n, crangeEn (vget 0 j.crange n) = false) (x : List Nat) (lo hi : Nat) :
    j.tideAt x lo hi = none := by
  simp only [Job.tideAt, List.find?_eq_none]
  intro n _
  rw [e n]
  simp

/-- With no window mapped, no byte lies in a stash window. -/
theorem stashAt_none (u : s.unstashed) (off : Nat) : s.job.stashAt off = none := by
  simp only [Job.stashAt, List.find?_eq_none, List.mem_map, List.mem_range]
  rintro _ ⟨i, hi, rfl⟩
  have : (vget ⟨false, 0, 0, 0, 0⟩ s.job.stash i).v = false := by
    unfold vget
    cases q : s.job.stash[i]? with
    | none => rfl
    | some w => exact u w (by simpa using Vector.mem_of_getElem? q)
  simp [this]

/-- The entry that a held instruction makes when it takes its place. -/
def State.heldPlace (s : State) (ks : Keys) : State :=
  s.modJob fun j => { j with
    entries := j.entries ++ [⟨j.nextId, s.cur, s.str.pc, .held s.cur, ks, false, false⟩], nextId := j.nextId + 1 }

theorem takePlace_unheld (u : s.unheld) (f : s.weirFree = true) (ks : Keys) :
    takePlace ks s = .ok s.job.nextId (s.heldPlace ks) := by
  have m : s.mayEnter = true := by simp [State.mayEnter, f, Job.returning, u.1]
  show (match s.job.entries.find? fun e => e.kind == .held s.cur with
    | some e => pure e.id
    | none => do unlessWait s.mayEnter .weir; enter (.held s.cur) ks false : M Nat) s = _
  rw [u.1, m]; rfl

theorem waitOrder_heldPlace (u : s.unheld) (ks : Keys) : waitOrder s.job.nextId ks (s.heldPlace ks) = .ok () (s.heldPlace ks) := by
  have e : (s.heldPlace ks).job.heldOn s.job.nextId ks = none := by
    simp [Job.heldOn, State.heldPlace, State.modJob, u.1]
  show (match (s.heldPlace ks).job.heldOn s.job.nextId ks with | some x => throw (.wait (ks.why x.keys)) | none => pure () : M Unit) _ = _
  rw [e]; rfl

/-- A scratch access that nothing holds back takes its place at once. -/
theorem scratchHold_unheld (u : s.unheld) (f : s.weirFree = true) (off n : Nat) (rd wr : Bool) :
    let r := [blocks off (off + n)]
    let ks := { Keys.none with sr := if rd then r else [], sw := if wr then r else [] }
    scratchHold off n rd wr s = .ok () (s.heldPlace ks) := by
  intro r ks
  show (takePlace ks >>= fun id => waitTide [] off n >>= fun _ => waitOrder id ks >>= fun _ => settledFor id off (off + n)) s = _
  refine (bind_ok (takePlace_unheld u f ks)).trans ?_
  refine (bind_ok (waitTide_free (s := s.heldPlace ks) _ _ _ (tideAt_none u.2.2.1 _ _ _))).trans ?_
  exact (bind_ok (waitOrder_heldPlace u ks)).trans (settledFor_free (s := s.heldPlace ks) _ _ _ u.2.1)

/-- An event that no stream waits for tells nobody. -/
theorem tell_none {p : Job → StreamId → WaitObj → Bool} (h : ∀ j ∈ s.jobs, ∀ x w, (j.str x).wait = some w → p j x w.obj = false)
    (e : Ender) : s.tell p e = s := by
  unfold State.tell
  dsimp only
  rw [if_pos]
  simp only [List.isEmpty_iff, List.filter_eq_nil_iff, List.any_eq_true, not_exists, not_and]
  intro j hj x _
  cases q : (j.str x).wait with
  | none => simp
  | some w => simp [h j hj x w q]

/-- Leaving the place again leaves only the count of entries behind. -/
theorem leavePlace_place (u : s.unheld) (ks : Keys) : leavePlace (s.heldPlace ks) = .ok () s.passed := by
  have tells : ∀ id, (s.heldPlace ks).tellEntry id = s.heldPlace ks := fun id => by
    unfold State.tellEntry
    split
    · rfl
    · refine tell_none (fun j hj x w q => ?_) _
      have : w.obj ≠ .weir ∧ ∀ k i, w.obj ≠ .order k i := by
        rcases List.mem_cons.mp hj with e | e
        · exact u.2.2.2 s.job (List.mem_cons_self ..) x w (by rw [e] at q; exact q)
        · exact u.2.2.2 j (List.mem_cons_of_mem _ e) x w q
      cases o : w.obj <;> simp_all
  have drops : (s.heldPlace ks).modJob (fun j => j.dropHeld s.cur) = s.passed := by
    simp [State.heldPlace, State.modJob, State.passed, Job.dropHeld, u.1]
  rw [leavePlace, modify_ok]
  dsimp only
  split
  · rw [tells]; exact congrArg _ drops
  · exact congrArg _ drops

/-! ## Failed units -/

theorem probe_sound (g : s.sound) (pa n : Nat) : probe pa n s = .ok () s := by
  have e : s.failing pa n = none := by simp [State.failing, show s.bad = [] from g]
  show (match s.failing pa n with | none => pure () | some b => _ : M Unit) s = _
  rw [e]; rfl

theorem tagged_ok {α : Type} {m : M α} {t : State} {a : α} (e : m s = .ok a t) (k va : Nat) : tagged k va m s = .ok a t := by
  unfold tagged
  rw [e]

/-- What a read of a failed unit is: fault 0x24, the unit's address in AUX, and what holds the unit out of service. -/
theorem probe_failing {b : BadUnit} {pa n : Nat} (e : s.failing pa n = some b) :
    probe pa n s = .error (.fault { FaultInfo.of 0x24 with aux := b.pa }) (s.outOfService b) := by
  show (match s.failing pa n with
    | none => pure ()
    | some b => do set (s.outOfService b); throw (.fault { FaultInfo.of 0x24 with aux := b.pa }) : M Unit) s = _
  rw [e]; rfl

/-! ## Window bytes -/

/-- A line that no stash owns dirty needs no recall. -/
theorem recallLine_none (pa : Nat) (e : s.dirtyOwner pa = none) : recallLine pa s = .ok () s := by
  unfold recallLine
  rw [bind_ok (rfl : (get : M State) s = .ok s s)]
  rw [e]; rfl

theorem recallLine_clean (pa : Nat) (e : ∀ j ∈ s.jobs, j.dirtyAt (lineOf pa) = none) : recallLine pa s = .ok () s := by
  have q : (s.jobs.filterMap fun j => (j.dirtyAt (lineOf pa)).map fun l => (j, l)) = [] := by
    simp only [List.filterMap_eq_nil_iff]
    intro j hj
    simp [e j hj]
  exact recallLine_none pa (by rw [State.dirtyOwner, q]; rfl)

theorem touchStash_none (off n : Nat) (w : Touch) (e : s.job.stashAt off = none) (o : s.dirtyOwner (s.job.windowPa off) = none) :
    touchStash off n w s = .ok () s := by
  unfold touchStash
  rw [bind_ok (rfl : (get : M State) s = .ok s s)]
  dsimp only
  rw [e]
  exact recallLine_none _ o

theorem forM_ok {α : Type} {f : α → M PUnit} (l : List α) (h : ∀ a ∈ l, f a s = .ok () s) : l.forM f s = .ok () s := by
  induction l with
  | nil => rfl
  | cons a l ih =>
    show (f a >>= fun _ => l.forM f) s = _
    rw [bind_ok (h a (by simp))]
    exact ih fun b hb => h b (by simp [hb])

theorem touchAll_unstashed (u : s.unstashed) (off n : Nat) (w : Touch) (h : 0 < n) (o : s.unowned off n) :
    touchAll off n w s = .ok () s :=
  forM_ok _ fun i hi => touchStash_none _ _ _ (stashAt_none u _) (o _ (Nat.le_max_left ..) (by
    have := List.mem_range.mp hi
    show max off ((off / 256 + i) * 256) < off + n
    omega))

/-- A prompt load of bytes outside stash windows renews nothing. -/
theorem renewAll_unstashed (u : s.unstashed) (off n : Nat) : renewAll off n s = .ok () s :=
  forM_ok _ fun i _ => by
    rw [bind_ok (rfl : (get : M State) s = .ok s s)]
    dsimp only
    rw [stashAt_none u]; rfl

theorem windowRead_free (x : List Nat) (off n : Nat) (t : s.job.tideAt x off (off + n) = none) (u : s.unstashed)
    (h : 0 < n) (o : s.unowned off n) (g : s.sound) :
    windowRead x off n s =
      .ok (s.mem.readMany (s.job.windowPa off) n) (s.observe s.job.coreIx (s.job.windowPa off) n) := by
  unfold windowRead
  rw [bind_ok (waitTide_free _ _ _ t), bind_ok (touchAll_unstashed u _ _ _ h o), bind_ok (rfl : (get : M State) s = .ok s s),
    bind_ok (probe_sound g _ _)]
  have m : (s.observe s.job.coreIx (s.job.windowPa off) n).mem = s.mem := State.observe_mem ..
  have j : (s.observe s.job.coreIx (s.job.windowPa off) n).job = s.job := State.observe_job ..
  generalize e : s.observe s.job.coreIx (s.job.windowPa off) n = t at m j
  rw [← m, ← j]
  rw [bind_ok (show (modify fun s => s.observe s.job.coreIx (s.job.windowPa off) n : M PUnit) s = .ok () t from e ▸ rfl)]
  rfl

theorem windowWrite_free (x : List Nat) (off : Nat) (bs : List Byte) (t : s.job.tideAt x off (off + bs.length) = none)
    (u : s.unstashed) (h : 0 < bs.length) (o : s.unowned off bs.length) : windowWrite x off bs s =
      .ok () (s.wroteAt off bs.length (s.mem.writeMany (s.job.windowPa off) bs)) := by
  unfold windowWrite
  rw [bind_ok (waitTide_free _ _ _ t), bind_ok (touchAll_unstashed u _ _ _ h o)]
  rfl

/-! ## Issuing -/

/-- An operation that finds a place in the Weir enters it at once. -/
theorem issueOp_entered (c : s.calm) (f : s.mayEnter = true) (i : Instr) (tl : Nat) (ks : Keys) (g : Op → Op) :
    issueOp i tl ks g s = .ok () (s.entered i tl ks g) := by
  unfold issueOp
  rw [bind_ok (drain_calm c), bind_ok (rfl : (get : M State) s = .ok s s), f, bind_ok (unlessWait_true .weir)]
  rfl

/-! ## Waits that are over -/

theorem endWait_none {x : StreamId} (e : (s.job.str x).wait = none) (y : Nat) : s.endWait x y = s := by
  unfold State.endWait
  rw [e]

/-! ## Reads that the hardware makes for itself, with no dirty line and no failed unit -/

theorem physRecall_clean (e : ∀ j ∈ s.jobs, ∀ l, j.dirtyAt l = none) (pa n : Nat) : physRecall pa n s = .ok () s := by
  rw [physRecall, bind_ok (rfl : (get : M State) s = .ok s s)]
  exact forM_ok _ fun _ _ => recallLine_clean _ fun j hj => e j hj _

theorem hubLoss_sound (g : s.sound) (pa n : Nat) : s.hubLoss pa n = s := by
  rw [State.hubLoss, show s.bad = [] from g]
  rfl

theorem physReady_clean (e : ∀ j ∈ s.jobs, ∀ l, j.dirtyAt l = none) (g : s.sound) (pa n : Nat) : physReady pa n s = .ok () s := by
  rw [physReady, bind_ok (physRecall_clean e pa n)]
  exact congrArg (EStateM.Result.ok ()) (hubLoss_sound g _ n)

theorem areaReady_clean (e : ∀ j ∈ s.jobs, ∀ l, j.dirtyAt l = none) (g : s.sound) (die : Nat) : areaReady die s = .ok true s := by
  have h : ∀ a c, (do physRecall a 8; probe c 8 : M Unit) s = .ok () s := fun a c => by
    rw [bind_ok (physRecall_clean e a 8), probe_sound g]
  rw [areaReady, bind_ok (rfl : (get : M State) s = .ok s s), bind_ok (rfl : (get : M State) s = .ok s s)]
  rw [bind_ok (show attempt _ s = .ok (.ok ()) s by rw [attempt, h])]
  rfl

end Sys2Proof.Machine
end

