-- ==== Sys2Proof/Laws/Exec.lean ====
section
/-! SUPPORT. The meaning of each constructor, one rewrite rule for each arm of the dispatch. -/

namespace Sys2Proof.Machine

@[simp] theorem exec_add (h : Hdr) (d : SReg) (a : SReg) (b : SReg) (s : State) :
    exec (.add h d a b) s = execAdd h d a b s := rfl
@[simp] theorem exec_sub (h : Hdr) (d : SReg) (a : SReg) (b : SReg) (s : State) :
    exec (.sub h d a b) s = execSub h d a b s := rfl
@[simp] theorem exec_mul (h : Hdr) (d : SReg) (a : SReg) (b : SReg) (s : State) :
    exec (.mul h d a b) s = execMul h d a b s := rfl
@[simp] theorem exec_mulh (h : Hdr) (u : Bool) (d : SReg) (a : SReg) (b : SReg) (s : State) :
    exec (.mulh h u d a b) s = execMulh h u d a b s := rfl
@[simp] theorem exec_div (h : Hdr) (u : Bool) (d : SReg) (a : SReg) (b : SReg) (s : State) :
    exec (.div h u d a b) s = execDiv h u d a b s := rfl
@[simp] theorem exec_rem (h : Hdr) (u : Bool) (d : SReg) (a : SReg) (b : SReg) (s : State) :
    exec (.rem h u d a b) s = execRem h u d a b s := rfl
@[simp] theorem exec_and (h : Hdr) (d : SReg) (a : SReg) (b : SReg) (s : State) :
    exec (.and h d a b) s = execAnd h d a b s := rfl
@[simp] theorem exec_or (h : Hdr) (d : SReg) (a : SReg) (b : SReg) (s : State) :
    exec (.or h d a b) s = execOr h d a b s := rfl
@[simp] theorem exec_xor (h : Hdr) (d : SReg) (a : SReg) (b : SReg) (s : State) :
    exec (.xor h d a b) s = execXor h d a b s := rfl
@[simp] theorem exec_andn (h : Hdr) (d : SReg) (a : SReg) (b : SReg) (s : State) :
    exec (.andn h d a b) s = execAndn h d a b s := rfl
@[simp] theorem exec_shl (h : Hdr) (d : SReg) (a : SReg) (b : SReg) (s : State) :
    exec (.shl h d a b) s = execShl h d a b s := rfl
@[simp] theorem exec_shr (h : Hdr) (d : SReg) (a : SReg) (b : SReg) (s : State) :
    exec (.shr h d a b) s = execShr h d a b s := rfl
@[simp] theorem exec_sar (h : Hdr) (d : SReg) (a : SReg) (b : SReg) (s : State) :
    exec (.sar h d a b) s = execSar h d a b s := rfl
@[simp] theorem exec_min (h : Hdr) (u : Bool) (d : SReg) (a : SReg) (b : SReg) (s : State) :
    exec (.min h u d a b) s = execMin h u d a b s := rfl
@[simp] theorem exec_max (h : Hdr) (u : Bool) (d : SReg) (a : SReg) (b : SReg) (s : State) :
    exec (.max h u d a b) s = execMax h u d a b s := rfl
@[simp] theorem exec_addImm (h : Hdr) (d : SReg) (a : SReg) (imm : Imm) (s : State) :
    exec (.addImm h d a imm) s = execAddImm h d a imm s := rfl
@[simp] theorem exec_subImm (h : Hdr) (d : SReg) (a : SReg) (imm : Imm) (s : State) :
    exec (.subImm h d a imm) s = execSubImm h d a imm s := rfl
@[simp] theorem exec_mulImm (h : Hdr) (d : SReg) (a : SReg) (imm : Imm) (s : State) :
    exec (.mulImm h d a imm) s = execMulImm h d a imm s := rfl
@[simp] theorem exec_mulhImm (h : Hdr) (u : Bool) (d : SReg) (a : SReg) (imm : Imm) (s : State) :
    exec (.mulhImm h u d a imm) s = execMulhImm h u d a imm s := rfl
@[simp] theorem exec_divImm (h : Hdr) (u : Bool) (d : SReg) (a : SReg) (imm : Imm) (s : State) :
    exec (.divImm h u d a imm) s = execDivImm h u d a imm s := rfl
@[simp] theorem exec_remImm (h : Hdr) (u : Bool) (d : SReg) (a : SReg) (imm : Imm) (s : State) :
    exec (.remImm h u d a imm) s = execRemImm h u d a imm s := rfl
@[simp] theorem exec_andImm (h : Hdr) (d : SReg) (a : SReg) (imm : Imm) (s : State) :
    exec (.andImm h d a imm) s = execAndImm h d a imm s := rfl
@[simp] theorem exec_orImm (h : Hdr) (d : SReg) (a : SReg) (imm : Imm) (s : State) :
    exec (.orImm h d a imm) s = execOrImm h d a imm s := rfl
@[simp] theorem exec_xorImm (h : Hdr) (d : SReg) (a : SReg) (imm : Imm) (s : State) :
    exec (.xorImm h d a imm) s = execXorImm h d a imm s := rfl
@[simp] theorem exec_andnImm (h : Hdr) (d : SReg) (a : SReg) (imm : Imm) (s : State) :
    exec (.andnImm h d a imm) s = execAndnImm h d a imm s := rfl
@[simp] theorem exec_shlImm (h : Hdr) (d : SReg) (a : SReg) (imm : Imm) (s : State) :
    exec (.shlImm h d a imm) s = execShlImm h d a imm s := rfl
@[simp] theorem exec_shrImm (h : Hdr) (d : SReg) (a : SReg) (imm : Imm) (s : State) :
    exec (.shrImm h d a imm) s = execShrImm h d a imm s := rfl
@[simp] theorem exec_sarImm (h : Hdr) (d : SReg) (a : SReg) (imm : Imm) (s : State) :
    exec (.sarImm h d a imm) s = execSarImm h d a imm s := rfl
@[simp] theorem exec_minImm (h : Hdr) (u : Bool) (d : SReg) (a : SReg) (imm : Imm) (s : State) :
    exec (.minImm h u d a imm) s = execMinImm h u d a imm s := rfl
@[simp] theorem exec_maxImm (h : Hdr) (u : Bool) (d : SReg) (a : SReg) (imm : Imm) (s : State) :
    exec (.maxImm h u d a imm) s = execMaxImm h u d a imm s := rfl
@[simp] theorem exec_clz (h : Hdr) (d : SReg) (a : SReg) (s : State) :
    exec (.clz h d a) s = execClz h d a s := rfl
@[simp] theorem exec_popc (h : Hdr) (d : SReg) (a : SReg) (s : State) :
    exec (.popc h d a) s = execPopc h d a s := rfl
@[simp] theorem exec_ext (h : Hdr) (signed : Bool) (w : ExtWidth) (d : SReg) (a : SReg) (s : State) :
    exec (.ext h signed w d a) s = execExt h signed w d a s := rfl
@[simp] theorem exec_bfx (h : Hdr) (signed : Bool) (d : SReg) (a : SReg) (hi : BitVec 6) (lo : BitVec 6) (s : State) :
    exec (.bfx h signed d a hi lo) s = execBfx h signed d a hi lo s := rfl
@[simp] theorem exec_bfi (h : Hdr) (d : SReg) (a : SReg) (hi : BitVec 6) (lo : BitVec 6) (s : State) :
    exec (.bfi h d a hi lo) s = execBfi h d a hi lo s := rfl
@[simp] theorem exec_lea (h : Hdr) (sc : BitVec 2) (d : SReg) (a : SReg) (b : SReg) (imm : Imm) (s : State) :
    exec (.lea h sc d a b imm) s = execLea h sc d a b imm s := rfl
@[simp] theorem exec_mov (h : Hdr) (d : SReg) (a : SReg) (s : State) :
    exec (.mov h d a) s = execMov h d a s := rfl
@[simp] theorem exec_movFromLc (h : Hdr) (d : SReg) (n : LcReg) (s : State) :
    exec (.movFromLc h d n) s = execMovFromLc h d n s := rfl
@[simp] theorem exec_movToLc (h : Hdr) (n : LcReg) (a : SReg) (s : State) :
    exec (.movToLc h n a) s = execMovToLc h n a s := rfl
@[simp] theorem exec_movi (h : Hdr) (d : SReg) (imm : Imm) (s : State) :
    exec (.movi h d imm) s = execMovi h d imm s := rfl
@[simp] theorem exec_moviH (h : Hdr) (d : SReg) (imm : BitVec 16) (s : State) :
    exec (.moviH h d imm) s = execMoviH h d imm s := rfl
@[simp] theorem exec_cmp (h : Hdr) (cc : Cond) (d : PReg) (a : SReg) (b : SReg) (s : State) :
    exec (.cmp h cc d a b) s = execCmp h cc d a b s := rfl
@[simp] theorem exec_cmpImm (h : Hdr) (cc : Cond) (d : PReg) (a : SReg) (imm : Imm) (s : State) :
    exec (.cmpImm h cc d a imm) s = execCmpImm h cc d a imm s := rfl
@[simp] theorem exec_sel (h : Hdr) (n : PReg) (d : SReg) (a : SReg) (b : SReg) (s : State) :
    exec (.sel h n d a b) s = execSel h n d a b s := rfl
@[simp] theorem exec_plog (h : Hdr) (op : PlogOp) (d : PReg) (a : PReg) (b : PReg) (s : State) :
    exec (.plog h op d a b) s = execPlog h op d a b s := rfl
@[simp] theorem exec_br (h : Hdr) (imm : Imm) (s : State) :
    exec (.br h imm) s = execBr h imm s := rfl
@[simp] theorem exec_brQ (h : Hdr) (imm : Imm) (s : State) :
    exec (.brQ h imm) s = execBrQ h imm s := rfl
@[simp] theorem exec_jmp (h : Hdr) (a : SReg) (imm : Imm) (s : State) :
    exec (.jmp h a imm) s = execJmp h a imm s := rfl
@[simp] theorem exec_call (h : Hdr) (d : SReg) (imm : Imm) (s : State) :
    exec (.call h d imm) s = execCall h d imm s := rfl
@[simp] theorem exec_callR (h : Hdr) (d : SReg) (a : SReg) (imm : Imm) (s : State) :
    exec (.callR h d a imm) s = execCallR h d a imm s := rfl
@[simp] theorem exec_ret (h : Hdr) (a : SReg) (s : State) :
    exec (.ret h a) s = execRet h a s := rfl
@[simp] theorem exec_nop (h : Hdr) (s : State) :
    exec (.nop h) s = execNop h s := rfl
@[simp] theorem exec_loop (h : Hdr) (n : LcReg) (a : SReg) (imm : Imm) (s : State) :
    exec (.loop h n a imm) s = execLoop h n a imm s := rfl
@[simp] theorem exec_loopp (h : Hdr) (n : LcReg) (a : SReg) (stages : BitVec 3) (imm : Imm) (s : State) :
    exec (.loopp h n a stages imm) s = execLoopp h n a stages imm s := rfl
@[simp] theorem exec_ld (h : Hdr) (size : Size) (signed : Bool) (d : SReg) (a : SReg) (ose : Ose) (imm : Imm) (s : State) :
    exec (.ld h size signed d a ose imm) s = execLd h size signed d a ose imm s := rfl
@[simp] theorem exec_st (h : Hdr) (size : Size) (a : SReg) (b : SReg) (ose : Ose) (imm : Imm) (s : State) :
    exec (.st h size a b ose imm) s = execSt h size a b ose imm s := rfl
@[simp] theorem exec_amo (h : Hdr) (op : AmoOp) (size : Size) (d : SReg) (a : SReg) (b : SReg) (ose : Ose) (s : State) :
    exec (.amo h op size d a b ose) s = execAmo h op size d a b ose s := rfl
@[simp] theorem exec_cas (h : Hdr) (size : Size) (d : SReg) (a : SReg) (b : SReg) (ose : Ose) (s : State) :
    exec (.cas h size d a b ose) s = execCas h size d a b ose s := rfl
@[simp] theorem exec_fence (h : Hdr) (scp : BitVec 3) (s : State) :
    exec (.fence h scp) s = execFence h scp s := rfl
@[simp] theorem exec_pref (h : Hdr) (l2 : Bool) (a : SReg) (ev : BitVec 3) (imm : Imm) (s : State) :
    exec (.pref h l2 a ev imm) s = execPref h l2 a ev imm s := rfl
@[simp] theorem exec_wback (h : Hdr) (drop : Bool) (a : SReg) (imm : Imm) (s : State) :
    exec (.wback h drop a imm) s = execWback h drop a imm s := rfl
@[simp] theorem exec_smap (h : Hdr) (n : BitVec 3) (a : SReg) (b : SReg) (s : State) :
    exec (.smap h n a b) s = execSmap h n a b s := rfl
@[simp] theorem exec_sunmap (h : Hdr) (n : BitVec 3) (s : State) :
    exec (.sunmap h n) s = execSunmap h n s := rfl
@[simp] theorem exec_sflush (h : Hdr) (mask : BitVec 8) (s : State) :
    exec (.sflush h mask) s = execSflush h mask s := rfl
@[simp] theorem exec_qpush (h : Hdr) (q : QName) (a : SReg) (s : State) :
    exec (.qpush h q a) s = execQpush h q a s := rfl
@[simp] theorem exec_qpushP (h : Hdr) (n : PReg) (s : State) :
    exec (.qpushP h n) s = execQpushP h n s := rfl
@[simp] theorem exec_qpop (h : Hdr) (d : SReg) (q : QName) (s : State) :
    exec (.qpop h d q) s = execQpop h d q s := rfl
@[simp] theorem exec_qdrop (h : Hdr) (q : QName) (a : SReg) (s : State) :
    exec (.qdrop h q a) s = execQdrop h q a s := rfl
@[simp] theorem exec_tksend (h : Hdr) (n : BitVec 3) (s : State) :
    exec (.tksend h n) s = execTksend h n s := rfl
@[simp] theorem exec_tkwait (h : Hdr) (n : BitVec 3) (s : State) :
    exec (.tkwait h n) s = execTkwait h n s := rfl
@[simp] theorem exec_bar (h : Hdr) (k : BitVec 3) (s : State) :
    exec (.bar h k) s = execBar h k s := rfl
@[simp] theorem exec_bara (h : Hdr) (d : SReg) (k : BitVec 3) (s : State) :
    exec (.bara h d k) s = execBara h d k s := rfl
@[simp] theorem exec_barw (h : Hdr) (k : BitVec 3) (a : SReg) (s : State) :
    exec (.barw h k a) s = execBarw h k a s := rfl
@[simp] theorem exec_join (h : Hdr) (s : State) :
    exec (.join h) s = execJoin h s := rfl
@[simp] theorem exec_setf (h : Hdr) (a : SReg) (b : SReg) (scp : BitVec 3) (ev : BitVec 3) (imm : Imm) (s : State) :
    exec (.setf h a b scp ev imm) s = execSetf h a b scp ev imm s := rfl
@[simp] theorem exec_setfAdd (h : Hdr) (a : SReg) (b : SReg) (scp : BitVec 3) (ev : BitVec 3) (imm : Imm) (s : State) :
    exec (.setfAdd h a b scp ev imm) s = execSetfAdd h a b scp ev imm s := rfl
@[simp] theorem exec_waitf (h : Hdr) (cc : FlagCond) (d : SReg) (a : SReg) (b : SReg) (scp : BitVec 3) (ev : BitVec 3) (imm : Imm) (s : State) :
    exec (.waitf h cc d a b scp ev imm) s = execWaitf h cc d a b scp ev imm s := rfl
@[simp] theorem exec_semset (h : Hdr) (n : BitVec 4) (a : SReg) (s : State) :
    exec (.semset h n a) s = execSemset h n a s := rfl
@[simp] theorem exec_semacq (h : Hdr) (n : BitVec 4) (k : BitVec 4) (s : State) :
    exec (.semacq h n k) s = execSemacq h n k s := rfl
@[simp] theorem exec_semrel (h : Hdr) (n : BitVec 4) (k : BitVec 4) (s : State) :
    exec (.semrel h n k) s = execSemrel h n k s := rfl
@[simp] theorem exec_tlwait (h : Hdr) (t : BitVec 3) (a : SReg) (imm : BitVec 45) (s : State) :
    exec (.tlwait h t a imm) s = execTlwait h t a imm s := rfl
@[simp] theorem exec_tlget (h : Hdr) (d : SReg) (t : BitVec 3) (s : State) :
    exec (.tlget h d t) s = execTlget h d t s := rfl
@[simp] theorem exec_tlgetI (h : Hdr) (d : SReg) (t : BitVec 3) (s : State) :
    exec (.tlgetI h d t) s = execTlgetI h d t s := rfl
@[simp] theorem exec_vld (h : Hdr) (d : VReg) (st : StReg) (ss : SReg) (px : Slot) (s : State) :
    exec (.vld h d st ss px) s = execVld h d st ss px s := rfl
@[simp] theorem exec_vst (h : Hdr) (st : StReg) (src : VReg) (ss : SReg) (pz : Slot) (s : State) :
    exec (.vst h st src ss pz) s = execVst h st src ss pz s := rfl
@[simp] theorem exec_vmov (h : Hdr) (t2 : Bool) (d : VReg) (src : VReg) (t : VReg) (n : BitVec 6) (px : Slot) (py : Slot) (pz : Slot) (s : State) :
    exec (.vmov h t2 d src t n px py pz) s = execVmov h t2 d src t n px py pz s := rfl
@[simp] theorem exec_vsplat (h : Hdr) (d : VReg) (ss : SReg) (s : State) :
    exec (.vsplat h d ss) s = execVsplat h d ss s := rfl
@[simp] theorem exec_vperm (h : Hdr) (d : VReg) (src : VReg) (t : VReg) (s : State) :
    exec (.vperm h d src t) s = execVperm h d src t s := rfl
@[simp] theorem exec_vidx (h : Hdr) (d : VReg) (ss : SReg) (step : BitVec 21) (s : State) :
    exec (.vidx h d ss step) s = execVidx h d ss step s := rfl
@[simp] theorem exec_vget (h : Hdr) (signed : Bool) (ss : SReg) (src : VReg) (lane : BitVec 6) (s : State) :
    exec (.vget h signed ss src lane) s = execVget h signed ss src lane s := rfl
@[simp] theorem exec_vput (h : Hdr) (d : VReg) (lane : BitVec 6) (ss : SReg) (s : State) :
    exec (.vput h d lane ss) s = execVput h d lane ss s := rfl
@[simp] theorem exec_vtest (h : Hdr) (cc : VCond) (n : PReg) (src : VReg) (s : State) :
    exec (.vtest h cc n src) s = execVtest h cc n src s := rfl
@[simp] theorem exec_vred (h : Hdr) (op : RedOp) (x : Bool) (q : BitVec 2) (src : VReg) (n : BitVec 6) (s : State) :
    exec (.vred h op x q src n) s = execVred h op x q src n s := rfl
@[simp] theorem exec_vredStream (h : Hdr) (op : RedOp) (x : Bool) (q : BitVec 2) (st : StReg) (px : Slot) (s : State) :
    exec (.vredStream h op x q st px) s = execVredStream h op x q st px s := rfl
@[simp] theorem exec_vdrain (h : Hdr) (clr : DrainClear) (d : VReg) (q : BitVec 2) (s : State) :
    exec (.vdrain h clr d q) s = execVdrain h clr d q s := rfl
@[simp] theorem exec_vrow (h : Hdr) (abs : Bool) (d : VReg) (src : AccReg) (nc : BitVec 7) (s : State) :
    exec (.vrow h abs d src nc) s = execVrow h abs d src nc s := rfl
@[simp] theorem exec_vrbase (h : Hdr) (base : BitVec 9) (size : BitVec 10) (s : State) :
    exec (.vrbase h base size) s = execVrbase h base size s := rfl
@[simp] theorem exec_mlds (h : Hdr) (b : StReg) (pb : Slot) (s : State) :
    exec (.mlds h b pb) s = execMlds h b pb s := rfl
@[simp] theorem exec_mldsK (h : Hdr) (b : StReg) (pb : Slot) (s : State) :
    exec (.mldsK h b pb) s = execMldsK h b pb s := rfl
@[simp] theorem exec_mmul (h : Hdr) (z : Bool) (d : AccReg) (r0 : BitVec 6) (a : StReg) (pa : Slot) (s : State) :
    exec (.mmul h z d r0 a pa) s = execMmul h z d r0 a pa s := rfl
@[simp] theorem exec_mmulAm (h : Hdr) (z : Bool) (d : AccReg) (r0 : BitVec 6) (src : AccReg) (m : BitVec 7) (s : State) :
    exec (.mmulAm h z d r0 src m) s = execMmulAm h z d r0 src m s := rfl
@[simp] theorem exec_mmulg (h : Hdr) (z : Bool) (d : AccReg) (a : StReg) (b : StReg) (ss : SReg) (g : BitVec 9) (pa : Slot) (pb : Slot) (s : State) :
    exec (.mmulg h z d a b ss g pa pb) s = execMmulg h z d a b ss g pa pb s := rfl
@[simp] theorem exec_mdist (h : Hdr) (z : Bool) (d : AccReg) (r0 : BitVec 6) (a : StReg) (pa : Slot) (s : State) :
    exec (.mdist h z d r0 a pa) s = execMdist h z d r0 a pa s := rfl
@[simp] theorem exec_mtopk (h : Hdr) (l : Bool) (d : VReg) (src : AccReg) (ss : SReg) (k : BitVec 5) (nc : BitVec 7) (s : State) :
    exec (.mtopk h l d src ss k nc) s = execMtopk h l d src ss k nc s := rfl
@[simp] theorem exec_mzero (h : Hdr) (d : AccReg) (s : State) :
    exec (.mzero h d) s = execMzero h d s := rfl
@[simp] theorem exec_mst (h : Hdr) (c : StReg) (src : AccReg) (r0 : BitVec 6) (pc : Slot) (s : State) :
    exec (.mst h c src r0 pc) s = execMst h c src r0 pc s := rfl
@[simp] theorem exec_mlda (h : Hdr) (d : AccReg) (r0 : BitVec 6) (a : StReg) (s : State) :
    exec (.mlda h d r0 a) s = execMlda h d r0 a s := rfl
@[simp] theorem exec_mpub (h : Hdr) (d : AccReg) (n : BitVec 4) (s : State) :
    exec (.mpub h d n) s = execMpub h d n s := rfl
@[simp] theorem exec_settle (h : Hdr) (mask : BitVec 8) (s : State) :
    exec (.settle h mask) s = execSettle h mask s := rfl
@[simp] theorem exec_settleAll (h : Hdr) (s : State) :
    exec (.settleAll h) s = execSettleAll h s := rfl
@[simp] theorem exec_lqry (h : Hdr) (ss : SReg) (src : AccReg) (s : State) :
    exec (.lqry h ss src) s = execLqry h ss src s := rfl
@[simp] theorem exec_lqryT (h : Hdr) (ss : SReg) (t : BitVec 4) (s : State) :
    exec (.lqryT h ss t) s = execLqryT h ss t s := rfl
@[simp] theorem exec_lqryR (h : Hdr) (ss : SReg) (s : State) :
    exec (.lqryR h ss) s = execLqryR h ss s := rfl
@[simp] theorem exec_pload (h : Hdr) (d : SReg) (n : Slot) (a : SReg) (imm : Imm) (s : State) :
    exec (.pload h d n a imm) s = execPload h d n a imm s := rfl
@[simp] theorem exec_psget (h : Hdr) (d : SReg) (n : Slot) (i : BitVec 12) (s : State) :
    exec (.psget h d n i) s = execPsget h d n i s := rfl
@[simp] theorem exec_psset (h : Hdr) (n : Slot) (i : BitVec 12) (a : SReg) (s : State) :
    exec (.psset h n i a) s = execPsset h n i a s := rfl
@[simp] theorem exec_preset (h : Hdr) (n : Slot) (s : State) :
    exec (.preset h n) s = execPreset h n s := rfl
@[simp] theorem exec_pinfo (h : Hdr) (d : SReg) (n : Slot) (s : State) :
    exec (.pinfo h d n) s = execPinfo h d n s := rfl
@[simp] theorem exec_stset (h : Hdr) (n : StReg) (w : BitVec 3) (a : SReg) (s : State) :
    exec (.stset h n w a) s = execStset h n w a s := rfl
@[simp] theorem exec_stget (h : Hdr) (d : SReg) (n : StReg) (w : BitVec 3) (s : State) :
    exec (.stget h d n w) s = execStget h d n w s := rfl
@[simp] theorem exec_stld (h : Hdr) (n : StReg) (a : SReg) (imm : Imm) (s : State) :
    exec (.stld h n a imm) s = execStld h n a imm s := rfl
@[simp] theorem exec_stadv (h : Hdr) (n : StReg) (dim : BitVec 2) (a : SReg) (s : State) :
    exec (.stadv h n dim a) s = execStadv h n dim a s := rfl
@[simp] theorem exec_cpy (h : Hdr) (n : BitVec 2) (a : SReg) (s : State) :
    exec (.cpy h n a) s = execCpy h n a s := rfl
@[simp] theorem exec_renq (h : Hdr) (d : SReg) (a : SReg) (b : SReg) (s : State) :
    exec (.renq h d a b) s = execRenq h d a b s := rfl
@[simp] theorem exec_cstat (h : Hdr) (d : SReg) (c : BitVec 3) (a : SReg) (s : State) :
    exec (.cstat h d c a) s = execCstat h d c a s := rfl
@[simp] theorem exec_srd (h : Hdr) (d : SReg) (r : BitVec 12) (s : State) :
    exec (.srd h d r) s = execSrd h d r s := rfl
@[simp] theorem exec_swr (h : Hdr) (r : BitVec 12) (a : SReg) (s : State) :
    exec (.swr h r a) s = execSwr h r a s := rfl
@[simp] theorem exec_crangeWrite (h : Hdr) (n : BitVec 2) (a : SReg) (s : State) :
    exec (.crangeWrite h n a) s = execCrangeWrite h n a s := rfl
@[simp] theorem exec_lfsrSeed (h : Hdr) (n : BitVec 2) (a : SReg) (s : State) :
    exec (.lfsrSeed h n a) s = execLfsrSeed h n a s := rfl
@[simp] theorem exec_trap (h : Hdr) (code : BitVec 16) (s : State) :
    exec (.trap h code) s = execTrap h code s := rfl
@[simp] theorem exec_brk (h : Hdr) (code : BitVec 16) (s : State) :
    exec (.brk h code) s = execBrk h code s := rfl
@[simp] theorem exec_isync (h : Hdr) (s : State) :
    exec (.isync h) s = execIsync h s := rfl
@[simp] theorem exec_eret (h : Hdr) (s : State) :
    exec (.eret h) s = execEret h s := rfl
@[simp] theorem exec_launch (h : Hdr) (d : SReg) (a : SReg) (b : SReg) (s : State) :
    exec (.launch h d a b) s = execLaunch h d a b s := rfl
@[simp] theorem exec_sliceof (h : Hdr) (d : SReg) (a : SReg) (imm : Imm) (s : State) :
    exec (.sliceof h d a imm) s = execSliceof h d a imm s := rfl
@[simp] theorem exec_nopShort (s : State) :
    exec (.nopShort) s = execNopShort s := rfl
@[simp] theorem exec_movShort (d : BitVec 5) (a : BitVec 5) (s : State) :
    exec (.movShort d a) s = execMovShort d a s := rfl
@[simp] theorem exec_addShort (d : BitVec 5) (a : BitVec 5) (s : State) :
    exec (.addShort d a) s = execAddShort d a s := rfl
@[simp] theorem exec_subShort (d : BitVec 5) (a : BitVec 5) (s : State) :
    exec (.subShort d a) s = execSubShort d a s := rfl
@[simp] theorem exec_andShort (d : BitVec 5) (a : BitVec 5) (s : State) :
    exec (.andShort d a) s = execAndShort d a s := rfl
@[simp] theorem exec_orShort (d : BitVec 5) (a : BitVec 5) (s : State) :
    exec (.orShort d a) s = execOrShort d a s := rfl
@[simp] theorem exec_xorShort (d : BitVec 5) (a : BitVec 5) (s : State) :
    exec (.xorShort d a) s = execXorShort d a s := rfl
@[simp] theorem exec_shlShort (d : BitVec 5) (a : BitVec 5) (s : State) :
    exec (.shlShort d a) s = execShlShort d a s := rfl
@[simp] theorem exec_shrShort (d : BitVec 5) (a : BitVec 5) (s : State) :
    exec (.shrShort d a) s = execShrShort d a s := rfl
@[simp] theorem exec_sarShort (d : BitVec 5) (a : BitVec 5) (s : State) :
    exec (.sarShort d a) s = execSarShort d a s := rfl
@[simp] theorem exec_addImmShort (d : BitVec 5) (i : BitVec 5) (s : State) :
    exec (.addImmShort d i) s = execAddImmShort d i s := rfl
@[simp] theorem exec_moviShort (d : BitVec 5) (i : BitVec 5) (s : State) :
    exec (.moviShort d i) s = execMoviShort d i s := rfl
@[simp] theorem exec_joinShort (s : State) :
    exec (.joinShort) s = execJoinShort s := rfl
@[simp] theorem exec_retShort (s : State) :
    exec (.retShort) s = execRetShort s := rfl
@[simp] theorem exec_instructionFill (num : Nat) (x : StreamId) (s : State) :
    exec (.instructionFill num x) s = execInstructionFill num x s := rfl
@[simp] theorem exec_walkStart (die : Nat) (i : Nat) (s : State) :
    exec (.walkStart die i) s = execWalkStart die i s := rfl
@[simp] theorem exec_walkRequestAged (die : Nat) (i : Nat) (s : State) :
    exec (.walkRequestAged die i) s = execWalkRequestAged die i s := rfl
@[simp] theorem exec_mapWriteEntry (s : State) :
    exec (.mapWriteEntry) s = execMapWriteEntry s := rfl
@[simp] theorem exec_mapMarkersAtHead (s : State) :
    exec (.mapMarkersAtHead) s = execMapMarkersAtHead s := rfl
@[simp] theorem exec_mapCommandDone (s : State) :
    exec (.mapCommandDone) s = execMapCommandDone s := rfl
@[simp] theorem exec_mapFlushAsid (s : State) :
    exec (.mapFlushAsid) s = execMapFlushAsid s := rfl
@[simp] theorem exec_stashFill (num : Nat) (w : Nat) (line : Nat) (s : State) :
    exec (.stashFill num w line) s = execStashFill num w line s := rfl
@[simp] theorem exec_stashRecall (num : Nat) (w : Nat) (line : Nat) (s : State) :
    exec (.stashRecall num w line) s = execStashRecall num w line s := rfl
@[simp] theorem exec_leaseLapse (core : Nat) (i : Nat) (s : State) :
    exec (.leaseLapse core i) s = execLeaseLapse core i s := rfl
@[simp] theorem exec_externalScratchAccess (r : OutReq) (s : State) :
    exec (.externalScratchAccess r) s = execExternalScratchAccess r s := rfl
@[simp] theorem exec_serviceCoreAccess (r : OutReq) (s : State) :
    exec (.serviceCoreAccess r) s = execServiceCoreAccess r s := rfl
@[simp] theorem exec_hostAccess (off : Nat) (r : OutReq) (s : State) :
    exec (.hostAccess off r) s = execHostAccess off r s := rfl
@[simp] theorem exec_fabricPeerAccess (r : OutReq) (s : State) :
    exec (.fabricPeerAccess r) s = execFabricPeerAccess r s := rfl
@[simp] theorem exec_weirEntryProceed (num : Nat) (e : Nat) (s : State) :
    exec (.weirEntryProceed num e) s = execWeirEntryProceed num e s := rfl
@[simp] theorem exec_tideStallRelease (num : Nat) (e : Nat) (s : State) :
    exec (.tideStallRelease num e) s = execTideStallRelease num e s := rfl
@[simp] theorem exec_engineGrant (core : Nat) (u : Engine) (s : State) :
    exec (.engineGrant core u) s = execEngineGrant core u s := rfl
@[simp] theorem exec_engineAging (num : Nat) (e : Nat) (s : State) :
    exec (.engineAging num e) s = execEngineAging num e s := rfl
@[simp] theorem exec_engineOperationComplete (num : Nat) (e : Nat) (s : State) :
    exec (.engineOperationComplete num e) s = execEngineOperationComplete num e s := rfl
@[simp] theorem exec_copyStart (num : Nat) (c : Nat) (s : State) :
    exec (.copyStart num c) s = execCopyStart num c s := rfl
@[simp] theorem exec_copyTemplateElement (num : Nat) (c : Nat) (s : State) :
    exec (.copyTemplateElement num c) s = execCopyTemplateElement num c s := rfl
@[simp] theorem exec_copyComplete (num : Nat) (c : Nat) (s : State) :
    exec (.copyComplete num c) s = execCopyComplete num c s := rfl
@[simp] theorem exec_inboundCommandTake (num : Nat) (s : State) :
    exec (.inboundCommandTake num) s = execInboundCommandTake num s := rfl
@[simp] theorem exec_renqPushAccept (num : Nat) (x : StreamId) (s : State) :
    exec (.renqPushAccept num x) s = execRenqPushAccept num x s := rfl
@[simp] theorem exec_reductionApply (num : Nat) (s : State) :
    exec (.reductionApply num) s = execReductionApply num s := rfl
@[simp] theorem exec_contributionAdd (num : Nat) (t : Nat) (s : State) :
    exec (.contributionAdd num t) s = execContributionAdd num t s := rfl
@[simp] theorem exec_correctionApply (num : Nat) (t : Nat) (s : State) :
    exec (.correctionApply num t) s = execCorrectionApply num t s := rfl
@[simp] theorem exec_lineageSettle (num : Nat) (t : Nat) (s : State) :
    exec (.lineageSettle num t) s = execLineageSettle num t s := rfl
@[simp] theorem exec_basinHoldExpiry (core : Nat) (i : Nat) (s : State) :
    exec (.basinHoldExpiry core i) s = execBasinHoldExpiry core i s := rfl
@[simp] theorem exec_userTrapEntry (num : Nat) (s : State) :
    exec (.userTrapEntry num) s = execUserTrapEntry num s := rfl
@[simp] theorem exec_barrierRecheck (num : Nat) (x : StreamId) (s : State) :
    exec (.barrierRecheck num x) s = execBarrierRecheck num x s := rfl
@[simp] theorem exec_waitfRecheck (num : Nat) (x : StreamId) (s : State) :
    exec (.waitfRecheck num x) s = execWaitfRecheck num x s := rfl
@[simp] theorem exec_jobRetire (num : Nat) (s : State) :
    exec (.jobRetire num) s = execJobRetire num s := rfl
@[simp] theorem exec_dispatcherAdmit (die : Nat) (q : Nat) (p : Place) (s : State) :
    exec (.dispatcherAdmit die q p) s = execDispatcherAdmit die q p s := rfl
@[simp] theorem exec_gangAdmit (die : Nat) (q : Nat) (ps : List Place) (s : State) :
    exec (.gangAdmit die q ps) s = execGangAdmit die q ps s := rfl
@[simp] theorem exec_headAged (die : Nat) (q : Nat) (cores : List Nat) (s : State) :
    exec (.headAged die q cores) s = execHeadAged die q cores s := rfl
@[simp] theorem exec_reservationPreempt (die : Nat) (q : Nat) (s : State) :
    exec (.reservationPreempt die q) s = execReservationPreempt die q s := rfl
@[simp] theorem exec_preempt (num : Nat) (win : Bool) (s : State) :
    exec (.preempt num win) s = execPreempt num win s := rfl
@[simp] theorem exec_readmit (num : Nat) (p : Place) (s : State) :
    exec (.readmit num p) s = execReadmit num p s := rfl
@[simp] theorem exec_jcmdResume (die : Nat) (num : Nat) (s : State) :
    exec (.jcmdResume die num) s = execJcmdResume die num s := rfl
@[simp] theorem exec_jcmdEnd (die : Nat) (num : Nat) (s : State) :
    exec (.jcmdEnd die num) s = execJcmdEnd die num s := rfl
@[simp] theorem exec_jcmdPreempt (die : Nat) (num : Nat) (s : State) :
    exec (.jcmdPreempt die num) s = execJcmdPreempt die num s := rfl
@[simp] theorem exec_jcmdReadmit (die : Nat) (num : Nat) (s : State) :
    exec (.jcmdReadmit die num) s = execJcmdReadmit die num s := rfl
@[simp] theorem exec_lqdWrite (die : Nat) (q : Nat) (w : Nat) (v : Word) (s : State) :
    exec (.lqdWrite die q w v) s = execLqdWrite die q w v s := rfl
@[simp] theorem exec_launchPacket (p : List Byte) (s : State) :
    exec (.launchPacket p) s = execLaunchPacket p s := rfl
@[simp] theorem exec_packageReset (s : State) :
    exec (.packageReset) s = execPackageReset s := rfl
@[simp] theorem exec_bootImageFetched (b : BootImage) (s : State) :
    exec (.bootImageFetched b) s = execBootImageFetched b s := rfl
@[simp] theorem exec_bootRetry (s : State) :
    exec (.bootRetry) s = execBootRetry s := rfl
@[simp] theorem exec_measurementExtend (n : Nat) (x : Digest) (s : State) :
    exec (.measurementExtend n x) s = execMeasurementExtend n x s := rfl
@[simp] theorem exec_attestationReport (nonce : Digest) (s : State) :
    exec (.attestationReport nonce) s = execAttestationReport nonce s := rfl
@[simp] theorem exec_regionWrite (n : Nat) (last : Bool) (v : Word) (sec : Bool) (s : State) :
    exec (.regionWrite n last v sec) s = execRegionWrite n last v sec s := rfl
@[simp] theorem exec_podmapWrite (i : Nat) (v : Word) (sec : Bool) (s : State) :
    exec (.podmapWrite i v sec) s = execPodmapWrite i v sec s := rfl
@[simp] theorem exec_powerGate (b : Block) (s : State) :
    exec (.powerGate b) s = execPowerGate b s := rfl
@[simp] theorem exec_powerWake (b : Block) (s : State) :
    exec (.powerWake b) s = execPowerWake b s := rfl
@[simp] theorem exec_powerThrottle (s : State) :
    exec (.powerThrottle) s = execPowerThrottle s := rfl
@[simp] theorem exec_debugEnable (r : DbgReq) (s : State) :
    exec (.debugEnable r) s = execDebugEnable r s := rfl
@[simp] theorem exec_debugDisable (r : DbgReq) (s : State) :
    exec (.debugDisable r) s = execDebugDisable r s := rfl
@[simp] theorem exec_debugHalt (r : DbgReq) (s : State) :
    exec (.debugHalt r) s = execDebugHalt r s := rfl
@[simp] theorem exec_debugStep (r : DbgReq) (s : State) :
    exec (.debugStep r) s = execDebugStep r s := rfl
@[simp] theorem exec_debugStepDrain (r : DbgReq) (s : State) :
    exec (.debugStepDrain r) s = execDebugStepDrain r s := rfl
@[simp] theorem exec_debugResume (r : DbgReq) (s : State) :
    exec (.debugResume r) s = execDebugResume r s := rfl
@[simp] theorem exec_debugSnapshot (r : DbgReq) (s : State) :
    exec (.debugSnapshot r) s = execDebugSnapshot r s := rfl
@[simp] theorem exec_scheduleCycleStop (r : DbgReq) (s : State) :
    exec (.scheduleCycleStop r) s = execScheduleCycleStop r s := rfl
@[simp] theorem exec_cycleStopReached (core : Nat) (s : State) :
    exec (.cycleStopReached core) s = execCycleStopReached core s := rfl
@[simp] theorem exec_coreResume (r : DbgReq) (s : State) :
    exec (.coreResume r) s = execCoreResume r s := rfl
@[simp] theorem exec_ddataWrite (die : Nat) (v : Word) (s : State) :
    exec (.ddataWrite die v) s = execDdataWrite die v s := rfl
@[simp] theorem exec_registerWrite (r : RegName) (v : Word) (sec : Bool) (s : State) :
    exec (.registerWrite r v sec) s = execRegisterWrite r v sec s := rfl
@[simp] theorem exec_walkComplete (die : Nat) (i : Nat) (s : State) :
    exec (.walkComplete die i) s = execWalkComplete die i s := rfl

end Sys2Proof.Machine
end

