-- ==== Sys2Proof/Laws/Run.lean ====
section
/-! SUPPORT. What `runInstr` and `runEvent` do, said once: the meanings of instructions and events are made of them. -/

namespace Sys2Proof.Machine

/-- A stream that may run the instruction, with the guard holding: the meaning decides. -/
theorem runInstr_of_runs {h : Hdr} {ok : List StreamId} {body : M Flow} {s : State} (r : s.runs h ok) :
    runInstr h ok body s =
      match body s with
      | .ok f t => t.ends h f
      | .error e t => .next (t.stopped (formLen h.form) e) := by
  obtain ⟨r1, r2⟩ := r
  simp only [runInstr, List.contains_eq_mem, r1, r2, decide_true, Bool.not_true, Bool.false_eq_true, if_false]
  cases body s <;> rfl

/-- The meaning comes to its end. -/
theorem runInstr_ends {h : Hdr} {ok : List StreamId} {body : M Flow} {s t : State} {f : Flow} (r : s.runs h ok)
    (b : body s = .ok f t) : runInstr h ok body s = t.ends h f := by rw [runInstr_of_runs r, b]

/-- The guard fails (R160): what an abandoned instruction has kept goes. -/
theorem runInstr_guard {h : Hdr} {ok : List StreamId} {body : M Flow} {s : State} (r : s.cur ∈ ok)
    (g : s.guardOk h.g = false) : runInstr h ok body s = (s.modStr Stream.noRestart).ends h .next := by
  simp [runInstr, r, g, State.ends]

/-- The stream may not run the instruction (R168). -/
theorem runInstr_wrong {h : Hdr} {ok : List StreamId} {body : M Flow} {s : State} (r : s.cur ∉ ok) :
    runInstr h ok body s = .next (s.stopped (formLen h.form) (.fault (FaultInfo.of 0x09))) := by
  simp [runInstr, r]

/-- An instruction always answers a next state. -/
theorem runInstr_next (h : Hdr) (ok : List StreamId) (body : M Flow) (s : State) : ∃ t, runInstr h ok body s = .next t :=
  ⟨_, rfl⟩

theorem scalarTo_of_runs {h : Hdr} {d : SReg} {f : State → Word} {s : State} (r : s.runs h allStreams) :
    scalarTo h d f s = (s.setS d (f s)).ends h .next := runInstr_ends r rfl

theorem predTo_of_runs {h : Hdr} {d : PReg} {f : State → Bool} {s : State} (r : s.runs h allStreams) :
    predTo h d f s = (s.setP d (f s)).ends h .next := runInstr_ends r rfl

/-- The form to cite: what is left to show is the value written. -/
theorem scalarTo_eq {h : Hdr} {d : SReg} {f : State → Word} {s : State} {v : Word} (r : s.runs h allStreams)
    (e : f s = v) : scalarTo h d f s = (s.setS d v).ends h .next := by rw [scalarTo_of_runs r, e]

theorem predTo_eq {h : Hdr} {d : PReg} {f : State → Bool} {s : State} {v : Bool} (r : s.runs h allStreams)
    (e : f s = v) : predTo h d f s = (s.setP d v).ends h .next := by rw [predTo_of_runs r, e]

/-- Every stream is one of the four. -/
theorem mem_allStreams (x : StreamId) : x ∈ allStreams := by cases x <;> decide

/-- The guard of a short form holds, and every stream may run it. -/
theorem runs_short (s : State) : s.runs shortHdr allStreams := ⟨mem_allStreams _, by simp [State.guardOk, shortHdr, State.getP, Stream.getP]⟩

/-- An event that comes to its end. -/
theorem runEvent_ok {body : M Unit} {s t : State} (b : body s = .ok () t) : runEvent body s = .next t := by
  simp [runEvent, b]

/-- An event whose condition does not hold leaves the machine as it is. -/
theorem runEvent_halt {body : M Unit} {s t : State} (b : body s = .error .halt t) : runEvent body s = .next s := by
  simp [runEvent, b]

end Sys2Proof.Machine
end

