-- ==== Sys2Proof/Laws/Keeps.lean ====
section
/-! SUPPORT. Meanings that keep a property of the state, however they end: one rule for each way in which a meaning is
built. -/

namespace Sys2Proof.Machine

variable {P : State → Prop} {α β : Type}

/-- From a state with P, the meaning stops only in states with P, whether it comes to its end, waits or faults. -/
def Keeps (P : State → Prop) (m : M α) : Prop :=
  ∀ s, P s → match m s with | .ok _ t => P t | .error _ t => P t

/-- The outcome is a next state with P. -/
def NextKeeps (P : State → Prop) (o : Host.Outcome State Fault Refusal) : Prop := ∀ t, o = .next t → P t

theorem Keeps.ok {m : M α} (h : Keeps P m) {s t : State} {a : α} (p : P s) (e : m s = .ok a t) : P t := by
  have := h s p; rwa [e] at this

theorem Keeps.error {m : M α} (h : Keeps P m) {s t : State} {x : Halt} (p : P s) (e : m s = .error x t) : P t := by
  have := h s p; rwa [e] at this

theorem Keeps.state {m : M α} (h : Keeps P m) {s : State} (p : P s) : P (m.state s) := by
  have := h s p
  unfold M.state
  cases e : m s <;> rw [e] at this <;> exact this

theorem keeps_pure (a : α) : Keeps P (pure a : M α) := fun _ p => p
theorem keeps_throw (x : Halt) : Keeps P (throw x : M α) := fun _ p => p
theorem keeps_get : Keeps P (get : M State) := fun _ p => p
theorem keeps_set {t : State} (h : P t) : Keeps P (set t : M PUnit) := fun _ _ => h
theorem keeps_modify {f : State → State} (h : ∀ s, P s → P (f s)) : Keeps P (modify f : M PUnit) := fun s p => h s p

theorem keeps_bind {m : M α} {f : α → M β} (h : Keeps P m) (k : ∀ a, Keeps P (f a)) : Keeps P (m >>= f) := by
  intro s p
  have hs := h s p
  show match EStateM.bind m f s with | .ok _ t => P t | .error _ t => P t
  unfold EStateM.bind
  cases e : m s with
  | ok a t => rw [e] at hs; exact k a t hs
  | error x t => rw [e] at hs; exact hs

/-- A meaning that goes on from the state that it has read, which has P. -/
theorem keeps_get_bind {f : State → M β} (k : ∀ s, P s → Keeps P (f s)) : Keeps P (get >>= f) := fun s p => k s p s p

theorem keeps_map {m : M α} {f : α → β} (h : Keeps P m) : Keeps P (f <$> m) := by
  intro s p
  have hs := h s p
  show match EStateM.map f m s with | .ok _ t => P t | .error _ t => P t
  unfold EStateM.map
  cases e : m s <;> rw [e] at hs <;> exact hs

theorem keeps_ite {c : Prop} [Decidable c] {m n : M α} (h : Keeps P m) (k : Keeps P n) : Keeps P (if c then m else n) := by
  split <;> assumption

theorem keeps_unlessWait (b : Bool) (w : WaitObj) : Keeps P (unlessWait b w) := keeps_ite (keeps_pure _) (keeps_throw _)
theorem keeps_faultIf (b : Bool) (f : FaultInfo) : Keeps P (faultIf b f) := keeps_ite (keeps_throw _) (keeps_pure _)
theorem keeps_need (b : Bool) : Keeps P (need b) := keeps_ite (keeps_pure _) (keeps_throw _)

theorem keeps_attempt {m : M α} (h : Keeps P m) : Keeps P (attempt m) := by
  intro s p
  have hs := h s p
  unfold attempt
  cases e : m s with
  | ok a t => rw [e] at hs; exact hs
  | error x t => rw [e] at hs; cases x <;> exact hs

theorem keeps_forM (l : List α) {f : α → M PUnit} (h : ∀ a ∈ l, Keeps P (f a)) : Keeps P (l.forM f) := by
  induction l with
  | nil => exact keeps_pure _
  | cons a l ih => exact keeps_bind (h a (by simp)) fun _ => ih fun b hb => h b (by simp [hb])

theorem keeps_mapM (l : List α) {f : α → M β} (h : ∀ a ∈ l, Keeps P (f a)) : Keeps P (l.mapM f) := by
  induction l with
  | nil => exact keeps_pure _
  | cons a l ih =>
    rw [List.mapM_cons]
    exact keeps_bind (h a (by simp)) fun _ => keeps_bind (ih fun b hb => h b (by simp [hb])) fun _ => keeps_pure _

/-! ## Instructions and events -/

/-- An instruction keeps what its meaning, its going on and its stopping keep. -/
theorem runInstr_keeps {h : Hdr} {ok : List StreamId} {body : M Flow} (b : Keeps P body)
    (go : ∀ s n f, P s → P (State.goOn s n f)) (settle : ∀ s, P s → P (State.settleStep s))
    (stop : ∀ s n e, P s → P (State.stopped s n e)) (drop : ∀ s, P s → P (State.modStr s Stream.noRestart)) {s : State} (p : P s) :
    NextKeeps P (runInstr h ok body s) := by
  intro t e
  have bs := b s p
  simp only [runInstr, Host.Outcome.next.injEq] at e
  subst e
  split
  · exact stop _ _ _ p
  · split
    · exact settle _ (go _ _ _ (drop _ p))
    · cases e : body s with
      | ok f u => rw [e] at bs; exact settle _ (go _ _ _ bs)
      | error x u => rw [e] at bs; exact stop _ _ _ bs

/-- An event keeps what its meaning keeps. -/
theorem runEvent_keeps {body : M Unit} (b : Keeps P body) {s : State} (p : P s) : NextKeeps P (runEvent body s) := by
  intro t e
  have bs := b s p
  unfold runEvent at e
  cases x : body s with
  | ok a u => rw [x] at e bs; cases e; exact bs
  | error y u => rw [x] at e bs; cases y <;> cases e <;> first | exact bs | exact p

/-- Turning the focus keeps what does not tell the jobs apart. -/
theorem keeps_focusOn (h : ∀ s n t, P s → State.focus s n = some t → P t) (num : Nat) : Keeps P (focusOn num) := by
  refine keeps_get_bind fun s p => ?_
  cases e : s.focus num with
  | none => exact keeps_throw _
  | some t => exact keeps_bind (keeps_need _) fun _ => keeps_set (h s num t p e)

end Sys2Proof.Machine
end

