-- ==== Sys2Proof/Laws/MemOk.lean ====
section
/-! SUPPORT. The shared operations keep memory and the homes' logical times in canonical form: one lemma for each. -/

namespace Sys2Proof.Machine

/-! ## Updates that leave memory and the logical times alone -/

section
variable (s : State)

@[simp] theorem memOk_modJob (f : Job → Job) : (s.modJob f).memOk = s.memOk := rfl
@[simp] theorem memOk_setStr (t : Stream) : (s.setStr t).memOk = s.memOk := rfl
@[simp] theorem memOk_modStr (f : Stream → Stream) : (s.modStr f).memOk = s.memOk := rfl
@[simp] theorem memOk_modStrOf (x : StreamId) (f : Stream → Stream) : (s.modStrOf x f).memOk = s.memOk := rfl
@[simp] theorem memOk_setS (r : SReg) (v : Word) : (s.setS r v).memOk = s.memOk := rfl
@[simp] theorem memOk_setP (r : PReg) (v : Bool) : (s.setP r v).memOk = s.memOk := rfl
@[simp] theorem memOk_setLc (r : LcReg) (v : Word) : (s.setLc r v).memOk = s.memOk := rfl
@[simp] theorem memOk_modCore (i : Nat) (f : Core → Core) : (s.modCore i f).memOk = s.memOk := rfl
@[simp] theorem memOk_modDie (i : Nat) (f : Die → Die) : (s.modDie i f).memOk = s.memOk := rfl
@[simp] theorem memOk_modHub (f : Hub → Hub) : (s.modHub f).memOk = s.memOk := rfl
@[simp] theorem memOk_mapJobs (f : Job → Job) : (s.mapJobs f).memOk = s.memOk := rfl
@[simp] theorem memOk_passed : s.passed.memOk = s.memOk := rfl

@[simp] theorem memOk_modJobNum (n : Nat) (f : Job → Job) : (s.modJobNum n f).memOk = s.memOk := by
  unfold State.modJobNum; split <;> rfl
@[simp] theorem memOk_raiseClock (i t : Nat) : (s.raiseClock i t).memOk = s.memOk := by
  unfold State.raiseClock; split <;> rfl
@[simp] theorem memOk_touchL2 (pa cc ev : Nat) (w : Bool) : (s.touchL2 pa cc ev w).memOk = s.memOk := by
  unfold State.touchL2; split <;> rfl
@[simp] theorem memOk_watchWrite (old : Memory) (pa n : Nat) (m : Bool) : (s.watchWrite old pa n m).memOk = s.memOk := by
  simp [State.memOk]
@[simp] theorem memOk_hit (pa k o : Nat) (m : Bool) : (s.hit pa k o m).memOk = s.memOk := by
  simp [State.memOk]
@[simp] theorem memOk_rouse (i : Nat) : (s.rouse i).memOk = s.memOk := by
  unfold State.rouse; split <;> rfl
@[simp] theorem memOk_fenced (scp : Nat) : (s.fenced scp).memOk = s.memOk := rfl
@[simp] theorem memOk_keepCopy (h : How) (pa : Nat) (c : HeldCopy) : (s.keepCopy h pa c).memOk = s.memOk := by
  unfold State.keepCopy; dsimp only; repeat' split
  all_goals rfl
@[simp] theorem memOk_usePeer (h : How) (c : HeldCopy) : (s.usePeer h c).memOk = s.memOk := by
  unfold State.usePeer; dsimp only; split <;> rfl
@[simp] theorem memOk_dropOutside (q : Outsider → Bool) : (s.dropOutside q).memOk = s.memOk := by
  unfold State.dropOutside; split <;> rfl
@[simp] theorem memOk_dropWalkers (die : Nat) (q : Requester → Bool) : (s.dropWalkers die q).memOk = s.memOk := rfl
@[simp] theorem memOk_notify : s.notify.memOk = s.memOk := rfl
@[simp] theorem memOk_trapReturn : s.trapReturn.memOk = s.memOk := rfl
@[simp] theorem memOk_jumpTo (y : Word) : (s.jumpTo y).memOk = s.memOk := rfl

@[simp] theorem memOk_requestWalk (j : Job) (va : Nat) : (s.requestWalk j va).memOk = s.memOk := by
  unfold State.requestWalk; dsimp only; repeat' split
  all_goals rfl

@[simp] theorem memOk_advance (n : Nat) : (s.advance n).memOk = s.memOk := by
  unfold State.advance; dsimp only; split
  · rfl
  · split <;> rfl

@[simp] theorem memOk_goOn (n : Nat) (f : Flow) : (s.goOn n f).memOk = s.memOk := by
  cases f <;> simp [State.goOn]

end

/-- Folding an update that keeps canonical form keeps it. -/
theorem memOk_foldl {α : Type} (f : State → α → State) (h : ∀ s a, s.memOk → (f s a).memOk) (l : List α) {s : State}
    (p : s.memOk) : (l.foldl f s).memOk := by
  induction l generalizing s with
  | nil => exact p
  | cons a l ih => exact ih (h s a p)

theorem memOk_foldl_eq {α : Type} (f : State → α → State) (h : ∀ s a, (f s a).memOk = s.memOk) (l : List α) (s : State) :
    (l.foldl f s).memOk = s.memOk := by
  induction l generalizing s with
  | nil => rfl
  | cons a l ih => exact (ih _).trans (h s a)

@[simp] theorem memOk_tell (s : State) (q : Job → StreamId → WaitObj → Bool) (e : Ender) : (s.tell q e).memOk = s.memOk := by
  unfold State.tell
  dsimp only
  split
  · rfl
  · exact (memOk_foldl_eq _ (fun s j => memOk_rouse s _) _ _).trans (memOk_mapJobs s _)
@[simp] theorem memOk_tellOwn (s : State) (q : WaitObj → Bool) (e : Ender) : (s.tellOwn q e).memOk = s.memOk := memOk_tell ..
@[simp] theorem memOk_tellWord (s : State) (pa n : Nat) (e : Ender) : (s.tellWord pa n e).memOk = s.memOk := memOk_tell ..
@[simp] theorem memOk_tellEntry (s : State) (i : Nat) : (s.tellEntry i).memOk = s.memOk := by
  unfold State.tellEntry; split <;> [rfl; exact memOk_tell ..]
@[simp] theorem memOk_endDrains (s : State) : s.endDrains.memOk = s.memOk := by
  unfold State.endDrains; split <;> rfl

/-- What the focus is turned to is the same machine. -/
theorem memOk_focus {s t : State} {n : Nat} (p : s.memOk) (e : s.focus n = some t) : t.memOk := by
  unfold State.focus at e
  split at e
  · cases e; exact p
  · cases q : takeOut (fun j : Job => j.present && j.num == n) s.rest <;> rw [q] at e <;> cases e
    exact p

/-! ## Homes -/

theorem memOk_writeMem {s : State} (p : s.memOk) (a : Nat) (bs : List Byte) :
    ({ s with mem := s.mem.writeMany a bs } : State).memOk := ⟨Memory.wf_writeMany p.1 a bs, p.2⟩

theorem memOk_homeWriteBy {s : State} (p : s.memOk) (mine : Bool) (pa : Nat) (bs : List Byte) (c : Nat) :
    (s.homeWriteBy mine pa bs c).1.memOk := by
  unfold State.homeWriteBy
  dsimp only
  rw [memOk_watchWrite]
  exact ⟨Memory.wf_writeMany p.1 pa bs, Cells.wf_set p.2.1 _ _, Cells.wf_set p.2.2 _ _⟩

theorem memOk_readMark {s : State} (p : s.memOk) (l c : Nat) : (s.readMark l c).memOk := ⟨p.1, p.2.1, Cells.wf_set p.2.2 _ _⟩

theorem memOk_observe {s : State} (p : s.memOk) (core pa n : Nat) : (s.observe core pa n).memOk :=
  memOk_foldl _ (fun s i q => memOk_readMark (by rwa [memOk_raiseClock]) _ _) _ p

theorem memOk_homeWrite {s : State} (p : s.memOk) (pa : Nat) (bs : List Byte) (c : Nat) : (s.homeWrite pa bs c).1.memOk :=
  memOk_homeWriteBy p _ _ _ _

theorem memOk_grantLease {s : State} (p : s.memOk) (l c : Nat) : (s.grantLease l c).1.memOk :=
  ⟨p.1, p.2.1, Cells.wf_set p.2.2 _ _⟩

theorem memOk_storeBy {s : State} (p : s.memOk) (mine : Bool) (k pa : Nat) (bs : List Byte) (cc ev : Nat) :
    (s.storeBy mine k pa bs cc ev).memOk := by
  unfold State.storeBy
  dsimp only
  split <;> simpa using memOk_homeWriteBy p mine pa bs _

theorem memOk_performPosted {s : State} (p : s.memOk) (q : Posted) : (s.performPosted q).memOk := by
  unfold State.performPosted
  split
  · exact memOk_storeBy p _ _ _ _ _ _
  · exact memOk_homeWrite p _ _ _

theorem memOk_flushPosted {s : State} (p : s.memOk) (l : Nat) : (s.flushPosted l).memOk := by
  unfold State.flushPosted
  dsimp only
  split
  · exact p
  · exact memOk_foldl _ (fun s q h => memOk_performPosted h q) _ p

theorem memOk_writeBack {s : State} (p : s.memOk) (n : Nat) (l : StashLine) : (s.writeBack n l).memOk := by
  unfold State.writeBack
  split
  · exact p
  · refine memOk_flushPosted ?_ _
    simp only [memOk_modJobNum, memOk_raiseClock, memOk_touchL2]
    exact memOk_grantLease (memOk_homeWrite p _ _ _) _ _

theorem memOk_storeAt {s : State} (p : s.memOk) (k pa : Nat) (bs : List Byte) (cc ev : Nat) :
    (s.storeAt k pa bs cc ev).memOk := memOk_storeBy p _ _ _ _ _ _

/-- Bytes written in place, with the times of their lines. -/
theorem memOk_stamp {s : State} (p : s.memOk) (core pa n : Nat) : (s.stamp core pa n).memOk := by
  unfold State.stamp
  refine memOk_foldl _ (fun s a q => ?_) _ p
  rw [memOk_raiseClock]
  exact ⟨q.1, Cells.wf_set q.2.1 _ _, Cells.wf_set q.2.2 _ _⟩

theorem memOk_raiseScope {s : State} (p : s.memOk) (scp core t : Nat) : (s.raiseScope scp core t).memOk := by
  unfold State.raiseScope
  split
  · simpa using p
  · refine memOk_foldl _ (fun s a q => ?_) _ p
    split
    · simpa using q
    · exact q

theorem memOk_performLeft {s : State} (p : s.memOk) (j : Job) (x : StreamId) (q : Pending) :
    (s.performLeft j x q).memOk := by
  unfold State.performLeft
  dsimp only
  rw [memOk_modJobNum]
  exact memOk_raiseScope (by rw [memOk_tellWord]; exact memOk_storeBy p _ _ _ _ _ _) _ _ _

@[simp] theorem memOk_outOfService (s : State) (b : BadUnit) : (s.outOfService b).memOk = s.memOk := by
  unfold State.outOfService; split
  · rfl
  · split <;> rfl

theorem keeps_probe (pa n : Nat) : Keeps State.memOk (probe pa n) := by
  refine keeps_get_bind fun s p => ?_
  split
  · exact keeps_pure _
  · exact keeps_bind (keeps_set (by simpa using p)) fun _ => keeps_throw _

theorem keeps_tagged {α : Type} {m : M α} (h : Keeps State.memOk m) (k va : Nat) : Keeps State.memOk (tagged k va m) := by
  intro s p
  have hs := h s p
  unfold tagged
  cases e : m s with
  | ok a t => rw [e] at hs; exact hs
  | error x t => rw [e] at hs; cases x <;> exact hs

theorem keeps_outsideStay (num : Nat) (who : Outsider) (ks : Keys) (o : WaitObj) :
    Keeps State.memOk (outsideStay num who ks o) := by
  refine keeps_get_bind fun s p => ?_
  split
  · exact keeps_bind (keeps_set (by simpa using p)) fun _ => keeps_throw _
  · exact keeps_throw _

theorem keeps_outsideLeave (num : Nat) (who : Outsider) (ks : Keys) : Keeps State.memOk (outsideLeave num who ks) :=
  keeps_modify fun _ p => by simpa using p

theorem keeps_dropOutside (q : Outsider → Bool) : Keeps State.memOk (modify fun (t : State) => t.dropOutside q : M PUnit) :=
  keeps_modify fun _ p => by simpa using p

/-- An access from outside waits in the owner's Weir, or goes on. -/
theorem keeps_outsideWait (who : Outsider) (q : Nat → Entry → Bool) (r : Region) (n : Nat) (w k : Bool) :
    Keeps State.memOk (outsideWait who q r n w k) := by
  refine keeps_get_bind fun s p => ?_
  repeat' first
    | exact keeps_throw _
    | exact keeps_pure _
    | exact keeps_outsideStay _ _ _ _
    | exact keeps_outsideLeave _ _ _
    | refine keeps_bind (keeps_set (by simpa using p)) fun _ => ?_
    | split
    | dsimp only

theorem keeps_backWait (q : Nat → Entry → Bool) (j : Job) (l : StashLine) : Keeps State.memOk (backWait q j l) :=
  keeps_get_bind fun _ _ => keeps_outsideWait _ _ _ _ _ _

theorem keeps_backClear (j : Job) (l : StashLine) : Keeps State.memOk (backClear j l) :=
  keeps_get_bind fun _ _ => keeps_backWait _ _ _

theorem keeps_recallLine (pa : Nat) : Keeps State.memOk (recallLine pa) := by
  refine keeps_get_bind fun s p => ?_
  split
  · exact keeps_pure _
  · refine keeps_ite (keeps_throw _) (keeps_bind (keeps_backClear _ _) fun _ =>
      keeps_bind (keeps_tagged (keeps_probe _ _) _ _) fun _ => keeps_modify fun s p => memOk_writeBack p _ _)

/-! ## Stores by the hardware -/

theorem keeps_tryStore (q : Posted) : Keeps State.memOk (tryStore q) := by
  refine keeps_get_bind fun s _ => keeps_bind (keeps_outsideWait _ _ _ _ _ _) fun _ =>
    keeps_bind (keeps_attempt (keeps_recallLine _)) fun r => ?_
  have e : Keeps State.memOk (do
      outsideWait (.hw q) (fun _ _ => false) (regionOf s.hub.pos.toNat q.pa) q.bytes.length true false
      modify fun s => s.performPosted q) :=
    keeps_bind (keeps_outsideWait _ _ _ _ _ _) fun _ => keeps_modify fun _ p => memOk_performPosted p _
  cases r with
  | ok => exact e
  | error =>
    refine keeps_bind (keeps_modify fun s p => ?_) fun _ => e
    split
    · exact memOk_writeBack p _ _
    · exact p

theorem memOk_hardStore {s : State} (p : s.memOk) (q : Posted) : (s.hardStore q).memOk := by
  have h := keeps_tryStore q s p
  unfold State.hardStore
  dsimp only
  split
  · exact p
  · split <;> rename_i e <;> rw [e] at h <;> exact h

theorem memOk_postGo {s : State} (p : s.memOk) (ls : List Nat) (qs : List Posted) : (s.postGo ls qs).memOk := by
  induction qs generalizing s ls with
  | nil => exact p
  | cons q r ih =>
    unfold State.postGo
    split
    · exact ih p _
    · have h := keeps_tryStore q { s with posted := s.posted.erase q } p
      split <;> rename_i e <;> rw [e] at h
      · exact h
      · refine ih ?_ _
        exact h

/-- Stores left behind that an access meets are performed before it. -/
theorem keeps_callFor (b : Agent) (q clock pa n : Nat) : Keeps State.memOk (callFor b q clock pa n) := by
  refine keeps_get_bind fun s _ => ?_
  split
  · exact keeps_pure _
  · exact keeps_bind (keeps_forM _ fun _ _ => keeps_recallLine _) fun _ => keeps_modify fun s p =>
      memOk_foldl _ (fun s a q => memOk_performLeft q a.1 a.2.1 a.2.2) _ p

theorem keeps_callIn (scp pa n : Nat) : Keeps State.memOk (callIn scp pa n) :=
  keeps_get_bind fun _ _ => keeps_callFor _ _ _ _ _

theorem keeps_homeLoad (h : How) (pa n : Nat) : Keeps State.memOk (homeLoad h pa n) := by
  refine keeps_bind (keeps_callIn _ _ _) fun _ => keeps_bind (keeps_recallLine pa) fun _ =>
    keeps_bind (keeps_probe _ _) fun _ => keeps_get_bind fun s p => ?_
  have q : ((s.raiseClock s.job.coreIx (s.wtsAt (lineOf pa))).touchL2 pa h.cc h.ev false).memOk := by simpa using p
  dsimp only
  refine keeps_ite ?_ (keeps_bind (keeps_set (memOk_readMark q _ _)) fun _ => keeps_pure _)
  refine keeps_bind (keeps_set ?_) fun _ => keeps_pure _
  split
  · exact memOk_grantLease q _ _
  · rw [memOk_keepCopy]
    exact memOk_grantLease q _ _

theorem keeps_load (h : How) (pa n : Nat) : Keeps State.memOk (load h pa n) := by
  refine keeps_bind (keeps_callIn _ _ _) fun _ => keeps_get_bind fun s p => ?_
  dsimp only
  refine keeps_ite (keeps_homeLoad _ _ _) ?_
  split
  · exact keeps_bind (keeps_set (by simpa using p)) fun _ => keeps_pure _
  · exact keeps_bind (keeps_set (by simpa using p)) fun _ => keeps_pure _
  · exact keeps_homeLoad _ _ _

theorem keeps_store (h : How) (pa : Nat) (bs : List Byte) : Keeps State.memOk (store h pa bs) :=
  keeps_bind (keeps_callIn _ _ _) fun _ => keeps_bind (keeps_recallLine pa) fun _ =>
    keeps_modify fun _ p => by rw [memOk_tellWord]; exact memOk_storeAt p _ _ _ _ _

theorem keeps_atomic (h : How) (pa n : Nat) (f : Nat → Option Nat) : Keeps State.memOk (atomic h pa n f) := by
  refine keeps_bind (keeps_callIn _ _ _) fun _ => keeps_bind (keeps_recallLine pa) fun _ =>
    keeps_bind (keeps_probe _ _) fun _ => keeps_get_bind fun s p => ?_
  have q : ((s.raiseClock s.job.coreIx (s.wtsAt (lineOf pa))).touchL2 pa h.cc h.ev false).memOk := by simpa using p
  dsimp only
  split
  · exact keeps_bind (keeps_set (by rw [memOk_tellWord]; exact memOk_storeAt q _ _ _ _ _)) fun _ => keeps_pure _
  · exact keeps_bind (keeps_set (memOk_readMark q _ _)) fun _ => keeps_pure _

theorem keeps_performAll (ps : List Pending) : Keeps State.memOk (performAll ps) := by
  induction ps with
  | nil => exact keeps_pure _
  | cons q ps ih =>
    refine keeps_bind (keeps_store _ _ _) fun _ => keeps_bind (keeps_modify fun _ p => ?_) fun _ => ih
    dsimp only
    rw [memOk_modStr]
    split
    · exact memOk_raiseScope p _ _ _
    · exact p

theorem keeps_drain : Keeps State.memOk drain := keeps_get_bind fun _ _ => keeps_performAll _

theorem keeps_fenceAt (scp : Nat) : Keeps State.memOk (fenceAt scp) :=
  keeps_bind (keeps_modify fun _ p => p) fun _ => keeps_bind keeps_drain fun _ => keeps_modify fun _ p => p

theorem keeps_orderScope (scp : Nat) : Keeps State.memOk (orderScope scp) := by
  refine keeps_get_bind fun s p => ?_
  dsimp only
  split
  · exact keeps_drain
  · exact keeps_ite keeps_drain (keeps_bind (keeps_set (by simpa using p)) fun _ => keeps_performAll _)

theorem keeps_drainMeeting (pa n : Nat) : Keeps State.memOk (drainMeeting pa n) :=
  keeps_get_bind fun _ _ => keeps_ite keeps_drain (keeps_pure _)

/-! ## Waits and faults -/

theorem memOk_putLog {s : State} (p : s.memOk) (x : StreamId) (w : Wait) (y : Nat) : (s.putLog x w y).memOk := by
  unfold State.putLog
  dsimp only
  split
  · exact p
  · split
    · exact p
    · simp only [memOk_modDie]
      split
      · exact memOk_hardStore p _
      · exact p

theorem memOk_endWait {s : State} (p : s.memOk) (x : StreamId) (y : Nat) : (s.endWait x y).memOk := by
  unfold State.endWait State.logWait
  split
  · exact p
  · simp only [memOk_modStrOf]
    split
    · exact p
    · exact memOk_putLog p _ _ _

theorem memOk_beginWait {s : State} (p : s.memOk) (o : WaitObj) : (s.beginWait o).memOk := by
  unfold State.beginWait
  split
  · exact p
  · split
    · exact p
    · simpa using memOk_endWait p _ _

theorem memOk_served {s : State} (p : s.memOk) (x : StreamId) : (s.served x).memOk := by
  unfold State.served
  split
  · dsimp only
    split
    · rename_i n len _ _ _
      let m := vget ⟨0, 0xFFFF, []⟩ s.job.sem n
      let u : State := { s.modJob fun j =>
        { j with sem := vset j.sem n { m with waiters := m.waiters.filter fun w => w.1 != x } } with cur := x }
      show ((u.endWait x 0).advance len).memOk
      rw [memOk_advance]
      exact memOk_endWait (s := u) p x 0
    · exact p
  · exact p

theorem memOk_abandon {s : State} (p : s.memOk) (x : StreamId) (k : Bool) : (s.abandon x k).memOk := by
  unfold State.abandon
  dsimp only
  split <;> simpa using memOk_endWait (memOk_served p x) x 1

theorem memOk_hwStore {s : State} (p : s.memOk) (va : Nat) (bs : List Byte) : (s.hwStore va bs).1.memOk := by
  unfold State.hwStore
  split
  · exact p
  · exact memOk_hardStore p _

theorem memOk_hwState {s : State} (p : s.memOk) (q st : Nat) : (s.hwState q st).memOk := memOk_hwStore p _ _

theorem memOk_release {s : State} (p : s.memOk) (q : Nat) : (s.release q).memOk := memOk_hwState p _ _

theorem memOk_trapEntry {s : State} (p : s.memOk) (x : StreamId) (c d q : Nat) : (s.trapEntry x c d q).memOk :=
  memOk_abandon p _ _

theorem memOk_holdStream {s : State} (p : s.memOk) (x : StreamId) (q : Nat) : (s.holdStream x q).memOk := by
  unfold State.holdStream
  split
  · exact p
  · exact memOk_endWait p _ _

theorem memOk_holdFor {s : State} (p : s.memOk) (f : FaultInfo) (h : Held) (a b : Bool) (q : Nat) :
    (s.holdFor f h a b q).memOk := by
  unfold State.holdFor
  split
  · split
    · exact p
    · exact memOk_holdStream p _ _
  · dsimp only
    split
    · exact memOk_holdStream (by simpa using p) _ _
    · simpa using p
  · split
    · exact memOk_holdStream p _ _
    · exact p

theorem memOk_sendFault {s : State} (p : s.memOk) (f : FaultInfo) (a b : Bool) (q : Nat) : (s.sendFault f a b q).memOk := by
  unfold State.sendFault
  split
  · simpa using p
  · split
    · exact memOk_trapEntry p _ _ _ _
    · exact p

theorem memOk_takeFault {s : State} (p : s.memOk) (f : FaultInfo) (h : Held) : (s.takeFault f h).memOk :=
  memOk_sendFault (memOk_holdFor (by rw [memOk_modJob]; exact memOk_hwStore p _ _) _ _ _ _ _) _ _ _ _

theorem memOk_settleStep {s : State} (p : s.memOk) : s.settleStep.memOk := by
  unfold State.settleStep
  have := memOk_endWait p s.cur 0
  dsimp only
  split <;> simpa using this

theorem memOk_stopped {s : State} (p : s.memOk) (n : Nat) (e : Halt) : (s.stopped n e).memOk := by
  cases e with
  | wait o => exact memOk_beginWait p o
  | fault f => exact memOk_settleStep (memOk_takeFault (by simpa using memOk_endWait p _ _) _ _)
  | after f => exact memOk_settleStep (memOk_takeFault (by simpa using memOk_endWait p _ _) _ _)
  | halt =>
    show ((s.advance n).settleStep.modStr _).memOk
    simpa using memOk_settleStep (s := s.advance n) (by simpa using p)

/-- An instruction whose meaning keeps canonical form keeps it. -/
theorem runInstr_memOk {h : Hdr} {ok : List StreamId} {body : M Flow} (b : Keeps State.memOk body) {s : State}
    (p : s.memOk) : NextKeeps State.memOk (runInstr h ok body s) :=
  runInstr_keeps b (fun _ _ _ q => by simpa using q) (fun _ q => memOk_settleStep q) (fun _ _ _ q => memOk_stopped q _ _)
    (fun _ q => q) p

theorem keeps_focusOn_memOk (n : Nat) : Keeps State.memOk (focusOn n) := keeps_focusOn (fun _ _ _ p e => memOk_focus p e) n

/-! ## Translation -/

theorem keeps_xlate (need : Need) (k va n : Nat) : Keeps State.memOk (xlate need k va n) := by
  refine keeps_get_bind fun s p => ?_
  have q (t : State) (x : Halt) (h : t.memOk) : Keeps State.memOk (do set t; throw x : M Xl) :=
    keeps_bind (keeps_set h) fun _ => keeps_throw _
  dsimp only
  split
  · exact keeps_throw _
  · split
    · have c (t : Tlb) : Keeps State.memOk (match checkLeaf s s.job.ctx need va n t.level t.leaf with
          | .ok x => pure x
          | .error f => throw (.fault (TFault.info f k)) : M Xl) := by
        split
        · exact keeps_pure _
        · exact keeps_throw _
      split
      · exact keeps_bind (keeps_set (by simpa using p)) fun _ => c _
      · exact c _
    · split
      · exact q _ _ (by simpa using p)
      · exact q _ _ (by simpa using p)

end Sys2Proof.Machine
end

