-- ==== Sys2Proof/Laws/MemOkSave.lean ====
section
/-! SUPPORT. Saving a job's context and its window keeps memory and the homes' logical times in canonical form. -/

namespace Sys2Proof.Machine

/-- Bytes written one by one into a table in canonical form. -/
theorem wf_writes (bytes : Cells Byte) (pa : Nat) {m : Memory} (h : m.wf = true) :
    Memory.wf (bytes.foldl (fun m e => m.write (pa + e.1) e.2) m) = true := by
  induction bytes generalizing m with
  | nil => exact h
  | cons e r ih => exact ih (Memory.wf_write h _ _)

theorem wf_windowBytes (j : Job) : Memory.wf j.windowBytes = true := by
  have := wf_writes j.windowSave 0 (m := []) rfl
  simpa [Job.windowBytes] using this

/-- The bytes of a save area are in canonical form. -/
theorem wf_areaBytes (j : Job) (cycle : Nat) : Cells.wf Memory.blank (j.areaBytes cycle) = true := by
  have sections (l : List (Nat × Nat)) (g : Nat → Nat → List Byte) : ∀ c : Cells Byte, Cells.wf Memory.blank c = true →
      Cells.wf Memory.blank
        (l.foldl (fun c x => Cells.graft c x.1 (x.1 + x.2) (Cells.of Memory.blank 0 (g x.1 x.2))) c) = true := by
    induction l with
    | nil => exact fun c h => h
    | cons x r ih => exact fun c h => ih _ (Cells.wf_graft h (Cells.wf_of _ _) _ _ (by omega))
  unfold Job.areaBytes
  exact sections _ (fun o n => (List.range n).map fun i => Config.savedByte cycle (o + i)) _ (Cells.wf_of _ _)

/-- A table that gives n keys one value that is not the default. -/
theorem wf_const (n t : Nat) (h : t ≠ 0) : Cells.wf 0 ((List.range n).map fun i => (i, t)) = true := by
  rw [Cells.wf_iff]
  refine ⟨List.pairwise_map.2 List.pairwise_lt_range, fun e he => ?_⟩
  obtain ⟨i, -, rfl⟩ := List.mem_map.1 he
  exact h

theorem memOk_stampRun {s : State} (p : s.memOk) (core pa n : Nat) : (s.stampRun core pa n).memOk := by
  have k (old : Nat) := wf_const ((pa + n + 255) / 256 - pa / 256) (Nat.max (old + 1) (s.clock core))
    (by have := Nat.le_max_left (old + 1) (s.clock core); show max _ _ ≠ 0; omega)
  unfold State.stampRun
  dsimp only
  rw [memOk_raiseClock]
  exact ⟨p.1, Cells.wf_graft p.2.1 (k _) _ _ (by omega), Cells.wf_graft p.2.2 (k _) _ _ (by omega)⟩

theorem memOk_putRun {s : State} (p : s.memOk) (core pa n : Nat) {c : Cells Byte} (h : Cells.wf Memory.blank c = true) :
    (s.putRun core pa n c).memOk := by
  unfold State.putRun
  dsimp only
  have q := memOk_foldl (fun s l => (recallLine (l * 256)).state s) (fun _ l q => (keeps_recallLine (l * 256)).state q) (s.dirtyIn pa n) p
  generalize (s.dirtyIn pa n).foldl (fun s l => (recallLine (l * 256)).state s) s = t at q
  show State.memOk (State.watchWrite _ _ _ _ _)
  rw [memOk_watchWrite]
  exact memOk_stampRun (s := { t with mem := Cells.graft t.mem pa (pa + n) c })
    ⟨Cells.wf_graft q.1 h _ _ (by omega), q.2⟩ _ _ _

/-- The entries of a table from a to b - 1, as offsets from a. -/
theorem wf_between {c : Cells Byte} (h : Cells.wf Memory.blank c = true) (a b : Nat) :
    Cells.wf Memory.blank ((c.filter fun e => decide (a ≤ e.1) && decide (e.1 < b)).map fun e => (e.1 - a, e.2)) = true := by
  rw [← List.filter_filter]
  exact Cells.wf_shift (Cells.wfFrom_filter _ h) a

theorem memOk_putArea {s : State} (p : s.memOk) (core pa lo hi : Nat) {c : Cells Byte} (h : Cells.wf Memory.blank c = true) :
    (s.putArea core pa lo hi c).memOk := by
  unfold State.putArea
  refine memOk_foldl _ (fun s f q => ?_) _ p
  dsimp only
  split
  · exact memOk_putRun q _ _ _ (wf_between h _ _)
  · exact q

theorem memOk_putWindow {s : State} (p : s.memOk) (j : Job) : (s.putWindow j).memOk := by
  unfold State.putWindow
  split
  · exact p
  · have h := Cells.wf_graft (Cells.wf_of (d := Memory.blank) 128 (leList 8 ((sectionStarts (j.sections true)).getD 8 0) ++
      leList 8 j.window)) (wf_windowBytes j) ((sectionStarts (j.sections true)).getD 8 0)
      ((sectionStarts (j.sections true)).getD 8 0 + j.window) (by omega)
    exact memOk_putArea (memOk_putArea p _ _ _ _ h) _ _ _ _ h

theorem memOk_windowLoss {s : State} (p : s.memOk) (num pa n : Nat) : (s.windowLoss num pa n).memOk := by
  have atJob (s : State) (num : Nat) (f : State → State) (q : s.memOk) (k : ∀ t, t.memOk → (f t).memOk) :
      (s.atJob num f).memOk := by
    unfold State.atJob
    cases e : s.focus num with
    | none => exact q
    | some t => exact k t (memOk_focus q e)
  unfold State.windowLoss
  dsimp only
  split
  · exact p
  · refine atJob _ _ _ (memOk_foldl _ (fun s b q => ?_) _ p) fun _ h => h
    exact atJob _ _ _ (by simpa using q) fun _ h => memOk_takeFault h _ _

theorem memOk_saveWindow {s : State} (p : s.memOk) (num : Nat) : (s.saveWindow num).memOk := by
  unfold State.saveWindow
  split
  · exact p
  · split
    · exact p
    · dsimp only
      rename_i j _ _
      have h := memOk_windowLoss (memOk_foldl _ (fun s l q => memOk_writeBack q num l)
        (j.lines.filter fun l => l.dirty && !j.stashProv l) p) num
      split
      · exact memOk_putWindow (by rw [memOk_modJobNum]; exact h _ _) _
      · rw [memOk_modJobNum]
        exact h _ _

/-- Space that is given to another job is zeroed (R50). -/
theorem memOk_clearSpace {s : State} (p : s.memOk) (i lo hi : Nat) : (s.clearSpace i lo hi).memOk := by
  have q := memOk_foldl (fun s (j : Job) => s.saveWindow j.num) (fun s j q => memOk_saveWindow q j.num)
    (s.jobs.filter fun j => j.leftOn i lo hi) p
  exact ⟨Cells.wf_clear q.1 _ _, q.2⟩

theorem memOk_preempted {s : State} (p : s.memOk) (num res : Nat) : (s.preempted num res).memOk := p

end Sys2Proof.Machine
end

