-- ==== Sys2Proof/Laws/MemOkWeir.lean ====
section
/-! SUPPORT. The Weir's holds and the accesses made through the window and by virtual address keep memory and the homes'
logical times in canonical form: one lemma for each. -/

namespace Sys2Proof.Machine

/-- Bytes written to memory beside a change of the job in focus. -/
theorem memOk_windowBytes {s : State} (p : s.memOk) (a : Nat) (bs : List Byte) (j : Job) :
    ({ s with mem := s.mem.writeMany a bs, job := j } : State).memOk := memOk_writeMem p a bs

/-! ## Weir holds -/

theorem keeps_enter (k : EntryKind) (ks : Keys) (b : Bool) : Keeps State.memOk (enter k ks b) :=
  keeps_get_bind fun _ p => keeps_bind (keeps_set (by simpa using p)) fun _ => keeps_pure _

theorem keeps_waitOrder (id : Nat) (ks : Keys) : Keeps State.memOk (waitOrder id ks) := by
  refine keeps_get_bind fun s _ => ?_
  split
  · exact keeps_throw _
  · exact keeps_pure _

theorem keeps_takePlace (ks : Keys) : Keeps State.memOk (takePlace ks) := by
  refine keeps_get_bind fun s _ => ?_
  split
  · exact keeps_pure _
  · exact keeps_bind (keeps_unlessWait _ _) fun _ => keeps_enter _ _ _

theorem keeps_leavePlace : Keeps State.memOk leavePlace := keeps_modify fun s p => by
  dsimp only
  rw [memOk_modJob]
  split
  · rw [memOk_tellEntry]; exact p
  · exact p

theorem keeps_waitClear (ks : Keys) : Keeps State.memOk (waitClear ks) := by
  refine keeps_get_bind fun s _ => ?_
  split
  · exact keeps_throw _
  · exact keeps_faultIf _ _

theorem keeps_settledFor (id lo hi : Nat) : Keeps State.memOk (settledFor id lo hi) := by
  refine keeps_get_bind fun s _ => ?_
  dsimp only
  split
  · exact keeps_throw _
  · exact keeps_pure _

theorem keeps_settledBytes (lo hi : Nat) : Keeps State.memOk (settledBytes lo hi) := by
  refine keeps_get_bind fun s _ => ?_
  dsimp only
  split
  · exact keeps_throw _
  · exact keeps_pure _

theorem keeps_waitTide (x : List Nat) (off n : Nat) : Keeps State.memOk (waitTide x off n) := by
  refine keeps_get_bind fun s _ => ?_
  split
  · exact keeps_throw _
  · exact keeps_pure _

theorem keeps_scratchHold (off n : Nat) (rd wr : Bool) : Keeps State.memOk (scratchHold off n rd wr) :=
  keeps_bind (keeps_takePlace _) fun _ => keeps_bind (keeps_waitTide _ _ _) fun _ =>
    keeps_bind (keeps_waitOrder _ _) fun _ => keeps_settledFor _ _ _

theorem keeps_outsideHold (o : Option Nat) (r : Region) (n : Nat) (w k : Bool) :
    Keeps State.memOk (outsideHold o r n w k) := keeps_get_bind fun _ _ => keeps_outsideWait _ _ _ _ _ _

theorem keeps_outsideClear (o : Option Nat) (r : Region) (n : Nat) (w : Bool) :
    Keeps State.memOk (outsideClear o r n w) := keeps_outsideHold _ _ _ _ _

/-! ## Stash lines -/

theorem keeps_fillLine (w line : Nat) : Keeps State.memOk (fillLine w line) := by
  refine keeps_get_bind fun s _ => ?_
  exact keeps_bind (keeps_settledBytes _ _) fun _ => keeps_bind (keeps_xlate _ _ _ _) fun x =>
    keeps_bind (keeps_outsideClear _ _ _ _) fun _ => keeps_bind (keeps_tagged (keeps_homeLoad _ _ _) _ _) fun bs =>
    keeps_get_bind fun t p => keeps_set (memOk_windowBytes p _ _ _)

/-- Taking ownership of a stash line. -/
theorem keeps_ownLine (w line : Nat) (x : Xl) : Keeps State.memOk (ownLine w line x) :=
  keeps_bind (keeps_callIn _ _ _) fun _ => keeps_bind (keeps_recallLine _) fun _ => keeps_modify fun s p =>
    (memOk_raiseClock s s.job.coreIx (Nat.max (s.ltsAt (lineOf x.pa) + 1) (s.clock s.job.coreIx))).symm ▸ p

theorem keeps_touchStash (off n : Nat) (how : Touch) : Keeps State.memOk (touchStash off n how) := by
  refine keeps_get_bind fun s p => ?_
  have o (nd : Need) (k va len w line : Nat) (b : Bool) : Keeps State.memOk (do
      let x ← xlate nd k va len
      outsideHold none x.region 256 true b
      if how = .write then ownLine w line x else recallLine x.pa) :=
    keeps_bind (keeps_xlate _ _ _ _) fun x => keeps_bind (keeps_outsideHold _ _ _ _ _) fun _ =>
      keeps_ite (keeps_ownLine _ _ _) (keeps_recallLine _)
  dsimp only
  split
  · exact keeps_recallLine _
  · split
    · refine keeps_ite (o _ _ _ _ _ _ _) ?_
      split
      · exact keeps_bind (keeps_set (by rw [memOk_modJob]; exact p)) fun _ => keeps_throw _
      · exact keeps_throw _
    · refine keeps_ite ?_ (keeps_pure _)
      exact keeps_ite (keeps_bind (keeps_fillLine _ _) fun _ => keeps_ite (o _ _ _ _ _ _ _) (keeps_pure _))
        (keeps_ite (o _ _ _ _ _ _ _) (keeps_pure _))

/-! ## Window bytes and accesses by virtual address -/

theorem keeps_touchAll (off n : Nat) (w : Touch) : Keeps State.memOk (touchAll off n w) :=
  keeps_forM _ fun _ _ => keeps_touchStash _ _ _

theorem keeps_renewAll (off n : Nat) : Keeps State.memOk (renewAll off n) := by
  refine keeps_forM _ fun _ _ => keeps_get_bind fun s p => ?_
  dsimp only
  split
  · exact keeps_pure _
  · split
    · split
      · exact keeps_fillLine _ _
      · exact keeps_pure _
    · exact keeps_pure _

theorem keeps_windowRead (x : List Nat) (off n : Nat) : Keeps State.memOk (windowRead x off n) :=
  keeps_bind (keeps_waitTide _ _ _) fun _ => keeps_bind (keeps_touchAll _ _ _) fun _ => keeps_get_bind fun _ _ =>
    keeps_bind (keeps_probe _ _) fun _ => keeps_bind (keeps_modify fun _ p => memOk_observe p _ _ _) fun _ =>
      keeps_get_bind fun _ _ => keeps_pure _

theorem keeps_windowWrite (x : List Nat) (off : Nat) (bs : List Byte) : Keeps State.memOk (windowWrite x off bs) :=
  keeps_bind (keeps_waitTide _ _ _) fun _ => keeps_bind (keeps_touchAll _ _ _) fun _ =>
    keeps_modify fun _ p => by dsimp only; rw [memOk_watchWrite]; exact memOk_stamp (memOk_writeMem p _ _) _ _ _

theorem keeps_dtreeXl (nd : Need) (k off n : Nat) : Keeps State.memOk (dtreeXl nd k off n) := by
  refine keeps_get_bind fun s p => ?_
  dsimp only
  repeat' split
  all_goals first | exact keeps_throw _ | exact keeps_pure _

theorem keeps_vread (g : Eng) (va n : Nat) : Keeps State.memOk (vread g va n) := by
  unfold vread
  dsimp only
  split
  · exact keeps_throw _
  · split
    · exact keeps_bind (keeps_xlate _ _ _ _) fun _ => keeps_bind (keeps_outsideClear _ _ _ _) fun _ => keeps_tagged (keeps_homeLoad _ _ _) _ _
    · refine keeps_get_bind fun s p => ?_
      split
      · exact keeps_throw _
      · exact keeps_tagged (keeps_windowRead _ _ _) _ _
    · exact keeps_bind (keeps_dtreeXl _ _ _ _) fun _ => keeps_tagged (keeps_homeLoad _ _ _) _ _
    · exact keeps_throw _
    · exact keeps_throw _

theorem keeps_vcheck (g : Eng) (nd : Need) (va n : Nat) : Keeps State.memOk (vcheck g nd va n) := by
  unfold vcheck
  dsimp only
  split
  · exact keeps_throw _
  · split
    · exact keeps_bind (keeps_xlate _ _ _ _) fun _ => keeps_bind (keeps_outsideHold _ _ _ _ _) fun _ => keeps_tagged (keeps_recallLine _) _ _
    · refine keeps_get_bind fun s p => ?_
      split
      · exact keeps_throw _
      · exact keeps_bind (keeps_faultIf _ _) fun _ => keeps_bind (keeps_waitTide _ _ _) fun _ => keeps_touchAll _ _ _
    · exact keeps_bind (keeps_dtreeXl _ _ _ _) fun _ => keeps_pure _
    · exact keeps_throw _
    · exact keeps_throw _

theorem keeps_vwrite (g : Eng) (nd : Need) (va : Nat) (bs : List Byte) : Keeps State.memOk (vwrite g nd va bs) := by
  unfold vwrite
  dsimp only
  split
  · exact keeps_throw _
  · split
    · exact keeps_bind (keeps_xlate _ _ _ _) fun _ => keeps_bind (keeps_outsideClear _ _ _ _) fun _ => keeps_tagged (keeps_store _ _ _) _ _
    · refine keeps_get_bind fun s p => ?_
      split
      · exact keeps_throw _
      · exact keeps_bind (keeps_faultIf _ _) fun _ => keeps_windowWrite _ _ _
    · exact keeps_bind (keeps_dtreeXl _ _ _ _) fun _ => keeps_pure _
    · exact keeps_throw _
    · exact keeps_throw _

theorem keeps_vatomic (g : Eng) (va n : Nat) (f : Nat → Option Nat) : Keeps State.memOk (vatomic g va n f) := by
  unfold vatomic
  dsimp only
  split
  · exact keeps_throw _
  · split
    · exact keeps_bind (keeps_xlate _ _ _ _) fun _ => keeps_bind (keeps_outsideClear _ _ _ _) fun _ => keeps_tagged (keeps_atomic _ _ _ _) _ _
    · refine keeps_get_bind fun s p => ?_
      split
      · exact keeps_throw _
      · refine keeps_bind (keeps_touchAll _ _ _) fun _ => keeps_bind (keeps_renewAll _ _) fun _ =>
          keeps_bind (keeps_tagged (keeps_windowRead _ _ _) _ _) fun b => ?_
        split
        · exact keeps_bind (keeps_windowWrite _ _ _) fun _ => keeps_pure _
        · exact keeps_pure _
    · exact keeps_bind (keeps_dtreeXl _ _ _ _) fun _ => keeps_pure _
    · exact keeps_throw _
    · exact keeps_throw _

/-! ## Issuing -/

theorem keeps_issueOp (i : Instr) (tl : Nat) (ks : Keys) (f : Op → Op) : Keeps State.memOk (issueOp i tl ks f) :=
  keeps_bind keeps_drain fun _ => keeps_get_bind fun _ _ => keeps_bind (keeps_unlessWait _ _) fun _ =>
    keeps_get_bind fun _ p => keeps_bind (keeps_set p) fun _ => keeps_bind (keeps_enter _ _ _) fun _ =>
      keeps_modify fun _ q => by simpa using q

theorem keeps_readTemplate (b : Nat) (c : Word) : Keeps State.memOk (readTemplate b c) := by
  have r : Keeps State.memOk (do
      let bs ← vread ⟨0, 4, [], none⟩ (b + 64 * fld c 11 0) 64
      pure (wordsOf 8 bs)) := keeps_bind (keeps_vread _ _ _) fun _ => keeps_pure _
  unfold readTemplate
  dsimp only
  split
  · exact keeps_bind (keeps_settledBytes _ _) fun _ => r
  · exact r

theorem keeps_startCopy (n : Nat) (c : Word) : Keeps State.memOk (startCopy n c) := by
  refine keeps_bind keeps_drain fun _ => keeps_get_bind fun s _ => ?_
  dsimp only
  split
  · exact keeps_throw _
  · refine keeps_bind (keeps_unlessWait _ _) fun _ => keeps_get_bind fun _ _ => keeps_bind (keeps_unlessWait _ _) fun _ =>
      keeps_bind (keeps_attempt (keeps_readTemplate _ _)) fun r => keeps_get_bind fun _ p => keeps_bind (keeps_set p) fun _ =>
      keeps_bind (keeps_enter _ _ _) fun _ => keeps_bind (keeps_modify fun _ q => by simpa using q) fun _ =>
      keeps_modify fun _ q => by simpa using q

end Sys2Proof.Machine
end

