-- ==== Sys2Proof/Tests/Slice0.lean ====
section
/-! SUPPORT. Tests: words written out from the spec's encodings, ill-formed terms that the check refuses, worked examples
of the spec, and for the statements with hypotheses a state and operands that meet them. -/

namespace Sys2Proof.Tests

open Sys2Proof Sys2Proof.Machine

set_option maxRecDepth 100000
set_option Elab.async false

/-! ## Decoding: bytes written out from the spec -/

/-- The word number of bytes, first byte lowest. -/
def word (bs : List Nat) : Nat := bs.foldr (fun b w => b + 256 * w) 0

def g0 : Guard := ⟨false, 0⟩
def hdr : Hdr := ⟨g0, .guarded⟩
/-- A guard that fails: p1 is false at the start. -/
def hdrNot : Hdr := ⟨⟨false, 1⟩, .guarded⟩

/-- Worked example of chapter 06: ADD s5, s5, s9 in the short form. -/
theorem test_decode_add_short : decodeTableWord 16 (word [0x09, 0x2A]) = some (.addShort 5 9) := by decide
/-- Worked example of chapter 06: (!p2) SUB s4, s6, s7 in the guarded form. -/
theorem test_decode_sub_guarded :
    decodeTableWord 48 (word [0xD2, 0x01, 0x40, 0x18, 0x07, 0x00]) = some (.sub ⟨⟨true, 2⟩, .guarded⟩ 4 6 7) := by decide
/-- Worked example of chapter 06: (p3) ADD s5, s5, 40000 in the wide form. -/
theorem test_decode_add_wide :
    decodeTableWord 64 (word [0xE0, 0x10, 0xA3, 0x28, 0x00, 0x00, 0x20, 0x4E]) =
      some (.addImm ⟨⟨false, 3⟩, .wide⟩ 5 5 40000) := by decide
/-- Worked example of chapter 07 (R185): CMP.LT p3, s4, s5 in the scalar form. -/
theorem test_decode_cmp_scalar :
    decodeTableWord 32 (word [0xA8, 0x03, 0x51, 0x08]) = some (.cmp ⟨g0, .scalar⟩ .lt 3 4 5) := by decide
/-- R189: BR forward by 40 bytes, guarded form: OP 0x40, IMM 20 in Q[47:38]. -/
theorem test_decode_br : decodeTableWord 48 (word [0xC0, 0x40, 0, 0, 0, 0x05]) = some (.br hdr 20) := by decide
/-- Worked example of chapter 08: LD.64.P.die.e3 s7, [s2 + 16]. -/
theorem test_decode_ld : decodeTableWord 48 (word [0xC0, 0x60, 0x73, 0x08, 0xA3, 0x10]) =
    some (.ld hdr .b8 false 7 2 ⟨2, 4, 3⟩ 16) := by decide +kernel
/-- R228: QPUSH aq1, s7: OP 0x80, SA in Q[31:26], IMM 1 in Q[47:38]. -/
theorem test_decode_qpush : decodeTableWord 48 (word [0xC0, 0x80, 0, 0x1C, 0x40, 0]) = some (.qpush hdr (.aq 1) 7) := by
  decide
/-- R223: STSET st3, 2, s6: OP 0xB8, MOD the word, SD the register. -/
theorem test_decode_stset : decodeTableWord 48 (word [0xC0, 0xB8, 0x32, 0x18, 0, 0]) = some (.stset hdr 3 2 6) := by decide
/-- R388: SEMACQ of semaphore 1, one unit: OP 0x8C, IMM 1. -/
theorem test_decode_semacq : decodeTableWord 48 (word [0xC0, 0x8C, 0, 0, 0x40, 0]) = some (.semacq hdr 1 0) := by decide
/-- R165, R277: VMOV v10, v20 over four registers through slot 4, wide form: VD Q[29:21], VS Q[38:30], ST Q[52:48],
PSZ Q[62:58]. -/
theorem test_decode_vmov : decodeTableWord 64 (word [0xE0, 0x92, 0x40, 0x01, 0x05, 0, 0x60, 0x10]) =
    some (.vmov ⟨g0, .wide⟩ false 10 20 0 0 3 0 4) := by decide
/-- R165, R258: MMUL acc1, st3 with slot 2 at its first port, wide form: ACD Q[23:21], STA Q[31:27], PSA Q[52:48]. -/
theorem test_decode_mmul : decodeTableWord 64 (word [0xE0, 0xA1, 0x20, 0x18, 0, 0, 0x02, 0]) =
    some (.mmul ⟨g0, .wide⟩ false 1 0 3 2) := by decide
/-- R334: LQRY s5, acc0, wide form: SS in Q[47:42]. -/
theorem test_decode_lqry : decodeTableWord 64 (word [0xE0, 0xAA, 0, 0, 0, 0x14, 0, 0]) = some (.lqry ⟨g0, .wide⟩ 5 0) := by
  decide
/-- Worked example of chapter 12: PLOAD s10, pp1, [s1]. -/
theorem test_decode_pload : decodeTableWord 48 (word [0xC0, 0xB0, 0xA0, 0x04, 0x01, 0]) = some (.pload hdr 10 1 1 0) := by
  decide
/-- R365, R384: CPY 1, s6 and RENQ s16, s20, s21. -/
theorem test_decode_cpy : decodeTableWord 48 (word [0xC0, 0xC0, 0, 0x18, 0x40, 0]) = some (.cpy hdr 1 6) := by decide
theorem test_decode_renq : decodeTableWord 48 (word [0xC0, 0xC1, 0, 0x51, 0x15, 0]) = some (.renq hdr 16 20 21) := by decide
/-- R203: LAUNCH s3, s4, s5: OP 0xD6, SD Q[25:20], SA Q[31:26], SB Q[37:32]. -/
theorem test_decode_launch : decodeTableWord 48 (word [0xC0, 0xD6, 0x30, 0x10, 0x05, 0]) = some (.launch hdr 3 4 5) := by
  decide
/-- R162, R168, R172: reserved short code 14, reserved opcode 0xE0, and a guard (!p0). -/
theorem test_decode_reserved :
    (decodeTableWord 16 (14 * 4), decodeTableWord 48 (word [0xC0, 0xE0, 0, 0, 0, 0]),
      decodeTableWord 48 (word [0xD0, 0x01, 0x40, 0x18, 0x07, 0])) = (none, none, none) := by decide
/-- The encoder gives the bytes of the worked examples back. -/
theorem test_encode :
    (encode (.addShort 5 9), encode (.cmp ⟨g0, .scalar⟩ .lt 3 4 5), encode (.ld hdr .b8 false 7 2 ⟨2, 4, 3⟩ 16)) =
      ([0x09, 0x2A], [0xA8, 0x03, 0x51, 0x08], [0xC0, 0x60, 0x73, 0x08, 0xA3, 0x10]) := by decide

/-! ## Ill-formed terms, one for each check -/

theorem test_wf_guard : Instr.wf (.add ⟨⟨true, 0⟩, .guarded⟩ 1 2 3) = false := by decide
theorem test_wf_shift : (Instr.wf (.shlImm hdr 1 2 64), Instr.wf (.shlImm hdr 1 2 63)) = (false, true) := by decide
theorem test_wf_bits : (Instr.wf (.bfx hdr false 1 2 3 4), Instr.wf (.bfi hdr 1 2 3 4)) = (false, false) := by decide
theorem test_wf_cmp : (Instr.wf (.cmp hdr .eq 0 1 2), Instr.wf (.cmpImm hdr .eq 0 1 2)) = (false, false) := by decide
theorem test_wf_plog : (Instr.wf (.plog hdr .and 0 1 2), Instr.wf (.plog hdr .not 1 2 3), Instr.wf (.plog hdr .set 1 2 0)) =
    (false, false, false) := by decide
theorem test_wf_loop : (Instr.wf (.loop hdr 0 1 3), Instr.wf (.loopp hdr 0 1 2 3), Instr.wf (.loop hdr 0 1 4)) =
    (false, false, true) := by decide
theorem test_wf_ld : (Instr.wf (.ld hdr .b8 true 1 2 ⟨0, 0, 0⟩ 0), Instr.wf (.ld hdr .b4 false 1 2 ⟨3, 0, 0⟩ 0),
    Instr.wf (.st hdr .b4 1 2 ⟨0, 7, 0⟩ 0), Instr.wf (.cas hdr .b4 1 2 3 ⟨0, 7, 0⟩)) = (false, false, false, false) := by decide
theorem test_wf_amo : Instr.wf (.amo hdr .fadd .b8 1 2 3 ⟨0, 0, 0⟩) = false := by decide
theorem test_wf_scope : (Instr.wf (.fence hdr 7), Instr.wf (.setf hdr 1 2 7 0 0), Instr.wf (.setfAdd hdr 1 2 7 0 0),
    Instr.wf (.waitf hdr .eq 1 2 3 7 0 0)) = (false, false, false, false) := by decide
theorem test_wf_sflush : Instr.wf (.sflush hdr 0) = false := by decide
theorem test_wf_vtest : Instr.wf (.vtest hdr .any 0 1) = false := by decide
theorem test_wf_vmov : (Instr.wf (.vmov hdr false 1 2 3 0 0 0 0), Instr.wf (.vmov hdr false 1 2 0 0 0 1 0)) = (false, false) := by
  decide
theorem test_wf_vrbase : Instr.wf (.vrbase hdr 0 513) = false := by decide
theorem test_wf_vrow : (Instr.wf (.vrow hdr false 1 2 0), Instr.wf (.vrow hdr false 1 2 65)) = (false, false) := by decide
theorem test_wf_mmulAm : (Instr.wf (.mmulAm hdr false 1 0 2 0), Instr.wf (.mmulAm hdr false 1 0 2 65)) = (false, false) := by
  decide
theorem test_wf_mmulg : (Instr.wf (.mmulg hdr false 1 0 1 2 0 0 0), Instr.wf (.mmulg hdr false 1 0 1 2 257 0 0)) =
    (false, false) := by decide
theorem test_wf_mtopk : (Instr.wf (.mtopk hdr false 0 1 2 0 4), Instr.wf (.mtopk hdr false 0 1 2 17 4),
    Instr.wf (.mtopk hdr false 0 1 2 4 65)) = (false, false, false) := by decide
theorem test_wf_mpub : (Instr.wf (.mpub hdr 1 0), Instr.wf (.mpub hdr 1 9)) = (false, false) := by decide
theorem test_wf_settle : Instr.wf (.settle hdr 0) = false := by decide
theorem test_wf_slot : (Instr.wf (.pload hdr 1 0 2 0), Instr.wf (.preset hdr 0), Instr.wf (.pinfo hdr 1 0),
    Instr.wf (.psget hdr 1 0 0), Instr.wf (.psset hdr 1 0x404 2)) = (false, false, false, false, false) := by decide
theorem test_wf_cstat : Instr.wf (.cstat hdr 1 5 2) = false := by decide
theorem test_wf_system : (Instr.wf (.srd hdr 1 4), Instr.wf (.swr hdr 0x24 1), Instr.wf (.swr hdr 0x2C 1), Instr.wf (.swr hdr 4 1)) =
    (false, false, false, false) := by decide

/-! ## Worked examples of the spec -/

/-- R17: the alias address 0x0000_8000_0035_1234 is byte 0x6_1234 of die 5. -/
theorem test_alias : regionOf 0 0x8000_0035_1234 = .lpddr 5 0x6_1234 := by decide
/-- R68: that offset has its home in slice 5, and 0x6_1334 in slice 4. -/
theorem test_homeSlice : (homeSlice 0x6_1234, homeSlice 0x6_1334) = (5, 4) := by decide
/-- R356: with seed 1 the first draw of lane 0 is 0x0040_1003. -/
theorem test_draw : (Job.empty.draw 0 0 0) = 0x0040_1003 := by decide +kernel
/-- R412: the order of the dies, from die 1. -/
theorem test_dieOrder : dieOrder 1 = [1, 5, 0, 2, 3, 4, 6, 7] := by decide
/-- R191: the table of LOOPP with n = 2 and S = 3. -/
theorem test_stages : (List.range 4).map (fun k =>
      [8, 9, 10, 11, 15].map fun p => (setStages Stream.idle 2 3 k).getP (BitVec.ofNat 4 p)) =
    [[true, false, false, false, false], [true, true, false, false, false], [false, true, true, false, false],
      [false, false, true, false, false]] := by decide
/-- R143: the words of the worked launch record: levels, sizes, channels, slots, queue depth, bindings, and the coordinates
of the job with linear index 55. -/
theorem test_record :
    let r : List Word := [0x0194_4644_1E38_0042, 0x0000_0002_0000_0B61] ++ List.replicate 14 0 ++
      [0x2000_0000_0000_0003, 0x4000_0000_0000_0007, 0x8000_0000_0000_0001]
    [recLevels r, recPri r, recChan r, recPslots r, recAccs r, recVregs r, recWindow r, recIqd r, recMdom r, recS r 1, recS r 2] =
        [3, 2, 2, 6, 4, 256, 1048576, 8, 0x42, 4, 32] ∧
      [recCoord r 55 0, recCoord r 55 1, recCoord r 55 2] = [3, 5, 1] ∧ recAqv r 0 = .M ∧ recAqv r 1 = .V ∧
      [recTk r 0, recTk r 1, recTk r 2] = [1, 6, 11] := by decide

/-! ## A small machine: one job in residence on core 0 of die 0, one 2 MiB page of its space mapped -/

/-- The launch record of the job: four channels, eight slots, eight accumulators, 512 registers, a window of 64 KiB. -/
def rec0 : List Word :=
  [0x0100_8888_0000_0000, 0x0000_0002_0000_0061, 0x10000, 0x11000, 0x12000, 0x13000, 0x14000, 0x15000] ++ List.replicate 24 0

def running : Stream := { Stream.idle with st := .running }

/-- s5 is a mapped address, s6 an address of the window, s7 is 3, s8 is the least value and s9 is -1. -/
def streamC : Stream :=
  { running with
    pc := 0x1000
    s := ((((running.s.set 5 0x20000).set 6 0x01FF_FFFF_0000_0100).set 7 3).set 8 0x8000_0000_0000_0000).set 9 0xFFFF_FFFF_FFFF_FFFF }

def job0 : Job :=
  { Job.empty with
    num := 1, status := .resident, ctx := ⟨1, false, 0x100000, 0, 1, 3⟩, lrec := rec0
    c := streamC, a := streamC, m := streamC, v := streamC
    streg := [(0, 0x01FF_FFFF_0000_0000), (1, 0x0000_0000_0003_003F), (2, 0x0000_0080_0000_0002), (4, 0x0000_0000_0100_0011)] }

/-- The page table: root, one table, and a 2 MiB leaf at 0x400000 that may be read and written. -/
def tables : Memory :=
  [(0x100000, 1), (0x100002, 0x20), (0x200000, 1), (0x200002, 0x30), (0x300000, 0x33), (0x300002, 0x40)]

def core0 : Core := { Core.reset with tlb := [⟨1, false, 1, 0, 0x400033, 0x300000⟩] }

def s0 : State :=
  { State.reset with
    job := job0, mem := tables, cores := State.reset.cores.set 0 core0, cycle := 10
    hub := { Hub.reset with boot := ⟨5, true, false, 0, 1, 0⟩ } }

def on (x : StreamId) (s : State) : State := { s with cur := x }

/-- The page's translation at address 0x20000. -/
def xl0 : Xl := ⟨.lpddr 0 0x420000, 0x420000, 0, false, 0x400033, 1⟩

theorem runs_s0 (x : StreamId) : (on x s0).runs hdr allStreams := ⟨mem_allStreams x, by cases x <;> decide⟩
theorem s0_memOk : s0.memOk := ⟨by decide, rfl, rfl⟩
theorem s0_noRange (n : Nat) : crangeEn (vget 0 s0.job.crange n) = false := by
  have : vget 0 s0.job.crange n = 0 := by
    show vget 0 (Vector.replicate 4 (0 : Word)) n = 0
    simp only [vget, Vector.getElem?_replicate]; split <;> rfl
  rw [this]; decide
/-- A machine of one job whose streams do not wait. -/
theorem unwaited_of {s : State} (r : s.rest = []) (h : ∀ x, (s.job.str x).wait = none) : s.unwaited := by
  intro j hj x w hw
  simp only [State.jobs, r, List.mem_singleton] at hj
  subst hj
  rw [h x] at hw
  cases hw
theorem s0_unheld : s0.unheld := ⟨rfl, rfl, s0_noRange, unwaited_of rfl fun x => by cases x <;> rfl⟩
/-- A machine whose streams do not wait. -/
theorem unwaited_all {s : State} (h : ∀ j ∈ s.jobs, ∀ x, (j.str x).wait = none) : s.unwaited := by
  intro j hj x w hw
  rw [h j hj x] at hw
  cases hw
/-- A machine of one job with no stash line: none is owned dirty. -/
theorem unowned_of {s : State} (r : s.rest = []) (h : s.job.lines = []) (off n : Nat) : s.unowned off n := by
  intro a _ _
  simp [State.dirtyOwner, State.jobs, r, Job.dirtyAt, h]
/-- A machine in which no job has a stash line. -/
theorem unowned_all {s : State} (h : ∀ j ∈ s.jobs, j.lines = []) (off n : Nat) : s.unowned off n := by
  intro a _ _
  have e : (s.jobs.filterMap fun j => (j.dirtyAt (lineOf (s.job.windowPa a))).map fun l => (j, l)) = [] :=
    List.filterMap_eq_nil_iff.2 fun j hj => by simp [Job.dirtyAt, h j hj]
  rw [State.dirtyOwner, e]
  rfl
theorem s0_window (n : Nat) (h : n ≤ 256) : s0.window 0x01FF_FFFF_0000_0000 n 0 :=
  ⟨by decide, by show 0 + n ≤ 65536; omega, by show 0 % 256 + n ≤ 256; omega, s0_unheld, by unfold State.unstashed; decide,
    unowned_of rfl rfl 0 n, by decide, rfl⟩
/-- A machine of one job whose streams have no pending store owes nothing. -/
theorem unowed_of {s : State} (r : s.rest = []) (h : ∀ x, (s.job.str x).stores = []) (b : Agent) : s.unowed b := by
  intro j hj x _ p hp
  simp only [State.jobs, r, List.mem_singleton] at hj
  subst hj
  rw [h x] at hp
  cases hp
theorem s0_unowed (b : Agent) : s0.unowed b := unowed_of rfl (fun x => by cases x <;> rfl) b
theorem s0_noOutside (w : Outsider) : s0.noOutside w := by
  intro j hj e he
  cases hj with
  | head => cases he
  | tail _ h => cases h
theorem reaches_load : s0.reaches .r 0 0x20000 8 false xl0 := ⟨by decide, by decide, rfl, rfl, rfl, rfl, s0_unowed _⟩
theorem reaches_words : s0.reaches .r 0 0x20000 64 false xl0 := ⟨by decide, by decide, rfl, rfl, rfl, rfl, s0_unowed _⟩
theorem reaches_line : s0.reaches .r 0 0x20000 256 false xl0 := ⟨by decide, by decide, rfl, rfl, rfl, rfl, s0_unowed _⟩
theorem reaches_store : s0.reaches .w 1 0x20000 8 true xl0 := ⟨by decide, by decide, rfl, rfl, rfl, rfl, s0_unowed _⟩
theorem reaches_atomic : s0.reaches .rw 2 0x20000 8 true xl0 := ⟨by decide, by decide, rfl, rfl, rfl, rfl, s0_unowed _⟩

/-- A meaning that comes to its end with what p says. -/
theorem ends_with {α : Type} {m : M α} {s : State} {p : α → State → Bool}
    (h : (match m s with | .ok a t => p a t | .error .. => false) = true) : ∃ a t, m s = .ok a t ∧ p a t = true := by
  cases e : m s with
  | ok a t => rw [e] at h; exact ⟨a, t, rfl, h⟩
  | error e' t => rw [e] at h; cases h

/-! ## For each statement with hypotheses, a state and operands that meet them: scalar instructions -/

/-- Hypotheses of ArithmeticResults and BitFieldResults. -/
theorem witness_ArithmeticResults : s0.runs hdr allStreams := runs_s0 .C
theorem witness_BitFieldResults : s0.runs hdr allStreams ∧ (3 : BitVec 6) ≤ 63 := ⟨runs_s0 .C, by decide⟩
/-- DivideResults: a zero divisor, the least value by -1, and any other pair; with a register and an immediate. -/
theorem witness_DivideResults : s0.runs hdr allStreams ∧ s0.getS 0 = 0 ∧
    (s0.getS 8 = 0x8000_0000_0000_0000 ∧ s0.getS 9 = 0xFFFF_FFFF_FFFF_FFFF) ∧
    (s0.getS 7 ≠ 0 ∧ ¬(s0.getS 8 = 0x8000_0000_0000_0000 ∧ s0.getS 7 = 0xFFFF_FFFF_FFFF_FFFF)) ∧
    (0 : Imm).signExtend 64 = 0 ∧ (0xFFFF_FFFF_FFFF : Imm).signExtend 64 = 0xFFFF_FFFF_FFFF_FFFF ∧ (3 : Imm).signExtend 64 ≠ 0 :=
  ⟨runs_s0 .C, by decide⟩
/-- MoveCompareSelectAndPredicateResults: the guard holds and fails, the predicate is true and false. -/
theorem witness_MoveCompareSelectAndPredicateResults : (on .V s0).runs hdr allStreams ∧ s0.cur ∈ allStreams ∧
    s0.guardOk hdr.g = true ∧ s0.getP 0 = true ∧ s0.getP 1 = false ∧ s0.guardOk hdrNot.g = false := ⟨runs_s0 .V, by decide⟩
theorem witness_HardwiredRegisters : (5 : SReg) ≠ 0 ∧ (5 : PReg) ≠ 0 := by decide
/-- A job of a gang of two levels, whose record is a record of a gang of two jobs. -/
def sGang : State := s0.modJob fun j => { j with lrec := ((rec0.set 0 0x0112_8888_0000_0000).set 8 0x20000).set 16 1 }
/-- ShortFormResults: C returns and joins, and so does M, in a job without a gang and in one of a gang. -/
theorem witness_ShortFormResults : s0.cur ∈ [StreamId.C, .A] ∧ s0.calm ∧ s0.stillOpen ∧ s0.cur ≠ .M ∧
    (on .M s0).calm ∧ (on .M s0).stillOpen ∧ (on .M s0).cur = .M ∧
    (recGang sGang.job.lrec = true ∧ 1 < recLevels sGang.job.lrec ∧ sGang.stillOpen) := by
  refine ⟨by decide, rfl, fun h => absurd h (by decide), by decide, rfl, fun h => absurd h (by decide), rfl, by decide, by decide,
    fun _ k h0 h => ?_⟩
  have : recLevels sGang.job.lrec = 2 := by decide
  obtain rfl : k = 1 := by omega
  exact ⟨.A, by decide⟩
/-- GuardAndStreamChecks: a guard that fails; LD on V, and a token FIFO's wait on a stream that is not its consumer. -/
theorem witness_GuardAndStreamChecks :
    (Instr.add hdrNot 1 2 3).hdr = some hdrNot ∧
      s0.cur ∈ (Instr.add hdrNot 1 2 3).streams s0.job ∧ s0.guardOk hdrNot.g = false ∧ (Instr.ld hdr .b8 false 1 5 ⟨0, 0, 0⟩ 0).hdr = some hdr ∧
      (on .V s0).cur ∉ (Instr.ld hdr .b8 false 1 5 ⟨0, 0, 0⟩ 0).streams s0.job ∧
      (Instr.tkwait hdrNot 0).hdr = some hdrNot ∧ s0.cur ∉ (Instr.tkwait hdrNot 0).streams s0.job := by decide
theorem witness_RegisterOnlyFrame : (Instr.add hdr 4 5 7).registerOnly = true ∧
    s0.cur ∈ (Instr.add hdr 4 5 7).streams s0.job ∧ s0.str.wait = none ∧ ∃ t, exec (.add hdr 4 5 7) s0 = .next t :=
  ⟨by decide, by decide, rfl, by rw [exec_add, execAdd, scalarTo]; exact runInstr_next ..⟩

/-! ### Control -/

/-- A loop frame of a LOOP and one of a LOOPP around the program counter. -/
def frame1 : Frame := ⟨0x1000, 0x1006, 1, none⟩
def frame2 : Frame := ⟨0xF00, 0x1006, 2, some ⟨2, 3, 0⟩⟩
def looping (c1 c2 : Word) : State :=
  s0.modStr fun t => { (t.setLc 1 c1).setLc 2 c2 with frames := [frame1, frame2] }

/-- BranchAndCallResults: C runs, with a branch outcome queued. -/
theorem witness_BranchAndCallResults : s0.runs hdr allStreams ∧ s0.runs hdr [.C, .A] ∧
    ((s0.modJob fun j => { j with bq := [true] }).runs hdr [.C] ∧ (s0.modJob fun j => { j with bq := [true] }).calm ∧
      (s0.modJob fun j => { j with bq := [true] }).job.bq = true :: []) :=
  ⟨runs_s0 .C, ⟨by decide, by decide⟩, ⟨by decide, by decide⟩, rfl, rfl⟩
/-- LoopStart: with a loop register that no frame has, and with one that the inner frame has; a count of 0 and of 3. -/
theorem witness_LoopStart : s0.runs hdr allStreams ∧ (∀ f ∈ s0.str.frames, f.n ≠ 1) ∧
    ((looping 3 4).runs hdr allStreams ∧ (looping 3 4).str.frames = [] ++ frame1 :: [frame2] ∧ frame1.n = 1) ∧
    (s0.getS 0).toNat % 2 ^ 48 = 0 ∧ (s0.getS 7).toNat % 2 ^ 48 ≠ 0 :=
  ⟨runs_s0 .C, by decide, ⟨⟨by decide, by decide⟩, rfl, rfl⟩, by decide, by decide⟩
/-- EndOfInstruction: no frame; a frame that ends elsewhere; one that ends here, with iterations left or none, of either
kind; a wait that is short, and one that is long. -/
theorem witness_EndOfInstruction :
    let ends := fun (f : Frame) (s : State) (len : Nat) =>
      (f.start ≤ s.str.pc ∧ s.str.pc < f.stop ∧ f.stop = s.str.pc + BitVec.ofNat 64 len)
    s0.str.frames = [] ∧ (looping 3 4).str.frames = frame1 :: [frame2] ∧ ¬ends frame1 (looping 3 4) 4 ∧
      ends frame1 (looping 3 4) 6 ∧ ends frame2 (looping 3 4) 6 ∧ 1 < ((looping 3 4).getLc frame1.n).toNat ∧
      1 < ((looping 1 4).getLc frame2.n).toNat ∧ ((looping 1 4).getLc frame1.n).toNat ≤ 1 ∧ frame1.pipe = none ∧
      frame2.pipe = some ⟨2, 3, 0⟩ := by decide
theorem witness_EndOfInstruction_waits :
    let waiting := s0.modStr fun t => { t with wait := some ⟨.sem 1 6, 4⟩ }
    let logged := waiting.modDie 0 fun d => { d with wlmin := 8 }
    s0.str.wait = none ∧ waiting.str.wait = some ⟨.sem 1 6, 4⟩ ∧ (waiting.dieAt waiting.job.die).wlmin ≤ waiting.cycle - 4 ∧
      logged.cycle - 4 < (logged.dieAt logged.job.die).wlmin := by decide

/-! ### Memory -/

/-- LoadResults: the mapped page, a held copy under its lease, the window, a copy channel's aperture, the device-tree page. -/
def held0 : HeldCopy := ⟨0x4200, List.replicate 256 7, 0, 100, 0⟩
def sHeld : State := s0.modCore 0 fun c => { c with l1 := [held0] }
def sTree : State := s0.modJob fun j => { j with ctx := { j.ctx with dtree := 0x500000 } }
theorem witness_LoadResults :
    s0.runs hdr [.C, .A] ∧ s0.calm ∧ (s0.getS 5 + (0 : Imm).signExtend 64).toNat = 0x20000 ∧ xl0.cc ≠ 2 ∧
      leased xl0.pa = true ∧ xl0.pa < 2 ^ 51 ∧ ((s0.coreAt s0.job.coreIx).l1 = [] ∧ (s0.dieAt s0.job.die).peer = []) ∧
      (((sHeld.coreAt sHeld.job.coreIx).l1.find? fun c => c.usable (lineOf xl0.pa) (sHeld.clock sHeld.job.coreIx) sHeld.cycle) = some held0) ∧
      vrange 0x01FF_FFFF_8000_1000 = .copy 1 0 ∧ 1 < recChan s0.job.lrec :=
  ⟨⟨by decide, by decide⟩, rfl, by decide, by decide, by decide, by decide, ⟨by decide, by decide⟩, by decide, by decide, by decide⟩
theorem witness_LoadResults_held : sHeld.reaches .r 0 0x20000 8 false xl0 :=
  ⟨by decide, by decide, rfl, rfl, rfl, rfl, unowed_of rfl (fun x => by cases x <;> rfl) _⟩
/-- A page of a peer's memory, with a copy of its line in the die's L2. -/
def xlPeer : Xl := ⟨.peer 1 0 0x420000, 2 ^ 51 + 2 ^ 41 + 0x420000, 0, false, 2 ^ 51 + 2 ^ 41 + 0x400033, 1⟩
def heldPeer : HeldCopy := { held0 with line := xlPeer.pa / 256 }
def sPeer : State :=
  (((s0.modHub fun h => { h with podmap := h.podmap.set 0 2 }).modCore 0 fun c =>
    { c with tlb := [⟨1, false, 1, 0, 2 ^ 51 + 2 ^ 41 + 0x400033, 0x300000⟩] })).modDie 0 fun d => { d with peer := [heldPeer] }
theorem witness_LoadResults_peer : sPeer.reaches .r 0 0x20000 8 false xlPeer ∧ xlPeer.cc = 0 ∧ leased xlPeer.pa = true ∧
    2 ^ 51 ≤ xlPeer.pa ∧ sPeer.job.coreIx < 256 ∧
    ((sPeer.coreAt sPeer.job.coreIx).l1.find? fun c => c.usable (lineOf xlPeer.pa) (sPeer.clock sPeer.job.coreIx) sPeer.cycle) = none ∧
    ((sPeer.dieAt sPeer.job.die).peer.find? fun c => c.usable (lineOf xlPeer.pa) (sPeer.clock sPeer.job.coreIx) sPeer.cycle) =
      some heldPeer :=
  ⟨⟨by decide, by decide, rfl, rfl, rfl, rfl, unowed_of rfl (fun x => by cases x <;> rfl) _⟩, rfl, by decide, by decide, by decide,
    by decide, by decide⟩
theorem witness_LoadResults_window : s0.window 0x01FF_FFFF_0000_0000 8 0 := s0_window 8 (by decide)
theorem witness_LoadResults_tree : vrange 0x01FF_FFFF_C000_0010 = .dtree 0x10 ∧
    ∃ x, dtreeXl .r 0 0x10 8 sTree = .ok x sTree ∧ recallLine x.pa sTree = .ok () sTree ∧ sTree.sound ∧ sTree.unowed sTree.agent :=
  ⟨by decide, _, rfl, rfl, rfl, unowed_of rfl (fun x => by cases x <;> rfl) _⟩
/-- StoreResults: at the page, from the pending stores and at once; in the window; at an aperture; in the device tree. -/
theorem witness_StoreResults : s0.runs hdr [.C, .A] ∧ s0.calm ∧ s0.memOk ∧ s0.reaches .w 1 0x20000 8 true xl0 ∧
    s0.window 0x01FF_FFFF_0000_0000 8 0 ∧ vrange 0x01FF_FFFF_8000_1000 = .copy 1 0 ∧
    vrange 0x01FF_FFFF_C000_0010 = .dtree 0x10 :=
  ⟨⟨by decide, by decide⟩, rfl, s0_memOk, reaches_store, s0_window 8 (by decide), by decide, by decide⟩
theorem witness_AtomicResults : s0.runs hdr [.C, .A] ∧ s0.calm ∧ s0.memOk ∧ (s0.getS 5).toNat % 8 = 0 ∧
    s0.reaches .rw 2 (s0.getS 5).toNat 8 true xl0 ∧ (s0.getS 6).toNat % 8 = 0 ∧
    s0.window 0x01FF_FFFF_0000_0000 8 0 :=
  ⟨⟨by decide, by decide⟩, rfl, s0_memOk, by decide, reaches_atomic, by decide, s0_window 8 (by decide)⟩
/-- AccessFaults: an address of each range that breaks it, at its edge; an access that leaves its line, and an atomic at no
multiple of its size; a store to the device tree; pages that each check turns away; and a walk that met a fault. -/
def sLeaf (leaf : Nat) : State := s0.modCore 0 fun c => { c with tlb := [⟨1, false, 1, 0, leaf, 0x300000⟩] }
def leafOf (leaf : Nat) : Tlb := ⟨1, false, 1, 0, leaf, 0x300000⟩
theorem witness_AccessFaults :
    s0.runs hdr [.C, .A] ∧ s0.calm ∧ vrange 0x0200_0000_0000_0000 = .reserved ∧
      (vrange 0x01FF_FFFF_0000_FFFC = .scratch 0xFFFC ∧ s0.job.window < 0xFFFC + 8 ∧ ¬ s0.job.window < 0xFFF8 + 8) ∧
      (vrange 0x01FF_FFFF_8000_1008 = .copy 1 8 ∧ vrange 0x01FF_FFFF_8000_1000 = .copy 1 0 ∧ ¬ recChan s0.job.lrec ≤ 1) ∧
      (vrange 0x01FF_FFFF_C000_FFFC = .dtree 0xFFFC ∧ 65536 < 0xFFFC + 8 ∧ ¬ 65536 < 0x10 + 8) ∧
      (vrange 0x200FC = .mapped ∧ 256 < 0x200FC % 256 + 8) ∧ (vrange 0x20004 = .mapped ∧ ¬ 256 < 0x20004 % 256 + 8 ∧ 0x20004 % 8 ≠ 0) :=
  ⟨⟨by decide, by decide⟩, rfl, by decide, by decide, by decide, by decide, by decide, by decide⟩
theorem witness_AccessFaults_page : ∀ leaf ∈ [0x400013, 0x400033 + 2 ^ 52, 0x400033 + 2 ^ 43, 0x5000_0000_0033],
    (sLeaf leaf).tlbFind (sLeaf leaf).job.coreIx ((sLeaf leaf).job.tlbKind (sLeaf leaf).asker) (sLeaf leaf).job.ctx 0x20008 =
      some (leafOf leaf) ∧ (sLeaf leaf).job.walkFaults = [] := by decide
theorem witness_AccessFaults_checks :
    let place := fun (leaf : Nat) => regionOf 0 (leafPa 1 leaf 0x20008)
    needOk .w 0x400013 = false ∧
      (needOk .w (0x400033 + 2 ^ 52) = true ∧ ¬(s0.job.ctx.sec = true ∨ pteS (0x400033 + 2 ^ 52) = false)) ∧
      (needOk .w (0x400033 + 2 ^ 43) = true ∧ pteS (0x400033 + 2 ^ 43) = false ∧
        s0.worldOk false (placeAddr (place (0x400033 + 2 ^ 43))) 8 = true ∧ s0.backed (place (0x400033 + 2 ^ 43)) = false) ∧
      (needOk .w 0x5000_0000_0033 = true ∧ pteS 0x5000_0000_0033 = false ∧
        s0.worldOk false (placeAddr (place 0x5000_0000_0033)) 8 = true ∧ s0.backed (place 0x5000_0000_0033) = true ∧
        s0.ownerOk s0.job.ctx.asid s0.job.ctx.sec (place 0x5000_0000_0033) = false) := by decide
theorem witness_AccessFaults_walk :
    let s := (s0.modCore 0 fun c => { c with tlb := [] }).modJob fun j => { j with walkFaults := [(.strm .C, ⟨0x10, 0x20008, 0, 0, 0⟩)] }
    s.tlbFind s.job.coreIx (s.job.tlbKind s.asker) s.job.ctx 0x20008 = none ∧ s.asker = .strm .C ∧
      s.job.walkFaults = (.strm .C, ⟨0x10, 0x20008, 0, 0, 0⟩) :: [] := ⟨by decide, rfl, rfl⟩
theorem witness_FenceAndIsyncResults : (∀ j ∈ s0.jobs, j.lines = []) ∧ s0.unowed s0.agent ∧ s0.runs hdr [.C, .A] ∧
    s0.runs hdr allStreams :=
  ⟨by intro j h; cases h <;> [rfl; contradiction], s0_unowed _, ⟨by decide, by decide⟩, runs_s0 .C⟩
/-- CacheHintResults: an address in the window; the mapped page, with a translation and with a fault of its walk. -/
theorem witness_CacheHintResults :
    let s := s0.modJob fun j => { j with walkFaults := [(.strm .C, ⟨0x10, 0x40_0000, 0, 0, 0⟩)] }
    s0.runs hdr [.C, .A] ∧ vrange 0x01FF_FFFF_0000_0100 ≠ .mapped ∧ vrange 0x20000 = .mapped ∧
      s0.job.inStashRange 0x20000 = false ∧ xlate .r 0 0x20000 1 s0 = .ok xl0 s0 ∧ (xl0.cc ≠ 2 ∧ leased xl0.pa = true) ∧
      recallLine (xl0.pa / 256 * 256) s0 = .ok () s0 ∧ (∃ e t, xlate .r 0 0x40_0000 1 s = .error (.fault e) t) ∧
      s0.job.coreIx < 256 ∧ s0.sound ∧ s0.unowed s0.agent ∧
      (s0.coreAt s0.job.coreIx).l1.any (fun c => c.usable (xl0.pa / 256) (s0.clock s0.job.coreIx) s0.cycle) = false ∧
      (sHeld.coreAt sHeld.job.coreIx).l1.any (fun c => c.usable (xl0.pa / 256) (sHeld.clock sHeld.job.coreIx) sHeld.cycle) = true :=
  ⟨⟨by decide, by decide⟩, by decide, by decide, by decide, rfl, by decide, rfl, ⟨_, _, rfl⟩, by decide, rfl, s0_unowed _, by decide,
    by decide⟩
/-- StashWindowResults: a request in order and one that is not; a window not mapped and one mapped; a mask naming each. -/
def sStash : State :=
  s0.modJob fun j => { j with
    stash := j.stash.set 1 ⟨true, 0, 0, 0, 4⟩, lines := [⟨1, 2, 0x400200, 0, true, 0, 0⟩] }
theorem witness_StashWindowResults : s0.runs hdr [.C, .A] ∧ s0.calm ∧ s0.unheld ∧ s0.weirFree = true ∧
    smapBad s0.job 1 0x1_0000 0 = false ∧ smapBad s0.job 1 0x1_0001 0 = true ∧
    (vget ⟨false, 0, 0, 0, 0⟩ s0.job.stash 1).v = false ∧ (vget ⟨false, 0, 0, 0, 0⟩ sStash.job.stash 1).v = true ∧ sStash.calm ∧
    sStash.sound :=
  ⟨⟨by decide, by decide⟩, rfl, s0_unheld, by decide, by decide, by decide, by decide, by decide, rfl, rfl⟩
theorem witness_StashWindowResults_writeBack : sStash.memOk ∧ sStash.job.present = true ∧ ⟨1, 2, 0x400200, 0, true, 0, 0⟩ ∈ sStash.job.lines ∧
    (∀ p ∈ sStash.posted, lineOf p.pa ≠ lineOf 0x400200) ∧
    ∀ l ∈ sStash.job.lines, ∀ die k off, regionOf sStash.hub.pos.toNat (lineOf l.pa * 256) ≠ .scratch die k off := by
  refine ⟨s0_memOk, by decide, by decide, (by intro p h; cases h), fun l h die k off e => ?_⟩
  cases List.mem_singleton.mp h
  have : regionOf sStash.hub.pos.toNat (lineOf 0x400200 * 256) = .lpddr 0 0x400200 := by decide
  rw [this] at e
  cases e
/-- StreamRegisterResults: the page, the window and the device tree; a four-bit format moved by an odd count along its first
dimension, and a block format moved by part of a block and by a block. -/
theorem witness_StreamRegisterResults :
    s0.runs hdr [.C, .A] ∧ s0.calm ∧ s0.reaches .r 0 0x20000 64 false xl0 ∧ s0.window 0x01FF_FFFF_0000_0000 64 0 ∧
      fmtFour 0x28 = true ∧ (s0.getS 7).toInt % 2 ≠ 0 ∧ (s0.getS 7).toInt % 32 ≠ 0 ∧ (s0.getS 0).toInt % 32 = 0 :=
  ⟨⟨by decide, by decide⟩, rfl, reaches_words, s0_window 64 (by decide), by decide, by decide, by decide, by decide⟩
theorem witness_StreamRegisterResults_tree : vrange 0x01FF_FFFF_C000_0040 = .dtree 0x40 ∧
    ∃ x, dtreeXl .r 0 0x40 64 sTree = .ok x sTree ∧ recallLine x.pa sTree = .ok () sTree ∧ sTree.sound ∧ sTree.unowed sTree.agent :=
  ⟨by decide, _, rfl, rfl, rfl, unowed_of rfl (fun x => by cases x <;> rfl) _⟩
/-- CopyIsQueued: a template in the window. -/
theorem witness_CopyIsQueued :
    let s := s0.modJob fun j => { j with ctbase := 0x01FF_FFFF_0000_0000 }
    s.runs hdr [.C, .A] ∧ s.calm ∧ 1 < recChan s.job.lrec ∧ queuedCopies (vget [] s.job.chans 1) < 32 ∧ s.weirFree = true ∧
      ∃ tmpl u, readTemplate s.job.ctbase.toNat (s.getS 7) s = .ok tmpl u :=
  ⟨⟨by decide, by decide⟩, rfl, by decide, by decide, by decide, _, _, rfl⟩

/-! ### Queues, tokens, synchronisation -/

def full : State := s0.modJob fun j => { j with
  aq := j.aq.set 1 (List.replicate 32 0), bq := List.replicate 32 true, tk := j.tk.set 0 16 }
def some1 : State := s0.modJob fun j => { j with aq := j.aq.set 1 [5, 6], bq := [true], tk := j.tk.set 0 1 }
/-- QueueAndTokenResults: A pushes, into queues with room and full; V takes from aq1, with entries and without, and with a count
still to drop; C is neither. -/
theorem witness_QueueAndTokenResults_queues :
    (on .A s0).runs hdr allStreams ∧ (on .A s0).calm ∧ (on .A s0).cur = .A ∧ (s0.job.aq[1]).length < 32 ∧ s0.job.bq.length < 32 ∧
      32 ≤ (full.job.queue (.aq 1)).length ∧ 32 ≤ full.job.bq.length ∧ s0.cur ≠ .A ∧
      s0.cur ≠ queueConsumer s0.job (.aq 1) ∧ (on .V s0).cur = queueConsumer s0.job (.aq 1) ∧
      some1.job.queue (.aq 1) = 5 :: [6] ∧ s0.job.queue (.aq 1) = [] ∧ s0.str.qdrop = none ∧
      (s0.getS 0).toInt.toNat ≤ (some1.job.queue (.aq 1)).length ∧ (some1.job.queue (.aq 1)).length < (s0.getS 7).toInt.toNat ∧
      (some1.modStr fun t => { t with qdrop := some 2 }).str.qdrop = some 2 ∧ 2 ≤ (some1.job.queue (.aq 1)).length :=
  ⟨runs_s0 .A, rfl, by decide⟩
/-- QueueAndTokenResults: tk2 is not used; tk0 goes from C to A. -/
theorem witness_QueueAndTokenResults_tokens :
    s0.runs hdr allStreams ∧ s0.calm ∧ recTk s0.job.lrec 2 = 0 ∧ recTk s0.job.lrec 0 ≠ 0 ∧ s0.cur = streamOf (recTk s0.job.lrec 0 / 4) ∧
      (on .A s0).cur ≠ streamOf (recTk s0.job.lrec 0 / 4) ∧ (on .A s0).cur = streamOf (recTk s0.job.lrec 0 % 4) ∧
      s0.cur ≠ streamOf (recTk s0.job.lrec 0 % 4) ∧ s0.job.tk[0] = 0 ∧ 16 ≤ full.job.tk[0] ∧ 0 < some1.job.tk[0] :=
  ⟨runs_s0 .C, rfl, by decide⟩
/-- StreamBarrierResults: C arrives alone, and as the last of the four; a phase that is given and one that is not; no gang,
and a gang of one level. -/
def gang0 : State := s0.modJob fun j => { j with lrec := rec0.set 0 0x0110_8888_0000_0000 }
def three : State := s0.modJob fun j => { j with bar0 := { j.bar0 with arrived := [.A, .M, .V] } }
theorem witness_StreamBarrierResults :
    s0.runs hdr allStreams ∧ s0.calm ∧ s0.job.always s0.cur = false ∧ s0.cur ∉ s0.job.bar0.arrived ∧ s0.job.bar0.phase < 2 ^ 32 ∧
      ¬(StreamId.A = s0.cur ∨ .A ∈ s0.job.bar0.arrived ∨ s0.job.always .A = true) ∧
      (s0.cur ∉ three.job.bar0.arrived ∧ ∀ x ∈ allStreams, x = s0.cur ∨ x ∈ three.job.bar0.arrived) ∧ s0.str.bar = none ∧
      s0.job.bar0.phase ≠ (s0.getS 7).toNat % 2 ^ 32 ∧ s0.job.bar0.phase = (s0.getS 0).toNat % 2 ^ 32 ∧
      (1 : BitVec 3) ≠ 0 ∧ recGang s0.job.lrec = false ∧ recGang gang0.job.lrec = true ∧ recLevels gang0.job.lrec ≤ 1 :=
  ⟨runs_s0 .C, rfl, by decide⟩
/-- BarrierObjectArrival: an object for one job of a level of one, and one that holds zeros. -/
def sBar : State :=
  (gang0.modJob fun j => { j with lrec := j.lrec.set 8 0x20000 }).modJob fun j =>
    { j with lrec := (j.lrec.set 0 0x0112_8888_0000_0000).set 16 1 }
theorem witness_BarrierObjectArrival :
    let s : State := { sBar with mem := sBar.mem ++ [(0x420008, 2)] }
    (1 ≠ 0 ∧ s.memOk ∧ s.sound ∧ s.unowed s.agent ∧ barrierXl 1 .rw 2 s = .ok xl0 s ∧ recallLine xl0.pa s = .ok () s ∧
      leNum (((s.mem.readMany xl0.pa 64).drop 8).take 8) = 2 ∧ recS s.job.lrec 1 = 2) ∧
    (sBar.memOk ∧ sBar.sound ∧ sBar.unowed sBar.agent ∧ barrierXl 1 .rw 2 sBar = .ok xl0 sBar ∧ recallLine xl0.pa sBar = .ok () sBar ∧
      leNum (((sBar.mem.readMany xl0.pa 64).drop 8).take 8) = 0) :=
  ⟨⟨by decide, ⟨by decide, rfl, rfl⟩, rfl, unowed_of rfl (fun x => by cases x <;> rfl) _, rfl, rfl, by decide, by decide⟩,
    ⟨by decide, rfl, rfl⟩, rfl, unowed_of rfl (fun x => by cases x <;> rfl) _, rfl, rfl, by decide⟩
/-- JoinResult: no stream has arrived; the three others have, and the one in turn completes the job's arrival, at a barrier
object of zeros but for two jobs expected. -/
def sLast : State := { (sGang.modJob fun j => setBar j 1 ⟨[.A, .M, .V], 0, none⟩) with mem := s0.mem ++ [(0x420008, 2)] }
theorem witness_JoinResult : s0.runs hdr allStreams ∧ s0.calm ∧ s0.stillOpen ∧ s0.cur ≠ .M ∧ (on .M s0).cur = .M ∧
    sLast.calm ∧ recGang sLast.job.lrec = true ∧ recLevels sLast.job.lrec = 2 ∧
    (∀ y, y ≠ sLast.cur → y ∈ (barAt sLast.job 1).arrived ∨ sLast.job.always y = true) ∧ (barAt sLast.job 1).last ≠ some 0 :=
  ⟨runs_s0 .C, rfl, witness_ShortFormResults.2.2.1, by decide, rfl, rfl, by decide, by decide, fun y h => by cases y <;> first | decide | exact absurd rfl h,
    by decide⟩
theorem witness_JoinResult_arrives :
    (∃ p u, phaseNow 1 (sLast.fenced 1) = .ok p u ∧ (decide (p.1 = 0) && decide (u.job = (sLast.fenced 1).job) &&
      decide (u.cur = sLast.cur) &&
      (match jobArrival 1 (u.fenced (sLast.job.barScope 1)) with | .ok q _ => decide (q = 0) | .error .. => false)) = true) ∧
    ∃ a u, joinArrivals (sLast.fenced 1) = .ok a u ∧ decide (u.cur = sLast.cur) = true :=
  ⟨ends_with (p := fun (p : Nat × Nat) u => decide (p.1 = 0) && decide (u.job = (sLast.fenced 1).job) &&
      decide (u.cur = sLast.cur) &&
      (match jobArrival 1 (u.fenced (sLast.job.barScope 1)) with | .ok q _ => decide (q = 0) | .error .. => false)) (by decide +kernel),
    ends_with (p := fun _ u => decide (u.cur = sLast.cur)) (by decide +kernel)⟩
/-- FlagResults: the word at the page is 0: EQ holds for s0, and not for s7. -/
theorem witness_FlagResults : s0.runs hdr allStreams ∧ s0.calm ∧ s0.memOk ∧ (s0.getS 5 + (0 : Imm).signExtend 64).toNat % 8 = 0 ∧
    s0.reaches .w 1 0x20000 8 true xl0 ∧ s0.reaches .rw 2 0x20000 8 true xl0 ∧ s0.reaches .r 0 0x20000 8 false xl0 ∧
    BitVec.ofNat 64 (leNum (s0.mem.readMany xl0.pa 8)) = s0.getS 0 ∧ BitVec.ofNat 64 (leNum (s0.mem.readMany xl0.pa 8)) ≠ s0.getS 7 :=
  ⟨runs_s0 .C, rfl, s0_memOk, by decide, reaches_store, reaches_atomic, reaches_load, by decide, by decide⟩
/-- SemaphoreResults: units there and not; a served waiter; a release with no waiter, to a waiter, and above the ceiling. -/
theorem witness_SemaphoreResults :
    let s := fun (m : Sem) => s0.modJob fun j => setSem j 1 m
    let m := fun (m : Sem) => semAt (s m).job 1
    let mine := fun (m : Sem) => m.waiters.find? fun w => w.1 == s0.cur
    s0.runs hdr allStreams ∧ s0.calm ∧ (mine (m ⟨2, 4, []⟩) = none ∧ 1 ≤ (m ⟨2, 4, []⟩).count ∧ ∀ w ∈ (m ⟨2, 4, []⟩).waiters, w.2 = 0) ∧
      (mine (m ⟨2, 4, [(.A, 3)]⟩) = none ∧ ¬∀ w ∈ (m ⟨2, 4, [(.A, 3)]⟩).waiters, w.2 = 0) ∧
      mine (m ⟨2, 4, [(.C, 0)]⟩) = some (s0.cur, 0) ∧ mine (m ⟨2, 4, [(.C, 3)]⟩) = some (s0.cur, 2 + 1) ∧
      (m ⟨2, 4, []⟩).count + 1 ≤ (m ⟨2, 4, []⟩).ceil ∧ (m ⟨4, 4, []⟩).ceil < (m ⟨4, 4, []⟩).count + 1 ∧
      ((⟨2, 4, [(.A, 3)]⟩ : Sem).waiters = (.A, 3) :: [] ∧ 2 < 3) ∧ (⟨2, 4, [(.A, 1)]⟩ : Sem).waiters = (.A, 1) :: [] ∧ 1 ≤ 2 :=
  ⟨runs_s0 .C, rfl, by decide⟩
/-- TimelineResults: number 0; a channel that the job has and one that it has not; a count reached and one that is not; a
copy with a status that asks for its fault. -/
theorem witness_TimelineResults :
    let s := s0.modJob fun j => { j with
      tl := j.tl.set 1 ⟨5, 3, []⟩, status5 := j.status5.set 1 [(3, 0x102)], lrec := rec0.set 0 0x0100_4888_0000_0000 }
    let n := fun (imm : BitVec 45) => (s.getS 0 + imm.zeroExtend 64).toNat
    s.runs hdr allStreams ∧ s.calm ∧ n 0 = 0 ∧ n 2 ≠ 0 ∧ ¬(4 ≤ 3 ∨ 3 < recChan s.job.lrec) ∧ (4 ≤ 1 ∨ 1 < recChan s.job.lrec) ∧
      n 2 ≤ (vget ⟨0, 0, []⟩ s.job.tl 1).completed ∧ statusFault s.job 1 (n 2) = none ∧
      (vget ⟨0, 0, []⟩ s.job.tl 1).completed < n 4 ∧ n 3 ≤ (vget ⟨0, 0, []⟩ s.job.tl 1).completed ∧
      statusFault s.job 1 (n 3) = some (3, 0x102) := ⟨⟨by decide, by decide⟩, rfl, by decide⟩

/-! ### Engines -/

/-- VectorIssue: st0 is a 64 by 4 tensor of the window; names inside the window and outside it; an accumulator that the job
has and one that it has not. -/
theorem witness_VectorIssue :
    let s := on .V s0
    s.runs hdr [.V] ∧ s.calm ∧ s.mayEnter = true ∧ stBad (s.job.stWords 0) = false ∧ vgeomBad (s.job.stWords 0) 0 = false ∧
      stBad (s.job.stWords 1) = true ∧ vgeomBad ((s.job.stWords 0).set 1 0x0003_0040) 0 = true ∧
      (∃ rs, s.job.resolveRun true 10 (stE (s.job.stWords 0) 1) = some rs) ∧ s.job.resolveRun true 510 4 = none ∧
      s.job.bindBreach [⟨0, false, 64⟩] = none ∧ s.job.bindBreach [⟨9, false, 64⟩] = some 9 ∧
      (∃ i, s.job.resolve true 10 = some i) ∧ s.job.resolve true 512 = none ∧ 1 < recAccs s.job.lrec ∧
      (∃ rs, s.job.resolveRun true 10 3 = some rs) :=
  ⟨⟨by decide, by decide⟩, rfl, by decide, by decide, by decide, by decide, by decide, ⟨_, rfl⟩, by decide, by decide, by decide,
    ⟨_, rfl⟩, by decide, by decide, _, rfl⟩
theorem witness_LaneResults :
    let s := on .V s0
    s.runs hdr [.V] ∧ s.job.resolve true 10 = some 10 ∧ s.job.resolve true 11 = some 11 ∧ s.job.resolve true 12 = some 12 ∧
      s.lanesFree [11, 12] [10] ∧ (0 + 512 ≤ recVregs s.job.lrec) ∧ recVregs s.job.lrec < 1 + 512 ∧
      s.job.resolve true 512 = none ∧ Cells.wf 0 s.job.vreg = true := by
  have e : (on .V s0).job.entries = [] := rfl
  have l : (on .V s0).job.lineages = [] := rfl
  refine ⟨⟨by decide, by decide⟩, by decide, by decide, by decide, ?_, by decide, by decide, by decide, by decide⟩
  unfold State.lanesFree; rw [e, l]; exact ⟨by simp, rfl, by simp⟩
/-- MatrixIssue: st0 is a tile and a moving stream of 16-bit numbers; with a last MLDS and without. -/
def loaded : State := (on .M s0).modJob fun j => { j with last := some ⟨1, 64, 4, 0x11, none⟩ }
theorem witness_MatrixIssue :
    let s := on .M s0
    let w := s.job.stWords 0
    s.runs hdr [.M] ∧ s.calm ∧ s.mayEnter = true ∧ stBad w = false ∧ tileBad w 2 0 = false ∧
      tileBad (w.set 1 0x0003_0040) 2 0 = true ∧ s.job.bindBreach [⟨0, false, 4⟩] = none ∧ s.job.accOk 1 = true ∧
      loaded.job.last = some ⟨1, 64, 4, 0x11, none⟩ ∧ movingBad ⟨1, 64, 4, 0x11, none⟩ w 0 0 false = false ∧
      movingBad ⟨1, 64, 4, 0x11, none⟩ w 0 0 true = false ∧ movingBad ⟨1, 64, 4, 0x11, none⟩ w 61 0 true = true ∧
      movingBad ⟨1, 64, 4, 0x11, none⟩ w 61 0 false = true ∧ s.job.last = none ∧ rowsBad w 0 true = false ∧
      rowsBad w 0 false = false ∧ rowsBad w 61 true = true ∧ rowsBad w 61 false = true ∧
      (fmtClass 0x11 = some 0 ∧ 64 = 64 ∧ (2 : AccReg) ≠ 1 ∧ 0 + 4 ≤ 64) ∧ ¬(61 + 4 ≤ 64) ∧
      (operandBad w 2 0 || tileBad w 3 0 || !pairOk (stFmt w) (stFmt w) || stE w 0 != stE w 0) = false ∧
      (operandBad w 2 0 || tileBad (w.set 1 0x0003_0040) 3 0 || !pairOk (stFmt w) (stFmt w) || stE w 0 != stE w 0) = true ∧
      (s.getS 6).toNat % 8 = 0 ∧ (∃ rs, s.job.resolveRun false 10 8 = some rs) ∧ s.job.resolveRun false 510 8 = none ∧
      (s.modJob fun j => { j with lrec := [] }).job.accOk 1 = false ∧ stBad (s.job.stWords 1) = true :=
  ⟨⟨by decide, by decide⟩, rfl, by decide, by decide, by decide, by decide, by decide, by decide, rfl, by decide, by decide, by decide,
    by decide, by decide, by decide, by decide, by decide, by decide, by decide, by decide, by decide, by decide, by decide, ⟨_, rfl⟩,
    by decide, by decide, by decide⟩
theorem witness_MatrixIssue_keyed : ∃ key u, keyOf (s0.job.stWords 0) 0 s0.job.bdom s0.job.nextId (on .M s0) = .ok key u ∧ u.calm ∧
    u.mayEnter = true :=
  ⟨_, _, rfl, rfl, by decide⟩
/-- SpillResults: an accumulator that the job has and one that it has not; a tile busy and not; room and none; a mask of
accumulators that the job has, with a lineage of one and with none. -/
def lin0 : Lineage := ⟨0, 1, 0, 2, 2, 0, 0, false, [], [], []⟩
def sLin : State := (on .M s0).modJob fun j => { j with lineages := [lin0] }
def sBusy : State := ((on .M s0).entered (.mzero hdr 1) 4 { Keys.none with aw := [1] } fun o => o)
theorem witness_SpillResults :
    let s := on .M s0
    s.runs hdr [.M] ∧ (recAccs (s.modJob fun j => { j with lrec := [] }).job.lrec ≤ 1) ∧ 1 < recAccs s.job.lrec ∧
      (s.job.entries.any fun e => e.keys.aw.contains 1) = false ∧ (sBusy.job.entries.any fun e => e.keys.aw.contains 1) = true ∧
      ((s.job.lineages.any fun l => l.holds (.acc 1)) = false ∧ 1 + 2 ≤ s.freeTiles) ∧ ¬(1 + 8 ≤ s.freeTiles - 250) ∧
      (s.job.lineage 0).isNone = true ∧ (sLin.job.lineages.any fun l => l.holds (.acc 1)) = true ∧
      (∀ l ∈ s.job.lineages, (l.names fun a => (2 : BitVec 8).getLsbD a) = false) ∧
      sLin.job.lineages.filter (fun l => l.names fun a => (2 : BitVec 8).getLsbD a) = lin0 :: [] ∧
      (∀ a < 8, (2 : BitVec 8).getLsbD a = true → a < recAccs s.job.lrec) :=
  ⟨⟨by decide, by decide⟩, by decide⟩
/-- PortInstructionResults: a slot that the job has and one that it has not; an image in the window and one in the page. -/
theorem witness_PortInstructionResults :
    s0.runs hdr [.C] ∧ s0.calm ∧ s0.job.entries = [] ∧ s0.job.parity = [] ∧ s0.weirFree = true ∧ s0.unwaited ∧
      s0.unowned 256 264 ∧ recPslots s0.job.lrec < 9 ∧ 1 ≤ recPslots s0.job.lrec ∧
      (vrange 0x01FF_FFFF_0000_0100 = .scratch 256 ∧ 256 + 264 ≤ s0.job.window ∧ 0x01FF_FFFF_0000_0100 % 8 = 0) ∧
      s0.unheld ∧ s0.unstashed ∧ s0.sound ∧ Cells.wf 0 PortSlot.empty.carry = true ∧ Cells.wf 0 PortSlot.empty.win = true :=
  ⟨⟨by decide, by decide⟩, rfl, rfl, rfl, by decide, s0_unheld.2.2.2, unowned_of rfl rfl _ _, by decide, by decide, by decide, s0_unheld,
    by unfold State.unstashed; decide, rfl, by decide, by decide⟩
theorem witness_PortInstructionResults_image :
    ∃ bs u, readImage 1 0x20000 s0 = .ok bs u ∧ (decide (u.job.slots = s0.job.slots) && decide (u.cur = s0.cur) &&
      decide (u.rest = []) && allStreams.all fun x => (u.job.str x).wait.isNone) = true :=
  ends_with (p := fun _ u => decide (u.job.slots = s0.job.slots) && decide (u.cur = s0.cur) && decide (u.rest = []) &&
    allStreams.all fun x => (u.job.str x).wait.isNone) (by decide +kernel)

/-- A computation that gives a value. -/
theorem ok_is {ε α : Type} [DecidableEq α] {e : Except ε α} {a : α}
    (h : (match e with | .ok x => decide (x = a) | .error _ => false) = true) : e = .ok a := by
  cases e with
  | ok x => exact congrArg Except.ok (of_decide_eq_true h)
  | error => cases h

/-! ### System registers, traps, launches -/

theorem witness_SystemRegisterReads : s0.runs hdr allStreams ∧ s0.job.lrec ≠ [] := ⟨runs_s0 .C, by decide⟩
/-- SystemRegisterWrites: a channel that the job has and one that it has not; copies complete and not; an empty range, and a
range of one block with EN and without. -/
theorem witness_SystemRegisterWrites :
    let few := s0.modJob fun j => { j with lrec := rec0.set 0 0x0100_4888_0000_0000 }
    let busy := s0.modJob fun j => { j with tl := j.tl.set 1 ⟨2, 1, []⟩ }
    let hi := fun (v : Word) => ((v.extractLsb' 40 15).toNat + 1) * 256
    let lo := fun (v : Word) => (v.extractLsb' 8 15).toNat * 256
    s0.runs hdr [.C] ∧ recChan few.job.lrec ≤ 3 ∧ 1 < recChan s0.job.lrec ∧ s0.str.wait = none ∧
      (vget ⟨0, 0, []⟩ s0.job.tl 1).issued ≤ (vget ⟨0, 0, []⟩ s0.job.tl 1).completed ∧
      (vget ⟨0, 0, []⟩ busy.job.tl 1).completed < (vget ⟨0, 0, []⟩ busy.job.tl 1).issued ∧ hi 0x200 ≤ lo 0x200 ∧
      ¬(hi 0x200_0000_0100 ≤ lo 0x200_0000_0100 ∨ s0.job.window < hi 0x200_0000_0100) ∧
      (0x200_0000_0100 : Word).msb = false ∧ ¬(hi 0x8000_0200_0000_0100 ≤ lo 0x8000_0200_0000_0100) ∧
      (0x8000_0200_0000_0100 : Word).msb = true ∧ (0x020 : Nat) < 4096 ∧ 0x040 ∉ [0x020, 0x030, 0x031, 0x061] :=
  ⟨⟨by decide, by decide⟩, by decide⟩
/-- FaultIsTaken: a user-recoverable fault of A, at once; of C within a handler; and a fault that the system handles. -/
def inTrap0 : State := s0.modJob fun j => { j with trap := { j.trap with inTrap := true, strm := .A, seq := 1, tret := 0x1010 } }
theorem witness_FaultIsTaken :
    (∀ y, (s0.job.str y).wait = none) ∧ (∀ y, (s0.job.str y).hold = none) ∧ s0.noOutside (.part s0.job.num (.strm .C)) ∧
      s0.noOutside (.part s0.job.num (.code .C)) ∧ (∀ p ∈ s0.posted, lineOf p.pa ≠ lineOf 0x411100) ∧
      (∀ p keep, outsideWait (.hw p) (fun _ _ => false) (regionOf s0.hub.pos.toNat 0x411100) 256 true keep s0 = .ok () s0) ∧ s0.memOk ∧ userCause 0x09 = true ∧ userCause 0x10 = false ∧
      recTrapv s0.job.lrec ≠ 0 ∧ recEntry s0.job.lrec .C ≠ 0 ∧ s0.job.trap.inTrap = false ∧ inTrap0.job.trap.inTrap = true :=
  ⟨fun y => by cases y <;> rfl, fun y => by cases y <;> rfl, s0_noOutside _, s0_noOutside _, (by intro p h; cases h), fun _ _ => rfl,
    s0_memOk, by decide⟩
/-- The place of the first record: 64 KiB, a page of the job's number and one record into the mapped page. -/
theorem witness_FaultIsTaken_place :
    xlateNow s0 s0.job.ctx .w (faultAddr s0.job s0.job.nextSeq) 256 =
        .ok ⟨.lpddr 0 0x411100, 0x411100, 0, false, 0x400033, 1⟩ ∧ recallLine 0x411100 s0 = .ok () s0 :=
  ⟨ok_is (by decide +kernel), rfl⟩
/-- TrapBreakAndReturn: debug off and on; outside a handler, and within one for a fault of A that holds it. -/
def inTrapA : State := inTrap0.modJob fun j =>
  { j with faults := [⟨1, { FaultInfo.of 0x09 with strm := .A, pc := 0x1000 }, 1, false, .stream .A, none⟩], a := { j.a with hold := some 1 } }
theorem witness_TrapBreakAndReturn :
    s0.runs hdr [.C] ∧ s0.runs hdr allStreams ∧ s0.str.wait = none ∧ s0.job.trap.inTrap = false ∧ s0.job.debug = false ∧
      (s0.modJob fun j => { j with debug := true }).job.debug = true ∧ inTrapA.job.trap.inTrap = true ∧ inTrapA.calm ∧
      ((inTrapA.job.faults.find? fun r => r.seq == inTrapA.job.trap.seq).map fun r => r.info.strm) = some .A ∧
      (inTrapA.job.str .A).hold = some inTrapA.job.trap.seq ∧
      (∀ q ∈ inTrapA.job.faults, q.seq ≠ inTrapA.job.trap.seq → q.holdsStream .A = false) ∧
      (inTrapA.fenced 1).trapReturn.hwLoad (faultAddr inTrapA.job 1 + 8) 8 = some (List.replicate 8 0) :=
  ⟨⟨by decide, by decide⟩, runs_s0 .C, rfl, rfl, rfl, rfl, rfl, rfl, by decide, by decide, by decide, by decide +kernel⟩
theorem recordReady_ok {n : Nat} {s : State} {x : Xl} (h : xlateNow s s.job.ctx .r (faultAddr s.job n) 256 = .ok x)
    (o : outsideClear none x.region 256 false s = .ok () s) (r : recallLine x.pa s = .ok () s) : recordReady n s = .ok () s := by
  simp [recordReady, bind, EStateM.bind, get, getThe, MonadStateOf.get, EStateM.get, h, o, r]
theorem witness_TrapBreakAndReturn_record : inTrapA.sound ∧
    recordReady inTrapA.job.trap.seq (inTrapA.fenced 1) = .ok () (inTrapA.fenced 1) :=
  ⟨rfl, recordReady_ok (x := ⟨.lpddr 0 0x411100, 0x411100, 0, false, 0x400033, 1⟩) (ok_is (by decide +kernel)) rfl rfl⟩
/-- SliceofResult: in the window and beyond it, beyond the space, at a translated page, and at a page of the secure world. -/
def sSec : State := s0.modCore 0 fun c => { c with tlb := [⟨1, false, 1, 0, 0x400033 + 2 ^ 52, 0x300000⟩] }
theorem witness_SliceofResult :
    s0.runs hdr allStreams ∧ vrange 0x01FF_FFFF_0000_0100 = .scratch 256 ∧ 256 < s0.job.window ∧ s0.job.window ≤ 65536 ∧
      vaOk 0x0200_0000_0000_0000 1 = false ∧ vrange 0x20000 = .mapped ∧ vaOk 0x20000 1 = true ∧
      (∃ t, s0.tlbFind s0.job.coreIx (s0.job.tlbKind s0.asker) s0.job.ctx 0x20000 = some t ∧ pteS t.leaf = false ∧
        s0.backed (regionOf 0 (leafPa t.level t.leaf 0x20000)) = true) ∧
      (∃ t, sSec.tlbFind sSec.job.coreIx (sSec.job.tlbKind sSec.asker) sSec.job.ctx 0x20000 = some t ∧ pteS t.leaf = true ∧ sSec.job.ctx.sec = false) ∧
      s0.backed (.lpddr 0 (2 ^ 43)) = false ∧ vrange 0x01FF_FFFF_C000_0000 = .dtree 0 ∧ vrange 0x01FF_FFFF_0080_0000 = .reserved :=
  ⟨runs_s0 .C, by decide, by decide, by decide, by decide, by decide, by decide, ⟨_, rfl, by decide, by decide⟩, ⟨_, rfl, by decide, rfl⟩,
    by decide, by decide, by decide⟩
/-- LaunchResult: an address that is not aligned; a queue closed, open and full; a record of zeros, and one in order. -/
def recGood : List Word := rec0.set 16 0x2000_0000_0000_0000
def bytesOf (ws : List Word) : List Byte := ws.flatMap fun w => leList 8 w.toNat
def sQueue : State := (s0.modDie 0 fun d => { d with lqd := [(0, 0x8030_0001_0000_0000)] })
def sRecord : State := { sQueue with mem := sQueue.mem.writeMany 0x420000 (bytesOf recGood) }
def sQueueFull : State := sQueue.modDie 0 fun d => { d with lqd := [(0, 0x8030_0001_0000_0000), (6, 8)] }
theorem witness_LaunchResult :
    s0.runs hdr [.C] ∧ s0.calm ∧ (s0.getS 7).toNat % 256 ≠ 0 ∧ (s0.getS 5).toNat % 256 = 0 ∧
      (s0.fenced 5).reaches .r 0 0x20000 256 false xl0 ∧ 1024 ≤ (s0.getS 8).toNat ∧ (s0.getS 0).toNat < 1024 ∧
      ((s0.dieAt 0).lq 0 0).msb = false ∧
      (sQueue.hub.boot.started ∧ ((sQueue.dieAt 0).lq 0 0).msb = true ∧ ((sQueue.dieAt 0).context 0).asid = sQueue.job.ctx.asid ∧
        ((sQueue.dieAt 0).context 0).sec = sQueue.job.ctx.sec) ∧ (sQueue.dieAt 0).lqFull 0 = false ∧
      (sQueueFull.dieAt 0).lqFull 0 = true ∧ recReason (wordsOf 32 (List.replicate 256 0)) false false ≠ 0 ∧
      recReason recGood false false = 0 :=
  ⟨⟨by decide, by decide⟩, rfl, by decide, by decide, ⟨by decide, by decide, rfl, rfl, rfl, rfl,
    unowed_of rfl (fun x => by cases x <;> rfl) _⟩, by decide, by decide, by decide, by decide, by decide, by decide,
    by decide, by decide⟩

/-! ### Events -/

/-- FillAndWalkEvents: a fill that reads its bytes, one that faults and one that waits for a walk; a unit there and not; a
header read and not; a walk wanted, aged, in service, with a leaf and with a fault. -/
def sCode : State := s0.modCore 0 fun c => { c with tlb := [⟨1, false, 1, 0, 0x400053, 0x300000⟩] }
/-- A unit of instruction memory with the words of one run from its start. -/
def codeUnit (base : Nat) (bs : List Byte) : CodeUnit := ⟨base, bs, [], expand bs 0, none, none, some 0, 0, none, 0, true, 0⟩
def unit0 : CodeUnit := codeUnit 0x1000 (List.replicate 256 0)
def filled (us : List CodeUnit) : State := sCode.modStr fun t => { t with hdrVer := some 0, imem := us }
/-- A unit of short forms but for the last instruction, which is two bytes longer than the unit. -/
def unitOver : CodeUnit := codeUnit 0x1000 (List.replicate 254 0 ++ [0x80, 0])
theorem witness_FillAndWalkEvents_fill :
    s0.focus 1 = some s0 ∧ s0.job.onCore = true ∧ s0.job.issues = true ∧ (s0.job.str .C).st ≠ .idle ∧
      s0.coreRuns s0.job.coreIx = true ∧ s0.str.hdrVer = none ∧
      (filled []).str.hdrVer ≠ none ∧ (filled []).str.wants 0x1000 = true ∧ (filled [unit0]).str.wants 0x1000 = false ∧
      (filled [unit0]).str.ahead 16 0x1000 = some 0x1100 ∧ (filled [codeUnit 0x1000 [0xF8]]).str.ahead 16 0x1000 = none ∧
      (recEntry s0.job.lrec .C).toNat % 16 = 0 ∧ (0x1008 : Nat) % 16 ≠ 0 ∧ unit0.reach = some 0 ∧ unitOver.reach = some 2 ∧
      (codeUnit 0x1000 [0xF8]).reach = none :=
  ⟨by simp [State.focus, s0, job0, Job.empty, Job.present], by decide +kernel⟩
theorem witness_FillAndWalkEvents_tail : ∃ v u, fillTail unitOver none sCode = .ok v u ∧ decide (v.tail.length = 11) = true :=
  ends_with (p := fun (v : CodeUnit) _ => decide (v.tail.length = 11)) (by decide +kernel)
theorem witness_FillAndWalkEvents_read : (∃ p u, codeRead 0x1000 256 sCode = .ok p u ∧ decide (p.2 = 0) = true) ∧
    (∃ f u, codeRead 0x1000 256 s0 = .error (.fault f) u) ∧
    (∃ o u, codeRead 0x1000 256 (s0.modCore 0 fun c => { c with tlb := [] }) = .error (.wait o) u) ∧
    (∃ p u, codeRead 0xFFF0 16 sCode = .ok p u ∧ decide (p.2 = 0) = true) ∧
    (∃ x, xlate .x 3 0x1000 256 sCode = .ok x sCode ∧ outsideClear none x.region 256 false sCode = .ok () sCode ∧
      recallLine x.pa sCode = .ok () sCode ∧ sCode.sound ∧ sCode.unowed sCode.agent) :=
  ⟨ends_with (p := fun (p : List Byte × Nat) _ => decide (p.2 = 0)) (by decide +kernel), ⟨_, _, rfl⟩, ⟨_, _, rfl⟩,
    ends_with (p := fun (p : List Byte × Nat) _ => decide (p.2 = 0)) (by decide +kernel), _, rfl, rfl, rfl, rfl,
    unowed_of rfl (fun x => by cases x <;> rfl) _⟩
def want0 : WalkReq := ⟨1, false, 0x20000, 0x100000, 3, 0, false, [⟨1, 0, .strm .C⟩]⟩
def sWalk : State := { (s0.modDie 0 fun d => { d with walkQ := [want0], walking := [want0] }) with cycle := 5000 }
theorem witness_FillAndWalkEvents_walk :
    (sWalk.dieAt 0).walkQ[0]? = some want0 ∧ (sWalk.dieAt 0).canStart want0 = true ∧
      (∀ v ∈ (sWalk.dieAt 0).walkQ, (sWalk.dieAt 0).canStart v = true → v.before sWalk.cycle want0 = false) ∧
      want0.aged = false ∧ want0.since + 4096 ≤ sWalk.cycle ∧ (sWalk.dieAt 0).walking[0]? = some want0 ∧
      (∀ j ∈ sWalk.jobs, j.lines = []) ∧ sWalk.sound ∧ (sWalk.dieAt 0).walkCache = [] ∧
      (∃ v ∈ (sWalk.dieAt 0).walking, v.same want0.asid want0.sec want0.va = true) ∧ (∀ v ∈ (s0.dieAt 0).walking, v.same 1 false 0x20000 = false) ∧ sWalk.job.present = true ∧ want0.who = [⟨sWalk.job.num, sWalk.job.coreIx, .strm .C⟩] :=
  ⟨by decide, by decide, by decide, by decide, by decide, by decide, by intro j h; cases h <;> [rfl; contradiction], rfl, by decide,
    ⟨want0, by decide, by decide⟩, by decide, by decide, by decide⟩
theorem witness_FillAndWalkEvents_leaf :
    (∃ w u, walkGo [] 1 false 0x20000 3 0x100000 sWalk = .ok w u ∧ decide (w.1 = .leaf 1 0x400033 0x300000) = true) ∧
    (∃ w u, walkGo [] 1 false 0x4000_0000 3 0x100000 sWalk = .ok w u ∧
      (match w.1 with | .fault f => decide (f.cause = 0x10) | _ => false) = true) :=
  ⟨ends_with (p := fun (w : Walk × List WalkEnt) _ => decide (w.1 = .leaf 1 0x400033 0x300000)) (by decide +kernel),
    ends_with (p := fun (w : Walk × List WalkEnt) _ => match w.1 with | .fault f => decide (f.cause = 0x10) | _ => false) (by decide +kernel)⟩
/-- MapEvents: a command whose word is malformed; a store of an entry, in order and not; an invalidation of a space in use and
of one that is not; a command whose markers stand at the heads; one whose entry is stored. -/
def sMap (ws : List Word) : State :=
  { s0 with mem := s0.mem.writeMany 0x600000 (bytesOf ws), hub := { s0.hub with mapq := [0x600000] } }
def storeEntry : List Word := [0x0001_0000_0000_0000, 0, 0x300000, 0x400033]
def sMarked (stage : Nat) : State :=
  { s0 with job := { s0.job with chans := s0.job.chans.set 0 [.marker] }, hub := { s0.hub with mapq := [0x600000], mapCmd := some ⟨storeEntry, 0, stage, [1]⟩ } }
theorem witness_MapEvents :
    ({ s0.hub with mapq := [1] } : Hub).mapq ≠ [] ∧ s0.hub.mapCmd = none ∧
      State.mapHead { s0 with hub := { s0.hub with mapq := [1] } } = none ∧ (sMap storeEntry).mapHead = some storeEntry ∧
      (sMap [0x0001_1000_0000_0000, 0, 0, 0]).mapHead = some [0x0001_1000_0000_0000, 0, 0, 0] ∧
      (sMap [0x0002_1000_0000_0000, 0, 0, 0]).mapHead = some [0x0002_1000_0000_0000, 0, 0, 0] ∧
      (sMap [0x0001_0000_0000_0001, 0, 0, 0]).mapHead = some [0x0001_0000_0000_0001, 0, 0, 0] ∧
      s0.backed (regionOf 0 0x300000) = true ∧ (0x0001_1000_0000_0000 : Word).extractLsb' 44 3 = 1 ∧
      (sMarked 0).job.markersReady = true ∧ (sMarked 0).job.lines = [] ∧
      (∀ l ∈ sStash.job.lines, l.dirty = true → sStash.job.stashProv l = false) ∧
      (MapCmd.matches ⟨[0x0009_0000_0000_0000, 0, 0, 0], 0, 1, []⟩ s0.job.ctx.asid s0.job.ctx.sec) = false :=
  ⟨by decide, rfl, by decide, by decide +kernel, by decide +kernel, by decide +kernel, by decide +kernel, by decide, by decide, by decide, rfl, by decide, by decide⟩
theorem witness_MapEvents_ready : (sMap storeEntry).mapReady (sMap storeEntry) = .ok () (sMap storeEntry) ∧
    physReady 0x300000 8 s0 = .ok () s0 ∧
    (((sMarked 0).jobs.filter fun j => j.present && [1].contains j.num).forM fun j =>
      backsReady j.num (MapCmd.staleLine ⟨storeEntry, 0, 0, [1]⟩)) (sMarked 0) = .ok () (sMarked 0) := ⟨rfl, rfl, rfl⟩
theorem witness_MapEvents_done : ∃ a u, (((sMarked 1).jobs.filter fun j => j.present && MapCmd.matches ⟨storeEntry, 0, 1, [1]⟩ j.ctx.asid j.ctx.sec).map fun j =>
    j.num).forM settleStores (sMarked 1) = .ok a u ∧ true = true :=
  ends_with (p := fun _ _ => true) (by decide +kernel)
/-- StashAndLeaseEvents: a mapped window with an invalid line, and one whose translation faults; a dirty line; a lapsed copy. -/
def sFill : State := s0.modJob fun j => { j with stash := j.stash.set 1 ⟨true, 2, 0, 0, 4⟩ }
theorem witness_StashAndLeaseEvents :
    s0.focus 1 = some s0 ∧ s0.job.onCore = true ∧ sFill.memOk ∧ (vget ⟨false, 0, 0, 0, 0⟩ sFill.job.stash 1).v = true ∧ 3 < (0 + 1) * 256 ∧
      sFill.job.lineAt 1 3 = none ∧ sFill.job.markAt (3 * 256) (3 * 256 + 256) = none ∧
      (let t := { sFill with via := some (.stash 1 3) }
        ∃ x, xlate .r 7 (2 * 65536 + 3 * 256) 256 t = .ok x t ∧ outsideClear none x.region 256 false t = .ok () t ∧
          recallLine x.pa t = .ok () t ∧ t.sound ∧ t.unowed t.agent) ∧
      backWait (fun _ _ => false) sStash.job ⟨1, 2, 0x400200, 0, true, 0, 0⟩ sStash = .ok () sStash ∧ sStash.sound ∧
      ((sStash.findJob 1).bind fun j => (j.lineAt 1 2).map fun l => l.dirty && !j.stashProv l) = some true ∧
      (sHeld.coreAt 0).l1[0]? = some held0 ∧ held0.lease < ({ sHeld with cycle := 200 } : State).clock 0 :=
  ⟨witness_FillAndWalkEvents_fill.1, rfl, s0_memOk, by decide, by decide, by decide, by decide,
    ⟨_, rfl, rfl, rfl, rfl, unowed_of rfl (fun x => by cases x <;> rfl) _⟩, rfl, rfl, by decide, by decide, by decide⟩
/-- A meaning that faults. -/
theorem faults_with {α : Type} {m : M α} {s : State} (h : (match m s with | .error (.fault _) _ => true | _ => false) = true) :
    ∃ f t, m s = .error (.fault f) t := by
  cases e : m s with
  | ok => rw [e] at h; cases h
  | error f t =>
    rw [e] at h
    cases f <;> first | exact ⟨_, t, rfl⟩ | cases h
theorem witness_StashAndLeaseEvents_fault :
    ∃ f u, fillLine 1 3 (sFill.modCore 0 fun c => { c with tlb := [⟨1, false, 1, 0, 0x400043, 0x300000⟩] }) = .error (.fault f) u :=
  faults_with (by decide +kernel)
/-- OutsideAccessEvents: a request in shape, to the job's window, to LPDDR6, to a control region, through a piece of BAR2 and
through none, and through the fabric window; a byte of the secure world; a place without memory; a place with no owner. -/
def ask0 (pa : Nat) : OutReq := ⟨pa, .b8, .load, false, 1, 0⟩
def sBarTwo : State := s0.modHub fun h => { h with bar2 := [(0, 1)] }
theorem witness_OutsideAccessEvents :
    s0.memOk ∧ outShapeOk (ask0 0x420000) = true ∧ regionOf 0 0x420000 = .lpddr 0 0x420000 ∧
      regionOf 0 0x5000_0000_0000 = .scratch 0 0 0 ∧ s0.outsideOwner (ask0 0x5000_0000_0000) (.scratch 0 0 0) false = true ∧
      s0.outsideOwner (ask0 0x5000_0010_0000) (.scratch 0 0 0x10_0000) false = false ∧ s0.worldOk false 0x420000 8 = true ∧
      (s0.modHub fun h => { h with rgn := [(0, 0x8000_0000_0040_0000), (1, 0x8000_0000_0050_0000)] }).worldOk false 0x420000 8 = false ∧
      s0.backed (.lpddr 0 0x420000) = true ∧ s0.backed (.lpddr 0 (2 ^ 43)) = false ∧
      (s0.coreAt 0).frozen = none ∧ (∃ j, s0.scratchOwner 0 0 0 = some j ∧ j.entries = [] ∧ j.marks = []) ∧
      recallLine 0x420000 s0 = .ok () s0 ∧ s0.sound ∧ s0.unowed .service ∧ s0.noOutside (.agent (ask0 0x420000)) ∧ s0.roomOn 0 = true ∧
      s0.worldOk false (placeAddr (.dieCtl 0 0)) 8 = true ∧
      (s0.modHub fun h => { h with rgn := [(0, 0x8000_6000_0000_0000), (1, 0x8000_6000_0001_0000)] }).worldOk false (placeAddr (.dieCtl 0 0)) 8 = false ∧ Cells.get 0 s0.hub.bar2 0 = 0 ∧ Cells.get 0 sBarTwo.hub.bar2 0 ≠ 0 ∧
      0x420000 = Cells.get 0 sBarTwo.hub.bar2 0 - 1 + 0x420000 % 2 ^ 30 ∧ regionOf 0 (2 ^ 51 + 0x1000) = .lpddr 0 0x1000 ∧
      regionOf 0 (2 ^ 51 + 2 ^ 41) ≠ .lpddr 0 0 ∧ regionOf 0 0x6000_0000_0000 = .dieCtl 0 0 ∧ regionOf 0 0x1_8000_0000_0000 = .hubCtl 0 :=
  ⟨s0_memOk, by decide, by decide, by decide, by decide, by decide, by decide, by decide, by decide, by decide, by decide, ⟨_, rfl, rfl, rfl⟩, rfl,
    rfl, s0_unowed _, s0_noOutside _, by decide, by decide, by decide, by decide, by decide, by decide, by decide, by decide, by decide, by decide⟩
theorem witness_OutsideAccessEvents_more :
    (ask0 (2 ^ 51 + 0x1000)).station < 8 ∧ 2 ^ 51 ≤ (ask0 (2 ^ 51 + 0x1000)).pa ∧ (ask0 0).op = .load ∧
      (0xFFF8 + 8 ≤ 65536 ∧ 65536 < 0xFFF9 + sizeBytes (ask0 0).size) ∧
      ({ ask0 0 with op := .store 5 } : OutReq).op = .store 5 ∧ (s0.coreAt 0).stands s0.cycle = false ∧
      outShapeOk { ask0 0x420000 with op := .loadN 256 } = true ∧ outLen { ask0 0x420000 with op := .loadN 256 } = 256 ∧
      outShapeOk { ask0 0x420010 with op := .storeN [1, 2, 3] } = true ∧ outLen (ask0 0x420000) = 8 :=
  ⟨by decide, by decide, rfl, by decide, rfl, by decide, by decide, by decide, by decide, by decide⟩
/-- MemoryErrors: the unit of the page's word, and one of the window, have failed; a line of the L2 that has not been
written; an operation under way; a block out of service. -/
def sBad : State := { s0 with bad := [⟨0x420000, false⟩, ⟨0x5000_0000_0100, false⟩] }
def sL2 : State := s0.modDie 0 fun d => { d with l2 := [⟨0x4200, 3, false⟩] }
theorem witness_MemoryErrors :
    isUnit 0x420000 = true ∧ s0.memOk ∧ (s0.failing 0x420000 8).isNone = true ∧ sBad.failing 0x420038 16 = some ⟨0x420000, false⟩ ∧
      ((sL2.dieAt (0x420000 / 2 ^ 48)).l2.find? fun l => l.line == 0x420000 / 256) = some ⟨0x4200, 3, false⟩ ∧
      sBad.runs hdr [.C, .A] ∧ sBad.calm ∧ xlate .r 0 0x20000 8 sBad = .ok xl0 sBad ∧
      outsideClear none xl0.region 8 false sBad = .ok () sBad ∧ recallLine xl0.pa sBad = .ok () sBad ∧
      sBad.unowed sBad.agent ∧ sBad.failing xl0.pa 8 = some ⟨0x420000, false⟩ ∧
      ((sBad.coreAt sBad.job.coreIx).l1 = [] ∧ (sBad.dieAt sBad.job.die).peer = []) ∧
      vrange 0x01FF_FFFF_0000_0100 = .scratch 256 ∧ sBad.unheld ∧ sBad.unstashed ∧ sBad.weirFree = true ∧
      sBad.str.wait = none ∧ sBad.failing (sBad.job.windowPa 256) 8 = some ⟨0x5000_0000_0100, false⟩ ∧
      0x5000_0000_0100 = placeAddr (.scratch 0 0 0x100) ∧ 0x420000 = placeAddr (.lpddr 0 0x420000) ∧
      0x4000_0000_0040 = placeAddr (.cluster 0 0 0x40) ∧ 1 * 65536 < 0 * 65536 + recWindow (rec0.set 0 0x0100_8888_0200_0000) :=
  ⟨by decide, s0_memOk, by decide, by decide, by decide, ⟨by decide, by decide⟩, rfl, rfl, rfl, rfl,
    unowed_of rfl (fun x => by cases x <;> rfl) _, by decide, by decide, by decide,
    s0_unheld, by unfold State.unstashed; decide, by decide, rfl, by decide, by decide, by decide, by decide, by decide⟩
theorem witness_MemoryErrors_parity :
    let s := { s0 with job := { s0.job with entries := [⟨7, .M, 0x1000, .op { Op.of (.mzero hdr 1) 4 1 0 with started := true }, Keys.none, false, false⟩] } }
    s.focus 1 = some s ∧ s.job.onCore = true ∧ (s.job.opAt 7).started = true ∧ (s.job.opAt 7).finished = false ∧
      (s.job.opAt 7).hold = none ∧ (s.job.opAt 7).copy = none :=
  ⟨by simp [State.focus, s0, job0, Job.empty, Job.present], rfl, by decide, by decide, by decide, by decide⟩
theorem witness_MemoryErrors_code : (∃ j, s0.findJob 1 = some j) ∧ s0.findJob 2 = none ∧ sBad.unowned 256 8 :=
  ⟨⟨_, rfl⟩, rfl, unowned_of rfl rfl _ _⟩
/-- R423, R425: a load of a failed unit faults with the unit's address, and its 64 KiB frame is out of service. -/
theorem test_failed_unit :
    (match loadAt ⟨0, 0, 0⟩ 0x20000 8 sBad with
    | .error (.fault f) t => decide (f.cause = 0x24) && decide (f.aux = 0x420000) && decide ((t.dieAt 0).oos = [0x42])
    | _ => false) = true := by decide +kernel
/-- R46: a failed unit of a scratchpad takes its 64 KiB block out of service. -/
theorem test_failed_block : ((sBad.outOfService ⟨0x5000_0081_0040, false⟩).coreAt 1).oos = [1] := by decide +kernel
/-- EngineEvents: a candidate for a free engine; an operation that waits, that is finished, that holds its engine with and
without a tide's stall; a push that is due; a Basin hold. -/
def opZero : Op := Op.of (.mzero hdr 1) 4 1 0
def sOp (o : Op) : State := { s0 with job := { s0.job with entries := [⟨7, .M, 0x1000, .op o, { Keys.none with aw := [1] }, false, false⟩], tl := s0.job.tl.set 4 ⟨1, 0, []⟩ }, cycle := 5000 }
def sHolds (o : Op) : State := (sOp o).modCore 0 fun c => { c with matrix := ⟨some (1, 7), 0, [], []⟩ }
def push0 : Push := ⟨1, 0, 0, .add, [(3, 0x3F80_0000)]⟩
theorem witness_EngineEvents :
    (sOp opZero).coreRuns 0 = true ∧ (((sOp opZero).coreAt 0).grant .matrix).holder = none ∧ ((sOp opZero).winner 0 .matrix).isSome = true ∧
      opZero.engine = some .matrix ∧ (sOp opZero).job.opAt 7 = opZero ∧ opZero.since + 4096 ≤ (sOp opZero).cycle ∧ opZero.finished = false ∧
      opZero.hold = none ∧ opZero.copy = none ∧ (sOp { opZero with finished := true }).job.opComplete 7 { opZero with finished := true } = true ∧
      (sHolds opZero).holdsEngine 1 7 opZero = true ∧ opZero.stall = none ∧ ({ opZero with stall := some ⟨.tide 1, 4⟩ } : Op).stall = some ⟨.tide 1, 4⟩ ∧
      (s0.modJob fun j => { j with pushes := [push0] }).job.pushes = push0 :: [] ∧ push0.due ≤ s0.cycle ∧
      (((sOp { opZero with basin := some (100, false) }).onCore 0).map fun j => j.entries.filterMap fun e =>
        match e.kind with | .op o => (o.basin.map fun b => (j.num, e.id, b)) | _ => none).flatten[0]? = some (1, 7, (100, false)) ∧
      ((sHolds opZero).job.entries.find? fun e => e.id == 7).map (fun e => e.away) = some false ∧ opZero.ports = 0 ∧
      ({ opZero with instr := .mmul hdr false 1 0 0 3, argv := [0] } : Op).ports ≠ 0 ∧
      (sHolds opZero).coreRuns (sHolds opZero).job.coreIx = true ∧
      ((sHolds opZero).keptBid (sHolds opZero).job.coreIx).any (fun b => b.op.engine != some .matrix) = false ∧
      ((sHolds opZero).coreAt 0).portsHeld 1 7 = false ∧ ((sHolds opZero).coreAt 0).portsUsed + 1 ≤ 4 ∧
      (1 ∉ (vget ⟨0, 0, []⟩ s0.job.tl 4).ahead) ∧ s0.job.lineages = [] ∧ s0.job.pushes = [] := by
  refine ⟨by decide, by decide, by decide +kernel, rfl, rfl, ?_⟩
  decide
/-- EngineRegisterUnits: an operation with a stationary image, a table of one group of two rows, two rows of a stream and two, three
and four registers; its unit, and the rows and elements that it reads. -/
def stUnit : List Word := (s0.job.stWords 0).set 1 0x0001_0001
def imgUnit : Image := imageOf 2 2 0x11 (fun _ _ => 0x3C00) fun _ _ => 0
def opUnit : Op :=
  { Op.of (.mmulg hdr false 1 0 1 0 1 0 0) 4 1 0 with
    sts := [stUnit, stUnit], img := 1, vd := [10, 11], vs := [10, 11], table := [2], gimg := some imgUnit, argv := [0, 0] }
def sUnit (o : Op) : State := (sOp o).modJob fun j => { j with images := [⟨1, imgUnit, none⟩] }
theorem sUnit_works (o : Op) (h : o.role = .plain) (k : o.resume = none) : (sUnit o).works 7 o := ⟨rfl, rfl, h, k, _, rfl, rfl⟩
theorem sUnit_plainAt (o : Op) (off n : Nat) (h : off + n ≤ 65536) : (sUnit o).plainAt off n :=
  have w : (sUnit o).job.window = 65536 := by show s0.job.window = 65536; decide
  ⟨w ▸ h, by rw [w]; decide, (by unfold State.unstashed; decide : s0.unstashed), s0_noRange, unowned_of rfl rfl _ _, rfl⟩
theorem witness_EngineRegisterUnits :
    (sUnit opUnit).works 7 opUnit ∧ (sUnit opUnit).job.parity = [] ∧ (∃ fin t, unitBody 7 ((sOp opZero).asOp 7) = .ok fin t ∧ true = true) ∧
      (sUnit opUnit).imageNow opUnit = some imgUnit ∧ (sUnit opUnit).job.imageFor opUnit = some imgUnit ∧ imgUnit.n ≤ 64 ∧
      (∃ x u, movingRow 7 stUnit 0 (sUnit opUnit) = .ok x u ∧ decide (u.job = (sUnit opUnit).job) = true) ∧
      opUnit.table ≠ [] ∧ groupAt opUnit.table opUnit.unit = some (2, true) ∧ opUnit.gimg = some imgUnit ∧
      opUnit.run 0 = ⟨0, false, [], [], 0⟩ ∧ 0 < stE stUnit 1 ∧ stE stUnit 0 ≤ 64 :=
  ⟨sUnit_works _ rfl rfl, rfl, ends_with (p := fun _ _ => true) (by decide +kernel), by decide, by decide, by decide,
    ends_with (by decide +kernel), by decide, by decide, by decide, by decide, by decide, by decide⟩
theorem witness_EngineRegisterUnits_elements :
    (∃ x u, elemCode 7 stUnit [0, 0] (sUnit opUnit) = .ok x u ∧ decide (u.job = (sUnit opUnit).job ∧ (elemIn stUnit x 0).2 = none) = true) ∧
      elemScale 7 stUnit [0, 0] (sUnit opUnit) = .ok 0 (sUnit opUnit) ∧
      (∃ ins u, readRow 7 stUnit 2 (fun k => [k, 0]) (vldLane stUnit) (sUnit opUnit) = .ok ins u ∧
        decide (u.job = (sUnit opUnit).job ∧ ∀ x ∈ ins, x.2 = none) = true) ∧
      (opUnit.vd.Nodup ∧ opUnit.vd.length = 2 * 1) ∧
      ({ opUnit with vd := [10, 11, 12] } : Op).vd = [10, 11, 12] ∧
      (vrange (elemAddr stUnit [1, 1]).1 = .scratch 130 ∧ (elemAddr stUnit [1, 1]).1 % 256 + 2 ≤ 256 ∧ (sUnit opUnit).plainAt 130 2) ∧
      let blk := (stUnit.set 4 0x0100_0020).set 5 0x01FF_FFFF_0000_0400;
      fmtBlock (stFmt blk) = true ∧ vrange (scaleAddr blk [0, 0]) = .scratch 0x400 ∧ (sUnit opUnit).plainAt 0x400 1 :=
  ⟨ends_with (by decide +kernel), rfl, ends_with (by decide +kernel), by decide, rfl,
    ⟨by decide, by decide, sUnit_plainAt _ _ _ (by decide)⟩, by decide, by decide, sUnit_plainAt _ _ _ (by decide)⟩
/-- EngineStoreUnits: a row of two FP16 elements, in the window; with OVF = 1, an accumulator's value that FP16 cannot hold. -/
theorem witness_EngineStoreUnits :
    let s := (sUnit opUnit).modJob fun j => j.setAcc 1 2 1 0x7F00_0000
    let ovf := stUnit.set 4 0x8100_0011
    s.works 7 opUnit ∧ s.memOk ∧ s.rowAt stUnit 0 0 ∧ opUnit.run 0 = ⟨0, false, [], [], 0⟩ ∧ stOvf stUnit = false ∧
      s.rowAt ovf 0 0 ∧ opUnit.sat = [] ∧ stOvf ovf = true ∧ (∀ k, k < 1 → (laneConv (stFmt ovf) false (s.job.accAt 1 2 k)).bad = false) ∧
      (laneConv (stFmt ovf) false (s.job.accAt 1 2 1)).bad = true :=
  ⟨⟨rfl, rfl, rfl, rfl, _, rfl, rfl⟩, s0_memOk,
    ⟨by decide, by decide, by decide, by decide, by decide, by decide, sUnit_plainAt opUnit 0 4 (by decide)⟩, by decide, by decide,
    ⟨by decide, by decide, by decide, by decide, by decide, by decide, sUnit_plainAt opUnit 0 4 (by decide)⟩, rfl, by decide,
    by decide, by decide⟩
/-- CopyEvents: a copy that has not started, goes on, and is done, with and without completion actions; a command in the
inbound queue. -/
def sCopy (o : Op) : State := { s0 with job := { s0.job with
  entries := [⟨7, .C, 0x1000, .op o, Keys.none, false, false⟩], chans := s0.job.chans.set 1 [.copy 7], tl := s0.job.tl.set 1 ⟨1, 0, []⟩ } }
def opCopy : Op := copyEntryOp job0 1 1 1 0 0 0x01FF_FFFF_0000_0000 (List.replicate 8 0) none
def sIn : State := s0.modJob fun j => { j with inq := [.block [5]], ctbase := 0x01FF_FFFF_0000_0000 }
theorem witness_CopyEvents :
    (sCopy opCopy).job.onCore = true ∧ (sCopy opCopy).coreRuns (sCopy opCopy).job.coreIx = true ∧ (sCopy opCopy).job.copyHead 1 = some 7 ∧
      opCopy.hold = none ∧ opCopy.started = false ∧ ({ opCopy with started := true } : Op).finished = false ∧
      tSemen opCopy.cp.tmpl = false ∧ tFen opCopy.cp.tmpl = false ∧ opCopy.cp.chan < 4 ∧ sIn.job.copyHead 4 = none ∧
      sIn.job.inq = .block (5 :: []) :: [] ∧ sIn.weirFree = true ∧ (∃ t u, readTemplate sIn.job.ctbase.toNat 5 sIn = .ok t u ∧ u.weirFree = true) :=
  ⟨rfl, by decide, by decide, by decide, by decide, by decide, by decide, by decide, by decide, by decide, by decide, by decide, _, _, rfl, by decide⟩
/-- A focus that has only one job. -/
theorem focus_one {s : State} (p : s.job.present = true) (n : s.job.num = 1) : s.focus 1 = some s := by simp [State.focus, p, n]
theorem witness_CopyEvents_focus : (sCopy opCopy).focus 1 = some (sCopy opCopy) ∧ sIn.focus 1 = some sIn :=
  ⟨focus_one rfl rfl, focus_one rfl rfl⟩
/-- A plain copy of 64 bytes within the window, started and not. -/
def opPlain : Op := copyEntryOp job0 1 1 1 0 0 0x01FF_FFFF_0000_0000 [0, 0x01FF_FFFF_0000_0100, 0x01FF_FFFF_0000_0200, 63, 0, 0, 0, 0] none
def sPlain : State := sCopy { opPlain with started := true }
theorem witness_CopyEvents_plain :
    let m := opPlain.cp.tmpl
    let place := copyPlace m (tBases m opPlain.cp.cmd).1 (tBases m opPlain.cp.cmd).2 0 0;
    (opPlain.cp.bad = none ∧ m ≠ [] ∧ templateBreach m opPlain.cp.cmd 1 (recChan sPlain.job.lrec) = none ∧ opPlain.ports = 0 ∧
      opPlain.stall = none) ∧
    ({ sPlain with via := some (.op 7) } : State).mayMove 7 = true ∧
    (tKind m = 0 ∧ tPack m = 0 ∧ tPsin m = 0 ∧ tPsout m = 0 ∧ tRed m = 0 ∧ tSfmt m = tDfmt m ∧ copyBlk m = false ∧
      0 < sideSize (tSfmt m) ∧ opPlain.cp.zero = []) ∧
    (sPlain.memOk ∧ sPlain.sound ∧ sPlain.job.marks = [] ∧ sPlain.job.parity = [] ∧
      (sPlain.job.entries.head?.map fun e => e.id) = some 7 ∧ vrange place.1 = .scratch 256 ∧ vrange place.2 = .scratch 512 ∧
      runLen m 0 place.1 place.2 = 64 ∧ 512 + 64 * sideSize (tSfmt m) ≤ sPlain.job.window) := by
  refine ⟨⟨rfl, by decide, ?_, ?_, rfl⟩, ?_, ?_, s0_memOk, rfl, rfl, rfl, ?_, ?_, ?_, ?_, ?_⟩ <;> decide +kernel
theorem witness_CopyEvents_plain_window : sPlain.unstashed ∧ (∀ k, crangeEn (vget 0 sPlain.job.crange k) = false) ∧
    sPlain.unowned 256 64 ∧ sPlain.unowned 512 64 ∧ (sCopy opCopy).noOutside (.part (sCopy opCopy).job.num (.op 7)) := by
  refine ⟨by unfold State.unstashed; decide, s0_noRange, unowned_of rfl rfl _ _, unowned_of rfl rfl _ _, fun j hj e he h => ?_⟩
  cases List.mem_singleton.mp hj
  cases List.mem_singleton.mp he
  cases h
theorem witness_CopyEvents_inbound : sIn.mayEnter = true ∧ vrange (sIn.job.ctbase.toNat + 64 * ((5 : Word).extractLsb' 0 12).toNat) = .scratch 320 ∧
    vaOk (sIn.job.ctbase.toNat + 64 * 5) 64 = true ∧ 320 + 64 ≤ sIn.job.window ∧ sIn.unstashed ∧ sIn.unowned 320 64 ∧ sIn.sound ∧ sIn.job.marks = [] ∧
    ∀ k, crangeEn (vget 0 sIn.job.crange k) = false :=
  ⟨by decide, by decide, by decide, by decide, by unfold State.unstashed; decide, unowned_of rfl rfl _ _, rfl, rfl, s0_noRange⟩
/-- SystemRegisterWrites: a copy of channel 1, and none of channel 2, is in the Weir. -/
theorem witness_SystemRegisterWrites_copies : (∃ e ∈ (sCopy opCopy).job.entries, 1 ∈ e.fills ∧ e.fills.head? = some 1) ∧
    (∀ e ∈ (sCopy opCopy).job.entries, 2 ∉ e.fills ∧ e.fills.head? ≠ some 2) ∧
    ∃ e ∈ ((sCopy opCopy).modJob fun j => { j with nextId := 8 }).job.entries, e.id < 8 ∧ 1 ∈ e.fills := by decide
/-- RemoteCommandResults: a copy known and done, known and not, and not known; a header of one command in the window; a
target that is not there, of another space, with a closed queue, with room, and full; a push that waits. -/
def sRenq : State :=
  { s0 with job := s0.job.setStr .C (s0.job.c.setS 6 0x01FF_FFFF_0000_0000), rest := [{ job0 with num := 2 }] }
def target (f : Job → Job) : State := { sRenq with rest := [f { job0 with num := 2 }] }
theorem witness_RemoteCommandResults :
    let s := s0.modJob fun j => { j with tl := j.tl.set 1 ⟨3, 1, []⟩ }
    let l := vget ⟨0, 0, []⟩ s.job.tl 1
    s.runs hdr [.C, .A] ∧ 1 < recChan s.job.lrec ∧ (1 ≠ 0 ∧ 1 ≤ l.issued ∧ l.issued < 1 + 64 ∧ 1 ≤ l.completed) ∧
      (3 ≤ l.issued ∧ ¬(3 ≤ l.completed ∨ 3 ∈ l.ahead)) ∧ ¬(0 ≠ 0) ∧
      (sRenq.calm ∧ sRenq.unheld ∧ sRenq.unstashed ∧ sRenq.sound ∧ sRenq.weirFree = true ∧ sRenq.str.renq = none) ∧
      (vrange (sRenq.getS 6).toNat = .scratch 0 ∧ (sRenq.getS 6).toNat % 8 = 0 ∧ 0 + 8 ≤ sRenq.job.window ∧
        leNum (sRenq.mem.readMany (sRenq.job.windowPa 0) 8) = 0 ∧ 0 + 8 * (0 + 2) ≤ sRenq.job.window ∧ sRenq.unowned 0 16) ∧
      (sRenq.findJob 3).isNone = true ∧ ((sRenq.findJob 2).map fun j => (j.ctx.asid, j.ctx.sec, j.inClosed)) = some (1, false, false) ∧
      (((target fun j => { j with ctx := { j.ctx with asid := 9 } }).findJob 2).map fun j => j.ctx.asid) = some 9 ∧
      (((target fun j => { j with inClosed := true }).findJob 2).map fun j => j.inClosed) = some true ∧
      inBlocks job0.inq < recIqd job0.lrec ∧ recIqd job0.lrec ≤ inBlocks [.block [5]] :=
  ⟨⟨by decide, by decide⟩, by decide, by decide, by decide, by decide, ⟨rfl, ⟨rfl, rfl, s0_noRange, unwaited_all (by
      intro j hj x
      simp only [State.jobs, List.mem_cons, List.mem_nil_iff, or_false, sRenq] at hj
      rcases hj with rfl | rfl <;> cases x <;> rfl)⟩, by unfold State.unstashed; decide, rfl, by decide, rfl⟩,
    ⟨by decide, by decide, by decide, by decide, by decide, unowned_all (by decide) _ _⟩, by decide,
    by decide, by decide, by decide, by decide, by decide⟩
def holdsRenq : CodeUnit := codeUnit 0x1000 [0xC0, 0xC1, 0, 0x51, 0x15, 0]
def sPush : State := s0.modStr fun t => { t with wait := some ⟨.channel 2 4, 5⟩, hdrVer := some 0, imem := [holdsRenq] }
theorem witness_RemoteCommandResults_push : sPush.focus 1 = some sPush ∧ sPush.mayIssue = true ∧
    (sPush.str.wait.map fun w => w.obj) = some (.channel 2 4) ∧ sPush.fetch = .instr (.renq hdr 16 20 21) :=
  ⟨focus_one rfl rfl, by decide, by decide, by decide⟩
/-- A push that waits, with its header read, to a target that has room. -/
def sPushes : State :=
  { sPush with job := { sPush.job.setStr .C { (sPush.job.c.setS 20 2).setS 21 0x01FF_FFFF_0000_0000 with renq := some 0 } with num := 1 },
               rest := [{ job0 with num := 2 }] }
theorem witness_RemoteCommandResults_again : sPushes.runs hdr [.C, .A] ∧ sPushes.str.renq = some 0 ∧
    (sPushes.getS 21).toNat = scratchVa + 0 ∧ 0 + 8 * (0 + 2) ≤ sPushes.job.window ∧ sPushes.job.marks = [] ∧
    (∀ k, crangeEn (vget 0 sPushes.job.crange k) = false) ∧ sPushes.unstashed ∧ sPushes.sound ∧ sPushes.unowned 0 16 ∧
    ((sPushes.findJob ((sPushes.getS 20).toNat % 2 ^ 32)).map fun j =>
      decide (j.ctx.asid = sPushes.job.ctx.asid) && !j.inClosed && decide (inBlocks j.inq < recIqd j.lrec)) = some true :=
  ⟨⟨by decide, by decide⟩, by decide, by decide, by decide, rfl, s0_noRange, by unfold State.unstashed; decide, rfl, unowned_all (by decide) _ _,
    by decide⟩
/-- LineageEvents: a contribution that is ready; a correction that is due; a lineage that is done. -/
def delta0 : Delta := ⟨9, [(65, 0x3F80_0000)], true, 0, false⟩
def target0 : Target := ⟨8, 1, [], opZero, [.acc 2], [], [], [], none, [], 0, true⟩
def sLins (l : Lineage) : State := s0.modJob fun j => { j with lineages := [l] }
theorem witness_LineageEvents :
    (sLins { lin0 with deltas := [delta0], niss := 1 }).focus 1 = some (sLins { lin0 with deltas := [delta0], niss := 1 }) ∧
      (sLins lin0).job.onCore = true ∧ (sLins lin0).job.lineage 0 = some lin0 ∧ ([delta0] : List Delta)[lin0.nadd]? = some delta0 ∧
      delta0.ready = true ∧ delta0.added = false ∧ ({ lin0 with nadd := 1, targets := [target0] } : Lineage).nextDue = some (0, target0) ∧
      ({ lin0 with closed := true } : Lineage).closed = true ∧ lin0.nadd = lin0.niss ∧
      (∀ u ∈ lin0.targets, u.based = true ∧ u.corrs.length = lin0.niss) :=
  ⟨focus_one rfl rfl, rfl, by decide, by decide, rfl, rfl, by decide, rfl, rfl, by intro u h; cases h⟩
/-- A correction whose engine is free, of a tile and of a latch. -/
def targetLatch : Target := { target0 with op := Op.of (.vred hdr .add false 1 0 0) 5 1 0, places := [.latch 1] }
theorem witness_LineageEvents_correction :
    (sLins { lin0 with nadd := 1, targets := [target0] }).coreRuns 0 = true ∧ s0.corrTurn target0.op = true ∧
      target0.op.engine = some .matrix ∧ s0.corrTurn targetLatch.op = true ∧ (targetLatch.op.engine).isSome = true ∧
      (∀ q, target0.places.headD (.acc 0) ≠ .latch q) ∧ targetLatch.places.headD (.acc 0) = .latch 1 ∧
      (∀ u ∈ lin0.targets, s0.job.corrPending u = false) ∧ s0.job.entries = [] ∧ (sLins lin0).coreRuns (sLins lin0).job.coreIx = true ∧
      (sLins lin0).job.consumerDue lin0 = false :=
  ⟨by decide, by decide +kernel, by decide, by decide +kernel, by decide, (by intro q h; cases h), rfl, (by intro u h; cases h), rfl,
    by decide, by decide⟩
/-- EndOfInstruction: a step with drain whose operation is not complete; complete, with no correction due; with one due that is
still to come; one that waits for it. -/
theorem witness_EndOfInstruction_drain :
    let j := fun (m : StepMode) => s0.job.setStr .C { s0.job.c with halted := true, stepping := m }
    let busy := (j .drain).setStr .C { (j .drain).c with last := some (4, 1) }
    let due := { j .drain with lineages := [{ lin0 with nadd := 1, targets := [target0] }] }
    ((j .drain).str .C).halted = true ∧ (busy.str .C).stepping = .drain ∧ busy.lastDone .C = false ∧
      (j .drain).lastDone .C = true ∧ (j .drain).dueNow = [] ∧ due.lastDone .C = true ∧ due.corrected due.dueNow = false ∧
      ((j (.left [(8, 1)])).str .C).stepping = .left [(8, 1)] := by decide
/-- WaitTrapAndRetireEvents: each barrier instruction and WAITF in its wait; a pending fault of A; a job in each step of its
retirement. -/
def sWaits (w : WaitObj) (bs : List Byte) : State :=
  s0.modStr fun t => { t with wait := some ⟨w, 5⟩, hdrVer := some 0, imem := [codeUnit 0x1000 bs] }
theorem witness_WaitTrapAndRetireEvents_waits :
    (sWaits (.barrier 0 0) []).focus 1 = some (sWaits (.barrier 0 0) []) ∧ (sWaits (.barrier 0 0) []).mayIssue = true ∧
      ((sWaits (.barrier 0 0) []).str.wait.map fun w => w.obj) = some (.barrier 0 0) ∧
      ((sWaits (.flag 0x420000) []).str.wait.map fun w => w.obj) = some (.flag 0x420000) ∧
      (sWaits (.barrier 0 0) (encode (.bar hdr 0))).fetch = .instr (.bar hdr 0) ∧
      (sWaits (.barrier 0 0) (encode (.bara hdr 3 1))).fetch = .instr (.bara hdr 3 1) ∧
      (sWaits (.barrier 0 0) (encode (.barw hdr 0 3))).fetch = .instr (.barw hdr 0 3) ∧
      (sWaits (.flag 0) (encode (.waitf ⟨g0, .wide⟩ .eq 1 5 3 0 0 0))).fetch = .instr (.waitf ⟨g0, .wide⟩ .eq 1 5 3 0 0 0) :=
  ⟨focus_one rfl rfl, by decide, by decide, by decide, by decide, by decide, by decide, by decide⟩
theorem witness_WaitTrapAndRetireEvents_over :
    let b := sWaits (.barrier 0 0) (encode (.barw hdr 0 7))
    let f := sWaits (.flag 0x420000) (encode (.waitf ⟨g0, .wide⟩ .eq 1 5 0 0 0 0));
    (b.fetch = .instr (.barw hdr 0 7) ∧ b.runs hdr allStreams ∧ b.calm ∧ b.job.bar0.phase ≠ (b.getS 7).toNat % 2 ^ 32) ∧
    (f.fetch = .instr (.waitf ⟨g0, .wide⟩ .eq 1 5 0 0 0 0) ∧ f.calm ∧ f.runs ⟨g0, .wide⟩ allStreams ∧
      (f.getS 5 + (0 : Imm).signExtend 64).toNat = 0x20000 ∧ f.reaches .r 0 0x20000 8 false xl0 ∧
      BitVec.ofNat 64 (leNum (f.mem.readMany xl0.pa 8)) = f.getS 0) :=
  ⟨⟨by decide, ⟨by decide, by decide⟩, rfl, by decide⟩, by decide, rfl, ⟨by decide, by decide⟩, by decide,
    ⟨by decide, by decide, rfl, rfl, rfl, rfl, unowed_of rfl (fun x => by cases x <;> rfl) _⟩, by decide⟩
def pendingA : FaultRec := ⟨1, { FaultInfo.of 0x09 with strm := .A, pc := 0x1000 }, 2, false, .stream .A, none⟩
def sPend : State := s0.modJob fun j => { j with faults := [pendingA], a := { j.a with hold := some 1 } }
theorem witness_WaitTrapAndRetireEvents_trap : sPend.focus 1 = some sPend ∧ sPend.job.onCore = true ∧
    sPend.coreRuns sPend.job.coreIx = true ∧ sPend.job.deliverable = true ∧
    sPend.job.c.wait = none ∧ (sPend.job.faults.find? fun r => r.state == 2 && !r.toOs) = some pendingA :=
  ⟨focus_one rfl rfl, rfl, by decide, by decide, rfl, by decide⟩
def joined (st : JobStatus) (f : Job → Job) : State :=
  let u := fun (t : Stream) => { t with st := .joined }
  s0.modJob fun j => f { j with status := st, c := u j.c, a := u j.a, m := u j.m, v := u j.v }
def donea (j : Job) : Job := { j with lrec := j.lrec.set 10 0x20000 }
theorem witness_WaitTrapAndRetireEvents_retire :
    (joined .resident id).focus 1 = some (joined .resident id) ∧ (joined .resident id).job.allJoined = true ∧
      (joined .resident id).coreRuns (joined .resident id).job.coreIx = true ∧ (joined .resident id).job.faults = [] ∧
      (joined (.retiring 1) id).job.drained = true ∧ (joined (.retiring 2) id).job.lines = [] ∧ recDonea (joined (.retiring 3) id).job.lrec = 0 ∧
      recDonea (joined (.retiring 3) donea).job.lrec ≠ 0 ∧ (joined (.retiring 3) donea).memOk ∧
      ({ joined (.retiring 3) donea with via := some .retire, cur := .C } : State).reaches .rw 2 0x20000 8 true xl0 ∧ recDonea (joined (.retiring 3) donea).job.lrec = 0x20000 ∧
      (1 < recLevels sBar.job.lrec ∧ ∃ u, departLevel 1 (joined (.retiring 11) fun j => { j with lrec := sBar.job.lrec }) = .ok () u) :=
  ⟨focus_one rfl rfl, by decide, by decide, rfl, by decide, rfl, by decide, by decide, s0_memOk, ⟨by decide, by decide, rfl, rfl, rfl, rfl,
    unowed_of rfl (fun x => by cases x <;> rfl) _⟩, by decide, by decide, _, rfl⟩
theorem witness_WaitTrapAndRetireEvents_last : (joined (.retiring 4) id).job.status = .retiring 4 ∧
    ∀ j ∈ (joined (.retiring 4) id).jobs, ∀ e ∈ j.entries, ∀ w, e.kind ≠ .outside w :=
  ⟨rfl, fun _ hj _ he => by cases List.mem_singleton.mp hj; cases he⟩
theorem witness_WaitTrapAndRetireEvents_fault :
    ∃ f u, vatomic ⟨2, 4, [], none⟩ 0x20000 8 (fun o => some ((o + 1) % 2 ^ 64))
      ((joined (.retiring 3) donea).modCore 0 fun c => { c with tlb := [⟨1, false, 1, 0, 0x400013, 0x300000⟩] }) = .error (.fault f) u :=
  faults_with (by decide +kernel)
/-- DispatchEvents: a head that fits, a gang that fits, an aged head, one whose reservation is old, a job that is asked for,
and a saved job. -/
def place0 : Place := ⟨0, 1, 0, 0, 5⟩
def qrec (ws : List Word) : QRec := ⟨ws, ⟨1, false, 0x100000, 0, 1, 0⟩, 1, 0, [], none, 0, none, 0⟩
def sHead (ws : List Word) : State := s0.modDie 0 fun d => { d with queues := [(0, [qrec ws])], lqd := [(0, 0x8030_0001_0000_0000)] }
def recGang0 : List Word := (recGood.set 0 0x0110_8888_0000_0000).set 16 0x2000_0000_0000_0001
theorem witness_DispatchEvents_admit :
    (sHead recGood).hub.boot.started = true ∧ ((sHead recGood).mayAdmit 0 (.queue 0)).isSome = true ∧
      ((sHead recGood).dieAt 0).ring 0 = qrec recGood :: [] ∧ recGang (qrec recGood).words = false ∧
      (((sHead recGood).mayAdmit 0 (.queue 0)).map fun h => h.asks) = some [⟨recGood, 1, 0, 0, none⟩] ∧
      (sHead recGood).fitsAt ⟨recGood, 1, 0, 0, none⟩ place0 = true ∧ (sHead recGood).reserved 0 (.queue 0) (0 * 32 + 1) = false ∧
      (((sHead recGood).mayAdmit 0 (.queue 0)).map fun h => let cores := (sHead recGood).coresFor 0 h
        decide (0 * 32 + 1 ∈ cores) && (sHead recGood).nearest 0 (.queue 0) cores ⟨recGood, 1, 0, 0, none⟩ [] place0) = some true := by
  refine ⟨rfl, ?_, ?_, ?_, ?_, ?_, ?_, ?_⟩ <;> decide +kernel
theorem witness_DispatchEvents_space :
    spaceReady none place0 (recWindow (qrec recGood).words) (sHead recGood) = .ok () (sHead recGood) ∧
      ([place0, { place0 with slot := 1, base := 1, num := 6 }].forM fun p => spaceReady none p (recWindow (qrec recGang0).words))
        (sHead recGang0) = .ok () (sHead recGang0) := ⟨rfl, rfl⟩
theorem witness_DispatchEvents_gang :
    ((sHead recGang0).mayAdmit 0 (.queue 0)).isSome = true ∧ recGang (qrec recGang0).words = true ∧
      (((sHead recGang0).mayAdmit 0 (.queue 0)).map fun h => ((sHead recGang0).putAll 0 (.queue 0)
        ((sHead recGang0).coresFor 0 h) h.asks [place0, { place0 with slot := 1, base := 1, num := 6 }]).isSome) = some true := by
  refine ⟨?_, ?_, ?_⟩ <;> decide +kernel
def sAged (r : QRec) : State := { (sHead recGood).modDie 0 fun d => { d with queues := [(0, [r])] } with cycle := 2 ^ 25 }
theorem witness_DispatchEvents_aged :
    (((sAged (qrec recGood)).headAt 0 0).map fun (h : Head) => h.aged (2 ^ 25) && h.resAt.isNone &&
      decide (0 ∈ (sAged (qrec recGood)).coresFor 0 h) &&
      (match (sAged (qrec recGood)).wanted 0 h [0] with
        | some ps => decide (coresOf [0] ps = [0]) && (((sAged (qrec recGood)).bare h).putAll 0 h.id
            ((sAged (qrec recGood)).groupCores h ((sAged (qrec recGood)).coresFor 0 h)) h.asks ps).isSome
        | none => false)) = some true := by decide +kernel
/-- A job of class 3 fills core 0, which is reserved for the head; every other core is reserved for another. -/
def sTaken : State :=
  let s := (sAged (qrec recGood)).modDie 0 fun d => { d with queues :=
    [(0, [{ qrec recGood with cores := [0], resAt := some 0 }]), (1, [{ qrec recGood with cores := (List.range 255).map (· + 1) }])] }
  { s with job := { s.job with lrec := rec0.set 0 0x01C0_888F_0000_0000 } }
theorem witness_DispatchEvents_reservation :
    ((sTaken.headAt 0 0).map fun h => decide (h.resAt = some 0) && !sTaken.headFits 0 h &&
      decide ((sTaken.jobs.filter fun j => (j.status == .resident || j.status == .admitting) && h.cores.contains j.coreIx &&
          decide (j.cls ≤ h.class sTaken.cycle)) = [sTaken.job])) = some true ∧ sTaken.job.asked = false ∧ 0 + 2 ^ 24 ≤ sTaken.cycle := by
  refine ⟨?_, ?_, ?_⟩ <;> decide +kernel
theorem witness_DispatchEvents_preempt :
    s0.focus 1 = some s0 ∧ (s0.coreAt 0).gated = false ∧
      (let u := (s0.modJob fun j => { j with asked := true }).modDie 0 fun d => { d with sfcnt := 1 };
        u.job.asked = true ∧ u.job.status = .resident ∧ u.job.isRetiring = false ∧ u.stoppable u.job = true ∧ u.areasFor u.job = true ∧
        u.job.aloneToGo = false ∧ areaReady u.job.die u = .ok true u ∧ backsReady 1 (fun j l => !j.stashProv l) u = .ok () u ∧
        (∃ a v, stopStreams u = .ok a v ∧ true = true) ∧ ∀ x, (u.job.str x).stores = []) :=
  ⟨focus_one rfl rfl, by decide, rfl, rfl, by decide, by decide, by decide, by decide,
    areaReady_clean (fun j hj _ => by cases List.mem_singleton.mp hj; rfl) (by exact rfl) _, rfl,
    ends_with (p := fun _ _ => true) (by decide +kernel), fun x => by cases x <;> rfl⟩
/-- Another job's space is asked for: a head has reserved its core. -/
theorem witness_DispatchEvents_wanted : sTaken.spaceWanted sTaken.job = true := by decide +kernel
def sSaved : State := s0.modJob fun j => { j with status := .saved }
theorem witness_DispatchEvents_readmit :
    (sSaved.findJob 1).isSome = true ∧ ((sSaved.mayAdmit 0 (.saved 1)).bind fun h => (h.asks.find? fun a => a.saved == some 1).map fun a =>
      sSaved.fitsAt a { place0 with num := 1 } && decide (1 ∈ sSaved.coresFor 0 h) &&
      ((sSaved.put 0 h.id a { place0 with num := 1 }).placeAll 0 h.id (sSaved.coresFor 0 h) (h.asks.filter fun b => b.saved != some 1)).isSome) = some true ∧
      sSaved.job.faults = [] := by
  refine ⟨?_, ?_, rfl⟩ <;> decide +kernel
theorem witness_DispatchEvents_readmit_space :
    ([{ place0 with num := 1 }].forM fun q => spaceReady (some q.num) q (recWindow sSaved.job.lrec)) sSaved = .ok () sSaved ∧
      (sSaved.mayAdmit 0 (.saved 1)).bind (fun h => (h.asks.find? fun a => a.saved == some 1).bind fun a =>
        ((sSaved.put 0 h.id a { place0 with num := 1 }).placeAll 0 h.id (sSaved.coresFor 0 h)
          (h.asks.filter fun b => b.saved != some 1)).map fun t => decide (t.2 = []) &&
            t.1.jobs.all fun k => k.faults.all fun r => r.held != .objects) = some true := by
  refine ⟨rfl, ?_⟩
  decide +kernel
/-- JobCommandEvents: a job that is not there, with a fault at the system, with none, retiring, saved; a descriptor valid and
not; packets in order, malformed, unreadable, for a closed queue, and with a broken record. -/
def osFault : FaultRec := ⟨1, FaultInfo.of 0x10, 1, true, .stream .C, none⟩
def packet (recpa : Nat) : List Byte := leList 8 7 ++ leList 8 recpa ++ leList 8 0 ++ leList 8 0x700000
theorem witness_JobCommandEvents :
    s0.jbusy 0 = false ∧ ((s0.modJob fun j => { j with asked := true }).modDie 0 fun d => { d with jjob := some 1 }).jbusy 0 = true ∧
      (s0.focus 2).isNone = true ∧ s0.focus 1 = some s0 ∧ (∃ r ∈ (s0.modJob fun j => { j with faults := [osFault] }).job.faults, r.toOs = true) ∧
      (∀ r ∈ s0.job.faults, r.toOs = false) ∧ (joined .resident id).job.isRetiring = true ∧ s0.job.isRetiring = false ∧
      sSaved.job.status = .saved ∧ s0.job.status ≠ .saved ∧ ((sQueue.dieAt 0).lq 0 0).msb = true ∧ ((s0.dieAt 0).lq 0 0).msb = false ∧
      ((0x8030_0001_0000_0000 : Word).extractLsb' 52 4).toNat ≤ 8 ∧ (packet 0x420000).length = 32 ∧
      (0x700000 < 2 ^ 52 ∧ 0x700000 % 64 = 0) ∧ 0x420000 % 256 = 0 ∧ sQueue.portReads 0x420000 = true ∧ sQueue.portReads (2 ^ 43) = false ∧
      s0.queueReason 0 0 true ≠ 0 ∧ sQueue.queueReason 0 0 true = 0 ∧ State.reset.hub.boot.started = false :=
  ⟨by decide, by decide, by decide, focus_one rfl rfl, ⟨osFault, by decide, rfl⟩, by decide, by decide, by decide, rfl, by decide, by decide, by decide, by decide, by decide, by decide,
    by decide, by decide, by decide, by decide, by decide, rfl⟩
/-- A fault at the system whose record can be read; a job whose end meets no stash line; a launch port that meets none. -/
theorem witness_JobCommandEvents_ready :
    let s := s0.modJob fun j => { j with faults := [osFault] };
    s.sound ∧ recordReady osFault.seq s = .ok () s ∧ physRecall 0x420000 256 sQueue = .ok () sQueue ∧
      (s0.ended.forM fun n => backsReady n fun j l => !j.stashProv l) s0 = .ok () s0 :=
  ⟨rfl, recordReady_ok (x := ⟨.lpddr 0 0x411100, 0x411100, 0, false, 0x400033, 1⟩) (ok_is (by decide +kernel)) rfl rfl, rfl, rfl⟩
theorem witness_JobCommandEvents_objects : let s := (s0.modJob fun j => { j with faults := [{ osFault with held := .objects }] })
    ∃ k ∈ s.shareOf s.job (fun _ => true), ∃ r ∈ k.faults, r.held = .objects := ⟨_, List.mem_singleton.mpr rfl, _, List.mem_singleton.mpr rfl, rfl⟩
theorem witness_JobCommandEvents_record : recReason (wordsOf 32 (s0.physLoad 0x420000 256)) false true ≠ 0 ∧
    recReason (wordsOf 32 (sRecord.physLoad 0x420000 256)) false true = 0 := by decide +kernel
/-- BootAndPowerEvents: a part that waits for its image, one that failed long ago, one that has booted; a block gated and not. -/
theorem witness_BootAndPowerEvents :
    let first := State.reset.modHub fun h => { h with boot := { h.boot with stage := 1 } }
    let failed := { (State.reset.modHub fun h => { h with boot := { h.boot with stage := 1, failed := true } }) with cycle := 30_000_000_000 }
    let gated := s0.modDie 0 fun d => { d with gates := [.core 3] }
    (first.hub.boot.stage = 1 ∧ first.hub.boot.failed = false) ∧ (failed.hub.boot.failed = true ∧ failed.hub.boot.failAt + 30_000_000_000 ≤ failed.cycle) ∧
      (3 < 16 ∧ s0.hub.boot.stage = 5) ∧ (∀ j ∈ State.reset.jobs, j.onCore = false) ∧ Block.core 3 ∉ (s0.dieAt 0).gates ∧ s0.blockIdle (.core 3) = true ∧
      s0.blockIdle (.link 2) = true ∧ (default : BootImage).fetched = false ∧ Block.core 3 ∈ (gated.dieAt 0).gates ∧ blockDie (.core 3) = 0 := by
  refine ⟨⟨rfl, rfl⟩, ⟨rfl, by decide⟩, ⟨by decide, rfl⟩, ?_, by decide, by decide, by decide, by decide, by decide, by decide⟩
  intro j h; cases h <;> [rfl; contradiction]
theorem witness_BootAndPowerEvents_flight : ∃ a u, settleFlight s0 = .ok a u ∧ true = true := ends_with (p := fun _ _ => true) (by decide +kernel)
/-- DebugAndRegisterEvents: a reserved bit; a job that is not there, of the secure world, halted and not, waiting and not; a
core with a stop set, reached, frozen; an item of a halted job, and of one that is not. -/
def req0 : DbgReq := ⟨0, 1, 0, 1, false, 0⟩
def sHalt : State := s0.modJob fun j => { j with c := { j.c with halted := true } }
theorem witness_DebugAndRegisterEvents :
    req0.die < 8 ∧ ({ req0 with rsvd := 1 } : DbgReq).rsvd ≠ 0 ∧ req0.rsvd = 0 ∧ (s0.focus 2).isNone = true ∧ s0.focus req0.num.toNat = some s0 ∧
      (s0.modJob fun j => { j with ctx := { j.ctx with sec := true } }).job.ctx.sec = true ∧ s0.job.ctx.sec = false ∧
      req0.smask.getLsbD (streamNum .C) = true ∧ s0.job.isHalted .C = false ∧ sHalt.job.isHalted .C = true ∧
      (s0.modStr fun t => { t with wait := some ⟨.sem 1 6, 4⟩ }).str.wait = some ⟨.sem 1 6, 4⟩ ∧
      (s0.coreAt 0).sec = false ∧ ((s0.modCore 0 fun c => { c with sec := true }).coreAt 0).sec = true ∧ (s0.coreAt 0).frozen = none ∧
      ((s0.modCore 0 fun c => { c with frozen := some [] }).coreAt 0).frozen = some [] ∧
      ((s0.modCore 0 fun c => { c with stopAt := some 5 }).coreAt 0).stopAt = some 5 ∧ 5 ≤ s0.cycle ∧
      ((0x0000_0001_0000_0005 : Word).extractLsb' 32 16).toNat = 1 ∧ (s0.job.poke 0x0000_0001_0000_0005 9).isNone = true ∧
      (sHalt.job.poke 0x0000_0001_0000_0005 9).isSome = true ∧ s0.hub.mapq.length < 256 ∧ 256 ≤ (List.replicate 256 (0 : Word)).length ∧
      ((5 : Word).extractLsb' 0 4).toNat ≤ 8 ∧ ((0x8000_0000_0000_0000 : Word).extractLsb' 61 2).toNat ≠ 3 ∧
      (0x1000_0000_0000_0001 : Word).extractLsb' 16 44 = 0 :=
  ⟨by decide, by decide, rfl, by decide, focus_one rfl rfl, rfl, rfl, by decide, by decide, by decide, rfl, by decide, by decide, by decide, by decide, by decide,
    by decide, by decide, by decide, by decide, by decide, by decide, by decide, by decide, by decide⟩

theorem witness_DebugAndRegisterEvents_more :
    s0.job.waits = [] ∧ (s0.modStr fun t => { t with wait := some ⟨.sem 1 6, 4⟩ }).job.waits = [(.C, ⟨.sem 1 6, 4⟩)] ∧
      s0.hub.rgn = [] ∧ s0.regOpen (.dcyc 0) false = true ∧
      (s0.modHub fun h => { h with rgn := [(0, 0x8000_6000_0000_0000), (1, 0x8000_6000_0001_0000)] }).regOpen (.dcyc 0) false = false ∧
      s0.jbusy 0 = false ∧ s0.regOpen (.jcmd 0) false = true ∧ (∀ n len c, (s0.job.str .C).wait ≠ some ⟨.sem n len, c⟩) ∧
      (∀ j ∈ s0.jobs, j.pushes = []) ∧ s0.noOutside (.debugger 0 0x1000_0001_0000_0000 9) :=
  ⟨by decide, by decide, rfl, by decide, by decide, by decide, by decide, (by intro n len c h; cases h), (by
    intro j h; cases h <;> [rfl; contradiction]), s0_noOutside _⟩
/-- DebugAndRegisterEvents: a command in progress, and none; a semaphore written; a ring of areas and a dump that can be
read. -/
theorem witness_DebugAndRegisterEvents_busy :
    let s := (s0.modJob fun j => { j with c := { j.c with stepping := .one } }).modDie 0 fun d => { d with dstep := some (1, [.C]) }
    s.dbusy 0 = true ∧ s0.dbusy req0.die = false ∧
      physReady 0x100_0000 32768 s0 = .ok () s0 ∧
      dumpReady 0 (s0.modCore 0 fun c => { c with frozen := some [] }) = .ok () (s0.modCore 0 fun c => { c with frozen := some [] }) ∧
      s0.regOpen (.mailbox 3) false = true :=
  ⟨by decide, by decide, physReady_clean (fun j hj _ => by cases List.mem_singleton.mp hj; rfl) (by exact rfl) _ _,
    by
      rw [dumpReady, bind_ok (rfl : (get : M State) _ = .ok _ _)]
      exact physReady_clean (fun j hj _ => by cases List.mem_singleton.mp hj; rfl) (by exact rfl) _ _, by decide⟩
/-- DebugAndRegisterEvents: a write of lanes 0 and 1 of v0, with every stream halted, behind an entry that reads v0. -/
def jPoke : Job :=
  { allStreams.foldl (fun j x => j.setStr x { j.str x with halted := true }) job0 with
    entries := [⟨3, .V, 0, .held .V, { Keys.none with vr := [0] }, false, false⟩] }
theorem witness_DebugAndRegisterEvents_poke : (jPoke.poke 0x4000_0001_0000_0011 9).isSome = true ∧ ∃ k f, jPoke.poke 0x1000_0001_0000_0000 9 = some (k, f) ∧
    ∃ e ∈ jPoke.entries, k.overlap (jPoke.keysLeft e) = true :=
  ⟨by decide, _, _, rfl, _, List.mem_cons_self, by decide⟩

/-! ### The machine as a whole -/

/-- StepRunsDecoded: a stream's issue with an instruction, a word to fill, and a fault; a stale unit; an instruction across two
units; bytes that are no instruction. -/
def sIssue (s : State) : State := { s with agenda := [.issue 1 .C] }
theorem witness_StepRunsDecoded :
    let s := sIssue (sWaits (.sem 1 6) (encode (.add hdr 4 5 7)))
    s.agenda = .issue 1 .C :: [] ∧ (State.focus { s with agenda := [], cycle := s.cycle + 1 } 1).isSome = true ∧ s.job.hits = [] ∧ s.mayIssue = true ∧
      s.fetch = .instr (.add hdr 4 5 7) ∧ s0.fetch = .fill ∧ (s0.modStr fun t => { t with pc := 0x1001 }).fetch = .fault (FaultInfo.of 0x0A) 0 ∧
      sHalt.mayIssue = false ∧ (s.str.pc.toNat % 2 = 0 ∧ (s.str.unitAt 0x1000).isSome = true ∧ s.str.hdrVer = some 0) ∧
      instrLen 0xC0 ≤ 6 ∧ ([0xC0, 0xC1] : List Byte).length < instrLen 0xC0 ∧
      (({ unit0 with wts := 1 } : CodeUnit).first = some 0 ∧ 0 < ({ unit0 with wts := 1 } : CodeUnit).wts) := by
  refine ⟨rfl, ?_, rfl, ?_, ?_, ?_, ?_, ?_, ?_, ?_, ?_, ?_⟩ <;> decide +kernel
theorem witness_DecodeOfEncode : Instr.wf (.ld hdr .b8 false 7 2 ⟨2, 4, 3⟩ 16) = true ∧ Instr.encodable (.ld hdr .b8 false 7 2 ⟨2, 4, 3⟩ 16) = true := by
  decide +kernel
/-- LittleEndian: the bytes of the page table. -/
theorem witness_LittleEndian : Memory.wf tables = true ∧ (0 : Nat) < 8 := by decide
theorem witness_MemOkIsKept : s0.memOk ∧ ∃ t, step { s0 with agenda := [.idle 3] } = .next t := ⟨s0_memOk, _, rfl⟩

end Sys2Proof.Tests
end

/-! ## Little-endian values (R4) -/

namespace Sys2Proof.Machine

/-! ### Numbers and their bytes -/

@[simp] theorem leList_length (n v : Nat) : (leList n v).length = n := by
  induction n generalizing v with
  | zero => rfl
  | succ n ih => simp only [leList, List.length_cons, ih]

/-- One more byte at the lowest address is the number's lowest eight bits; the others move up by eight. -/
theorem testBit_leNum_cons (b : Byte) (bs : List Byte) (j : Nat) :
    (leNum (b :: bs)).testBit j = if j < 8 then b.getLsbD j else (leNum bs).testBit (j - 8) := by
  have hcons : leNum (b :: bs) = 2 ^ 8 * leNum bs + b.toNat := Nat.add_comm ..
  rw [hcons, Nat.testBit_two_pow_mul_add _ b.isLt, BitVec.testBit_toNat]

theorem leNum_lt (bs : List Byte) : leNum bs < 2 ^ (8 * bs.length) := by
  induction bs with
  | nil => exact Nat.one_pos
  | cons b bs ih =>
    have hb : b.toNat < 2 ^ 8 := b.isLt
    rw [List.length_cons, Nat.mul_succ, Nat.pow_add, leNum]
    omega

theorem testBit_leNum {i k : Nat} (bs : List Byte) (hi : i < bs.length) (hk : k < 8) :
    (leNum bs).testBit (8 * i + k) = bs[i].getLsbD k := by
  induction bs generalizing i with
  | nil => exact absurd hi (Nat.not_lt_zero i)
  | cons b bs ih =>
    rw [testBit_leNum_cons]
    cases i with
    | zero => simp [hk]
    | succ i =>
      have hshift : 8 * (i + 1) + k - 8 = 8 * i + k := by omega
      rw [if_neg (by omega), hshift, ih (Nat.lt_of_succ_lt_succ hi), List.getElem_cons_succ]

/-- The number that the n low bytes of v make is v with its higher bits dropped. -/
theorem leNum_leList (n v : Nat) : leNum (leList n v) = v % 2 ^ (8 * n) := by
  induction n generalizing v with
  | zero => exact (Nat.mod_one v).symm
  | succ n ih =>
    calc leNum (leList (n + 1) v)
        = v % 2 ^ 8 + 2 ^ 8 * (v / 2 ^ 8 % 2 ^ (8 * n)) := by rw [leList, leNum, ih, BitVec.toNat_ofNat]; rfl
      _ = v % (2 ^ 8 * 2 ^ (8 * n)) := Nat.mod_mul.symm
      _ = v % 2 ^ (8 * (n + 1)) := by rw [← Nat.pow_add, Nat.mul_succ, Nat.add_comm]

/-- Byte i of the bytes of v holds bits 8 i + 7 to 8 i of v. -/
theorem getLsbD_leList {n i k : Nat} (v : Nat) (hi : i < n) (hk : k < 8) :
    ((leList n v)[i]'(by simpa using hi)).getLsbD k = v.testBit (8 * i + k) := by
  rw [← testBit_leNum _ _ hk, leNum_leList, Nat.testBit_mod_two_pow, decide_eq_true (by omega), Bool.true_and]

/-! ### Bytes in memory -/

@[simp] theorem Memory.readMany_length (m : Memory) (a n : Nat) : (m.readMany a n).length = n := by
  simp [Memory.readMany, Cells.getMany]

theorem Memory.getElem_readMany (m : Memory) (a n i : Nat) (hi : i < (m.readMany a n).length) :
    (m.readMany a n)[i] = m.read (a + i) := by
  simp [Memory.readMany, Cells.getMany, Memory.read]

theorem Memory.read_writeMany_inside {m : Memory} (h : m.wf = true) (a : Nat) {bs : List Byte} {i : Nat} (hi : i < bs.length) :
    (m.writeMany a bs).read (a + i) = bs[i] := by
  have hread := Cells.get_setMany (d := Memory.blank) h a (a + i) bs
  rw [if_pos ⟨by omega, by omega⟩, Nat.add_sub_cancel_left, List.getD_eq_getElem _ _ hi] at hread
  exact hread

/-- Bytes written at a place read back. -/
theorem Memory.readMany_writeMany {m : Memory} (h : m.wf = true) (a : Nat) (bs : List Byte) :
    (m.writeMany a bs).readMany a bs.length = bs := by
  refine List.ext_getElem (Memory.readMany_length ..) fun i hi hbs => ?_
  rw [Memory.getElem_readMany, Memory.read_writeMany_inside h a hbs]

/-! ### Values in memory -/

/-- Of a value read, the byte at a + i is bits 8 i + 7 to 8 i. -/
theorem Memory.testBit_leNum_readMany (m : Memory) (a : Nat) {n i k : Nat} (hi : i < n) (hk : k < 8) :
    (leNum (m.readMany a n)).testBit (8 * i + k) = (m.read (a + i)).getLsbD k := by
  rw [testBit_leNum _ (by simpa using hi) hk, Memory.getElem_readMany]

/-- Of a value stored, the byte at a + i gets bits 8 i + 7 to 8 i. -/
theorem Memory.getLsbD_read_writeMany_leList {m : Memory} (h : m.wf = true) (a v : Nat) {n i k : Nat} (hi : i < n) (hk : k < 8) :
    ((m.writeMany a (leList n v)).read (a + i)).getLsbD k = v.testBit (8 * i + k) := by
  rw [Memory.read_writeMany_inside h a (by simpa using hi), getLsbD_leList v hi hk]

theorem Memory.leNum_readMany_lt (m : Memory) (a n : Nat) : leNum (m.readMany a n) < 2 ^ (8 * n) := by
  simpa using leNum_lt (m.readMany a n)

/-- A value stored in n bytes reads back, up to the bits that n bytes do not hold. -/
theorem Memory.leNum_readMany_writeMany_leList {m : Memory} (h : m.wf = true) (a n v : Nat) :
    leNum ((m.writeMany a (leList n v)).readMany a n) = v % 2 ^ (8 * n) := by
  have hback := Memory.readMany_writeMany h a (leList n v)
  rw [leList_length] at hback
  rw [hback, leNum_leList]

/-- Settles O58: a value's bits are those of its bytes (`testBit_leNum`), and bytes written at a place in a memory in
canonical form read back (`Memory.readMany_writeMany`). -/
theorem littleEndian : Obligations.LittleEndian := by
  intro m a n v h
  refine ⟨fun i hi k hk => ⟨?_, ?_⟩, ?_, ?_⟩
  · exact m.testBit_leNum_readMany a hi hk
  · exact Memory.getLsbD_read_writeMany_leList h a v hi hk
  · exact m.leNum_readMany_lt a n
  · exact Memory.leNum_readMany_writeMany_leList h a n v

end Sys2Proof.Machine

/-! ## Division (R179, R180) -/

namespace Sys2Proof.Machine

/-! ### The values of R180's special cases -/

theorem divValue_zero (u : Bool) (x : Word) : divValue u x 0 = 0xFFFF_FFFF_FFFF_FFFF := rfl

theorem remValue_zero (u : Bool) (x : Word) : remValue u x 0 = x := rfl

theorem divValue_least_minus : divValue false 0x8000_0000_0000_0000 0xFFFF_FFFF_FFFF_FFFF = 0x8000_0000_0000_0000 := by decide

theorem remValue_least_minus : remValue false 0x8000_0000_0000_0000 0xFFFF_FFFF_FFFF_FFFF = 0 := by decide

/-! ### The values in every other case -/

section
variable {x y : Word}

/-- The quotient is rounded toward zero; only the least value by -1 leaves the range of a signed word. -/
theorem toInt_divValue (hy : y ≠ 0) (hxy : ¬(x = 0x8000_0000_0000_0000 ∧ y = 0xFFFF_FFFF_FFFF_FFFF)) :
    (divValue false x y).toInt = x.toInt.tdiv y.toInt := by
  rw [divValue, if_neg hy]
  exact BitVec.toInt_sdiv_of_ne_or_ne x y (not_and_or.mp hxy)

theorem toInt_remValue (hy : y ≠ 0) : (remValue false x y).toInt = x.toInt.tmod y.toInt := by
  rw [remValue, if_neg hy]
  exact BitVec.toInt_srem x y

theorem toNat_divValue (hy : y ≠ 0) : (divValue true x y).toNat = x.toNat / y.toNat := by
  rw [divValue, if_neg hy]
  exact BitVec.toNat_udiv

theorem toNat_remValue (hy : y ≠ 0) : (remValue true x y).toNat = x.toNat % y.toNat := by
  rw [remValue, if_neg hy]
  exact BitVec.toNat_umod

theorem signed_division (hy : y ≠ 0) (hxy : ¬(x = 0x8000_0000_0000_0000 ∧ y = 0xFFFF_FFFF_FFFF_FFFF)) :
    x.toInt = y.toInt * (divValue false x y).toInt + (remValue false x y).toInt := by
  rw [toInt_divValue hy hxy, toInt_remValue hy, Int.mul_tdiv_add_tmod]

theorem natAbs_remValue_lt (hy : y ≠ 0) : (remValue false x y).toInt.natAbs < y.toInt.natAbs := by
  have hpos : 0 < y.toInt.natAbs := Int.natAbs_pos.mpr fun h => hy (BitVec.toInt_inj.mp h)
  rw [toInt_remValue hy, Int.natAbs_tmod]
  exact Nat.mod_lt _ hpos

/-- A signed remainder has the sign of the dividend, or is zero (R180). -/
theorem remValue_zero_or_msb (hy : y ≠ 0) : remValue false x y = 0 ∨ (remValue false x y).msb = x.msb := by
  have hsrem : remValue false x y = x.srem y := if_neg hy
  have hmsb : (x.srem y).msb = (x.msb && decide (x.srem y ≠ 0)) := BitVec.msb_srem
  rw [hsrem]
  refine or_iff_not_imp_left.mpr fun hr => ?_
  rw [hmsb, decide_eq_true hr, Bool.and_true]

theorem unsigned_division (hy : y ≠ 0) : x.toNat = y.toNat * (divValue true x y).toNat + (remValue true x y).toNat := by
  rw [toNat_divValue hy, toNat_remValue hy, Nat.div_add_mod]

theorem toNat_remValue_lt (hy : y ≠ 0) : (remValue true x y).toNat < y.toNat := by
  have hpos : 0 < y.toNat := Nat.pos_of_ne_zero fun h => hy (BitVec.eq_of_toNat_eq h)
  rw [toNat_remValue hy]
  exact Nat.mod_lt _ hpos

end

/-! ### The instructions -/

section
variable {h : Hdr} {s : State}

theorem exec_div_of_runs (r : s.runs h allStreams) (d a b : SReg) (u : Bool) :
    exec (.div h u d a b) s = (s.setS d (divValue u (s.getS a) (s.getS b))).ends h .next := by
  rw [exec_div, execDiv]; exact scalarTo_of_runs r

theorem exec_rem_of_runs (r : s.runs h allStreams) (d a b : SReg) (u : Bool) :
    exec (.rem h u d a b) s = (s.setS d (remValue u (s.getS a) (s.getS b))).ends h .next := by
  rw [exec_rem, execRem]; exact scalarTo_of_runs r

theorem exec_divImm_of_runs (r : s.runs h allStreams) (d a : SReg) (imm : Imm) (u : Bool) :
    exec (.divImm h u d a imm) s = (s.setS d (divValue u (s.getS a) (imm.signExtend 64))).ends h .next := by
  rw [exec_divImm, execDivImm]; exact scalarTo_of_runs r

theorem exec_remImm_of_runs (r : s.runs h allStreams) (d a : SReg) (imm : Imm) (u : Bool) :
    exec (.remImm h u d a imm) s = (s.setS d (remValue u (s.getS a) (imm.signExtend 64))).ends h .next := by
  rw [exec_remImm, execRemImm]; exact scalarTo_of_runs r

end

/-! ### The register and the immediate form at once

`div` and `rem` are what a form of DIV and of REM answers, x and y its two words. -/

section
variable {h : Hdr} {d : SReg} {s : State} {x y : Word} {div rem : Bool → Host.Outcome State Fault Refusal}
  (hdiv : ∀ u, div u = (s.setS d (divValue u x y)).ends h .next)
  (hrem : ∀ u, rem u = (s.setS d (remValue u x y)).ends h .next)

include hdiv hrem

theorem divide_special :
    (y = 0 → ∀ u, div u = (s.setS d 0xFFFF_FFFF_FFFF_FFFF).ends h .next ∧ rem u = (s.setS d x).ends h .next) ∧
    (x = 0x8000_0000_0000_0000 → y = 0xFFFF_FFFF_FFFF_FFFF →
      div false = (s.setS d 0x8000_0000_0000_0000).ends h .next ∧ rem false = (s.setS d 0).ends h .next) ∧
    (y ≠ 0 → ¬(x = 0x8000_0000_0000_0000 ∧ y = 0xFFFF_FFFF_FFFF_FFFF) →
      ∃ r : Word, rem false = (s.setS d r).ends h .next ∧ (r = 0 ∨ r.msb = x.msb)) := by
  refine ⟨fun hy u => ?_, fun hx hy => ?_, fun hy _ => ?_⟩
  · rw [hdiv, hrem, hy, divValue_zero, remValue_zero]
    exact ⟨rfl, rfl⟩
  · rw [hdiv, hrem, hx, hy, divValue_least_minus, remValue_least_minus]
    exact ⟨rfl, rfl⟩
  · exact ⟨_, hrem false, remValue_zero_or_msb hy⟩

theorem divide_ordinary (hy : y ≠ 0) :
    (¬(x = 0x8000_0000_0000_0000 ∧ y = 0xFFFF_FFFF_FFFF_FFFF) → ∃ q r : Word,
      (x.toInt = y.toInt * q.toInt + r.toInt ∧ r.toInt.natAbs < y.toInt.natAbs ∧ (r = 0 ∨ r.msb = x.msb)) ∧
      div false = (s.setS d q).ends h .next ∧ rem false = (s.setS d r).ends h .next) ∧
    (∃ q r : Word, (x.toNat = y.toNat * q.toNat + r.toNat ∧ r.toNat < y.toNat) ∧
      div true = (s.setS d q).ends h .next ∧ rem true = (s.setS d r).ends h .next) := by
  refine ⟨fun hxy => ?_, ?_⟩
  · exact ⟨_, _, ⟨signed_division hy hxy, natAbs_remValue_lt hy, remValue_zero_or_msb hy⟩, hdiv false, hrem false⟩
  · exact ⟨_, _, ⟨unsigned_division hy, toNat_remValue_lt hy⟩, hdiv true, hrem true⟩

end

/-- Settles O2: the register and the immediate form write `divValue` and `remValue` of their two words, and these are the
results of R180 (`divide_special`) and those of division rounded toward zero (`divide_ordinary`). -/
theorem divideResults : Obligations.DivideResults := by
  refine ⟨fun h d a b imm s r => ⟨?_, ?_⟩, fun h d a b imm s r => ⟨?_, ?_⟩⟩
  · exact divide_special (exec_div_of_runs r d a b) (exec_rem_of_runs r d a b)
  · exact divide_special (exec_divImm_of_runs r d a imm) (exec_remImm_of_runs r d a imm)
  · exact divide_ordinary (exec_div_of_runs r d a b) (exec_rem_of_runs r d a b)
  · exact divide_ordinary (exec_divImm_of_runs r d a imm) (exec_remImm_of_runs r d a imm)

end Sys2Proof.Machine
